-- ==== Sys2Proof/Word.lean ====
section
/-! DEFINITION. Bytes, register words and the two bit orders (spec/00_scope.md R9, spec/40_bitstream.md R90). -/

namespace Sys2Proof

/-- The only addressable unit, `BYTE_BITS` = 8 (R5, R51). -/
abbrev Byte := BitVec 8

/-- A register of `LEN_BITS` = 32 bits (R5). -/
abbrev Reg32 := BitVec 32

/-- An LZW code of `CODE_WIDTH` = 12 bits (R5, R110). -/
abbrev Code := BitVec 12

/-- A node id of the Huffman arena, 9 bits (R36). -/
abbrev NodeId := BitVec 9

/-- The two orders of a bit stream, fixed by the command (R90). -/
inductive BitOrder where
  | msb
  | lsb
deriving DecidableEq, Repr, Inhabited

end Sys2Proof
end

