-- ==== Sys2Proof/Config.lean ====
section
/-! DEFINITION. The fixed parameters of spec/00_scope.md R5, each named once, and the values the spec leaves open
as constants without a body, of which nothing can be proved. The widths of `Word.lean` and of State's fields are these
parameters too, and a meaning that compares a code with 256 or 4096 writes the literal of that width. -/

namespace Sys2Proof.Config

/-- `ALPHABET`: byte values 0 to 255 (R5). -/
abbrev alphabet : Nat := 256

/-- `CODE_WIDTH`: bits of an LZW code (R5). -/
abbrev codeWidth : Nat := 12

/-- `DICT_SIZE` = 2^`CODE_WIDTH`: capacity of the LZW dictionary (R5). -/
abbrev dictSize : Nat := 4096

/-- `FIRST_FREE`: the first LZW code given to a string of two or more bytes (R5). -/
abbrev firstFree : Nat := 256

/-- The entries the two dictionary arrays hold, `DICT_SIZE` - `FIRST_FREE` (R32). -/
abbrev dictEntries : Nat := 3840

/-- `LEN_FIELD_BITS`: width of the Huffman length field (R5). -/
abbrev lenFieldBits : Nat := 32

/-- `SYM_BITS`: width of the symbol of a serialised leaf (R5). -/
abbrev symBits : Nat := 8

/-- `HUF_MAX_NODES` = 2·`ALPHABET` − 1: capacity of the node arena (R5, R36). -/
abbrev hufMaxNodes : Nat := 511

/-- `IN_CAP` and `OUT_CAP` of `State.reset`. DESIGN CHOICE (log 7): R6 leaves both open; 65536 is the value
spec/95_test_vectors.md uses where a vector names none. They are fields of State, so statements hold for all values. -/
def defaultCap : Reg32 := 65536

/-- Free value (U5, R26, R41): the byte `IN_BUF` holds at an address after the `n`-th hardware reset while the host
has written nothing there. First argument: the number of the reset; second: the address (log 4). DESIGN CHOICE (log 27):
one constant serves every instance, so the unwritten bytes of two instances after equally many resets agree. -/
opaque inBufPowerUp : Nat → Nat → Byte

/-- Free value (U3, U4, U5, U7; R27): what the `n`-th host read of an unspecified byte returns (log 5, log 6).
DESIGN CHOICE (log 27): one constant serves every instance, so the `n`-th such reads of two instances agree. -/
opaque unspecifiedByte : Nat → Byte

/-- Free value (U7, R25): what a host read of `OUT_LEN` while `BUSY` returns, for the `n`-th unspecified read (log 6).
DESIGN CHOICE (log 27): one constant serves every instance. -/
opaque unspecifiedLen : Nat → Reg32

end Sys2Proof.Config
end

