-- ==== Sys2Proof/Syntax.lean ====
section
/-! DEFINITION. The instructions, one constructor per row of spec/opcode_table.json, the fields of a command word
(spec/30_encoding.md R70), and the accesses the host can make (spec/10_state.md R20 to R27). -/

namespace Sys2Proof

/-- The twelve named command encodings (R74). No command has an operand field (R77). -/
inductive Instr where
  /-- `RLE.C` (R194): reserved. -/
  | rleC
  /-- `LZW.C` (R116). -/
  | lzwC
  /-- `LZWP.C` (R190). -/
  | lzwpC
  /-- `HUFP.C` (R192). -/
  | hufpC
  /-- `PRED.A` (R140). -/
  | predA
  /-- `HUF.E` (R161). -/
  | hufE
  /-- `RLE.D` (R194): reserved. -/
  | rleD
  /-- `LZW.D` (R119). -/
  | lzwD
  /-- `LZWP.D` (R191). -/
  | lzwpD
  /-- `HUFP.D` (R193). -/
  | hufpD
  /-- `PRED.U` (R141). -/
  | predU
  /-- `HUF.D` (R162). -/
  | hufD
deriving DecidableEq, Repr, Inhabited

/-- Field `DIR` of a command word (R71). -/
inductive Direction where
  | forward
  | inverse
deriving DecidableEq, Repr

/-- The values 0 to 5 of field `KIND` (R72). -/
inductive Kind where
  | rle
  | lzw
  | lzwPredictor
  | huffmanPredictor
  | predictor
  | huffman
deriving DecidableEq, Repr

/-- The three fields of the format `CMD8` (R70), as raw bits: any 8-bit word has them. -/
structure CommandWord where
  /-- `RSV`, bits [7:5]. -/
  rsv : BitVec 3
  /-- `DIR`, bit [4]. -/
  dir : BitVec 1
  /-- `KIND`, bits [3:0]. -/
  kind : BitVec 4
deriving DecidableEq, Repr

/-- The five host-visible registers (R20). -/
inductive HostReg where
  | cmd
  | status
  | err
  | inLen
  | outLen
deriving DecidableEq, Repr

/-- What can happen to one instance from outside: a host write or read of a register (whole, at its stated width,
R20), a host write or read of a byte of `IN_BUF` (R26), a host read of a byte of `OUT_BUF` (R27), or the hardware reset
(R240). DESIGN CHOICE (log 25): R27 makes `OUT_BUF` host read-only and, unlike R22, R23 and R25 for the registers, does
not say that a host write of it is ignored; the model has no such access. -/
inductive HostAccess where
  | writeCmd (w : BitVec 8)
  | writeStatus (v : BitVec 8)
  | writeErr (v : BitVec 8)
  | writeInLen (n : Reg32)
  | writeOutLen (n : Reg32)
  | readReg (r : HostReg)
  | writeIn (a : Nat) (b : Byte)
  | readIn (a : Nat)
  | readOut (a : Nat)
  | hardwareReset
deriving DecidableEq, Repr

end Sys2Proof
end

