-- ==== Sys2Proof/WellFormed.lean ====
section
/-! DEFINITION. Which command words, capacities and host accesses are well formed. Every constructor of `Instr` is: an
instruction has no operand that could be out of range (R77), so the checks are on the word it is written as. -/

namespace Sys2Proof

/-- `RSV` must be written as `000` (R70). -/
def CommandWord.rsvClear (f : CommandWord) : Bool := f.rsv == 0

/-- `KIND` names one of the six kinds; 6 to 15 are reserved (R72). -/
def CommandWord.kindKnown (f : CommandWord) : Bool := f.kind.ult 6

/-- The word is one of the twelve named encodings: neither check of R75 makes it illegal. -/
def CommandWord.wellFormed (f : CommandWord) : Bool := f.rsvClear && f.kindKnown

/-- 1 ≤ capacity ≤ 2^32 − 1 (R6); the upper bound is the width's. -/
def capWellFormed (cap : Reg32) : Bool := cap != 0

/-- A host access names an address that exists (R26, R27); `inCap` and `outCap` are the capacities. -/
def HostAccess.wellFormed (inCap outCap : Reg32) : HostAccess → Bool
  | .writeIn a _ => decide (a < inCap.toNat)
  | .readIn a => decide (a < inCap.toNat)
  | .readOut a => decide (a < outCap.toNat)
  | .writeCmd _ | .writeStatus _ | .writeErr _ | .writeInLen _ | .writeOutLen _ | .readReg _ | .hardwareReset => true

end Sys2Proof
end

