-- ==== Sys2Proof/Decode.lean ====
section
/-! DEFINITION. The decoder (spec/30_encoding.md R70 to R76), total on every 8-bit word and rejecting by name, and
after it the encoder, written from the table of R74. -/

namespace Sys2Proof

/-- The two classes of illegal command words of R75. The reserved words 0x00 and 0x10 are no rejection: they are rows
of the opcode table, `rleC` and `rleD`. -/
inductive DecodeReject where
  /-- `RSV` ≠ 0. -/
  | reservedBits (rsv : BitVec 3)
  /-- `RSV` = 0 and `KIND` in 6..15. -/
  | illegalKind (kind : BitVec 4)
deriving DecidableEq, Repr

/-- The fields of a command word (R70). -/
def fieldsOf (w : BitVec 8) : CommandWord :=
  { rsv := w.extractLsb' 5 3, dir := w.extractLsb' 4 1, kind := w.extractLsb' 0 4 }

/-- The word with given fields (R70). -/
def wordOf (f : CommandWord) : BitVec 8 := (f.rsv ++ f.dir) ++ f.kind

/-- Field `DIR` (R71): 0 forward, 1 inverse. -/
def directionOf (d : BitVec 1) : Direction := if d = 0 then .forward else .inverse

/-- Field `KIND` (R72); `none` for the reserved values 6 to 15. -/
def kindOf (k : BitVec 4) : Option Kind :=
  if k = 0 then some .rle
  else if k = 1 then some .lzw
  else if k = 2 then some .lzwPredictor
  else if k = 3 then some .huffmanPredictor
  else if k = 4 then some .predictor
  else if k = 5 then some .huffman
  else none

/-- The command that `DIR` and `KIND` select (R74). -/
def instrOf : Kind → Direction → Instr
  | .rle, .forward => .rleC
  | .rle, .inverse => .rleD
  | .lzw, .forward => .lzwC
  | .lzw, .inverse => .lzwD
  | .lzwPredictor, .forward => .lzwpC
  | .lzwPredictor, .inverse => .lzwpD
  | .huffmanPredictor, .forward => .hufpC
  | .huffmanPredictor, .inverse => .hufpD
  | .predictor, .forward => .predA
  | .predictor, .inverse => .predU
  | .huffman, .forward => .hufE
  | .huffman, .inverse => .hufD

/-- Decode a command word. It depends on nothing but the word (R76). -/
def decode (w : BitVec 8) : Except DecodeReject Instr :=
  let f := fieldsOf w
  if f.rsv ≠ 0 then .error (.reservedBits f.rsv)
  else
    match kindOf f.kind with
    | none => .error (.illegalKind f.kind)
    | some k => .ok (instrOf k (directionOf f.dir))

/-- `DIR` of each command (R74). -/
def Instr.direction : Instr → Direction
  | .rleC | .lzwC | .lzwpC | .hufpC | .predA | .hufE => .forward
  | .rleD | .lzwD | .lzwpD | .hufpD | .predU | .hufD => .inverse

/-- `KIND` of each command (R74). -/
def Instr.kind : Instr → Kind
  | .rleC | .rleD => .rle
  | .lzwC | .lzwD => .lzw
  | .lzwpC | .lzwpD => .lzwPredictor
  | .hufpC | .hufpD => .huffmanPredictor
  | .predA | .predU => .predictor
  | .hufE | .hufD => .huffman

/-- The bit of `DIR` (R71). -/
def Direction.bit : Direction → BitVec 1
  | .forward => 0
  | .inverse => 1

/-- The value of `KIND` (R72). -/
def Kind.value : Kind → BitVec 4
  | .rle => 0
  | .lzw => 1
  | .lzwPredictor => 2
  | .huffmanPredictor => 3
  | .predictor => 4
  | .huffman => 5

/-- The fields an instruction is written with: `RSV` = 0 (R74). -/
def Instr.fields (i : Instr) : CommandWord := { rsv := 0, dir := i.direction.bit, kind := i.kind.value }

/-- The word of an instruction (R74). -/
def encode (i : Instr) : BitVec 8 := wordOf i.fields

/-- A word is *reserved* (R75): `RSV` = 0 and `KIND` = 0. -/
def reservedWord (w : BitVec 8) : Bool := (fieldsOf w).rsv == 0 && (fieldsOf w).kind == 0

/-- A word is *illegal* (R75): `RSV` ≠ 0 or `KIND` in 6..15. -/
def illegalWord (w : BitVec 8) : Bool := !(fieldsOf w).wellFormed

/-- The instruction the decoder reads from a table row's bits. A command is one 8-bit word (R70, R76), so a word of
another length is none. -/
def decodeTableWord (nbits w : Nat) : Option Instr :=
  if nbits = 8 then (decode (BitVec.ofNat 8 w)).toOption else none

end Sys2Proof
end

