-- ==== Sys2Proof/Machine/State.lean ====
section
/-! DEFINITION. Everything the spec gives one engine instance (spec/10_state.md), as plain data, and its value after
hardware reset (spec/70_reset_and_hazards.md R240). -/

namespace Sys2Proof.Machine

/-- A byte buffer: the (address, byte) pairs of the bytes that hold a specified value, addresses strictly rising. An
address that is not listed holds no specified value (R26, R27, R41). -/
abbrev Memory := List Host.Cell

/-- `STATUS.STATE` (R22). -/
inductive RunState where
  /-- No command since hardware reset. -/
  | idle
  /-- A command has started and not completed. -/
  | busy
  /-- The last command completed without error. -/
  | done
  /-- The last command ended with an error. -/
  | error
deriving DecidableEq, Repr

/-- The four errors a command can raise (R201). -/
inductive ErrorKind where
  | emptyInput
  | corruptStream
  | allocationFailure
  | illegalCommand
deriving DecidableEq, Repr

/-- One node of the Huffman arena: `N_LEAF`, `N_SYM`, `N_LEFT`, `N_RIGHT`, `N_FREQ`, `N_ALIVE` (R36). -/
structure Node where
  leaf : Bool
  sym : Byte
  left : NodeId
  right : NodeId
  freq : Reg32
  alive : Bool
deriving DecidableEq, Repr

/-- What a node record holds at reset: DESIGN CHOICE zero, the spec gives no value (U6; log 8). -/
def Node.blank : Node := { leaf := false, sym := 0, left := 0, right := 0, freq := 0, alive := false }

/-- What the engine itself writes: the output side (R25, R27) and the codec state of R29 to R37. -/
structure Engine where
  /-- `OUT_LEN` (R25). -/
  outLen : Reg32
  /-- `OUT_BUF` (R27): the bytes that hold a specified value. -/
  outBuf : Memory
  /-- `IN_POS` (R29). -/
  inPos : Reg32
  /-- `R_POS` (R29, R31): "a model uses a natural number". -/
  rPos : Nat
  /-- `W_ACC` (R30). -/
  wAcc : Byte
  /-- `W_N` (R30). -/
  wN : BitVec 3
  /-- `W_ORDER` (R30). -/
  wOrder : BitOrder
  /-- `R_ORDER` (R31). -/
  rOrder : BitOrder
  /-- `NEXT_FREE` (R32). -/
  nextFree : BitVec 13
  /-- `CODE` (R32). -/
  code : Code
  /-- `PREV` (R32). -/
  prev : Code
  /-- `DICT_PREFIX[256..4095]` (R32): entry `j` at index `j` − 256. -/
  dictPrefix : Vector Code Config.dictEntries
  /-- `DICT_SUFFIX[256..4095]` (R32): entry `j` at index `j` − 256. -/
  dictSuffix : Vector Byte Config.dictEntries
  /-- `P_PREV` (R34). -/
  pPrev : Byte
  /-- `HIST[0..255]` (R35). -/
  hist : Vector Reg32 Config.alphabet
  /-- `NNODES` (R36). -/
  nNodes : BitVec 10
  /-- The node arrays `N_x[0..510]` (R36). -/
  nodes : Vector Node Config.hufMaxNodes
  /-- `ROOT` (R36). -/
  root : NodeId
  /-- `CUR` (R37). -/
  cur : NodeId
  /-- `REMAINING` (R37). -/
  remaining : Reg32
deriving DecidableEq, Repr

/-- The open parameters `IN_CAP` and `OUT_CAP` of an instance (R6); no step changes them (log 7). -/
structure Caps where
  inCap : Reg32
  outCap : Reg32
deriving DecidableEq, Repr

/-- One engine instance with its host port. -/
structure State where
  /-- `CMD` (R21). -/
  cmd : BitVec 8
  /-- `STATUS.STATE` (R22). -/
  runState : RunState
  /-- `ERR` (R23). -/
  err : BitVec 8
  /-- `IN_LEN` (R24). -/
  inLen : Reg32
  /-- `IN_BUF` (R26): the bytes the host has written since the last hardware reset. -/
  inBuf : Memory
  /-- `OUT_LEN`, `OUT_BUF` and the codec state. -/
  eng : Engine
  /-- `IN_CAP`, `OUT_CAP` (R6). -/
  caps : Caps
  /-- The MODEL's own: host accesses not yet performed, the next one first (log 1, log 9). -/
  pending : List HostAccess
  /-- The MODEL's own: what the last host read returned, zero-extended (log 9). -/
  rdata : Reg32
  /-- The MODEL's own: how many hardware resets there were; argument of `Config.inBufPowerUp` (log 4, log 9). -/
  resets : Nat
  /-- The MODEL's own: how many unspecified values host reads have returned (log 5, log 9). -/
  freeReads : Nat
deriving DecidableEq, Repr

/-- Why the machine stops. No command raises any of these: a command's errors are completions (R210). -/
inductive Fault where
  /-- Raised by a host read or write of `IN_BUF` at an address ≥ `IN_CAP`: R26 indexes the buffer 0 to `IN_CAP` − 1,
  so the address does not exist. Safe: the model stops where the spec gives no access (log 10). -/
  | inBufAddress (a : Nat)
  /-- Raised by a host read of `OUT_BUF` at an address ≥ `OUT_CAP` (R27). Safe, as above (log 10). -/
  | outBufAddress (a : Nat)
deriving DecidableEq, Repr

/-- What the model does not run. -/
inductive Refusal where
  /-- An instruction without a meaning yet, raised by `exec` only. Safe. No arm of `exec` uses it. -/
  | notModelled (mnemonic : String)
  /-- Raised by a host write of `IN_BUF` while `STATE` = `BUSY`: R244 gives it an unspecified effect on the running
  command and U8 has an atomic model refuse it (log 3). Safe. -/
  | inBufWriteWhileBusy (a : Nat)
deriving DecidableEq, Repr

/-- The engine after hardware reset (R240, R41). The elements R41 calls unspecified hold the DESIGN CHOICE of log 8. -/
def Engine.reset : Engine where
  outLen := 0
  outBuf := []
  inPos := 0
  rPos := 0
  wAcc := 0
  wN := 0
  wOrder := .msb
  rOrder := .msb
  nextFree := 256
  code := 0
  prev := 0
  dictPrefix := Vector.replicate Config.dictEntries 0
  dictSuffix := Vector.replicate Config.dictEntries 0
  pPrev := 0
  hist := Vector.replicate Config.alphabet 0
  nNodes := 0
  nodes := Vector.replicate Config.hufMaxNodes Node.blank
  root := 0
  cur := 0
  remaining := 0

/-- The machine right after hardware reset (R240): no command has started although `CMD` = `0x00`. -/
def State.reset : State where
  cmd := 0x00
  runState := .idle
  err := 0
  inLen := 0
  inBuf := []
  eng := Engine.reset
  caps := { inCap := Config.defaultCap, outCap := Config.defaultCap }
  pending := []
  rdata := 0
  resets := 0
  freeReads := 0

end Sys2Proof.Machine
end

