-- ==== Sys2Proof/Machine/Ops.lean ====
section
/-! DEFINITION. The named operations over buffers and registers: one byte of a buffer, the access primitives
(spec/20_memory.md R54), command start (spec/70_reset_and_hazards.md R241), and the one shared way an error is taken
(spec/60_exceptions.md R210). There is no return from an error (R212): the next command start or reset leaves it. -/

namespace Sys2Proof.Machine

/-- The byte a buffer lists at an address; `none` where it holds no specified value. -/
def Memory.read : Memory → Nat → Option Byte
  | [], _ => none
  | (k, v) :: m, a => if a = k then some v else Memory.read m a

/-- Write one byte, keeping the addresses strictly rising. -/
def Memory.write : Memory → Nat → Byte → Memory
  | [], a, b => [(a, b)]
  | (k, v) :: m, a, b =>
    if a < k then (a, b) :: (k, v) :: m
    else if a = k then (a, b) :: m
    else (k, v) :: Memory.write m a b

/-- Write bytes at consecutive addresses from `a`. -/
def Memory.writeBytes (m : Memory) (a : Nat) : List Byte → Memory
  | [] => m
  | b :: bs => Memory.writeBytes (m.write a b) (a + 1) bs

/-- The canonical form: addresses strictly rising. An unlisted address holds no value, so no entry can equal what an
unlisted address reads as (log 23). -/
abbrev Memory.wf (m : Memory) : Prop := (m.map Prod.fst).Pairwise (· < ·)

/-- Element `i` of a state array, `d` where the array has no such element (no rule reads there; log 13). -/
def arrayGet {α : Type} {n : Nat} (v : Vector α n) (i : Nat) (d : α) : α := if h : i < n then v[i] else d

/-- Write element `i` of a state array (nothing where there is no such element; log 13). -/
def arraySet {α : Type} {n : Nat} (v : Vector α n) (i : Nat) (x : α) : Vector α n :=
  if h : i < n then v.set i x else v

/-- The result of a step of the engine: a value, or the error raised and the engine as it was then (R10 `raise`). -/
abbrev Eff (α : Type) := Except (ErrorKind × Engine) α

/-- `raise E` inside a command (R10). -/
def raise {α : Type} (k : ErrorKind) (e : Engine) : Eff α := .error (k, e)

/-- The value an error leaves in `ERR` (R23, R201). -/
def ErrorKind.code : ErrorKind → BitVec 8
  | .emptyInput => 1
  | .corruptStream => 2
  | .allocationFailure => 3
  | .illegalCommand => 4

/-- `OutByte(b)` (R10, R54): append one byte to `OUT_BUF`, or `AllocationFailure` when `OUT_LEN` = `OUT_CAP`. -/
def outByte (cap : Reg32) (b : Byte) (e : Engine) : Eff Engine :=
  if e.outLen = cap then raise .allocationFailure e
  else .ok { e with outBuf := e.outBuf.write e.outLen.toNat b, outLen := e.outLen + 1 }

/-- `for each byte b of S in order` (R10), with `emit` in the place of `OutByte` (R191, R193). -/
def emitAll (emit : Byte → Engine → Eff Engine) : List Byte → Engine → Eff Engine
  | [], e => .ok e
  | b :: bs, e => do
    let e1 ← emit b e
    emitAll emit bs e1

/-- One input byte is consumed: `IN_POS` advances by 1 (R29; log 11). -/
def consume (e : Engine) : Engine := { e with inPos := e.inPos + 1 }

/-- The codec state's part of command start (R241). The dictionary arrays, the node arena and `ROOT` are unchanged and
`OUT_BUF` holds no specified byte any more (R41). DESIGN CHOICE (log 26): R41 calls `CODE`, `PREV`, `CUR` and `REMAINING`
unspecified at command start and has the two orders set by the command; the model keeps all six until the command's
pseudocode writes them. -/
def Engine.start (e : Engine) : Engine :=
  { e with
    outLen := 0
    outBuf := []
    inPos := 0
    rPos := 0
    wAcc := 0
    wN := 0
    nextFree := 256
    pPrev := 0
    hist := Vector.replicate Config.alphabet 0
    nNodes := 0 }

/-- Steps (1) and (2) of R73: `CMD <- w` and the command-start initialisation of R241. -/
def commandStart (w : BitVec 8) (s : State) : State :=
  { s with cmd := w, runState := .busy, err := 0, eng := s.eng.start }

/-- Error completion (R210), the one way an error is taken: `ERR` gets the code, `OUT_LEN` 0, `STATE` becomes `ERROR`,
and no byte of `OUT_BUF` is specified. Everything else, `NEXT_FREE` among it, keeps its value. -/
def takeError (k : ErrorKind) (s : State) : State :=
  { s with err := k.code, runState := .error, eng := { s.eng with outLen := 0, outBuf := [] } }

/-- Completion of a command whose pseudocode has run (R210): normal, or error at the `raise`. -/
def complete (s : State) : Eff Engine → State
  | .ok e => { s with eng := e, runState := .done }
  | .error (k, e) => takeError k { s with eng := e }

/-- A `CMD` write of an illegal or reserved word (R73 steps 1 to 3, R75, R205); ignored while `BUSY` (R21). -/
def rejectCommand (w : BitVec 8) (s : State) : Host.Outcome State Fault Refusal :=
  if s.runState = .busy then .next s
  else .next (takeError .illegalCommand (commandStart w s))

end Sys2Proof.Machine
end

