-- ==== Sys2Proof/Machine/Flags.lean ====
section
/-! DEFINITION. The conditions of spec/10_state.md R38, neither of which is stored, and the `STATUS` register (R22). -/

namespace Sys2Proof.Machine

/-- `DICT_FULL` (R38): `NEXT_FREE` = 4096. -/
def dictFull (e : Engine) : Bool := e.nextFree == 4096

/-- `EOS` (R38): `R_POS` = 8·`IN_LEN`, for the block `x` a command reads. -/
def endOfStream (x : List Byte) (e : Engine) : Bool := e.rPos == 8 * x.length

/-- The value of field `STATE` (R22). -/
def RunState.code : RunState → BitVec 2
  | .idle => 0
  | .busy => 1
  | .done => 2
  | .error => 3

/-- `STATUS` as the host reads it (R22): bits [7:3] zero, bit [2] `DICT_FULL`, bits [1:0] `STATE`. -/
def statusReg (s : State) : BitVec 8 := (0#5 ++ BitVec.ofBool (dictFull s.eng)) ++ s.runState.code

end Sys2Proof.Machine
end

