-- ==== Sys2Proof/Machine/BitStream.lean ====
section
/-! DEFINITION. The BitStream micro-operations of spec/40_bitstream.md (R90 to R99). -/

namespace Sys2Proof.Machine

/-- The write side of `BS.INIT(order)` (R91). -/
def bsInitWrite (o : BitOrder) (e : Engine) : Engine := { e with wOrder := o, wAcc := 0, wN := 0 }

/-- The read side of `BS.INIT(order)` (R91). -/
def bsInitRead (o : BitOrder) (e : Engine) : Engine := { e with rOrder := o, rPos := 0 }

/-- The bit of a byte that stream position `n` (counted within the byte) has in an order (R92, R95, R97). -/
def bitIndex : BitOrder → Nat → Nat
  | .msb, n => 7 - n
  | .lsb, n => n

/-- `v[i] <- b`. -/
def setBit (v : Byte) (i : Nat) (b : Bool) : Byte := if b then v ||| (1#8 <<< i) else v &&& ~~~(1#8 <<< i)

/-- `BS.WBIT(b)` (R92). `W_N` is a 3-bit register, so the eighth bit is the one placed at `W_N` = 7; if the byte cannot
be written, `W_ACC` and `W_N` keep the values before the bit (log 12). -/
def wbit (cap : Reg32) (b : Bool) (e : Engine) : Eff Engine :=
  let acc := setBit e.wAcc (bitIndex e.wOrder e.wN.toNat) b
  if e.wN = 7 then do
    let e1 ← outByte cap acc e
    .ok { e1 with wAcc := 0, wN := 0 }
  else .ok { e with wAcc := acc, wN := e.wN + 1 }

/-- Append bits in the order of the list. -/
def writeBitList (cap : Reg32) : List Bool → Engine → Eff Engine
  | [], e => .ok e
  | b :: bs, e => do
    let e1 ← wbit cap b e
    writeBitList cap bs e1

/-- The bits of a `w`-bit value in stream order (R93): most significant first in `MSB` order, least in `LSB` order. -/
def bitsOf {w : Nat} (o : BitOrder) (v : BitVec w) : List Bool :=
  match o with
  | .msb => ((List.range w).map v.getLsbD).reverse
  | .lsb => (List.range w).map v.getLsbD

/-- The number that bits in stream order stand for (R96). -/
def bitsValue : BitOrder → List Bool → Nat
  | .msb, bs => bs.foldl (fun v b => 2 * v + b.toNat) 0
  | .lsb, bs => bs.foldr (fun b v => b.toNat + 2 * v) 0

/-- `BS.WRITE(v, w)` (R93). -/
def bsWrite (cap : Reg32) {w : Nat} (v : BitVec w) (e : Engine) : Eff Engine := writeBitList cap (bitsOf e.wOrder v) e

/-- `BS.FLUSH()` (R94). -/
def bsFlush (cap : Reg32) (e : Engine) : Eff Engine :=
  if 0 < e.wN then do
    let e1 ← outByte cap e.wAcc e
    .ok { e1 with wAcc := 0, wN := 0 }
  else .ok e

/-- `BS.RBIT()` on the block `x` (R95); `none` is `EndOfStream`, which does not advance `R_POS`. -/
def rbit (x : List Byte) (e : Engine) : Option (Bool × Engine) :=
  if endOfStream x e then none
  else
    let byte := x.getD (e.rPos / 8) 0
    some (byte.getLsbD (bitIndex e.rOrder (e.rPos % 8)), { e with rPos := e.rPos + 1 })

/-- Read `n` bits in stream order, `CorruptStream` when fewer are available (R96, R98). -/
def readBitList (x : List Byte) : Nat → Engine → Eff (List Bool × Engine)
  | 0, e => .ok ([], e)
  | n + 1, e =>
    match rbit x e with
    | none => raise .corruptStream e
    | some (b, e1) => do
      let (bs, e2) ← readBitList x n e1
      .ok (b :: bs, e2)

/-- `BS.READ(w)` (R96). -/
def bsRead (x : List Byte) (w : Nat) (e : Engine) : Eff (BitVec w × Engine) := do
  let (bs, e1) ← readBitList x w e
  .ok (BitVec.ofNat w (bitsValue e.rOrder bs), e1)

end Sys2Proof.Machine
end

