-- ==== Sys2Proof/Machine/Operands.lean ====
section
/-! DEFINITION. The implicit operands of every command (spec/30_encoding.md R77): the block `IN_BUF[0..IN_LEN)` and the
result `OUT_BUF[0..OUT_LEN)`; and the frame every command runs in (R73). -/

namespace Sys2Proof.Machine

/-- `InByte(p)` (R10, R54): `IN_BUF[p]`. A byte the host has not written since reset is the free value of log 4. -/
def inByte (s : State) (p : Nat) : Byte := (s.inBuf.read p).getD (Config.inBufPowerUp s.resets p)

/-- The block a command works on, `IN_BUF[0..IN_LEN)` (R26). -/
def inBlock (s : State) : List Byte := (List.range s.inLen.toNat).map (inByte s)

/-- The result, `OUT_BUF[0..OUT_LEN)` (R27). -/
def outBlock (s : State) : List Byte := (List.range s.eng.outLen.toNat).filterMap s.eng.outBuf.read

/-- A `CMD` write of a legal word `w` (R73): ignored while `BUSY` (R21); else command start, the `IN_LEN` check of
step (4), the command's body on the block, and completion. One atomic transition (R7). -/
def runCommand (w : BitVec 8) (body : List Byte → Engine → Eff Engine) (s : State) :
    Host.Outcome State Fault Refusal :=
  if s.runState = .busy then .next s
  else
    let s1 := commandStart w s
    if s1.caps.inCap < s1.inLen then .next (takeError .allocationFailure s1)
    else .next (complete s1 (body (inBlock s1) s1.eng))

end Sys2Proof.Machine
end

