-- ==== Sys2Proof/Machine/Huffman.lean ====
section
/-! DEFINITION. The Huffman codec: histogram, tree builder, serialiser, encoder, decoder (spec/43_huffman.md R150 to
R166). The tree lives in the node arena (R36). -/

namespace Sys2Proof.Machine

/-- Node `n` of the arena (R36). -/
def nodeAt (e : Engine) (n : NodeId) : Node := arrayGet e.nodes n.toNat Node.blank

/-- Write node `n` of the arena. -/
def setNode (e : Engine) (n : NodeId) (d : Node) : Engine := { e with nodes := arraySet e.nodes n.toNat d }

/-- `HIST[s]` (R35). -/
def histAt (e : Engine) (s : Byte) : Reg32 := arrayGet e.hist s.toNat 0

/-- `HIST[s] <- HIST[s] + 1` (R151). -/
def countByte (e : Engine) (s : Byte) : Engine := { e with hist := arraySet e.hist s.toNat (histAt e s + 1) }

/-- `Count(X)` (R151), the first pass over `X`. -/
def countAll (x : List Byte) (e : Engine) : Engine :=
  x.foldl (fun e s => countByte (consume e) s) { e with hist := Vector.replicate Config.alphabet 0 }

/-- The id the next node gets, `NNODES` (R36). -/
def nextNode (e : Engine) : NodeId := e.nNodes.setWidth 9

/-- Append a node to the arena (R152): `n <- NNODES; …; NNODES <- n + 1`. -/
def addNode (d : Node) (e : Engine) : Engine := { setNode e (nextNode e) d with nNodes := e.nNodes + 1 }

/-- One symbol of the leaf loop of `BuildTree` (R152). -/
def addLeaf (e : Engine) (s : Byte) : Engine :=
  if 0 < histAt e s then
    addNode { nodeAt e (nextNode e) with leaf := true, sym := s, freq := histAt e s, alive := true } e
  else e

/-- The leaves of `BuildTree` (R152), in ascending symbol order; the zero-symbol tree of R154. -/
def buildLeaves (e : Engine) : Engine :=
  let e1 := (List.range Config.alphabet).foldl (fun e s => addLeaf e (BitVec.ofNat 8 s)) { e with nNodes := 0 }
  if e1.nNodes = 0 then
    addNode { nodeAt e1 0 with leaf := true, sym := 0x00, freq := 0, alive := true } e1
  else e1

/-- `MinAlive(x)` (R153): the alive node other than `x` of the lowest frequency, the lowest id among equals. -/
def minAlive (e : Engine) (x : Option NodeId) : Option NodeId :=
  (List.range e.nNodes.toNat).foldl
    (fun m i =>
      let n := BitVec.ofNat 9 i
      if (nodeAt e n).alive ∧ x ≠ some n ∧ (m.all fun j => (nodeAt e n).freq < (nodeAt e j).freq) then some n else m)
    none

/-- One iteration of the merge loop of `BuildTree` (R152): `a` becomes the left child, `b` the right. -/
def mergeNodes (a b : NodeId) (e : Engine) : Engine :=
  let n := nextNode e
  let d : Node := { nodeAt e n with leaf := false, left := a, right := b, freq := (nodeAt e a).freq + (nodeAt e b).freq, alive := true }
  let e1 := addNode d e
  let e2 := setNode e1 a { nodeAt e1 a with alive := false }
  setNode e2 b { nodeAt e2 b with alive := false }

/-- The merge loop (R152). More than one node is alive exactly when `MinAlive` finds a second one. Every iteration
leaves one alive node fewer, so as many iterations as the arena has nodes are enough (log 13). -/
def mergeLoop : Nat → Engine → Engine
  | 0, e => e
  | fuel + 1, e =>
    match minAlive e none with
    | none => e
    | some a =>
      match minAlive e (some a) with
      | none => e
      | some b => mergeLoop fuel (mergeNodes a b e)

/-- `BuildTree()` (R152). -/
def buildTree (e : Engine) : Engine :=
  let e1 := mergeLoop Config.hufMaxNodes (buildLeaves e)
  { e1 with root := (e1.nNodes - 1).setWidth 9 }

/-- `Code(s)` (R155): the path from node `n` down to the leaf that holds `s`, left 0, right 1. -/
def codeFrom (e : Engine) (s : Byte) : Nat → NodeId → Option (List Bool)
  | 0, _ => none
  | fuel + 1, n =>
    if (nodeAt e n).leaf then if (nodeAt e n).sym = s then some [] else none
    else
      match codeFrom e s fuel (nodeAt e n).left with
      | some p => some (false :: p)
      | none => (codeFrom e s fuel (nodeAt e n).right).map (true :: ·)

/-- `Code(s)` from `ROOT` (R155); every symbol of the block has a leaf, so the empty default is never taken. -/
def codeOf (e : Engine) (s : Byte) : List Bool := (codeFrom e s Config.hufMaxNodes e.root).getD []

/-- `SerializeTree(n)` (R156). A path in the arena has fewer edges than there are nodes (log 13). -/
def serializeTree (cap : Reg32) : Nat → NodeId → Engine → Eff Engine
  | 0, _, e => .ok e
  | fuel + 1, n, e =>
    if (nodeAt e n).leaf then do
      let e1 ← bsWrite cap (1 : BitVec 1) e
      bsWrite cap (nodeAt e n).sym e1
    else do
      let e1 ← bsWrite cap (0 : BitVec 1) e
      let e2 ← serializeTree cap fuel (nodeAt e n).left e1
      serializeTree cap fuel (nodeAt e n).right e2

/-- The second pass of `HUF.E` (R161): the code of every byte of `X`. -/
def writeCodes (cap : Reg32) : List Byte → Engine → Eff Engine
  | [], e => .ok e
  | b :: bs, e0 => do
    let e := consume e0
    let e1 ← writeBitList cap (codeOf e b) e
    writeCodes cap bs e1

/-- The body of `HUF.E` (R161) on the sequence `x`; `IN_POS` restarts for each pass (R29). -/
def huffmanEncode (cap : Reg32) (x : List Byte) (e : Engine) : Eff Engine := do
  let e1 := buildTree (countAll x (bsInitWrite .msb e))
  let e2 ← serializeTree cap Config.hufMaxNodes e1.root e1
  let e3 ← bsWrite cap (BitVec.ofNat Config.lenFieldBits x.length) e2
  let e4 ← writeCodes cap x { e3 with inPos := 0 }
  bsFlush cap e4

/-- `DeserializeTree()` (R157). Each call allocates a node and the 512th is refused, so 512 levels are enough; the
level 0 is refused likewise and never reached (log 13). -/
def deserializeTree (x : List Byte) : Nat → Engine → Eff (NodeId × Engine)
  | 0, e => raise .corruptStream e
  | fuel + 1, e =>
    if e.nNodes = 511 then raise .corruptStream e
    else
      let n := nextNode e
      let e1 := { e with nNodes := e.nNodes + 1 }
      match rbit x e1 with
      | none => raise .corruptStream e1
      | some (true, e2) => do
        let e3 := setNode e2 n { nodeAt e2 n with leaf := true }
        let (v, e4) ← bsRead x Config.symBits e3
        .ok (n, setNode e4 n { nodeAt e4 n with sym := v })
      | some (false, e2) => do
        let e3 := setNode e2 n { nodeAt e2 n with leaf := false }
        let (l, e4) ← deserializeTree x fuel e3
        let e5 := setNode e4 n { nodeAt e4 n with left := l }
        let (r, e6) ← deserializeTree x fuel e5
        .ok (n, setNode e6 n { nodeAt e6 n with right := r })

/-- The walk of `DecodeSymbol()` (R160) from `CUR`. Every iteration reads a bit, so one more than the bits that are
left is enough (log 13). -/
def walkTree (x : List Byte) : Nat → Engine → Eff (Byte × Engine)
  | 0, e => raise .corruptStream e
  | fuel + 1, e =>
    if (nodeAt e e.cur).leaf then .ok ((nodeAt e e.cur).sym, e)
    else
      match rbit x e with
      | none => raise .corruptStream e
      | some (b, e1) =>
        walkTree x fuel { e1 with cur := if b then (nodeAt e1 e1.cur).right else (nodeAt e1 e1.cur).left }

/-- `DecodeSymbol()` (R160). -/
def decodeSymbol (x : List Byte) (e : Engine) : Eff (Byte × Engine) :=
  walkTree x (8 * x.length - e.rPos + 1) { e with cur := e.root }

/-- The loop of `HUF.D` (R162); the number is `REMAINING`. -/
def decodeLoop (emit : Byte → Engine → Eff Engine) (x : List Byte) : Nat → Engine → Eff Engine
  | 0, e => .ok e
  | n + 1, e => do
    let (b, e1) ← decodeSymbol x e
    let e2 ← emit b e1
    decodeLoop emit x n { e2 with remaining := e2.remaining - 1 }

/-- The body of `HUF.D` (R162), with `emit` in the place of `OutByte` (R193). -/
def huffmanDecode (emit : Byte → Engine → Eff Engine) (x : List Byte) (e : Engine) : Eff Engine := do
  let (r, e1) ← deserializeTree x 512 { bsInitRead .msb e with nNodes := 0 }
  let (n, e2) ← bsRead x Config.lenFieldBits { e1 with root := r }
  decodeLoop emit x n.toNat { e2 with remaining := n }

/-- `HUF.E` (R161). -/
def execHufE (s : State) : Host.Outcome State Fault Refusal := runCommand (encode .hufE) (huffmanEncode s.caps.outCap) s

/-- `HUF.D` (R162). -/
def execHufD (s : State) : Host.Outcome State Fault Refusal :=
  runCommand (encode .hufD) (huffmanDecode (outByte s.caps.outCap)) s

end Sys2Proof.Machine
end

