-- ==== Sys2Proof/Machine/Lzw.lean ====
section
/-! DEFINITION. The LZW codec with 12-bit codes (spec/41_lzw.md R110 to R127). -/

namespace Sys2Proof.Machine

/-- `DictReset()` (R111). -/
def dictReset (e : Engine) : Engine := { e with nextFree := 256 }

/-- `DICT_PREFIX[j]` (R32). -/
def prefixAt (e : Engine) (j : Nat) : Code := arrayGet e.dictPrefix (j - 256) 0

/-- `DICT_SUFFIX[j]` (R32). -/
def suffixAt (e : Engine) (j : Nat) : Byte := arrayGet e.dictSuffix (j - 256) 0

/-- `Lookup(c, b)` (R112): the valid entry for string(`c`) followed by `b`. -/
def lookup (c : Code) (b : Byte) (e : Engine) : Option Code :=
  ((List.range e.nextFree.toNat).find? fun j => 256 ≤ j ∧ prefixAt e j = c ∧ suffixAt e j = b).map (BitVec.ofNat 12)

/-- `Insert(c, b)` (R113): nothing when the dictionary is full. -/
def insert (c : Code) (b : Byte) (e : Engine) : Engine :=
  if e.nextFree < 4096 then
    { e with
      dictPrefix := arraySet e.dictPrefix (e.nextFree.toNat - 256) c
      dictSuffix := arraySet e.dictSuffix (e.nextFree.toNat - 256) b
      nextFree := e.nextFree + 1 }
  else e

/-- `Str(k)` with a bound on the length of the prefix chain (R114). -/
def strWithin (e : Engine) : Nat → Code → List Byte
  | fuel, k =>
    if k < 256 then [k.setWidth 8]
    else
      match fuel with
      | 0 => []
      | fuel + 1 => strWithin e fuel (prefixAt e k.toNat) ++ [suffixAt e k.toNat]

/-- `Str(k)` (R114). A prefix is smaller than its entry (R33(a)), so the chain from `k` ends within `k` steps. -/
def str (e : Engine) (k : Code) : List Byte := strWithin e k.toNat k

/-- `First(k)` (R114): the first byte of `Str(k)`. -/
def first (e : Engine) (k : Code) : Byte := (str e k).headD 0

/-- One byte after the first of `LZW.C` (R116): the current string grows by it when the dictionary has the longer
string; else its code goes out, the longer string is inserted, and the byte starts the next one. -/
def lzwEncodeByte (cap : Reg32) (c : Byte) (e : Engine) : Eff Engine :=
  match lookup e.code c e with
  | some j => .ok { e with code := j }
  | none => do
    let e1 ← bsWrite cap e.code e
    .ok { insert e.code c e1 with code := c.setWidth 12 }

/-- The loop of `LZW.C` and what follows it (R116). -/
def lzwCompressLoop (cap : Reg32) : List Byte → Engine → Eff Engine
  | [], e => do
    let e1 ← bsWrite cap e.code e
    bsFlush cap e1
  | c :: cs, e => do
    let e1 ← lzwEncodeByte cap c (consume e)
    lzwCompressLoop cap cs e1

/-- The body of `LZW.C` (R116). -/
def lzwCompress (cap : Reg32) : List Byte → Engine → Eff Engine
  | [], e => raise .emptyInput e
  | b :: bs, e =>
    let e1 := consume (dictReset (bsInitWrite .lsb e))
    lzwCompressLoop cap bs { e1 with code := b.setWidth 12 }

/-- One code after the first of `LZW.D` (R119): range check (R121), the string (KwKwK, R120), its bytes, the new entry
(R124), `PREV`. -/
def lzwDecodeCode (emit : Byte → Engine → Eff Engine) (k : Code) (e : Engine) : Eff Engine :=
  if e.nextFree.toNat < k.toNat then raise .corruptStream e
  else
    let s := if k.toNat < e.nextFree.toNat then str e k else str e e.prev ++ [first e e.prev]
    do
      let e1 ← emitAll emit s e
      .ok { insert e1.prev (s.headD 0) e1 with prev := k }

/-- The loop of `LZW.D` for the codes after the first (R119); the number counts the codes still to read. -/
def lzwDecodeLoop (emit : Byte → Engine → Eff Engine) (x : List Byte) : Nat → Engine → Eff Engine
  | 0, e => .ok e
  | n + 1, e => do
    let (k, e1) ← bsRead x 12 e
    let e2 ← lzwDecodeCode emit k e1
    lzwDecodeLoop emit x n e2

/-- The body of `LZW.D` (R119), with `emit` in the place of `OutByte` (R191). -/
def lzwDecompress (emit : Byte → Engine → Eff Engine) (x : List Byte) (e : Engine) : Eff Engine :=
  if x.length = 0 then raise .emptyInput e
  else
    let n := 8 * x.length / 12
    if 8 * x.length - 12 * n = 8 then raise .corruptStream e
    else do
      let (k, e1) ← bsRead x 12 (dictReset (bsInitRead .lsb e))
      if 255 < k then raise .corruptStream e1
      else
        let e2 ← emit (k.setWidth 8) e1
        lzwDecodeLoop emit x (n - 1) { e2 with prev := k }

/-- `LZW.C` (R116). -/
def execLzwC (s : State) : Host.Outcome State Fault Refusal := runCommand (encode .lzwC) (lzwCompress s.caps.outCap) s

/-- `LZW.D` (R119). -/
def execLzwD (s : State) : Host.Outcome State Fault Refusal :=
  runCommand (encode .lzwD) (lzwDecompress (outByte s.caps.outCap)) s

end Sys2Proof.Machine
end

