-- ==== Sys2Proof/Machine/Predictor.lean ====
section
/-! DEFINITION. The byte-delta predictor (spec/42_predictor.md R140 to R145). Subtraction and addition of bytes are
those of `BitVec 8`, modulo 256 (R145). -/

namespace Sys2Proof.Machine

/-- The loop of `PRED.A` (R140): each delta goes out, `P_PREV` is the original byte. -/
def predApplyLoop (cap : Reg32) : List Byte → Engine → Eff Engine
  | [], e => .ok e
  | b :: bs, e0 => do
    let e := consume e0
    let e1 ← outByte cap (b - e.pPrev) e
    predApplyLoop cap bs { e1 with pPrev := b }

/-- The body of `PRED.A` (R140). -/
def predApply (cap : Reg32) (x : List Byte) (e : Engine) : Eff Engine := predApplyLoop cap x { e with pPrev := 0 }

/-- One byte of the undo stage (R141, R191, R193): the reconstructed byte goes out and is the next `P_PREV`. -/
def undoByte (cap : Reg32) (d : Byte) (e : Engine) : Eff Engine := do
  let b := d + e.pPrev
  let e1 ← outByte cap b e
  .ok { e1 with pPrev := b }

/-- The loop of `PRED.U` (R141). -/
def predUndoLoop (cap : Reg32) : List Byte → Engine → Eff Engine
  | [], e => .ok e
  | d :: ds, e => do
    let e1 ← undoByte cap d (consume e)
    predUndoLoop cap ds e1

/-- The body of `PRED.U` (R141). -/
def predUndo (cap : Reg32) (x : List Byte) (e : Engine) : Eff Engine := predUndoLoop cap x { e with pPrev := 0 }

/-- The loop of `PRED.A` with the deltas collected in `T` instead of going out (R190, R192). -/
def predCollectLoop : List Byte → Engine → List Byte × Engine
  | [], e => ([], e)
  | b :: bs, e =>
    let (t, e1) := predCollectLoop bs { consume e with pPrev := b }
    ((b - e.pPrev) :: t, e1)

/-- The first stage of the composite compress commands (R190, R192): `T` and the engine after it. -/
def predCollect (x : List Byte) (e : Engine) : List Byte × Engine := predCollectLoop x { e with pPrev := 0 }

/-- `PRED.A` (R140). -/
def execPredA (s : State) : Host.Outcome State Fault Refusal := runCommand (encode .predA) (predApply s.caps.outCap) s

/-- `PRED.U` (R141). -/
def execPredU (s : State) : Host.Outcome State Fault Refusal := runCommand (encode .predU) (predUndo s.caps.outCap) s

end Sys2Proof.Machine
end

