-- ==== Sys2Proof/Machine/Composite.lean ====
section
/-! DEFINITION. The composite commands and the two reserved RLE words (spec/44_composite.md R190 to R198). The sequence
`T` between the stages is not state (R195). -/

namespace Sys2Proof.Machine

/-- The body of `LZWP.C` (R190): the predictor's output `T`, then the body of `LZW.C` with `InByte(p)` = `T[p]`. The
second stage's cursor starts at 0 (log 11). -/
def lzwpCompress (cap : Reg32) (x : List Byte) (e : Engine) : Eff Engine :=
  if x.length = 0 then raise .emptyInput e
  else
    let (t, e1) := predCollect x e
    lzwCompress cap t { e1 with inPos := 0 }

/-- The body of `LZWP.D` (R191): the body of `LZW.D`, each `OutByte` through the undo stage. -/
def lzwpDecompress (cap : Reg32) (x : List Byte) (e : Engine) : Eff Engine :=
  lzwDecompress (undoByte cap) x { e with pPrev := 0 }

/-- The body of `HUFP.C` (R192). -/
def hufpEncode (cap : Reg32) (x : List Byte) (e : Engine) : Eff Engine :=
  let (t, e1) := predCollect x e
  huffmanEncode cap t { e1 with inPos := 0 }

/-- The body of `HUFP.D` (R193). -/
def hufpDecode (cap : Reg32) (x : List Byte) (e : Engine) : Eff Engine :=
  huffmanDecode (undoByte cap) x { e with pPrev := 0 }

/-- `LZWP.C` (R190). -/
def execLzwpC (s : State) : Host.Outcome State Fault Refusal := runCommand (encode .lzwpC) (lzwpCompress s.caps.outCap) s

/-- `LZWP.D` (R191). -/
def execLzwpD (s : State) : Host.Outcome State Fault Refusal :=
  runCommand (encode .lzwpD) (lzwpDecompress s.caps.outCap) s

/-- `HUFP.C` (R192). -/
def execHufpC (s : State) : Host.Outcome State Fault Refusal := runCommand (encode .hufpC) (hufpEncode s.caps.outCap) s

/-- `HUFP.D` (R193). -/
def execHufpD (s : State) : Host.Outcome State Fault Refusal := runCommand (encode .hufpD) (hufpDecode s.caps.outCap) s

/-- `RLE.C` (R194): `raise IllegalCommand`. -/
def execRleC (s : State) : Host.Outcome State Fault Refusal := rejectCommand (encode .rleC) s

/-- `RLE.D` (R194): `raise IllegalCommand`. -/
def execRleD (s : State) : Host.Outcome State Fault Refusal := rejectCommand (encode .rleD) s

end Sys2Proof.Machine
end

