-- ==== Sys2Proof/Machine/Dispatch.lean ====
section
/-! DEFINITION. One arm per instruction; each calls its meaning. -/

namespace Sys2Proof.Machine

def exec (i : Instr) (s : State) : Host.Outcome State Fault Refusal :=
  match i with
  | .rleC => Sys2Proof.Machine.execRleC s
  | .lzwC => Sys2Proof.Machine.execLzwC s
  | .lzwpC => Sys2Proof.Machine.execLzwpC s
  | .hufpC => Sys2Proof.Machine.execHufpC s
  | .predA => Sys2Proof.Machine.execPredA s
  | .hufE => Sys2Proof.Machine.execHufE s
  | .rleD => Sys2Proof.Machine.execRleD s
  | .lzwD => Sys2Proof.Machine.execLzwD s
  | .lzwpD => Sys2Proof.Machine.execLzwpD s
  | .hufpD => Sys2Proof.Machine.execHufpD s
  | .predU => Sys2Proof.Machine.execPredU s
  | .hufD => Sys2Proof.Machine.execHufD s

end Sys2Proof.Machine
end

