-- ==== Sys2Proof/Machine/HostPort.lean ====
section
/-! DEFINITION. What one access of the host does (spec/10_state.md R20 to R27, spec/30_encoding.md R73), and hardware
reset (spec/70_reset_and_hazards.md R240). -/

namespace Sys2Proof.Machine

/-- The number of a register (R20). -/
def regNumber : HostReg → Nat
  | .cmd => 0
  | .status => 1
  | .err => 2
  | .inLen => 3
  | .outLen => 4

/-- A host write of `CMD` (R21, R73): while `BUSY` it is ignored; else it starts the command the word encodes, an
illegal word completing with `IllegalCommand` (R75). -/
def writeCmd (w : BitVec 8) (s : State) : Host.Outcome State Fault Refusal :=
  match decode w with
  | .ok i => exec i s
  | .error _ => rejectCommand w s

/-- A host write of `IN_LEN` (R24): ignored while `BUSY`; any 32-bit value is stored, above `IN_CAP` too. -/
def writeInLen (n : Reg32) (s : State) : State := if s.runState = .busy then s else { s with inLen := n }

/-- A host read returned a specified value. -/
def returnValue (v : Reg32) (s : State) : State := { s with rdata := v }

/-- A host read returned an unspecified value: the free value, and the next one will be another (log 5, log 6). -/
def returnUnspecified (v : Reg32) (s : State) : State := { s with rdata := v, freeReads := s.freeReads + 1 }

/-- A host read of a register (R20 to R25). `OUT_LEN` is unspecified while `BUSY` (R25). -/
def readReg (r : HostReg) (s : State) : State :=
  match r with
  | .cmd => returnValue (s.cmd.setWidth 32) s
  | .status => returnValue ((statusReg s).setWidth 32) s
  | .err => returnValue (s.err.setWidth 32) s
  | .inLen => returnValue s.inLen s
  | .outLen =>
    if s.runState = .busy then returnUnspecified (Config.unspecifiedLen s.freeReads) s
    else returnValue s.eng.outLen s

/-- A host write of a byte of `IN_BUF` (R26): refused while `BUSY` (R244, U8; log 3). -/
def writeIn (a : Nat) (b : Byte) (s : State) : Host.Outcome State Fault Refusal :=
  if s.caps.inCap.toNat ≤ a then .fault (.inBufAddress a)
  else if s.runState = .busy then .refused (.inBufWriteWhileBusy a)
  else .next { s with inBuf := s.inBuf.write a b }

/-- A host read of a byte of `IN_BUF` (R26); R26 gives it while not `BUSY`, so while `BUSY` the value is free (log 6). -/
def readIn (a : Nat) (s : State) : Host.Outcome State Fault Refusal :=
  if s.caps.inCap.toNat ≤ a then .fault (.inBufAddress a)
  else if s.runState = .busy then .next (returnUnspecified ((Config.unspecifiedByte s.freeReads).setWidth 32) s)
  else .next (returnValue ((inByte s a).setWidth 32) s)

/-- A host read of a byte of `OUT_BUF` (R27): unspecified while `BUSY`, and where the buffer holds no specified byte. -/
def readOut (a : Nat) (s : State) : Host.Outcome State Fault Refusal :=
  if s.caps.outCap.toNat ≤ a then .fault (.outBufAddress a)
  else if s.runState = .busy then .next (returnUnspecified ((Config.unspecifiedByte s.freeReads).setWidth 32) s)
  else
    match s.eng.outBuf.read a with
    | some b => .next (returnValue (b.setWidth 32) s)
    | none => .next (returnUnspecified ((Config.unspecifiedByte s.freeReads).setWidth 32) s)

/-- Hardware reset (R240), from any state, a running command among them: the reset state. The capacities are the
instance's (R6), and what is outside the block (the host's accesses and the data it has read) is not reset (log 18);
the contents of `IN_BUF` are unspecified anew. -/
def hardwareReset (s : State) : State :=
  { State.reset with
    caps := s.caps
    pending := s.pending
    rdata := s.rdata
    resets := s.resets + 1
    freeReads := s.freeReads }

/-- One access. Writes of `STATUS`, `ERR` and `OUT_LEN` are ignored (R22, R23, R25). -/
def access (a : HostAccess) (s : State) : Host.Outcome State Fault Refusal :=
  match a with
  | .writeCmd w => writeCmd w s
  | .writeStatus _ => .next s
  | .writeErr _ => .next s
  | .writeInLen n => .next (writeInLen n s)
  | .writeOutLen _ => .next s
  | .readReg r => .next (readReg r s)
  | .writeIn p b => writeIn p b s
  | .readIn p => readIn p s
  | .readOut p => readOut p s
  | .hardwareReset => .next (hardwareReset s)

/-- The next access of the host is performed and leaves the queue; with none waiting, the engine keeps all its state
(R217, R242; log 24). -/
def performNext (s : State) : Host.Outcome State Fault Refusal :=
  match s.pending with
  | [] => .next s
  | a :: rest => access a { s with pending := rest }

/-- The host's next access is a write of the word `w` to `CMD`: this is how an instruction reaches the engine, which
fetches none (R29, R61; log 1). -/
def State.queueCommand (s : State) (w : BitVec 8) : State := { s with pending := .writeCmd w :: s.pending }

end Sys2Proof.Machine
end

