-- ==== Sys2Proof/Machine/Step.lean ====
section
/-! DEFINITION. One step: the next host access is performed (log 1). -/

namespace Sys2Proof.Machine

/-- One step of the machine. A `CMD` write and the whole command it starts are one step (R7). -/
def step (s : State) : Host.Outcome State Fault Refusal := performNext s

/-- The state whose next step writes the command word `w` to `CMD`. A command is one word of 8 bits (R70). -/
def State.withFetchWord (s : State) (_nbits w : Nat) : State := s.queueCommand (BitVec.ofNat 8 w)

end Sys2Proof.Machine
end

