-- ==== Sys2Proof/Machine/Formats.lean ====
section
/-! DEFINITION. The payload formats on lists, apart from the engine that produces and reads them: the layout of a stream
in bytes (spec/40_bitstream.md R97), the LZW payload and the strings it stands for (spec/41_lzw.md R110, R114, R115,
R119 to R124), the Huffman tree and payload (spec/43_huffman.md R150 to R160). No meaning uses them: statements compare
the machine with them. -/

namespace Sys2Proof.Machine

/-- The stream bits of payload bytes (R97): bit `q` of the stream is bit `bitIndex (q mod 8)` of byte `q div 8`. -/
def streamBits (o : BitOrder) (p : List Byte) : List Bool :=
  p.flatMap fun b => (List.range 8).map fun j => b.getLsbD (bitIndex o j)

/-- Byte `q` of the payload of the stream `s` (R97); stream positions past the end are 0. -/
def packedByte (o : BitOrder) (s : List Bool) (q : Nat) : Byte :=
  (List.range 8).foldl (fun v j => if s.getD (8 * q + j) false then v ||| (1#8 <<< bitIndex o j) else v) 0

/-- The payload of a stream (R97): ceil(n/8) bytes. -/
def packBits (o : BitOrder) (s : List Bool) : List Byte :=
  (List.range ((s.length + 7) / 8)).map (packedByte o s)

/-- The deltas of a byte sequence whose previous byte is `p` (R140). -/
def deltasFrom : Byte → List Byte → List Byte
  | _, [] => []
  | p, b :: bs => (b - p) :: deltasFrom b bs

/-- What `PRED.A` computes (R140): `delta[0]` relative to 0. -/
def deltas (x : List Byte) : List Byte := deltasFrom 0 x

/-- The running sums of a byte sequence, from `p` (R141). -/
def sumsFrom : Byte → List Byte → List Byte
  | _, [] => []
  | p, d :: ds => (d + p) :: sumsFrom (d + p) ds

/-- What `PRED.U` computes (R141). -/
def sums (x : List Byte) : List Byte := sumsFrom 0 x

/-- The stream of an LZW payload (R115): every code with 12 bits, least significant first. -/
def lzwStream (codes : List Code) : List Bool := codes.flatMap (bitsOf .lsb)

/-- The LZW payload of a code sequence (R115). -/
def lzwPayload (codes : List Code) : List Byte := packBits .lsb (lzwStream codes)

/-- The whole codes of an LZW payload, code `t` at stream positions 12`t` to 12`t` + 11; what is left over is none
(R97, R123). -/
def lzwCodesOf (x : List Byte) : List Code :=
  (List.range (8 * x.length / 12)).map fun t =>
    BitVec.ofNat 12 (bitsValue .lsb (((streamBits .lsb x).drop (12 * t)).take 12))

/-- The string a code stands for when the dictionary's strings are `dict` (code 256 + i is `dict[i]`) and the string
before it was `prev` (R114, R120); `none` for a code out of range (R121). -/
def lzwString (dict : List (List Byte)) (prev : List Byte) (k : Code) : Option (List Byte) :=
  if k < 256 then some [k.setWidth 8]
  else if k.toNat - 256 = dict.length then some (prev ++ [prev.headD 0])
  else dict[k.toNat - 256]?

/-- The dictionary's strings after an insertion of `prev` followed by the first byte of `cur`, unless it is full
(R113, R124). -/
def lzwGrow (dict : List (List Byte)) (prev cur : List Byte) : List (List Byte) :=
  if dict.length < Config.dictEntries then dict ++ [prev ++ [cur.headD 0]] else dict

/-- The bytes a code sequence stands for after a first string (R119). -/
def lzwExpandFrom (dict : List (List Byte)) (prev : List Byte) : List Code → Option (List Byte)
  | [] => some []
  | k :: ks =>
    match lzwString dict prev k with
    | none => none
    | some s => (lzwExpandFrom (lzwGrow dict prev s) s ks).map (s ++ ·)

/-- The bytes an LZW code sequence stands for, `none` where `LZW.D` finds an invalid code (R119, R121, R122). -/
def lzwExpand : List Code → Option (List Byte)
  | [] => none
  | k :: ks => if k < 256 then (lzwExpandFrom [] [k.setWidth 8] ks).map (k.setWidth 8 :: ·) else none

/-- The code of a string that the dictionary has: a single byte is its own code (R110), an entry its position. -/
def lzwCodeFor (dict : List (List Byte)) : List Byte → Code
  | [b] => b.setWidth 12
  | w => BitVec.ofNat 12 (256 + dict.idxOf w)

/-- The codes `LZW.C` emits from the current string `cur` on (R116): the string grows while the dictionary has the longer
one; else its code goes out and the longer one is inserted unless the dictionary is full. -/
def lzwGreedyFrom (dict : List (List Byte)) (cur : List Byte) : List Byte → List Code
  | [] => [lzwCodeFor dict cur]
  | c :: cs =>
    if cur ++ [c] ∈ dict then lzwGreedyFrom dict (cur ++ [c]) cs
    else lzwCodeFor dict cur :: lzwGreedyFrom (lzwGrow dict cur [c]) [c] cs

/-- The code sequence of a block (R116, R117), whatever the room for it. -/
def lzwGreedyCodes : List Byte → List Code
  | [] => []
  | b :: bs => lzwGreedyFrom [] [b] bs

/-- A Huffman tree (R150). -/
inductive HuffTree where
  | leaf (sym : Byte)
  | node (left right : HuffTree)
deriving DecidableEq, Repr

/-- How many nodes a tree has (R150). -/
def treeNodes : HuffTree → Nat
  | .leaf _ => 1
  | .node l r => 1 + treeNodes l + treeNodes r

/-- The leaves' symbols, left to right. -/
def treeSymbols : HuffTree → List Byte
  | .leaf s => [s]
  | .node l r => treeSymbols l ++ treeSymbols r

/-- The serialised tree (R156): preorder, a leaf is 1 and its symbol, an internal node 0 and its children. -/
def treeBits : HuffTree → List Bool
  | .leaf s => true :: bitsOf .msb s
  | .node l r => false :: (treeBits l ++ treeBits r)

/-- The code of a symbol (R155). -/
def treeCode (s : Byte) : HuffTree → Option (List Bool)
  | .leaf q => if q = s then some [] else none
  | .node l r =>
    match treeCode s l with
    | some p => some (false :: p)
    | none => (treeCode s r).map (true :: ·)

/-- One symbol read from a stream (R160): the symbol and the bits after its code; `none` where the stream ends. -/
def treeWalk : HuffTree → List Bool → Option (Byte × List Bool)
  | .leaf s, bs => some (s, bs)
  | .node _ _, [] => none
  | .node l r, b :: bs => if b then treeWalk r bs else treeWalk l bs

/-- `n` symbols read from a stream (R162, R163). -/
def treeDecode (t : HuffTree) : Nat → List Bool → Option (List Byte)
  | 0, _ => some []
  | n + 1, bs =>
    match treeWalk t bs with
    | none => none
    | some (s, rest) => (treeDecode t n rest).map (s :: ·)

/-- A forest while a tree is built: frequency and tree, in ascending node id (R152). -/
abbrev Forest := List (Nat × HuffTree)

/-- Take the first tree of lowest frequency out of a forest (R153): the tree, and the others in their order. -/
def takeLowest : Forest → Option ((Nat × HuffTree) × Forest)
  | [] => none
  | a :: f =>
    match takeLowest f with
    | none => some (a, [])
    | some (b, g) => if b.1 < a.1 then some (b, a :: g) else some (a, f)

/-- Merge the two lowest until one tree is left (R152); the merged tree comes last. The number bounds the merges. -/
def mergeForest : Nat → Forest → Forest
  | 0, f => f
  | n + 1, f =>
    match takeLowest f with
    | none => f
    | some (a, g) =>
      match takeLowest g with
      | none => f
      | some (b, h) => mergeForest n (h ++ [(a.1 + b.1, .node a.2 b.2)])

/-- The leaves of a block's tree, in ascending symbol order (R152); the zero-symbol leaf (R154). -/
def leafForest (x : List Byte) : Forest :=
  let f := (List.range Config.alphabet).filterMap fun s =>
    let b := BitVec.ofNat 8 s
    if 0 < x.count b then some (x.count b, HuffTree.leaf b) else none
  if f = [] then [(0, .leaf 0)] else f

/-- The tree `BuildTree` makes for a block (R152 to R154). -/
def blockTree (x : List Byte) : HuffTree :=
  match mergeForest Config.alphabet (leafForest x) with
  | [] => .leaf 0
  | a :: _ => a.2

/-- The stream of a Huffman payload (R158): tree, 32-bit length, one code per byte. -/
def huffmanStream (t : HuffTree) (x : List Byte) : List Bool :=
  treeBits t ++ bitsOf .msb (BitVec.ofNat Config.lenFieldBits x.length) ++ x.flatMap fun b => (treeCode b t).getD []

/-- The Huffman payload of a block (R158, R161). -/
def huffmanPayload (x : List Byte) : List Byte := packBits .msb (huffmanStream (blockTree x) x)

end Sys2Proof.Machine
end

