-- ==== Sys2Proof/Machine/Script.lean ====
section
/-! DEFINITION. The host script of spec/30_encoding.md R78, the pseudo-commands of R79 and the codec kinds of
spec/44_composite.md R197, and what a run of a script shows (spec/70_reset_and_hazards.md R252). A script is notation for
host accesses; it adds no state. -/

namespace Sys2Proof.Machine

/-- The source's `CodecKind` (R72, R197). -/
inductive CodecKind where
  | rle
  | lzw
  | lzwPredictor
  | huffmanPredictor
deriving DecidableEq, Repr

/-- Pseudo-command `COMPRESS <kind>` (R79). -/
def compressCommand : CodecKind → Instr
  | .rle => .rleC
  | .lzw => .lzwC
  | .lzwPredictor => .lzwpC
  | .huffmanPredictor => .hufpC

/-- Pseudo-command `DECOMPRESS <kind>` (R79). -/
def decompressCommand : CodecKind → Instr
  | .rle => .rleD
  | .lzw => .lzwD
  | .lzwPredictor => .lzwpD
  | .huffmanPredictor => .hufpD

/-- A statement of a host script (R78). -/
inductive Statement where
  | load (bytes : List Byte)
  | loadOut
  | command (i : Instr)
  | wait
  | expectDone (bytes : List Byte)
  | expectError (k : ErrorKind)
deriving DecidableEq, Repr

/-- The accesses that put a block into `IN_BUF` from index 0 and its length into `IN_LEN` (R78 `LOAD`, R243 (2), (3)). -/
def loadAccesses (bytes : List Byte) : List HostAccess :=
  bytes.zipIdx.map (fun p => .writeIn p.2 p.1) ++ [.writeInLen (BitVec.ofNat 32 bytes.length)]

/-- The accesses of a statement; `LOADOUT` copies what `OUT_BUF[0..OUT_LEN)` holds, `WAIT` reads `STATUS` (log 19). -/
def statementAccesses (s : State) : Statement → List HostAccess
  | .load bytes => loadAccesses bytes
  | .loadOut => loadAccesses (outBlock s)
  | .command i => [.writeCmd (encode i)]
  | .wait => [.readReg .status]
  | .expectDone _ => []
  | .expectError _ => []

/-- Whether what a statement asserts is so (R78 `EXPECT`); the others assert nothing. -/
def statementHolds (s : State) : Statement → Bool
  | .expectDone bytes => s.runState = .done ∧ s.err = 0 ∧ outBlock s = bytes
  | .expectError k => s.runState = .error ∧ s.err = k.code
  | .load _ | .loadOut | .command _ | .wait => true

/-- Perform accesses one after the other. -/
def runAccesses : List HostAccess → State → Host.Outcome State Fault Refusal
  | [], s => .next s
  | a :: rest, s =>
    match access a s with
    | .next t => runAccesses rest t
    | .fault r => .fault r
    | .refused r => .refused r

/-- What one `WAIT` shows of the instance (R252): `STATE`, `ERR`, `OUT_LEN`, `OUT_BUF[0..OUT_LEN)`, `DICT_FULL`. -/
structure Observation where
  state : RunState
  err : BitVec 8
  outLen : Reg32
  output : List Byte
  full : Bool
deriving DecidableEq, Repr

/-- The observation of a state (R252). -/
def observe (s : State) : Observation :=
  { state := s.runState, err := s.err, outLen := s.eng.outLen, output := outBlock s, full := dictFull s.eng }

/-- What a statement adds to the observable result, from the state after it: a `WAIT` one observation, the others none
(R252). -/
def statementObserves (s : State) : Statement → List Observation
  | .wait => [observe s]
  | .load _ | .loadOut | .command _ | .expectDone _ | .expectError _ => []

/-- A run of a script. -/
structure ScriptRun where
  /-- The observable result: one observation per `WAIT`, in order (R252). -/
  observed : List Observation
  /-- Whether every assertion met on the way held (R78), and no access stopped the run: that a run which a faulting or
  refused access stops does not hold is the model's DESIGN CHOICE (log 19). -/
  held : Bool
  /-- Where the run ends. -/
  final : Host.Outcome State Fault Refusal
deriving Repr

/-- Run a script; it ends after its last statement (R252), or where an access stops. DESIGN CHOICE (log 19): R78 does not
say what the assertions of a stopped run are worth; the model answers `held` = false, no `EXPECT` having failed or not. -/
def runScript : List Statement → State → ScriptRun
  | [], s => { observed := [], held := true, final := .next s }
  | c :: rest, s =>
    match runAccesses (statementAccesses s c) s with
    | .next t =>
      let r := runScript rest t
      { observed := statementObserves t c ++ r.observed, held := statementHolds s c && r.held, final := r.final }
    | .fault r => { observed := [], held := false, final := .fault r }
    | .refused r => { observed := [], held := false, final := .refused r }

end Sys2Proof.Machine
end

