-- ==== Sys2Proof/Machine/HostContract.lean ====
section
/-! DEFINITION. The host contract of spec/60_exceptions.md R219 to R225: splitting, one command per block, the manifest
layout, reassembly. It is host software, out of the engine's scope (spec/00_scope.md R4(b)); no engine rule depends on
it. The worker pool (R226) is left out with R4(b). -/

namespace Sys2Proof.Machine

/-- `split(buffer, chunk_size)` (R219): block `i` is the range from `i`·`chunk_size`, the last one may be shorter. A
chunk size the contract forbids is refused by `compressBuffer`. -/
def splitBlocks (chunk : Nat) (buffer : List Byte) : List (List Byte) :=
  (List.range ((buffer.length + chunk - 1) / chunk)).map fun i => (buffer.drop (i * chunk)).take chunk

/-- A `u32` of the manifest, little-endian (R221). -/
def u32Bytes (n : Nat) : List Byte := (List.range 4).map fun i => BitVec.ofNat 8 (n / 256 ^ i)

/-- Read a little-endian `u32` (R221); `none` where fewer than four bytes are left. -/
def readU32 : List Byte → Option (Nat × List Byte)
  | a :: b :: c :: d :: rest => some (a.toNat + 256 * b.toNat + 65536 * c.toNat + 16777216 * d.toNat, rest)
  | _ => none

/-- Read `n` little-endian `u32`s (R221). -/
def readU32s : Nat → List Byte → Option (List Nat × List Byte)
  | 0, p => some ([], p)
  | n + 1, p =>
    match readU32 p with
    | none => none
    | some (v, rest) => (readU32s n rest).map fun r => (v :: r.1, r.2)

/-- The compressed form of a buffer (R221): block count, block lengths, blocks. -/
def packManifest (blocks : List (List Byte)) : List Byte :=
  u32Bytes blocks.length ++ blocks.flatMap (fun b => u32Bytes b.length) ++ blocks.flatten

/-- Cut a byte sequence into pieces of given lengths (R222). -/
def slice : List Nat → List Byte → List (List Byte)
  | [], _ => []
  | n :: ns, p => p.take n :: slice ns (p.drop n)

/-- Check a manifest and slice the payload by its lengths (R222): an incomplete header, or lengths that do not add up
to the bytes there are, is `CorruptStream`. -/
def unpackManifest (p : List Byte) : Except ErrorKind (List (List Byte)) :=
  match readU32 p with
  | none => .error .corruptStream
  | some (n, rest) =>
    match readU32s n rest with
    | none => .error .corruptStream
    | some (lens, body) => if lens.sum = body.length then .ok (slice lens body) else .error .corruptStream

/-- Results placed by block index, whatever the order they came in (R223). -/
def placeByIndex (n : Nat) (results : List (Nat × List Byte)) : List (List Byte) :=
  (List.range n).map fun i => (results.lookup i).getD []

/-- Why a whole-buffer call fails: the single error value it reports (R224). -/
inductive CallError where
  /-- A block's command completed with `ERROR` and this `ERR` (R224). -/
  | block (err : BitVec 8)
  /-- The manifest does not fit the bytes (R222). -/
  | manifest (k : ErrorKind)
  /-- `chunk_size` is 0 or exceeds `IN_CAP` (R219). -/
  | chunkSize (chunk : Nat)
  /-- The empty top-level buffer, or a manifest of no blocks: U20 has a model refuse both (log 17). -/
  | noBlocks
  /-- The block does not fit `IN_BUF`, or the host wrote it while `BUSY`: the port gave no next state, and no command was
  issued for the block (the model's DESIGN CHOICE, log 29). -/
  | port
deriving DecidableEq, Repr

/-- One command on one block (R220, R243): its result bytes, and the instance afterwards. DESIGN CHOICE (log 29): R222 does
not say what the host does with a slice longer than `IN_CAP`; its bytes cannot all be written, so the host issues no
command for it and the call ends with `port`. -/
def runBlock (i : Instr) (block : List Byte) (s : State) : Except CallError (List Byte × State) :=
  match runAccesses (loadAccesses block ++ [.writeCmd (encode i)]) s with
  | .next t => if t.runState = .done then .ok (outBlock t, t) else .error (.block t.err)
  | .fault _ => .error .port
  | .refused _ => .error .port

/-- The same command on every block, results in index order; the first error ends the call (R220, R224). DESIGN CHOICE
(log 28): R220 lets the host issue the blocks on any instance and in any order; this host issues them all on one
instance, in index order. -/
def runBlocks (i : Instr) : List (List Byte) → State → Except CallError (List (List Byte) × State)
  | [], s => .ok ([], s)
  | b :: bs, s => do
    let (r, s1) ← runBlock i b s
    let (rs, s2) ← runBlocks i bs s1
    .ok (r :: rs, s2)

/-- `compress` of a whole buffer (R219 to R221, R225): the single-block buffer takes the same path. No command is issued
when the chunk size is not 1 to `IN_CAP` (R219) or the buffer is empty (log 17). -/
def compressBuffer (k : CodecKind) (chunk : Nat) (buffer : List Byte) (s : State) :
    Except CallError (List Byte × State) :=
  if chunk = 0 ∨ s.caps.inCap.toNat < chunk then .error (.chunkSize chunk)
  else if buffer = [] then .error .noBlocks
  else do
    let (rs, t) ← runBlocks (compressCommand k) (splitBlocks chunk buffer) s
    .ok (packManifest rs, t)

/-- `decompress` of a whole buffer (R222, R224): no command is issued when the manifest does not fit (R222)
or lists no block (log 17). -/
def decompressBuffer (k : CodecKind) (p : List Byte) (s : State) : Except CallError (List Byte × State) :=
  match unpackManifest p with
  | .error e => .error (.manifest e)
  | .ok [] => .error .noBlocks
  | .ok blocks => do
    let (rs, t) ← runBlocks (decompressCommand k) blocks s
    .ok (rs.flatten, t)

end Sys2Proof.Machine
end

