-- ==== Sys2Proof/Machine/Platform.lean ====
section
/-! DEFINITION. Several instances side by side (spec/60_exceptions.md R218) and the open parameters of a platform
(spec/00_scope.md R6): nothing is shared, so a platform is a list of instances and a step of the platform is a step of
one of them (log 15). -/

namespace Sys2Proof.Machine

/-- The four open parameters, which a model takes as arguments (R6). -/
structure PlatformParams where
  /-- `N_INSTANCES`. -/
  nInstances : Nat
  /-- `REG_BASE`: where the platform maps the five registers. No rule depends on it (R6), so no definition reads it. -/
  regBase : Nat
  /-- `IN_CAP` and `OUT_CAP`, the same for every instance. -/
  caps : Caps
deriving DecidableEq, Repr

/-- `N_INSTANCES` ≥ 1 and both capacities at least 1 (R6). -/
def PlatformParams.wellFormed (c : PlatformParams) : Bool :=
  decide (1 ≤ c.nInstances) && capWellFormed c.caps.inCap && capWellFormed c.caps.outCap

/-- `N_INSTANCES` engines (R218) under the parameters they were made with. -/
structure Platform where
  params : PlatformParams
  instances : List State
deriving DecidableEq, Repr

/-- All instances come out of hardware reset in the same state (R218); no platform has parameters outside R6. -/
def platformReset (c : PlatformParams) : Option Platform :=
  if c.wellFormed then
    some { params := c, instances := List.replicate c.nInstances { State.reset with caps := c.caps } }
  else none

/-- The parameters are those of R6, and the instances are as many as they say and have the capacities they say. -/
def PlatformSound (p : Platform) : Prop :=
  p.params.wellFormed = true ∧ p.instances.length = p.params.nInstances ∧ ∀ s ∈ p.instances, s.caps = p.params.caps

/-- Instance `i` performs its next host access; `none` if there is no such instance. -/
def platformStep (p : Platform) (i : Nat) : Option (Host.Outcome Platform Fault Refusal) :=
  p.instances[i]?.map fun s =>
    match step s with
    | .next t => .next { p with instances := p.instances.set i t }
    | .fault r => .fault r
    | .refused r => .refused r

end Sys2Proof.Machine
end

