-- ==== Sys2Proof/Safety.lean ====
section
/-! DEFINITION. What counts as a safe state and a safe run, in the terms statements use. -/

namespace Sys2Proof.Machine

/-- The last command completed normally (R210). -/
def Completed (t : State) : Prop := t.runState = .done ∧ t.err = 0

/-- The last command ended with error `k` and left no output (R210, R211). -/
def FailedWith (k : ErrorKind) (t : State) : Prop :=
  t.runState = .error ∧ t.err = k.code ∧ t.eng.outLen = 0 ∧ t.eng.outBuf = []

/-- A command write will start a command, and its block fits `IN_BUF` (R21, R204). -/
def Ready (s : State) : Prop := s.runState ≠ .busy ∧ s.inLen ≤ s.caps.inCap

/-- `OUT_LEN` is the length of `ys`, and `OUT_BUF` holds `ys` and no other specified byte (R27). -/
def OutputIs (ys : List Byte) (t : State) : Prop :=
  t.eng.outLen.toNat = ys.length ∧ ∀ a, t.eng.outBuf.read a = ys[a]?

/-- What no command changes: `IN_LEN`, every byte of `IN_BUF`, the capacities and the host's side (R24, R26, R210). -/
def HostSideKept (s t : State) : Prop :=
  t.inLen = s.inLen ∧ (∀ a, t.inBuf.read a = s.inBuf.read a) ∧ t.inBuf = s.inBuf ∧ t.caps = s.caps ∧
    t.pending = s.pending ∧ t.rdata = s.rdata ∧ t.resets = s.resets ∧ t.freeReads = s.freeReads

/-- The Huffman state is as command start leaves it (R35 to R37, R241); that `CUR` and `REMAINING` keep their values
there is the model's choice (log 26). -/
def HuffmanStateKept (e e1 : Engine) : Prop :=
  (∀ s : Byte, arrayGet e1.hist s.toNat 0 = 0) ∧ e1.nNodes = 0 ∧ e1.nodes = e.nodes ∧ e1.root = e.root ∧
    e1.cur = e.cur ∧ e1.remaining = e.remaining

/-- The LZW state is as command start leaves it (R32, R241); that `CODE` and `PREV` keep their values there is the
model's choice (log 26). -/
def LzwStateKept (e e1 : Engine) : Prop :=
  e1.nextFree = 256 ∧ e1.dictPrefix = e.dictPrefix ∧ e1.dictSuffix = e.dictSuffix ∧ e1.code = e.code ∧ e1.prev = e.prev

/-- The bit writer is as command start leaves it (R30, R241); that `W_ORDER` keeps its value is the model's choice
(log 26). -/
def WriterKept (e e1 : Engine) : Prop := e1.wAcc = 0 ∧ e1.wN = 0 ∧ e1.wOrder = e.wOrder

/-- The bit reader is as command start leaves it (R31, R241); that `R_ORDER` keeps its value is the model's choice
(log 26). -/
def ReaderKept (e e1 : Engine) : Prop := e1.rPos = 0 ∧ e1.rOrder = e.rOrder

/-- What the host can see of a completed command besides `CMD`, `IN_LEN` and `IN_BUF` (R211). -/
def SameResult (t t1 : State) : Prop :=
  t.runState = t1.runState ∧ t.err = t1.err ∧ t.eng.outLen = t1.eng.outLen ∧ t.eng.outBuf = t1.eng.outBuf ∧
    t.eng.nextFree = t1.eng.nextFree

/-- Capacities are at least 1 (R6). -/
def CapsLegal (c : Caps) : Prop := capWellFormed c.inCap = true ∧ capWellFormed c.outCap = true

/-- `OUT_BUF` holds a specified byte exactly at the addresses below `OUT_LEN`, which does not exceed `OUT_CAP`
(R25, R27, R54). -/
def OutputExact (s : State) : Prop :=
  s.eng.outBuf.map Prod.fst = List.range s.eng.outLen.toNat ∧ s.eng.outLen ≤ s.caps.outCap

/-- Bits of `W_ACC` not yet placed are zero (R30). -/
def AccumulatorClear (e : Engine) : Prop :=
  ∀ n, e.wN.toNat ≤ n → n < 8 → e.wAcc.getLsbD (match e.wOrder with | .msb => 7 - n | .lsb => n) = false

/-- Every valid dictionary entry has a smaller prefix (R33(a)), and `NEXT_FREE` is 256 to 4096 (R32). -/
def DictionarySound (e : Engine) : Prop :=
  256 ≤ e.nextFree ∧ e.nextFree ≤ 4096 ∧
    ∀ j, 256 ≤ j → j < e.nextFree.toNat → (arrayGet e.dictPrefix (j - 256) 0).toNat < j

/-- What holds of the machine at reset and is kept by every step. -/
structure State.Inv (s : State) : Prop where
  /-- A command is one atomic transition, so `BUSY` is never there between steps (R7). -/
  notBusy : s.runState ≠ .busy
  /-- `ERR` ≠ 0 exactly when `STATE` = `ERROR` (R23). -/
  errIffError : s.err ≠ 0 ↔ s.runState = .error
  /-- Values 5 to 255 of `ERR` are never produced (R23). -/
  errLegal : s.err ≤ 4
  /-- After an error, and before any command, there is no output (R210, R240). -/
  outputOnlyWhenDone : s.runState ≠ .done → s.eng.outLen = 0
  output : OutputExact s
  inputCanonical : s.inBuf.wf
  /-- `IN_BUF` has the addresses 0 to `IN_CAP` − 1 only (R26). -/
  inputInRange : ∀ c ∈ s.inBuf, c.1 < s.caps.inCap.toNat
  accumulator : AccumulatorClear s.eng
  dictionary : DictionarySound s.eng
  /-- `NNODES` is 0 to 511 (R36). -/
  arena : s.eng.nNodes ≤ 511
  /-- The capacities are legal (R6). -/
  capacities : CapsLegal s.caps

/-- The host's next access, if any, names an address that exists, and does not write `IN_BUF` while `BUSY` (R244). -/
def HostBehaves (s : State) : Prop :=
  match s.pending with
  | [] => True
  | .writeIn a _ :: _ => a < s.caps.inCap.toNat ∧ s.runState ≠ .busy
  | a :: _ => a.wellFormed s.caps.inCap s.caps.outCap = true

end Sys2Proof.Machine
end

