-- ==== Sys2Proof/Certificates/Slice0/Obligations.lean ====
section
/-! DEFINITION. The statements for the provers. -/

open Sys2Proof Sys2Proof.Machine

-- Command words and the step -------------------------------------------------------------------------------------

/-- R74: the twelve words of the opcode table, written out bit by bit, decode to their commands. -/
def Obligations.TableWordsDecode : Prop :=
  decode 0b00000000 = .ok .rleC ∧ decode 0b00000001 = .ok .lzwC ∧ decode 0b00000010 = .ok .lzwpC ∧
  decode 0b00000011 = .ok .hufpC ∧ decode 0b00000100 = .ok .predA ∧ decode 0b00000101 = .ok .hufE ∧
  decode 0b00010000 = .ok .rleD ∧ decode 0b00010001 = .ok .lzwD ∧ decode 0b00010010 = .ok .lzwpD ∧
  decode 0b00010011 = .ok .hufpD ∧ decode 0b00010100 = .ok .predU ∧ decode 0b00010101 = .ok .hufD

/-- R74, R76: decode and encode agree in both directions, so every named command has exactly one word. -/
def Obligations.DecodeEncodeAgree : Prop :=
  ∀ i : Instr, (encode i : BitVec 8).toNat < 0x20 ∧ decode (encode i) = .ok i ∧ ∀ w, decode w = .ok i → w = encode i

/-- A step runs the decoded instruction: when the host's next access writes the word of instruction `i` to `CMD`, the
step is `exec i` with that access taken off the queue (R7, R73). -/
def Obligations.StepRunsDecodedInstruction : Prop :=
  ∀ (s : State) (w : BitVec 8) (rest : List HostAccess) (i : Instr),
    s.pending = .writeCmd w :: rest → decode w = .ok i → step s = exec i { s with pending := rest }

/-- R75: illegal and reserved words end at once with `IllegalCommand`, `OUT_LEN` = 0 and no codec work (the codec state
is what command start leaves: that start keeps `CODE`, `PREV`, `CUR`, `REMAINING` and the two orders is the model's choice,
log 26); of the 256 words 10 are legal, 2 reserved, 244 illegal. -/
def Obligations.IllegalAndReservedWordsReject : Prop :=
  (∀ (s : State) (w : BitVec 8) (rest : List HostAccess),
    s.pending = .writeCmd w :: rest → s.runState ≠ .busy →
    (w.extractLsb' 5 3 ≠ 0 ∨ 6 ≤ w.extractLsb' 0 4 ∨ w.extractLsb' 0 4 = 0) →
    ∃ t, step s = .next t ∧ FailedWith .illegalCommand t ∧ t.err = 4 ∧ t.cmd = w ∧ t.eng = s.eng.start ∧
      HostSideKept { s with pending := rest } t) ∧
  (List.range 256).countP (fun n => !illegalWord (BitVec.ofNat 8 n) && !reservedWord (BitVec.ofNat 8 n)) = 10 ∧
  (List.range 256).countP (fun n => reservedWord (BitVec.ofNat 8 n)) = 2 ∧
  (List.range 256).countP (fun n => illegalWord (BitVec.ofNat 8 n)) = 244

/-- R201, R205: a command write raises `IllegalCommand`, error 4, exactly when `RSV` ≠ 0, `KIND` ≥ 6 or `KIND` = 0, whatever
`IN_LEN` is, so before the `IN_LEN` check; and then before any codec work (the codec state is what command start leaves:
that start keeps `CODE`, `PREV`, `CUR`, `REMAINING` and the two orders is the model's choice, log 26). -/
def Obligations.IllegalCommandCauses : Prop :=
  ∀ (s : State) (w : BitVec 8) (rest : List HostAccess),
    s.pending = .writeCmd w :: rest → s.runState ≠ .busy →
    ∃ t, step s = .next t ∧
      (t.err = 4 ↔ w.extractLsb' 5 3 ≠ 0 ∨ 6 ≤ w.extractLsb' 0 4 ∨ w.extractLsb' 0 4 = 0) ∧ (t.err = 4 → t.eng = s.eng.start)

/-- R194: `RLE.C` and `RLE.D` have the words 0x00 and 0x10 and always raise `IllegalCommand`: this is their whole
effect (the codec state is what command start leaves: that start keeps `CODE`, `PREV`, `CUR`, `REMAINING` and the two
orders is the model's choice, log 26). -/
def Obligations.RleRaisesIllegalCommand : Prop :=
  encode .rleC = 0x00 ∧ encode .rleD = 0x10 ∧
  ∀ s : State, s.runState ≠ .busy →
    (∃ t, exec .rleC s = .next t ∧ FailedWith .illegalCommand t ∧ t.cmd = 0x00 ∧ t.eng = s.eng.start ∧ HostSideKept s t) ∧
    (∃ t, exec .rleD s = .next t ∧ FailedWith .illegalCommand t ∧ t.cmd = 0x10 ∧ t.eng = s.eng.start ∧ HostSideKept s t)

-- Completion and errors --------------------------------------------------------------------------------------------

/-- R200, R210: every command answers a next state; started, it completes normally or in exactly one error with no
output; `CMD` holds its word, and `IN_LEN`, every byte of `IN_BUF` and the host's side are unchanged. -/
def Obligations.EveryCommandCompletes : Prop :=
  ∀ (i : Instr) (s : State), s.runState ≠ .busy →
    ∃ t, exec i s = .next t ∧ (Completed t ∨ ∃ k, FailedWith k t) ∧ t.cmd = encode i ∧ HostSideKept s t

/-- R201, R202: `EmptyInput`, error 1, exactly for `IN_LEN` = 0 at the start of `LZW.C`, `LZW.D`, `LZWP.C`, `LZWP.D`. -/
def Obligations.EmptyInputCauses : Prop :=
  ErrorKind.emptyInput.code = 1 ∧
  ∀ (i : Instr) (s t : State), s.runState ≠ .busy → exec i s = .next t →
    (t.err = 1 ↔ s.inLen = 0 ∧ (i = .lzwC ∨ i = .lzwD ∨ i = .lzwpC ∨ i = .lzwpD))

/-- R201, R203, R142: `CorruptStream`, error 2, is raised by the four decoders only, so by no compress-direction command
and by no predictor command. -/
def Obligations.CorruptStreamOnlyFromDecoders : Prop :=
  ErrorKind.corruptStream.code = 2 ∧
  ∀ (i : Instr) (s t : State), s.runState ≠ .busy → exec i s = .next t →
    t.err = 2 → i = .lzwD ∨ i = .lzwpD ∨ i = .hufD ∨ i = .hufpD

/-- R201, R204(a), R209: with `IN_LEN` > `IN_CAP` every command with a legal encoding ends with `AllocationFailure`,
error 3, before any codec work, and the reserved ones still with `IllegalCommand`, error 4 (the codec state is what
command start leaves: that start keeps `CODE`, `PREV`, `CUR`, `REMAINING` and the two orders is the model's choice, log
26). -/
def Obligations.OversizeInputFailsFirst : Prop :=
  ErrorKind.allocationFailure.code = 3 ∧ ErrorKind.illegalCommand.code = 4 ∧
  ∀ (i : Instr) (s : State), s.runState ≠ .busy → s.caps.inCap < s.inLen →
    ∃ t, exec i s = .next t ∧ t.eng = s.eng.start ∧ HostSideKept s t ∧
      (if i = .rleC ∨ i = .rleD then FailedWith .illegalCommand t ∧ t.err = 4
        else FailedWith .allocationFailure t ∧ t.err = 3)

/-- R40, R211, R248: what a command leaves for the host to see depends on the block and the capacities only, not on
what earlier commands left in the engine. -/
def Obligations.ResultIndependentOfHistory : Prop :=
  ∀ (i : Instr) (s s1 t t1 : State),
    s.runState ≠ .busy → s1.runState ≠ .busy → inBlock s = inBlock s1 → s.caps = s1.caps →
    exec i s = .next t → exec i s1 = .next t1 → SameResult t t1

/-- R27: after any command, whatever the engine held before, `OUT_BUF` has a specified byte exactly below `OUT_LEN`,
which is within `OUT_CAP`. -/
def Obligations.OutputExactAfterCommand : Prop :=
  ∀ (i : Instr) (s t : State), s.runState ≠ .busy → exec i s = .next t → OutputExact t

/-- R38: after a command that is not an LZW command `DICT_FULL` reads 0. -/
def Obligations.DictFullClearAfterOtherCommands : Prop :=
  ∀ (i : Instr) (s t : State), s.runState ≠ .busy → exec i s = .next t →
    i ≠ .lzwC → i ≠ .lzwD → i ≠ .lzwpC → i ≠ .lzwpD → t.eng.nextFree = 256 ∧ (statusReg t).getLsbD 2 = false

-- Reset, invariant, host port -----------------------------------------------------------------------------------------

/-- R240: hardware reset gives every element its reset value, from any state, a running command among them; no command
starts. What R240 calls unspecified is not constrained here but for the two buffers, which hold no specified byte. -/
def Obligations.HardwareResetValues : Prop :=
  ∀ (s : State) (rest : List HostAccess), s.pending = .hardwareReset :: rest →
    ∃ t, step s = .next t ∧
      ∀ r, r = t ∨ r = State.reset →
        r.cmd = 0x00 ∧ statusReg r = 0x00 ∧ r.runState = .idle ∧ dictFull r.eng = false ∧ r.err = 0 ∧ r.inLen = 0 ∧
        r.eng.outLen = 0 ∧ r.eng.inPos = 0 ∧ r.eng.rPos = 0 ∧ r.eng.wAcc = 0 ∧ r.eng.wN = 0 ∧ r.eng.nextFree = 256 ∧
        r.eng.pPrev = 0 ∧ (∀ b : Byte, arrayGet r.eng.hist b.toNat 1 = 0) ∧ r.eng.nNodes = 0 ∧
        (∀ a, r.inBuf.read a = none ∧ r.eng.outBuf.read a = none)

/-- R241: command start, for every word. -/
def Obligations.CommandStartValues : Prop :=
  ∀ (w : BitVec 8) (s : State),
    let t := commandStart w s
    t.runState = .busy ∧ t.err = 0 ∧ t.eng.outLen = 0 ∧ t.eng.inPos = 0 ∧ t.eng.rPos = 0 ∧ t.eng.wAcc = 0 ∧
    t.eng.wN = 0 ∧ t.eng.nextFree = 256 ∧ dictFull t.eng = false ∧ t.eng.pPrev = 0 ∧
    (∀ b : Byte, arrayGet t.eng.hist b.toNat 1 = 0) ∧ t.eng.nNodes = 0 ∧ t.cmd = w ∧ HostSideKept s t

/-- The invariant holds at reset; that the capacities are legal there is the value of log 7. -/
def Obligations.InvariantAtReset : Prop := State.reset.Inv

/-- R6, R7, R23, R27, R30, R32, R33, R36, R54: every step keeps the invariant. -/
def Obligations.StepKeepsInvariant : Prop := ∀ s t : State, s.Inv → step s = .next t → t.Inv

/-- R242, R217: with no host access waiting, the engine keeps all its state. -/
def Obligations.IdleEngineKeepsState : Prop := ∀ s : State, s.pending = [] → step s = .next s

/-- R21, R24: while `BUSY` a host write of `CMD` or `IN_LEN` changes nothing, and neither does a command. -/
def Obligations.BusyWritesIgnored : Prop :=
  ∀ (s : State) (rest : List HostAccess) (w : BitVec 8) (n : Reg32), s.runState = .busy →
    (s.pending = .writeCmd w :: rest → step s = .next { s with pending := rest }) ∧
    (s.pending = .writeInLen n :: rest → step s = .next { s with pending := rest })

/-- R22, R23, R25: a host write of `STATUS`, `ERR` or `OUT_LEN` is ignored at any time. -/
def Obligations.ReadOnlyRegistersIgnoreWrites : Prop :=
  ∀ (s : State) (rest : List HostAccess) (v : BitVec 8) (n : Reg32),
    s.pending = .writeStatus v :: rest ∨ s.pending = .writeErr v :: rest ∨ s.pending = .writeOutLen n :: rest →
    step s = .next { s with pending := rest }

/-- R24: outside `BUSY` every 32-bit value is stored in `IN_LEN`, above `IN_CAP` too, and nothing else changes. -/
def Obligations.InLenStoresAnyValue : Prop :=
  ∀ (s : State) (rest : List HostAccess) (n : Reg32), s.runState ≠ .busy → s.pending = .writeInLen n :: rest →
    step s = .next { s with pending := rest, inLen := n }

/-- R20 to R25: a host read returns the register and changes nothing of the instance; `STATUS` has `STATE` in bits [1:0],
0 `IDLE`, 1 `BUSY`, 2 `DONE`, 3 `ERROR`, then `DICT_FULL` in bit [2] and zeros above. What `OUT_LEN` reads as while
`BUSY` is not stated (R25: a free value, log 6). -/
def Obligations.RegisterReads : Prop :=
  ∀ (s : State) (rest : List HostAccess) (r : HostReg), s.pending = .readReg r :: rest →
    ∃ t, step s = .next t ∧
      t = { s with pending := rest, rdata := t.rdata, freeReads := t.freeReads } ∧
      (s.runState ≠ .busy ∨ r ≠ .outLen → t.freeReads = s.freeReads) ∧
      (r = .cmd → t.rdata.toNat = s.cmd.toNat) ∧ (r = .err → t.rdata.toNat = s.err.toNat) ∧
      (r = .inLen → t.rdata = s.inLen) ∧ (r = .outLen → s.runState ≠ .busy → t.rdata = s.eng.outLen) ∧
      (r = .status →
        (s.runState = .idle → t.rdata.extractLsb' 0 2 = 0) ∧ (s.runState = .busy → t.rdata.extractLsb' 0 2 = 1) ∧
        (s.runState = .done → t.rdata.extractLsb' 0 2 = 2) ∧ (s.runState = .error → t.rdata.extractLsb' 0 2 = 3) ∧
        (t.rdata.getLsbD 2 = true ↔ s.eng.nextFree = 4096) ∧ t.rdata.toNat < 8)

/-- R26: a host write of an `IN_BUF` byte that exists stores that byte and no other; a host read returns the byte the
engine would read and changes nothing; a read after a write returns the byte written. An address that does not exist
faults, for a write and for a read (the model's choice, log 10). -/
def Obligations.InBufWriteThenRead : Prop :=
  ∀ (s : State) (rest : List HostAccess) (a : Nat) (b : Byte),
    (s.pending = .writeIn a b :: rest →
      (s.caps.inCap.toNat ≤ a → step s = .fault (.inBufAddress a)) ∧
      (a < s.caps.inCap.toNat → s.runState ≠ .busy →
        ∃ t, step s = .next t ∧ inByte t a = b ∧ (∀ p, p ≠ a → inByte t p = inByte s p) ∧
          t = { s with pending := rest, inBuf := t.inBuf })) ∧
    (s.pending = .readIn a :: rest →
      (s.caps.inCap.toNat ≤ a → step s = .fault (.inBufAddress a)) ∧
      (a < s.caps.inCap.toNat → s.runState ≠ .busy →
        step s = .next { s with pending := rest, rdata := (inByte s a).setWidth 32 })) ∧
    (s.pending = .writeIn a b :: .readIn a :: rest → a < s.caps.inCap.toNat → s.runState ≠ .busy →
      ∃ t u, step s = .next t ∧ step t = .next u ∧ u.rdata.toNat = b.toNat ∧ u.pending = rest)

/-- R27: a host read of `OUT_BUF` returns the specified byte where there is one and an unspecified value elsewhere
(the free value, so this holds for every value). -/
def Obligations.OutBufReads : Prop :=
  ∀ (s : State) (rest : List HostAccess) (a : Nat), s.pending = .readOut a :: rest → s.runState ≠ .busy →
    (s.caps.outCap.toNat ≤ a → step s = .fault (.outBufAddress a)) ∧
    (∀ b, a < s.caps.outCap.toNat → s.eng.outBuf.read a = some b →
      step s = .next { s with pending := rest, rdata := b.setWidth 32 }) ∧
    (a < s.caps.outCap.toNat → s.eng.outBuf.read a = none →
      step s = .next { s with
        pending := rest, rdata := (Config.unspecifiedByte s.freeReads).setWidth 32, freeReads := s.freeReads + 1 })

/-- R244: a host whose accesses name addresses that exist, and who does not write `IN_BUF` while `BUSY`, never stops
the machine. -/
def Obligations.WellBehavedHostNeverStops : Prop := ∀ s : State, HostBehaves s → ∃ t, step s = .next t

/-- R78, R243, R252: loading a block through the host port makes it the block the next command works on, and changes
nothing of the engine; the script that loads, runs a command and waits shows exactly what that command leaves. -/
def Obligations.LoadedBlockIsTheInput : Prop :=
  ∀ (s : State) (x : List Byte), s.runState ≠ .busy → x.length ≤ s.caps.inCap.toNat →
    ∃ t, runAccesses (loadAccesses x) s = .next t ∧ inBlock t = x ∧ t.inLen.toNat = x.length ∧
      t = { s with inBuf := t.inBuf, inLen := t.inLen } ∧
      (∀ a, x.length ≤ a → t.inBuf.read a = s.inBuf.read a) ∧
      ∀ i : Instr, ∃ u, exec i t = .next u ∧ (runScript [.load x, .command i, .wait] s).observed = [observe u]

/-- R6, R218: a step of one instance is that instance's own step; the others are unchanged; steps of different instances
commute. A platform comes out of reset exactly for parameters within R6, with `N_INSTANCES` instances in one state, and
every step keeps its parameters, the number of its instances and their capacities. -/
def Obligations.InstancesAreIndependent : Prop :=
  (∀ (p : Platform) (i j : Nat) (s u s1 u1 : State), i ≠ j →
    p.instances[i]? = some s → p.instances[j]? = some u → step s = .next s1 → step u = .next u1 →
    ∃ q q1 r, platformStep p i = some (.next q) ∧ platformStep p j = some (.next q1) ∧
      q.instances[i]? = some s1 ∧ (∀ k, k ≠ i → q.instances[k]? = p.instances[k]?) ∧
      platformStep q j = some (.next r) ∧ platformStep q1 i = some (.next r)) ∧
  (∀ c : PlatformParams,
    (c.nInstances = 0 ∨ c.caps.inCap = 0 ∨ c.caps.outCap = 0 → platformReset c = none) ∧
    (1 ≤ c.nInstances → c.caps.inCap ≠ 0 → c.caps.outCap ≠ 0 →
      ∃ p, platformReset c = some p ∧ PlatformSound p ∧ p.params = c ∧
        ∀ s ∈ p.instances, s = { State.reset with caps := c.caps })) ∧
  (∀ (p q : Platform) (i : Nat), PlatformSound p → platformStep p i = some (.next q) → PlatformSound q ∧ q.params = p.params)

-- Memory, arrays, BitStream --------------------------------------------------------------------------------------------

/-- R97 with R92 to R94: from an empty writer and output, writing a stream's bits and flushing makes `OUT_BUF` the
payload of R97, and touches nothing but `W_ACC`, `W_N`, `OUT_BUF` and `OUT_LEN` (R99). -/
def Obligations.WriterLaysStreamOut : Prop :=
  ∀ (cap : Reg32) (bits : List Bool) (e : Engine),
    e.wAcc = 0 → e.wN = 0 → e.outLen = 0 → e.outBuf = [] → (bits.length + 7) / 8 ≤ cap.toNat →
    ∃ e1, (writeBitList cap bits e >>= bsFlush cap) = .ok e1 ∧
      e1.outLen.toNat = (bits.length + 7) / 8 ∧ (∀ a, e1.outBuf.read a = (packBits e.wOrder bits)[a]?) ∧
      e1 = { e with outLen := e1.outLen, outBuf := e1.outBuf }

/-- R97: the payload of a stream gives the stream's bits back, followed by fewer than eight zero bits. -/
def Obligations.PackedStreamReadsBack : Prop :=
  ∀ (o : BitOrder) (bits : List Bool), ∃ n, n < 8 ∧ streamBits o (packBits o bits) = bits ++ List.replicate n false

/-- R95, R96, R98: `BS.READ(w)` returns the number the next `w` bits of the stream stand for and advances `R_POS` by
`w`, changing nothing else; with fewer bits left it raises `CorruptStream`. -/
def Obligations.ReaderReturnsStreamBits : Prop :=
  ∀ (x : List Byte) (w : Nat) (e : Engine), e.rPos ≤ 8 * x.length →
    (e.rPos + w ≤ 8 * x.length →
      bsRead x w e =
        .ok (BitVec.ofNat w (bitsValue e.rOrder (((streamBits e.rOrder x).drop e.rPos).take w)),
          { e with rPos := e.rPos + w })) ∧
    (8 * x.length < e.rPos + w → ∃ e1, bsRead x w e = .error (.corruptStream, e1))

/-- R96: the bits `BS.WRITE(v, w)` appends are read as `v`, in both orders. -/
def Obligations.ReadInvertsWrite : Prop :=
  ∀ (w : Nat) (v : BitVec w) (o : BitOrder), (bitsOf o v).length = w ∧ bitsValue o (bitsOf o v) = v.toNat

-- Predictor --------------------------------------------------------------------------------------------------------------

/-- R140: `PRED.A` writes the deltas, `delta[0]` relative to 0; `AllocationFailure` when `IN_LEN` > `OUT_CAP` and no
other error; of the engine only `OUT_LEN`, `OUT_BUF`, `IN_POS` and `P_PREV` differ from command start (that start keeps
`CODE`, `PREV`, `CUR`, `REMAINING` and the two orders is the model's choice, log 26). That
`IN_POS` ends at `IN_LEN` is read from R29 by inference (log 11). -/
def Obligations.PredictorApplyComputesDeltas : Prop :=
  encode .predA = 0x04 ∧ ∀ s : State, Ready s →
    (s.inLen ≤ s.caps.outCap →
      ∃ t ys, exec .predA s = .next t ∧ Completed t ∧ t.cmd = 0x04 ∧ HostSideKept s t ∧ OutputIs ys t ∧
        t.eng.outLen = s.inLen ∧
        (∀ n, n < s.inLen.toNat → ys[n]? = some (inByte s n - (if n = 0 then 0 else inByte s (n - 1)))) ∧
        t.eng = { s.eng.start with
          outLen := s.inLen, outBuf := t.eng.outBuf, inPos := s.inLen, pPrev := (inBlock s).getLastD 0 }) ∧
    (s.caps.outCap < s.inLen → ∃ t, exec .predA s = .next t ∧ FailedWith .allocationFailure t)

/-- R141: `PRED.U` writes the running sums; errors and frame as for `PRED.A`. That `IN_POS` ends at `IN_LEN` is the
model's choice (log 11, DEDUCED: R29 names the compress-direction commands only), and that command start
keeps `CODE`, `PREV`, `CUR`, `REMAINING` and the two orders is the model's choice too (log 26). -/
def Obligations.PredictorUndoComputesSums : Prop :=
  encode .predU = 0x14 ∧ ∀ s : State, Ready s →
    (s.inLen ≤ s.caps.outCap →
      ∃ t ys, exec .predU s = .next t ∧ Completed t ∧ t.cmd = 0x14 ∧ HostSideKept s t ∧ OutputIs ys t ∧
        t.eng.outLen = s.inLen ∧
        (∀ n, n < s.inLen.toNat → ys[n]? = some (((inBlock s).take (n + 1)).sum)) ∧
        t.eng = { s.eng.start with
          outLen := s.inLen, outBuf := t.eng.outBuf, inPos := s.inLen, pPrev := (inBlock s).sum }) ∧
    (s.caps.outCap < s.inLen → ∃ t, exec .predU s = .next t ∧ FailedWith .allocationFailure t)

/-- R142: `PRED.U` on the output of `PRED.A` on `x` gives `x`, and the other way round; applying twice is neither the
identity nor idempotent. -/
def Obligations.PredictorCommandsAreInverse : Prop :=
  (∀ s t u : State, Ready s → exec .predA s = .next t → Completed t → Ready u → inBlock u = outBlock t →
    s.inLen ≤ u.caps.outCap → ∃ v, exec .predU u = .next v ∧ Completed v ∧ OutputIs (inBlock s) v) ∧
  (∀ s t u : State, Ready s → exec .predU s = .next t → Completed t → Ready u → inBlock u = outBlock t →
    s.inLen ≤ u.caps.outCap → ∃ v, exec .predA u = .next v ∧ Completed v ∧ OutputIs (inBlock s) v) ∧
  deltas [1, 2, 3] = [1, 1, 1] ∧ deltas [1, 1, 1] = [1, 0, 0] ∧
  (∀ n, deltas (List.replicate n 0) = List.replicate n 0) ∧
  (∀ n, deltas (List.replicate (n + 1) 0xFF) = 0xFF :: List.replicate n 0)

/-- R29 to R37, R140, R141: on every path the predictor commands leave the LZW and Huffman state, the bit writer and
the bit reader as command start leaves them (that start keeps `CODE`, `PREV`, `CUR`, `REMAINING` and the two orders is the
model's choice, log 26). -/
def Obligations.PredictorFrame : Prop :=
  ∀ (i : Instr) (s t : State), i = .predA ∨ i = .predU → s.runState ≠ .busy → exec i s = .next t →
    HuffmanStateKept s.eng t.eng ∧ LzwStateKept s.eng t.eng ∧ WriterKept s.eng t.eng ∧ ReaderKept s.eng t.eng ∧
      HostSideKept s t

-- LZW --------------------------------------------------------------------------------------------------------------------

/-- R111, R112: after `DictReset` no lookup finds anything. -/
def Obligations.DictResetEmptiesDictionary : Prop :=
  ∀ (e : Engine) (c : Code) (b : Byte),
    (dictReset e).nextFree = 256 ∧ dictFull (dictReset e) = false ∧ lookup c b (dictReset e) = none ∧
    (dictReset e).dictPrefix = e.dictPrefix ∧ (dictReset e).dictSuffix = e.dictSuffix

/-- R113: `Insert` writes the next entry and advances `NEXT_FREE` by 1, `DICT_FULL` becoming 1 with code 4095; when the
dictionary is full it does nothing. -/
def Obligations.InsertUnlessFull : Prop :=
  ∀ (e : Engine) (c : Code) (b : Byte), 256 ≤ e.nextFree → e.nextFree ≤ 4096 →
    (e.nextFree = 4096 → insert c b e = e) ∧
    (e.nextFree < 4096 →
      prefixAt (insert c b e) e.nextFree.toNat = c ∧ suffixAt (insert c b e) e.nextFree.toNat = b ∧
      (insert c b e).nextFree = e.nextFree + 1 ∧
      (∀ j, 256 ≤ j → j ≠ e.nextFree.toNat →
        prefixAt (insert c b e) j = prefixAt e j ∧ suffixAt (insert c b e) j = suffixAt e j) ∧
      (dictFull (insert c b e) = true ↔ e.nextFree = 4095) ∧
      insert c b e = { e with
        dictPrefix := (insert c b e).dictPrefix, dictSuffix := (insert c b e).dictSuffix, nextFree := e.nextFree + 1 })

/-- R114: `Str` and `First` of a valid code in a sound dictionary. -/
def Obligations.StrFollowsPrefixes : Prop :=
  ∀ (e : Engine) (k : Code), DictionarySound e → k.toNat < e.nextFree.toNat →
    (k.toNat < 256 → str e k = [k.setWidth 8]) ∧
    (256 ≤ k.toNat → str e k = str e (prefixAt e k.toNat) ++ [suffixAt e k.toNat] ∧ (str e k).length ≤ k.toNat - 254) ∧
    (str e k).head? = some (first e k)

/-- R115 to R118, R204(b): `LZW.C` has one code sequence for a block, whatever the room: it obeys R117 (one code per byte
at most, the `t`-th below 256 + `t`, expanding to the block). If its payload fits `OUT_CAP`, `LZW.C` completes with that
payload, its strings in the dictionary are the input, each the longest dictionary string there, and entry 256 + `t` is
(code `t`, first byte of the next string) until the dictionary is full. If it does not fit: `AllocationFailure`. -/
def Obligations.LzwCompressGreedyCodes : Prop :=
  ∀ s : State, Ready s → s.inLen ≠ 0 →
    let codes := lzwGreedyCodes (inBlock s)
    (1 ≤ codes.length ∧ codes.length ≤ s.inLen.toNat ∧ (lzwPayload codes).length = (3 * codes.length + 1) / 2 ∧
      (s.inLen = 1 → lzwPayload codes = [inByte s 0, 0x00]) ∧
      (((inBlock s).zip (inBlock s).tail).Nodup → codes.length = s.inLen.toNat) ∧
      (∀ n k, codes[n]? = some k → k.toNat < 256 + min n 3840) ∧ lzwExpand codes = some (inBlock s)) ∧
    ((lzwPayload codes).length ≤ s.caps.outCap.toNat →
      ∃ t, exec .lzwC s = .next t ∧ Completed t ∧ t.cmd = 0x01 ∧ HostSideKept s t ∧ OutputIs (lzwPayload codes) t ∧
        t.eng.nextFree.toNat = min (256 + codes.length - 1) 4096 ∧
        codes.flatMap (str t.eng) = inBlock s ∧
        (∀ n k k1, codes[n]? = some k → k1.toNat < 256 + min n 3840 →
          str t.eng k1 <+: (inBlock s).drop ((codes.take n).flatMap (str t.eng)).length →
          (str t.eng k1).length ≤ (str t.eng k).length) ∧
        (∀ n k k1, n < 3840 → codes[n]? = some k → codes[n + 1]? = some k1 →
          prefixAt t.eng (256 + n) = k ∧ suffixAt t.eng (256 + n) = first t.eng k1)) ∧
    (s.caps.outCap.toNat < (lzwPayload codes).length →
      ∃ t, exec .lzwC s = .next t ∧ FailedWith .allocationFailure t ∧ t.cmd = 0x01 ∧ HostSideKept s t)

/-- R119 to R124: `LZW.D` on a payload without a spare byte completes with the bytes its whole codes stand for, pad bits
ignored, and its dictionary grows by one entry per code after the first until it is full. -/
def Obligations.LzwDecompressExpandsCodes : Prop :=
  ∀ (s : State) (ys : List Byte), Ready s → s.inLen ≠ 0 → s.inLen.toNat % 3 ≠ 1 →
    lzwExpand (lzwCodesOf (inBlock s)) = some ys → ys.length ≤ s.caps.outCap.toNat →
    ∃ t, exec .lzwD s = .next t ∧ Completed t ∧ t.cmd = 0x11 ∧ HostSideKept s t ∧ OutputIs ys t ∧
      t.eng.nextFree.toNat = min (255 + 8 * s.inLen.toNat / 12) 4096

/-- R119, R121 to R123, R204(b), R209: the errors of `LZW.D`. A spare byte is `CorruptStream` before anything is read
(the codec state is what command start leaves: that start keeps `CODE`, `PREV`, `CUR`, `REMAINING` and the two orders is
the model's choice, log 26). Where
the codes before the first invalid one stand for `ys`, the end is `CorruptStream` if `ys` fits `OUT_CAP` and
`AllocationFailure` if it does not, whichever comes first; valid codes that need more than `OUT_CAP` bytes are
`AllocationFailure`; no payload is `EmptyInput`. -/
def Obligations.LzwDecompressErrors : Prop :=
  ∀ s : State, Ready s →
    (s.inLen = 0 → ∃ t, exec .lzwD s = .next t ∧ FailedWith .emptyInput t) ∧
    (s.inLen.toNat % 3 = 1 → ∃ t, exec .lzwD s = .next t ∧ FailedWith .corruptStream t ∧ t.eng = s.eng.start) ∧
    (s.inLen ≠ 0 → s.inLen.toNat % 3 ≠ 1 →
      let codes := lzwCodesOf (inBlock s)
      (∀ n ys, n < codes.length → lzwExpand (codes.take (n + 1)) = none →
        (n = 0 ∧ ys = []) ∨ lzwExpand (codes.take n) = some ys →
        (ys.length ≤ s.caps.outCap.toNat → ∃ t, exec .lzwD s = .next t ∧ FailedWith .corruptStream t) ∧
        (s.caps.outCap.toNat < ys.length → ∃ t, exec .lzwD s = .next t ∧ FailedWith .allocationFailure t)) ∧
      (∀ ys, lzwExpand codes = some ys → s.caps.outCap.toNat < ys.length →
        ∃ t, exec .lzwD s = .next t ∧ FailedWith .allocationFailure t) ∧
      (lzwExpand codes = none → ∃ n, n < codes.length ∧ lzwExpand (codes.take (n + 1)) = none ∧
        (n = 0 ∨ ∃ ys, lzwExpand (codes.take n) = some ys)))

/-- R126: `LZW.D` on the payload of `LZW.C` on `x` gives `x`; `LZW.D` also accepts payloads `LZW.C` never produces. -/
def Obligations.LzwRoundTrip : Prop :=
  (∀ s : State, Ready s → s.inLen ≠ 0 → (3 * s.inLen.toNat + 1) / 2 ≤ s.caps.outCap.toNat →
    ∃ t, exec .lzwC s = .next t ∧ Completed t ∧
      ∀ u : State, Ready u → inBlock u = outBlock t → s.inLen ≤ u.caps.outCap →
        ∃ v, exec .lzwD u = .next v ∧ Completed v ∧ OutputIs (inBlock s) v) ∧
  (∃ u v : State, Ready u ∧ exec .lzwD u = .next v ∧ Completed v ∧
    ∀ s t : State, s.runState ≠ .busy → exec .lzwC s = .next t → Completed t → outBlock t ≠ inBlock u)

/-- R127: size bounds of completed LZW commands. -/
def Obligations.LzwSizeBounds : Prop :=
  (∀ s t : State, s.runState ≠ .busy → exec .lzwC s = .next t → Completed t →
    2 ≤ t.eng.outLen.toNat ∧ t.eng.outLen.toNat ≤ (3 * s.inLen.toNat + 1) / 2) ∧
  (∀ s t : State, s.runState ≠ .busy → exec .lzwD s = .next t → Completed t →
    2 ≤ s.inLen.toNat ∧ 2 * s.inLen.toNat / 3 ≤ t.eng.outLen.toNat ∧
      t.eng.outLen.toNat ≤ 3841 * (2 * s.inLen.toNat / 3))

/-- R29 to R37, R116, R119: on every path `LZW.C` leaves the Huffman state, the bit reader, `P_PREV` and `PREV`, and
`LZW.D` the Huffman state, the bit writer, `P_PREV`, `IN_POS` and `CODE`, as command start leaves them
(that start keeps `CODE`, `PREV`, `CUR`, `REMAINING` and the two orders is the model's choice, log 26; that decoders leave
`IN_POS` at 0 is log 11). -/
def Obligations.LzwFrame : Prop :=
  ∀ s t : State, s.runState ≠ .busy →
    (exec .lzwC s = .next t → HuffmanStateKept s.eng t.eng ∧ ReaderKept s.eng t.eng ∧ t.eng.pPrev = 0 ∧
      t.eng.prev = s.eng.prev ∧ HostSideKept s t) ∧
    (exec .lzwD s = .next t → HuffmanStateKept s.eng t.eng ∧ WriterKept s.eng t.eng ∧ t.eng.pPrev = 0 ∧
      t.eng.inPos = 0 ∧ t.eng.code = s.eng.code ∧ HostSideKept s t)

-- Huffman ----------------------------------------------------------------------------------------------------------------

/-- R151 to R161, R204(b): where the payload of R158 fits `OUT_CAP`, `HUF.E` completes with it: the serialised tree that
the greedy merge of R152, R153 makes, the 32-bit length, one code a byte; the arena holds 2`L` − 1 nodes and the root is
the last. Where it does not fit: `AllocationFailure`. -/
def Obligations.HuffmanEncodeWritesPayload : Prop :=
  ∀ s : State, Ready s →
    ((huffmanPayload (inBlock s)).length ≤ s.caps.outCap.toNat →
      ∃ t, exec .hufE s = .next t ∧ Completed t ∧ t.cmd = 0x05 ∧ HostSideKept s t ∧
        OutputIs (huffmanPayload (inBlock s)) t ∧
        t.eng.nNodes.toNat = treeNodes (blockTree (inBlock s)) ∧ t.eng.root.toNat = t.eng.nNodes.toNat - 1 ∧
        ∀ b : Byte, (arrayGet t.eng.hist b.toNat 0).toNat = (inBlock s).count b) ∧
    (s.caps.outCap.toNat < (huffmanPayload (inBlock s)).length →
      ∃ t, exec .hufE s = .next t ∧ FailedWith .allocationFailure t ∧ t.cmd = 0x05 ∧ HostSideKept s t)

/-- R150, R154, R155, R164: the tree of a block has exactly one leaf for each of its distinct symbols (one leaf 0x00
for the empty block), 2`L` − 1 nodes, and codes of at most 255 bits of which none is a prefix of another. -/
def Obligations.BlockTreeOneLeafPerSymbol : Prop :=
  ∀ x : List Byte,
    (treeSymbols (blockTree x)).Nodup ∧ (x ≠ [] → ∀ b, b ∈ treeSymbols (blockTree x) ↔ b ∈ x) ∧
    (x = [] → blockTree x = .leaf 0x00) ∧
    treeNodes (blockTree x) = 2 * (treeSymbols (blockTree x)).length - 1 ∧
    (∀ b ∈ x, ∃ c, treeCode b (blockTree x) = some c ∧ c.length ≤ 255) ∧
    (∀ b b1 c c1, treeCode b (blockTree x) = some c → treeCode b1 (blockTree x) = some c1 → c <+: c1 → b = b1)

/-- R154, R161: one distinct symbol costs no code bits, so the payload is the 9-bit leaf and the length, 6 bytes; the
empty block gives `80 00 00 00 00 00`. -/
def Obligations.HuffmanSingleSymbolPayload : Prop :=
  ∀ s : State, Ready s → 6 ≤ s.caps.outCap.toNat →
    (∀ b, inBlock s = List.replicate s.inLen.toNat b → s.inLen ≠ 0 →
      ∃ t, exec .hufE s = .next t ∧ Completed t ∧ t.eng.outLen = 6 ∧
        OutputIs (packBits .msb (true :: bitsOf .msb b ++ bitsOf .msb s.inLen)) t) ∧
    (s.inLen = 0 → ∃ t, exec .hufE s = .next t ∧ Completed t ∧ OutputIs [0x80, 0x00, 0x00, 0x00, 0x00, 0x00] t)

/-- R157, R160, R162, R165: `HUF.D` on a stream that is a serialised tree of at most 511 nodes (any shape, symbols
repeated or not), a length and that many codes completes with the symbols; whatever follows is not read. -/
def Obligations.HuffmanDecodeWalksTree : Prop :=
  ∀ (s : State) (tree : HuffTree) (n : Reg32) (rest : List Bool) (ys : List Byte), Ready s →
    streamBits .msb (inBlock s) = treeBits tree ++ bitsOf .msb n ++ rest → treeNodes tree ≤ 511 →
    treeDecode tree n.toNat rest = some ys → n ≤ s.caps.outCap →
    ∃ t, exec .hufD s = .next t ∧ Completed t ∧ t.cmd = 0x15 ∧ HostSideKept s t ∧ OutputIs ys t ∧
      t.eng.outLen = n ∧ t.eng.remaining = 0 ∧ t.eng.nNodes.toNat = treeNodes tree ∧ t.eng.root = 0

/-- R163: `CorruptStream` when the stream has no serialised tree of at most 511 nodes, when it ends inside the length
field, or when it ends inside a walk before the output is full; `AllocationFailure` when a symbol is to be written to a
full output; whichever comes first. -/
def Obligations.HuffmanDecodeErrors : Prop :=
  ∀ s : State, Ready s →
    ((∀ tree rest, streamBits .msb (inBlock s) = treeBits tree ++ rest → 511 < treeNodes tree) →
      ∃ t, exec .hufD s = .next t ∧ FailedWith .corruptStream t) ∧
    (∀ tree rest, streamBits .msb (inBlock s) = treeBits tree ++ rest → treeNodes tree ≤ 511 →
      (rest.length < 32 → ∃ t, exec .hufD s = .next t ∧ FailedWith .corruptStream t) ∧
      (∀ (n : Reg32) codes, rest = bitsOf .msb n ++ codes →
        (treeDecode tree (min n.toNat (s.caps.outCap.toNat + 1)) codes = none →
          ∃ t, exec .hufD s = .next t ∧ FailedWith .corruptStream t) ∧
        (s.caps.outCap < n → treeDecode tree (s.caps.outCap.toNat + 1) codes ≠ none →
          ∃ t, exec .hufD s = .next t ∧ FailedWith .allocationFailure t)))

/-- R166: `HUF.D` on the payload of `HUF.E` on `x` gives `x`, the empty block included; `HUF.D` also accepts payloads
`HUF.E` never writes. -/
def Obligations.HuffmanRoundTrip : Prop :=
  (∀ s : State, Ready s → (huffmanPayload (inBlock s)).length ≤ s.caps.outCap.toNat →
    ∃ t, exec .hufE s = .next t ∧ Completed t ∧
      ∀ u : State, Ready u → inBlock u = outBlock t → s.inLen ≤ u.caps.outCap →
        ∃ v, exec .hufD u = .next v ∧ Completed v ∧ OutputIs (inBlock s) v) ∧
  (∃ u v : State, Ready u ∧ exec .hufD u = .next v ∧ Completed v ∧
    ∀ s t : State, s.runState ≠ .busy → exec .hufE s = .next t → Completed t → outBlock t ≠ inBlock u)

/-- R29 to R37, R161, R162: on every path `HUF.E` leaves the LZW state, the bit reader, `P_PREV`, `CUR` and
`REMAINING`, and `HUF.D` the LZW state, the bit writer, `P_PREV`, `IN_POS` and the histogram, as command start leaves
them (that start keeps `CODE`, `PREV`, `CUR`, `REMAINING` and the two orders is the model's choice, log 26; that decoders
leave `IN_POS` at 0 is log 11). -/
def Obligations.HuffmanFrame : Prop :=
  ∀ s t : State, s.runState ≠ .busy →
    (exec .hufE s = .next t → LzwStateKept s.eng t.eng ∧ ReaderKept s.eng t.eng ∧ t.eng.pPrev = 0 ∧
      t.eng.cur = s.eng.cur ∧ t.eng.remaining = s.eng.remaining ∧ HostSideKept s t) ∧
    (exec .hufD s = .next t → LzwStateKept s.eng t.eng ∧ WriterKept s.eng t.eng ∧ t.eng.pPrev = 0 ∧
      t.eng.inPos = 0 ∧ t.eng.hist = s.eng.start.hist ∧ HostSideKept s t)

-- Composite commands -------------------------------------------------------------------------------------------------------

/-- R190, R204(b): the codes of `LZWP.C` are those of the deltas of the block and stand for them; where their payload fits
`OUT_CAP`, `LZWP.C` completes with it, and where it does not: `AllocationFailure`. -/
def Obligations.LzwPredictorCompressesDeltas : Prop :=
  ∀ s : State, Ready s → s.inLen ≠ 0 →
    let codes := lzwGreedyCodes (deltas (inBlock s))
    codes.length ≤ s.inLen.toNat ∧ lzwExpand codes = some (deltas (inBlock s)) ∧
    ((lzwPayload codes).length ≤ s.caps.outCap.toNat →
      ∃ t, exec .lzwpC s = .next t ∧ Completed t ∧ t.cmd = 0x02 ∧ HostSideKept s t ∧ OutputIs (lzwPayload codes) t ∧
        t.eng.pPrev = (inBlock s).getLastD 0) ∧
    (s.caps.outCap.toNat < (lzwPayload codes).length →
      ∃ t, exec .lzwpC s = .next t ∧ FailedWith .allocationFailure t ∧ t.cmd = 0x02 ∧ HostSideKept s t)

/-- R191: `LZWP.D` completes with the running sums of the bytes the codes stand for. -/
def Obligations.LzwPredictorDecompressesSums : Prop :=
  ∀ (s : State) (ys : List Byte), Ready s → s.inLen ≠ 0 → s.inLen.toNat % 3 ≠ 1 →
    lzwExpand (lzwCodesOf (inBlock s)) = some ys → ys.length ≤ s.caps.outCap.toNat →
    ∃ t, exec .lzwpD s = .next t ∧ Completed t ∧ t.cmd = 0x12 ∧ HostSideKept s t ∧ OutputIs (sums ys) t ∧
      t.eng.pPrev = ys.sum

/-- R192, R204(b): where the Huffman payload of the deltas fits `OUT_CAP`, `HUFP.C` completes with it, and where it does
not: `AllocationFailure`. -/
def Obligations.HuffmanPredictorEncodesDeltas : Prop :=
  ∀ s : State, Ready s →
    ((huffmanPayload (deltas (inBlock s))).length ≤ s.caps.outCap.toNat →
      ∃ t, exec .hufpC s = .next t ∧ Completed t ∧ t.cmd = 0x03 ∧ HostSideKept s t ∧
        OutputIs (huffmanPayload (deltas (inBlock s))) t ∧ t.eng.pPrev = (inBlock s).getLastD 0) ∧
    (s.caps.outCap.toNat < (huffmanPayload (deltas (inBlock s))).length →
      ∃ t, exec .hufpC s = .next t ∧ FailedWith .allocationFailure t ∧ t.cmd = 0x03 ∧ HostSideKept s t)

/-- R193: `HUFP.D` completes with the running sums of the decoded symbols. -/
def Obligations.HuffmanPredictorDecodesSums : Prop :=
  ∀ (s : State) (tree : HuffTree) (n : Reg32) (rest : List Bool) (ys : List Byte), Ready s →
    streamBits .msb (inBlock s) = treeBits tree ++ bitsOf .msb n ++ rest → treeNodes tree ≤ 511 →
    treeDecode tree n.toNat rest = some ys → n ≤ s.caps.outCap →
    ∃ t, exec .hufpD s = .next t ∧ Completed t ∧ t.cmd = 0x13 ∧ HostSideKept s t ∧ OutputIs (sums ys) t ∧
      t.eng.outLen = n ∧ t.eng.pPrev = ys.sum

/-- R191, R193, R195, R196: the composite commands equal their components chained, errors included: forward, the coder
on the deltas; inverse, the decoder's result summed, with the same status, error, length and `NEXT_FREE`. -/
def Obligations.CompositesChainTheirStages : Prop :=
  (∀ (i j : Instr) (s u : State), (i = .lzwpC ∧ j = .lzwC) ∨ (i = .hufpC ∧ j = .hufE) → Ready s → Ready u →
    s.caps.outCap = u.caps.outCap → inBlock u = deltas (inBlock s) →
    ∃ t v, exec i s = .next t ∧ exec j u = .next v ∧ SameResult t v) ∧
  (∀ (i j : Instr) (s u : State), (i = .lzwpD ∧ j = .lzwD) ∨ (i = .hufpD ∧ j = .hufD) → Ready s → Ready u →
    s.caps.outCap = u.caps.outCap → inBlock u = inBlock s →
    ∃ t v, exec i s = .next t ∧ exec j u = .next v ∧ t.runState = v.runState ∧ t.err = v.err ∧
      t.eng.outLen = v.eng.outLen ∧ t.eng.nextFree = v.eng.nextFree ∧ outBlock t = sums (outBlock v))

/-- R198: the composite round trips, for LZW on non-empty blocks, for Huffman on every block. -/
def Obligations.CompositeRoundTrips : Prop :=
  (∀ s : State, Ready s → s.inLen ≠ 0 → (3 * s.inLen.toNat + 1) / 2 ≤ s.caps.outCap.toNat →
    ∃ t, exec .lzwpC s = .next t ∧ Completed t ∧
      ∀ u : State, Ready u → inBlock u = outBlock t → s.inLen ≤ u.caps.outCap →
        ∃ v, exec .lzwpD u = .next v ∧ Completed v ∧ OutputIs (inBlock s) v) ∧
  (∀ s : State, Ready s → (huffmanPayload (deltas (inBlock s))).length ≤ s.caps.outCap.toNat →
    ∃ t, exec .hufpC s = .next t ∧ Completed t ∧
      ∀ u : State, Ready u → inBlock u = outBlock t → s.inLen ≤ u.caps.outCap →
        ∃ v, exec .hufpD u = .next v ∧ Completed v ∧ OutputIs (inBlock s) v)

/-- R29 to R37, R190 to R193: what the composite commands leave, on every path, as command start leaves it (that
start keeps `CODE`, `PREV`, `CUR`, `REMAINING` and the two orders is the model's choice, log 26; that decoders leave
`IN_POS` at 0 is log 11). -/
def Obligations.CompositeFrame : Prop :=
  ∀ s t : State, s.runState ≠ .busy →
    (exec .lzwpC s = .next t → HuffmanStateKept s.eng t.eng ∧ ReaderKept s.eng t.eng ∧ t.eng.prev = s.eng.prev ∧
      HostSideKept s t) ∧
    (exec .lzwpD s = .next t → HuffmanStateKept s.eng t.eng ∧ WriterKept s.eng t.eng ∧ t.eng.inPos = 0 ∧
      t.eng.code = s.eng.code ∧ HostSideKept s t) ∧
    (exec .hufpC s = .next t → LzwStateKept s.eng t.eng ∧ ReaderKept s.eng t.eng ∧ t.eng.cur = s.eng.cur ∧
      t.eng.remaining = s.eng.remaining ∧ HostSideKept s t) ∧
    (exec .hufpD s = .next t → LzwStateKept s.eng t.eng ∧ WriterKept s.eng t.eng ∧ t.eng.inPos = 0 ∧
      t.eng.hist = s.eng.start.hist ∧ HostSideKept s t)

-- Host contract --------------------------------------------------------------------------------------------------------------

/-- R219: splitting is an exact partition into non-empty blocks of at most `chunk` bytes, all but the last of exactly
`chunk`; a whole-buffer `compress` with a chunk size of 0 or above `IN_CAP` issues no command. That it refuses the empty
buffer too is U20 as log 17 reads it. -/
def Obligations.SplitIsExactPartition : Prop :=
  (∀ (chunk : Nat) (buffer : List Byte), 1 ≤ chunk →
    (splitBlocks chunk buffer).flatten = buffer ∧
    (splitBlocks chunk buffer).length = (buffer.length + chunk - 1) / chunk ∧
    (∀ b ∈ splitBlocks chunk buffer, b ≠ [] ∧ b.length ≤ chunk) ∧
    ∀ n b, (splitBlocks chunk buffer)[n]? = some b → n + 1 < (splitBlocks chunk buffer).length → b.length = chunk) ∧
  (∀ (k : CodecKind) (chunk : Nat) (buffer : List Byte) (s : State),
    (chunk = 0 ∨ s.caps.inCap.toNat < chunk → compressBuffer k chunk buffer s = .error (.chunkSize chunk)) ∧
    (1 ≤ chunk → chunk ≤ s.caps.inCap.toNat →
      compressBuffer k chunk [] s = .error .noBlocks ∧
      ∀ p t, compressBuffer k chunk buffer s = .ok (p, t) →
        ∃ rs, p = packManifest rs ∧ rs.length = (buffer.length + chunk - 1) / chunk))

/-- R221, R222: blocks are read back from the manifest layout; what is accepted is exactly the layout of the blocks
answered, so the header's count and lengths are those of the blocks and add up to the bytes; everything else is
`CorruptStream`. That a manifest of no blocks is accepted here is the model's choice (log 17). -/
def Obligations.ManifestRoundTrip : Prop :=
  (∀ blocks : List (List Byte), blocks.length < 2 ^ 32 → (∀ b ∈ blocks, b.length < 2 ^ 32) →
    unpackManifest (packManifest blocks) = .ok blocks ∧
    (packManifest blocks).length = 4 + 4 * blocks.length + (blocks.map List.length).sum) ∧
  (∀ (p : List Byte) (blocks : List (List Byte)), unpackManifest p = .ok blocks →
    packManifest blocks = p ∧ p.length = 4 + 4 * blocks.length + (blocks.map List.length).sum) ∧
  (∀ (p : List Byte) (k : ErrorKind), unpackManifest p = .error k → k = .corruptStream)
end

