-- ==== Sys2Proof/Laws/Memory.lean ====
section
/-! SUPPORT. Laws of a byte buffer and of state arrays: read after write, the canonical form. -/

namespace Sys2Proof.Machine

@[simp] theorem memory_read_nil (a : Nat) : Memory.read [] a = none := rfl

theorem memory_read_cons (k : Nat) (v : Byte) (m : Memory) (a : Nat) :
    Memory.read ((k, v) :: m) a = if a = k then some v else Memory.read m a := rfl

/-- A byte below every listed address is not listed. -/
theorem memory_read_below (m : Memory) (a : Nat) (h : ∀ c ∈ m, a < c.1) : m.read a = none := by
  induction m with
  | nil => rfl
  | cons c m ih =>
    obtain ⟨k, v⟩ := c
    have hk : a < k := h (k, v) (by simp)
    rw [memory_read_cons, if_neg (by omega)]
    exact ih fun c hc => h c (by simp [hc])

theorem memory_read_write_same (m : Memory) (a : Nat) (b : Byte) : (m.write a b).read a = some b := by
  induction m with
  | nil => simp [Memory.write, Memory.read]
  | cons c m ih =>
    obtain ⟨k, v⟩ := c
    by_cases h1 : a < k
    · simp [Memory.write, h1, Memory.read]
    · by_cases h2 : a = k
      · simp [Memory.write, h2, Memory.read]
      · simp [Memory.write, h1, h2, Memory.read, ih]

theorem memory_read_write_other (m : Memory) (a p : Nat) (b : Byte) (h : p ≠ a) :
    (m.write a b).read p = m.read p := by
  induction m with
  | nil => simp [Memory.write, Memory.read, h]
  | cons c m ih =>
    obtain ⟨k, v⟩ := c
    by_cases h1 : a < k
    · simp [Memory.write, h1, Memory.read, h]
    · by_cases h2 : a = k
      · subst h2; simp [Memory.write, Memory.read, h]
      · simp [Memory.write, h1, h2, Memory.read, ih]

/-- Whoever is listed after a write was listed before, or is the byte written. -/
theorem memory_mem_write (m : Memory) (a : Nat) (b : Byte) (c : Host.Cell) (h : c ∈ m.write a b) :
    c = (a, b) ∨ c ∈ m := by
  induction m with
  | nil => simpa [Memory.write] using h
  | cons d m ih =>
    obtain ⟨k, v⟩ := d
    by_cases h1 : a < k
    · simpa [Memory.write, h1] using h
    · by_cases h2 : a = k
      · subst h2
        simp only [Memory.write, lt_irrefl, if_true, if_false, List.mem_cons] at h ⊢
        tauto
      · simp only [Memory.write, h1, h2, if_false, List.mem_cons] at h ⊢
        rcases h with h | h
        · exact .inr (.inl h)
        · rcases ih h with h | h
          · exact .inl h
          · exact .inr (.inr h)

theorem memory_wf_nil : Memory.wf [] := by simp [Memory.wf]

/-- A write keeps the canonical form. -/
theorem memory_wf_write (m : Memory) (a : Nat) (b : Byte) (h : m.wf) : (m.write a b).wf := by
  induction m with
  | nil => simp [Memory.wf, Memory.write]
  | cons c m ih =>
    obtain ⟨k, v⟩ := c
    have hk : ∀ c ∈ m, k < c.1 := by
      have := (List.pairwise_cons.1 h).1
      intro c hc
      exact this c.1 (List.mem_map.2 ⟨c, hc, rfl⟩)
    have hm : Memory.wf m := (List.pairwise_cons.1 h).2
    by_cases h1 : a < k
    · have : ∀ c ∈ m, a < c.1 := fun c hc => lt_trans h1 (hk c hc)
      rw [Memory.write, if_pos h1]
      simp only [Memory.wf, List.map_cons, List.pairwise_cons, List.mem_cons, List.mem_map, forall_eq_or_imp]
      refine ⟨⟨h1, ?_⟩, ?_, hm⟩
      · rintro x ⟨c, hc, rfl⟩; exact this c hc
      · rintro x ⟨c, hc, rfl⟩; exact hk c hc
    · by_cases h2 : a = k
      · subst h2
        simp only [Memory.write, lt_irrefl, if_false, if_true]
        exact h
      · simp only [Memory.write, h1, h2, if_false, Memory.wf, List.map_cons, List.pairwise_cons, List.mem_map]
        refine ⟨?_, ih hm⟩
        rintro x ⟨c, hc, rfl⟩
        rcases memory_mem_write m a b c hc with h | h
        · rw [h]; simp only; omega
        · exact hk c h

theorem memory_wf_writeBytes (m : Memory) (a : Nat) (bs : List Byte) (h : m.wf) : (m.writeBytes a bs).wf := by
  induction bs generalizing m a with
  | nil => exact h
  | cons b bs ih => exact ih _ _ (memory_wf_write m a b h)

theorem memory_read_writeBytes_below (m : Memory) (a p : Nat) (bs : List Byte) (h : p < a) :
    (m.writeBytes a bs).read p = m.read p := by
  induction bs generalizing m a with
  | nil => rfl
  | cons b bs ih =>
    simp only [Memory.writeBytes]
    rw [ih _ _ (by omega), memory_read_write_other _ _ _ _ (by omega)]

/-- Reading one byte after writing bytes at consecutive addresses. -/
theorem memory_read_writeBytes (m : Memory) (a p : Nat) (bs : List Byte) :
    (m.writeBytes a bs).read p = if a ≤ p ∧ p < a + bs.length then bs[p - a]? else m.read p := by
  induction bs generalizing m a with
  | nil => simp [Memory.writeBytes]
  | cons b bs ih =>
    simp only [Memory.writeBytes, List.length_cons]
    rw [ih]
    by_cases h : p = a
    · subst h
      rw [if_neg (by omega), if_pos (by omega), memory_read_write_same]
      simp
    · rw [memory_read_write_other _ _ _ _ h]
      by_cases h1 : a + 1 ≤ p ∧ p < a + 1 + bs.length
      · rw [if_pos h1, if_pos (by omega)]
        obtain ⟨q, rfl⟩ : ∃ q, p = a + 1 + q := ⟨p - (a + 1), by omega⟩
        have : a + 1 + q - a = q + 1 := by omega
        simp [this]
      · rw [if_neg h1, if_neg (by omega)]

/-- Appending above every listed address. -/
theorem memory_write_append (m : Memory) (a : Nat) (b : Byte) (h : ∀ c ∈ m, c.1 < a) :
    m.write a b = m ++ [(a, b)] := by
  induction m with
  | nil => rfl
  | cons c m ih =>
    obtain ⟨k, v⟩ := c
    have hk : k < a := h (k, v) (by simp)
    simp only [Memory.write, if_neg (show ¬ a < k by omega), if_neg (show ¬ a = k by omega), List.cons_append]
    rw [ih fun c hc => h c (by simp [hc])]

theorem arrayGet_arraySet_same {α : Type} {n : Nat} (v : Vector α n) (i : Nat) (x d : α) (h : i < n) :
    arrayGet (arraySet v i x) i d = x := by simp [arrayGet, arraySet, h]

theorem arrayGet_arraySet_other {α : Type} {n : Nat} (v : Vector α n) (i j : Nat) (x d : α) (h : j ≠ i) :
    arrayGet (arraySet v i x) j d = arrayGet v j d := by
  unfold arrayGet arraySet
  by_cases hi : i < n
  · by_cases hj : j < n
    · simp [hi, hj, Ne.symm h]
    · simp [hj]
  · simp [hi]

theorem arrayGet_replicate {α : Type} {n : Nat} (i : Nat) (x d : α) (h : i < n) :
    arrayGet (Vector.replicate n x) i d = x := by simp [arrayGet, h]

end Sys2Proof.Machine
end

