-- ==== Sys2Proof/Laws/State.lean ====
section
/-! SUPPORT. One lemma per field per named update, each true by `rfl`: no later proof unfolds a record update. -/

namespace Sys2Proof.Machine

-- `consume`

@[simp] theorem consume_outLen (e : Engine) : (consume e).outLen = e.outLen := rfl
@[simp] theorem consume_outBuf (e : Engine) : (consume e).outBuf = e.outBuf := rfl
@[simp] theorem consume_inPos (e : Engine) : (consume e).inPos = e.inPos + 1 := rfl
@[simp] theorem consume_rPos (e : Engine) : (consume e).rPos = e.rPos := rfl
@[simp] theorem consume_wAcc (e : Engine) : (consume e).wAcc = e.wAcc := rfl
@[simp] theorem consume_wN (e : Engine) : (consume e).wN = e.wN := rfl
@[simp] theorem consume_wOrder (e : Engine) : (consume e).wOrder = e.wOrder := rfl
@[simp] theorem consume_rOrder (e : Engine) : (consume e).rOrder = e.rOrder := rfl
@[simp] theorem consume_nextFree (e : Engine) : (consume e).nextFree = e.nextFree := rfl
@[simp] theorem consume_code (e : Engine) : (consume e).code = e.code := rfl
@[simp] theorem consume_prev (e : Engine) : (consume e).prev = e.prev := rfl
@[simp] theorem consume_dictPrefix (e : Engine) : (consume e).dictPrefix = e.dictPrefix := rfl
@[simp] theorem consume_dictSuffix (e : Engine) : (consume e).dictSuffix = e.dictSuffix := rfl
@[simp] theorem consume_pPrev (e : Engine) : (consume e).pPrev = e.pPrev := rfl
@[simp] theorem consume_hist (e : Engine) : (consume e).hist = e.hist := rfl
@[simp] theorem consume_nNodes (e : Engine) : (consume e).nNodes = e.nNodes := rfl
@[simp] theorem consume_nodes (e : Engine) : (consume e).nodes = e.nodes := rfl
@[simp] theorem consume_root (e : Engine) : (consume e).root = e.root := rfl
@[simp] theorem consume_cur (e : Engine) : (consume e).cur = e.cur := rfl
@[simp] theorem consume_remaining (e : Engine) : (consume e).remaining = e.remaining := rfl

-- `Engine.start`

@[simp] theorem engineStart_outLen (e : Engine) : e.start.outLen = 0 := rfl
@[simp] theorem engineStart_outBuf (e : Engine) : e.start.outBuf = [] := rfl
@[simp] theorem engineStart_inPos (e : Engine) : e.start.inPos = 0 := rfl
@[simp] theorem engineStart_rPos (e : Engine) : e.start.rPos = 0 := rfl
@[simp] theorem engineStart_wAcc (e : Engine) : e.start.wAcc = 0 := rfl
@[simp] theorem engineStart_wN (e : Engine) : e.start.wN = 0 := rfl
@[simp] theorem engineStart_wOrder (e : Engine) : e.start.wOrder = e.wOrder := rfl
@[simp] theorem engineStart_rOrder (e : Engine) : e.start.rOrder = e.rOrder := rfl
@[simp] theorem engineStart_nextFree (e : Engine) : e.start.nextFree = 256 := rfl
@[simp] theorem engineStart_code (e : Engine) : e.start.code = e.code := rfl
@[simp] theorem engineStart_prev (e : Engine) : e.start.prev = e.prev := rfl
@[simp] theorem engineStart_dictPrefix (e : Engine) : e.start.dictPrefix = e.dictPrefix := rfl
@[simp] theorem engineStart_dictSuffix (e : Engine) : e.start.dictSuffix = e.dictSuffix := rfl
@[simp] theorem engineStart_pPrev (e : Engine) : e.start.pPrev = 0 := rfl
@[simp] theorem engineStart_hist (e : Engine) : e.start.hist = Vector.replicate Config.alphabet 0 := rfl
@[simp] theorem engineStart_nNodes (e : Engine) : e.start.nNodes = 0 := rfl
@[simp] theorem engineStart_nodes (e : Engine) : e.start.nodes = e.nodes := rfl
@[simp] theorem engineStart_root (e : Engine) : e.start.root = e.root := rfl
@[simp] theorem engineStart_cur (e : Engine) : e.start.cur = e.cur := rfl
@[simp] theorem engineStart_remaining (e : Engine) : e.start.remaining = e.remaining := rfl

-- `bsInitWrite`

@[simp] theorem bsInitWrite_outLen (o : BitOrder) (e : Engine) : (bsInitWrite o e).outLen = e.outLen := rfl
@[simp] theorem bsInitWrite_outBuf (o : BitOrder) (e : Engine) : (bsInitWrite o e).outBuf = e.outBuf := rfl
@[simp] theorem bsInitWrite_inPos (o : BitOrder) (e : Engine) : (bsInitWrite o e).inPos = e.inPos := rfl
@[simp] theorem bsInitWrite_rPos (o : BitOrder) (e : Engine) : (bsInitWrite o e).rPos = e.rPos := rfl
@[simp] theorem bsInitWrite_wAcc (o : BitOrder) (e : Engine) : (bsInitWrite o e).wAcc = 0 := rfl
@[simp] theorem bsInitWrite_wN (o : BitOrder) (e : Engine) : (bsInitWrite o e).wN = 0 := rfl
@[simp] theorem bsInitWrite_wOrder (o : BitOrder) (e : Engine) : (bsInitWrite o e).wOrder = o := rfl
@[simp] theorem bsInitWrite_rOrder (o : BitOrder) (e : Engine) : (bsInitWrite o e).rOrder = e.rOrder := rfl
@[simp] theorem bsInitWrite_nextFree (o : BitOrder) (e : Engine) : (bsInitWrite o e).nextFree = e.nextFree := rfl
@[simp] theorem bsInitWrite_code (o : BitOrder) (e : Engine) : (bsInitWrite o e).code = e.code := rfl
@[simp] theorem bsInitWrite_prev (o : BitOrder) (e : Engine) : (bsInitWrite o e).prev = e.prev := rfl
@[simp] theorem bsInitWrite_dictPrefix (o : BitOrder) (e : Engine) : (bsInitWrite o e).dictPrefix = e.dictPrefix := rfl
@[simp] theorem bsInitWrite_dictSuffix (o : BitOrder) (e : Engine) : (bsInitWrite o e).dictSuffix = e.dictSuffix := rfl
@[simp] theorem bsInitWrite_pPrev (o : BitOrder) (e : Engine) : (bsInitWrite o e).pPrev = e.pPrev := rfl
@[simp] theorem bsInitWrite_hist (o : BitOrder) (e : Engine) : (bsInitWrite o e).hist = e.hist := rfl
@[simp] theorem bsInitWrite_nNodes (o : BitOrder) (e : Engine) : (bsInitWrite o e).nNodes = e.nNodes := rfl
@[simp] theorem bsInitWrite_nodes (o : BitOrder) (e : Engine) : (bsInitWrite o e).nodes = e.nodes := rfl
@[simp] theorem bsInitWrite_root (o : BitOrder) (e : Engine) : (bsInitWrite o e).root = e.root := rfl
@[simp] theorem bsInitWrite_cur (o : BitOrder) (e : Engine) : (bsInitWrite o e).cur = e.cur := rfl
@[simp] theorem bsInitWrite_remaining (o : BitOrder) (e : Engine) : (bsInitWrite o e).remaining = e.remaining := rfl

-- `bsInitRead`

@[simp] theorem bsInitRead_outLen (o : BitOrder) (e : Engine) : (bsInitRead o e).outLen = e.outLen := rfl
@[simp] theorem bsInitRead_outBuf (o : BitOrder) (e : Engine) : (bsInitRead o e).outBuf = e.outBuf := rfl
@[simp] theorem bsInitRead_inPos (o : BitOrder) (e : Engine) : (bsInitRead o e).inPos = e.inPos := rfl
@[simp] theorem bsInitRead_rPos (o : BitOrder) (e : Engine) : (bsInitRead o e).rPos = 0 := rfl
@[simp] theorem bsInitRead_wAcc (o : BitOrder) (e : Engine) : (bsInitRead o e).wAcc = e.wAcc := rfl
@[simp] theorem bsInitRead_wN (o : BitOrder) (e : Engine) : (bsInitRead o e).wN = e.wN := rfl
@[simp] theorem bsInitRead_wOrder (o : BitOrder) (e : Engine) : (bsInitRead o e).wOrder = e.wOrder := rfl
@[simp] theorem bsInitRead_rOrder (o : BitOrder) (e : Engine) : (bsInitRead o e).rOrder = o := rfl
@[simp] theorem bsInitRead_nextFree (o : BitOrder) (e : Engine) : (bsInitRead o e).nextFree = e.nextFree := rfl
@[simp] theorem bsInitRead_code (o : BitOrder) (e : Engine) : (bsInitRead o e).code = e.code := rfl
@[simp] theorem bsInitRead_prev (o : BitOrder) (e : Engine) : (bsInitRead o e).prev = e.prev := rfl
@[simp] theorem bsInitRead_dictPrefix (o : BitOrder) (e : Engine) : (bsInitRead o e).dictPrefix = e.dictPrefix := rfl
@[simp] theorem bsInitRead_dictSuffix (o : BitOrder) (e : Engine) : (bsInitRead o e).dictSuffix = e.dictSuffix := rfl
@[simp] theorem bsInitRead_pPrev (o : BitOrder) (e : Engine) : (bsInitRead o e).pPrev = e.pPrev := rfl
@[simp] theorem bsInitRead_hist (o : BitOrder) (e : Engine) : (bsInitRead o e).hist = e.hist := rfl
@[simp] theorem bsInitRead_nNodes (o : BitOrder) (e : Engine) : (bsInitRead o e).nNodes = e.nNodes := rfl
@[simp] theorem bsInitRead_nodes (o : BitOrder) (e : Engine) : (bsInitRead o e).nodes = e.nodes := rfl
@[simp] theorem bsInitRead_root (o : BitOrder) (e : Engine) : (bsInitRead o e).root = e.root := rfl
@[simp] theorem bsInitRead_cur (o : BitOrder) (e : Engine) : (bsInitRead o e).cur = e.cur := rfl
@[simp] theorem bsInitRead_remaining (o : BitOrder) (e : Engine) : (bsInitRead o e).remaining = e.remaining := rfl

-- `dictReset`

@[simp] theorem dictReset_outLen (e : Engine) : (dictReset e).outLen = e.outLen := rfl
@[simp] theorem dictReset_outBuf (e : Engine) : (dictReset e).outBuf = e.outBuf := rfl
@[simp] theorem dictReset_inPos (e : Engine) : (dictReset e).inPos = e.inPos := rfl
@[simp] theorem dictReset_rPos (e : Engine) : (dictReset e).rPos = e.rPos := rfl
@[simp] theorem dictReset_wAcc (e : Engine) : (dictReset e).wAcc = e.wAcc := rfl
@[simp] theorem dictReset_wN (e : Engine) : (dictReset e).wN = e.wN := rfl
@[simp] theorem dictReset_wOrder (e : Engine) : (dictReset e).wOrder = e.wOrder := rfl
@[simp] theorem dictReset_rOrder (e : Engine) : (dictReset e).rOrder = e.rOrder := rfl
@[simp] theorem dictReset_nextFree (e : Engine) : (dictReset e).nextFree = 256 := rfl
@[simp] theorem dictReset_code (e : Engine) : (dictReset e).code = e.code := rfl
@[simp] theorem dictReset_prev (e : Engine) : (dictReset e).prev = e.prev := rfl
@[simp] theorem dictReset_dictPrefix (e : Engine) : (dictReset e).dictPrefix = e.dictPrefix := rfl
@[simp] theorem dictReset_dictSuffix (e : Engine) : (dictReset e).dictSuffix = e.dictSuffix := rfl
@[simp] theorem dictReset_pPrev (e : Engine) : (dictReset e).pPrev = e.pPrev := rfl
@[simp] theorem dictReset_hist (e : Engine) : (dictReset e).hist = e.hist := rfl
@[simp] theorem dictReset_nNodes (e : Engine) : (dictReset e).nNodes = e.nNodes := rfl
@[simp] theorem dictReset_nodes (e : Engine) : (dictReset e).nodes = e.nodes := rfl
@[simp] theorem dictReset_root (e : Engine) : (dictReset e).root = e.root := rfl
@[simp] theorem dictReset_cur (e : Engine) : (dictReset e).cur = e.cur := rfl
@[simp] theorem dictReset_remaining (e : Engine) : (dictReset e).remaining = e.remaining := rfl

-- `setNode`

@[simp] theorem setNode_outLen (e : Engine) (n : NodeId) (d : Node) : (setNode e n d).outLen = e.outLen := rfl
@[simp] theorem setNode_outBuf (e : Engine) (n : NodeId) (d : Node) : (setNode e n d).outBuf = e.outBuf := rfl
@[simp] theorem setNode_inPos (e : Engine) (n : NodeId) (d : Node) : (setNode e n d).inPos = e.inPos := rfl
@[simp] theorem setNode_rPos (e : Engine) (n : NodeId) (d : Node) : (setNode e n d).rPos = e.rPos := rfl
@[simp] theorem setNode_wAcc (e : Engine) (n : NodeId) (d : Node) : (setNode e n d).wAcc = e.wAcc := rfl
@[simp] theorem setNode_wN (e : Engine) (n : NodeId) (d : Node) : (setNode e n d).wN = e.wN := rfl
@[simp] theorem setNode_wOrder (e : Engine) (n : NodeId) (d : Node) : (setNode e n d).wOrder = e.wOrder := rfl
@[simp] theorem setNode_rOrder (e : Engine) (n : NodeId) (d : Node) : (setNode e n d).rOrder = e.rOrder := rfl
@[simp] theorem setNode_nextFree (e : Engine) (n : NodeId) (d : Node) : (setNode e n d).nextFree = e.nextFree := rfl
@[simp] theorem setNode_code (e : Engine) (n : NodeId) (d : Node) : (setNode e n d).code = e.code := rfl
@[simp] theorem setNode_prev (e : Engine) (n : NodeId) (d : Node) : (setNode e n d).prev = e.prev := rfl
@[simp] theorem setNode_dictPrefix (e : Engine) (n : NodeId) (d : Node) : (setNode e n d).dictPrefix = e.dictPrefix := rfl
@[simp] theorem setNode_dictSuffix (e : Engine) (n : NodeId) (d : Node) : (setNode e n d).dictSuffix = e.dictSuffix := rfl
@[simp] theorem setNode_pPrev (e : Engine) (n : NodeId) (d : Node) : (setNode e n d).pPrev = e.pPrev := rfl
@[simp] theorem setNode_hist (e : Engine) (n : NodeId) (d : Node) : (setNode e n d).hist = e.hist := rfl
@[simp] theorem setNode_nNodes (e : Engine) (n : NodeId) (d : Node) : (setNode e n d).nNodes = e.nNodes := rfl
@[simp] theorem setNode_nodes (e : Engine) (n : NodeId) (d : Node) : (setNode e n d).nodes = arraySet e.nodes n.toNat d := rfl
@[simp] theorem setNode_root (e : Engine) (n : NodeId) (d : Node) : (setNode e n d).root = e.root := rfl
@[simp] theorem setNode_cur (e : Engine) (n : NodeId) (d : Node) : (setNode e n d).cur = e.cur := rfl
@[simp] theorem setNode_remaining (e : Engine) (n : NodeId) (d : Node) : (setNode e n d).remaining = e.remaining := rfl

-- `addNode`

@[simp] theorem addNode_outLen (d : Node) (e : Engine) : (addNode d e).outLen = e.outLen := rfl
@[simp] theorem addNode_outBuf (d : Node) (e : Engine) : (addNode d e).outBuf = e.outBuf := rfl
@[simp] theorem addNode_inPos (d : Node) (e : Engine) : (addNode d e).inPos = e.inPos := rfl
@[simp] theorem addNode_rPos (d : Node) (e : Engine) : (addNode d e).rPos = e.rPos := rfl
@[simp] theorem addNode_wAcc (d : Node) (e : Engine) : (addNode d e).wAcc = e.wAcc := rfl
@[simp] theorem addNode_wN (d : Node) (e : Engine) : (addNode d e).wN = e.wN := rfl
@[simp] theorem addNode_wOrder (d : Node) (e : Engine) : (addNode d e).wOrder = e.wOrder := rfl
@[simp] theorem addNode_rOrder (d : Node) (e : Engine) : (addNode d e).rOrder = e.rOrder := rfl
@[simp] theorem addNode_nextFree (d : Node) (e : Engine) : (addNode d e).nextFree = e.nextFree := rfl
@[simp] theorem addNode_code (d : Node) (e : Engine) : (addNode d e).code = e.code := rfl
@[simp] theorem addNode_prev (d : Node) (e : Engine) : (addNode d e).prev = e.prev := rfl
@[simp] theorem addNode_dictPrefix (d : Node) (e : Engine) : (addNode d e).dictPrefix = e.dictPrefix := rfl
@[simp] theorem addNode_dictSuffix (d : Node) (e : Engine) : (addNode d e).dictSuffix = e.dictSuffix := rfl
@[simp] theorem addNode_pPrev (d : Node) (e : Engine) : (addNode d e).pPrev = e.pPrev := rfl
@[simp] theorem addNode_hist (d : Node) (e : Engine) : (addNode d e).hist = e.hist := rfl
@[simp] theorem addNode_nNodes (d : Node) (e : Engine) : (addNode d e).nNodes = e.nNodes + 1 := rfl
@[simp] theorem addNode_nodes (d : Node) (e : Engine) : (addNode d e).nodes = arraySet e.nodes (nextNode e).toNat d := rfl
@[simp] theorem addNode_root (d : Node) (e : Engine) : (addNode d e).root = e.root := rfl
@[simp] theorem addNode_cur (d : Node) (e : Engine) : (addNode d e).cur = e.cur := rfl
@[simp] theorem addNode_remaining (d : Node) (e : Engine) : (addNode d e).remaining = e.remaining := rfl

-- `countByte`

@[simp] theorem countByte_outLen (e : Engine) (b : Byte) : (countByte e b).outLen = e.outLen := rfl
@[simp] theorem countByte_outBuf (e : Engine) (b : Byte) : (countByte e b).outBuf = e.outBuf := rfl
@[simp] theorem countByte_inPos (e : Engine) (b : Byte) : (countByte e b).inPos = e.inPos := rfl
@[simp] theorem countByte_rPos (e : Engine) (b : Byte) : (countByte e b).rPos = e.rPos := rfl
@[simp] theorem countByte_wAcc (e : Engine) (b : Byte) : (countByte e b).wAcc = e.wAcc := rfl
@[simp] theorem countByte_wN (e : Engine) (b : Byte) : (countByte e b).wN = e.wN := rfl
@[simp] theorem countByte_wOrder (e : Engine) (b : Byte) : (countByte e b).wOrder = e.wOrder := rfl
@[simp] theorem countByte_rOrder (e : Engine) (b : Byte) : (countByte e b).rOrder = e.rOrder := rfl
@[simp] theorem countByte_nextFree (e : Engine) (b : Byte) : (countByte e b).nextFree = e.nextFree := rfl
@[simp] theorem countByte_code (e : Engine) (b : Byte) : (countByte e b).code = e.code := rfl
@[simp] theorem countByte_prev (e : Engine) (b : Byte) : (countByte e b).prev = e.prev := rfl
@[simp] theorem countByte_dictPrefix (e : Engine) (b : Byte) : (countByte e b).dictPrefix = e.dictPrefix := rfl
@[simp] theorem countByte_dictSuffix (e : Engine) (b : Byte) : (countByte e b).dictSuffix = e.dictSuffix := rfl
@[simp] theorem countByte_pPrev (e : Engine) (b : Byte) : (countByte e b).pPrev = e.pPrev := rfl
@[simp] theorem countByte_hist (e : Engine) (b : Byte) : (countByte e b).hist = arraySet e.hist b.toNat (histAt e b + 1) := rfl
@[simp] theorem countByte_nNodes (e : Engine) (b : Byte) : (countByte e b).nNodes = e.nNodes := rfl
@[simp] theorem countByte_nodes (e : Engine) (b : Byte) : (countByte e b).nodes = e.nodes := rfl
@[simp] theorem countByte_root (e : Engine) (b : Byte) : (countByte e b).root = e.root := rfl
@[simp] theorem countByte_cur (e : Engine) (b : Byte) : (countByte e b).cur = e.cur := rfl
@[simp] theorem countByte_remaining (e : Engine) (b : Byte) : (countByte e b).remaining = e.remaining := rfl

-- `commandStart`

@[simp] theorem commandStart_cmd (w : BitVec 8) (s : State) : (commandStart w s).cmd = w := rfl
@[simp] theorem commandStart_runState (w : BitVec 8) (s : State) : (commandStart w s).runState = .busy := rfl
@[simp] theorem commandStart_err (w : BitVec 8) (s : State) : (commandStart w s).err = 0 := rfl
@[simp] theorem commandStart_inLen (w : BitVec 8) (s : State) : (commandStart w s).inLen = s.inLen := rfl
@[simp] theorem commandStart_inBuf (w : BitVec 8) (s : State) : (commandStart w s).inBuf = s.inBuf := rfl
@[simp] theorem commandStart_eng (w : BitVec 8) (s : State) : (commandStart w s).eng = s.eng.start := rfl
@[simp] theorem commandStart_caps (w : BitVec 8) (s : State) : (commandStart w s).caps = s.caps := rfl
@[simp] theorem commandStart_pending (w : BitVec 8) (s : State) : (commandStart w s).pending = s.pending := rfl
@[simp] theorem commandStart_rdata (w : BitVec 8) (s : State) : (commandStart w s).rdata = s.rdata := rfl
@[simp] theorem commandStart_resets (w : BitVec 8) (s : State) : (commandStart w s).resets = s.resets := rfl
@[simp] theorem commandStart_freeReads (w : BitVec 8) (s : State) : (commandStart w s).freeReads = s.freeReads := rfl

-- `takeError`

@[simp] theorem takeError_cmd (k : ErrorKind) (s : State) : (takeError k s).cmd = s.cmd := rfl
@[simp] theorem takeError_runState (k : ErrorKind) (s : State) : (takeError k s).runState = .error := rfl
@[simp] theorem takeError_err (k : ErrorKind) (s : State) : (takeError k s).err = k.code := rfl
@[simp] theorem takeError_inLen (k : ErrorKind) (s : State) : (takeError k s).inLen = s.inLen := rfl
@[simp] theorem takeError_inBuf (k : ErrorKind) (s : State) : (takeError k s).inBuf = s.inBuf := rfl
@[simp] theorem takeError_eng (k : ErrorKind) (s : State) : (takeError k s).eng = { s.eng with outLen := 0, outBuf := [] } := rfl
@[simp] theorem takeError_caps (k : ErrorKind) (s : State) : (takeError k s).caps = s.caps := rfl
@[simp] theorem takeError_pending (k : ErrorKind) (s : State) : (takeError k s).pending = s.pending := rfl
@[simp] theorem takeError_rdata (k : ErrorKind) (s : State) : (takeError k s).rdata = s.rdata := rfl
@[simp] theorem takeError_resets (k : ErrorKind) (s : State) : (takeError k s).resets = s.resets := rfl
@[simp] theorem takeError_freeReads (k : ErrorKind) (s : State) : (takeError k s).freeReads = s.freeReads := rfl

-- `complete`

@[simp] theorem complete_ok_cmd (s : State) (e : Engine) : (complete s (.ok e)).cmd = s.cmd := rfl
@[simp] theorem complete_ok_runState (s : State) (e : Engine) : (complete s (.ok e)).runState = .done := rfl
@[simp] theorem complete_ok_err (s : State) (e : Engine) : (complete s (.ok e)).err = s.err := rfl
@[simp] theorem complete_ok_inLen (s : State) (e : Engine) : (complete s (.ok e)).inLen = s.inLen := rfl
@[simp] theorem complete_ok_inBuf (s : State) (e : Engine) : (complete s (.ok e)).inBuf = s.inBuf := rfl
@[simp] theorem complete_ok_eng (s : State) (e : Engine) : (complete s (.ok e)).eng = e := rfl
@[simp] theorem complete_ok_caps (s : State) (e : Engine) : (complete s (.ok e)).caps = s.caps := rfl
@[simp] theorem complete_ok_pending (s : State) (e : Engine) : (complete s (.ok e)).pending = s.pending := rfl
@[simp] theorem complete_ok_rdata (s : State) (e : Engine) : (complete s (.ok e)).rdata = s.rdata := rfl
@[simp] theorem complete_ok_resets (s : State) (e : Engine) : (complete s (.ok e)).resets = s.resets := rfl
@[simp] theorem complete_ok_freeReads (s : State) (e : Engine) : (complete s (.ok e)).freeReads = s.freeReads := rfl
@[simp] theorem complete_error_cmd (s : State) (k : ErrorKind) (e : Engine) : (complete s (.error (k, e))).cmd = s.cmd := rfl
@[simp] theorem complete_error_runState (s : State) (k : ErrorKind) (e : Engine) : (complete s (.error (k, e))).runState = .error := rfl
@[simp] theorem complete_error_err (s : State) (k : ErrorKind) (e : Engine) : (complete s (.error (k, e))).err = k.code := rfl
@[simp] theorem complete_error_inLen (s : State) (k : ErrorKind) (e : Engine) : (complete s (.error (k, e))).inLen = s.inLen := rfl
@[simp] theorem complete_error_inBuf (s : State) (k : ErrorKind) (e : Engine) : (complete s (.error (k, e))).inBuf = s.inBuf := rfl
@[simp] theorem complete_error_eng (s : State) (k : ErrorKind) (e : Engine) : (complete s (.error (k, e))).eng = { e with outLen := 0, outBuf := [] } := rfl
@[simp] theorem complete_error_caps (s : State) (k : ErrorKind) (e : Engine) : (complete s (.error (k, e))).caps = s.caps := rfl
@[simp] theorem complete_error_pending (s : State) (k : ErrorKind) (e : Engine) : (complete s (.error (k, e))).pending = s.pending := rfl
@[simp] theorem complete_error_rdata (s : State) (k : ErrorKind) (e : Engine) : (complete s (.error (k, e))).rdata = s.rdata := rfl
@[simp] theorem complete_error_resets (s : State) (k : ErrorKind) (e : Engine) : (complete s (.error (k, e))).resets = s.resets := rfl
@[simp] theorem complete_error_freeReads (s : State) (k : ErrorKind) (e : Engine) : (complete s (.error (k, e))).freeReads = s.freeReads := rfl

-- `returnValue`

@[simp] theorem returnValue_cmd (v : Reg32) (s : State) : (returnValue v s).cmd = s.cmd := rfl
@[simp] theorem returnValue_runState (v : Reg32) (s : State) : (returnValue v s).runState = s.runState := rfl
@[simp] theorem returnValue_err (v : Reg32) (s : State) : (returnValue v s).err = s.err := rfl
@[simp] theorem returnValue_inLen (v : Reg32) (s : State) : (returnValue v s).inLen = s.inLen := rfl
@[simp] theorem returnValue_inBuf (v : Reg32) (s : State) : (returnValue v s).inBuf = s.inBuf := rfl
@[simp] theorem returnValue_eng (v : Reg32) (s : State) : (returnValue v s).eng = s.eng := rfl
@[simp] theorem returnValue_caps (v : Reg32) (s : State) : (returnValue v s).caps = s.caps := rfl
@[simp] theorem returnValue_pending (v : Reg32) (s : State) : (returnValue v s).pending = s.pending := rfl
@[simp] theorem returnValue_rdata (v : Reg32) (s : State) : (returnValue v s).rdata = v := rfl
@[simp] theorem returnValue_resets (v : Reg32) (s : State) : (returnValue v s).resets = s.resets := rfl
@[simp] theorem returnValue_freeReads (v : Reg32) (s : State) : (returnValue v s).freeReads = s.freeReads := rfl

-- `returnUnspecified`

@[simp] theorem returnUnspecified_cmd (v : Reg32) (s : State) : (returnUnspecified v s).cmd = s.cmd := rfl
@[simp] theorem returnUnspecified_runState (v : Reg32) (s : State) : (returnUnspecified v s).runState = s.runState := rfl
@[simp] theorem returnUnspecified_err (v : Reg32) (s : State) : (returnUnspecified v s).err = s.err := rfl
@[simp] theorem returnUnspecified_inLen (v : Reg32) (s : State) : (returnUnspecified v s).inLen = s.inLen := rfl
@[simp] theorem returnUnspecified_inBuf (v : Reg32) (s : State) : (returnUnspecified v s).inBuf = s.inBuf := rfl
@[simp] theorem returnUnspecified_eng (v : Reg32) (s : State) : (returnUnspecified v s).eng = s.eng := rfl
@[simp] theorem returnUnspecified_caps (v : Reg32) (s : State) : (returnUnspecified v s).caps = s.caps := rfl
@[simp] theorem returnUnspecified_pending (v : Reg32) (s : State) : (returnUnspecified v s).pending = s.pending := rfl
@[simp] theorem returnUnspecified_rdata (v : Reg32) (s : State) : (returnUnspecified v s).rdata = v := rfl
@[simp] theorem returnUnspecified_resets (v : Reg32) (s : State) : (returnUnspecified v s).resets = s.resets := rfl
@[simp] theorem returnUnspecified_freeReads (v : Reg32) (s : State) : (returnUnspecified v s).freeReads = s.freeReads + 1 := rfl

-- `hardwareReset`

@[simp] theorem hardwareReset_cmd (s : State) : (hardwareReset s).cmd = 0 := rfl
@[simp] theorem hardwareReset_runState (s : State) : (hardwareReset s).runState = .idle := rfl
@[simp] theorem hardwareReset_err (s : State) : (hardwareReset s).err = 0 := rfl
@[simp] theorem hardwareReset_inLen (s : State) : (hardwareReset s).inLen = 0 := rfl
@[simp] theorem hardwareReset_inBuf (s : State) : (hardwareReset s).inBuf = [] := rfl
@[simp] theorem hardwareReset_eng (s : State) : (hardwareReset s).eng = Engine.reset := rfl
@[simp] theorem hardwareReset_caps (s : State) : (hardwareReset s).caps = s.caps := rfl
@[simp] theorem hardwareReset_pending (s : State) : (hardwareReset s).pending = s.pending := rfl
@[simp] theorem hardwareReset_rdata (s : State) : (hardwareReset s).rdata = s.rdata := rfl
@[simp] theorem hardwareReset_resets (s : State) : (hardwareReset s).resets = s.resets + 1 := rfl
@[simp] theorem hardwareReset_freeReads (s : State) : (hardwareReset s).freeReads = s.freeReads := rfl

-- `State.queueCommand`

@[simp] theorem queueCommand_cmd (s : State) (w : BitVec 8) : (s.queueCommand w).cmd = s.cmd := rfl
@[simp] theorem queueCommand_runState (s : State) (w : BitVec 8) : (s.queueCommand w).runState = s.runState := rfl
@[simp] theorem queueCommand_err (s : State) (w : BitVec 8) : (s.queueCommand w).err = s.err := rfl
@[simp] theorem queueCommand_inLen (s : State) (w : BitVec 8) : (s.queueCommand w).inLen = s.inLen := rfl
@[simp] theorem queueCommand_inBuf (s : State) (w : BitVec 8) : (s.queueCommand w).inBuf = s.inBuf := rfl
@[simp] theorem queueCommand_eng (s : State) (w : BitVec 8) : (s.queueCommand w).eng = s.eng := rfl
@[simp] theorem queueCommand_caps (s : State) (w : BitVec 8) : (s.queueCommand w).caps = s.caps := rfl
@[simp] theorem queueCommand_pending (s : State) (w : BitVec 8) : (s.queueCommand w).pending = .writeCmd w :: s.pending := rfl
@[simp] theorem queueCommand_rdata (s : State) (w : BitVec 8) : (s.queueCommand w).rdata = s.rdata := rfl
@[simp] theorem queueCommand_resets (s : State) (w : BitVec 8) : (s.queueCommand w).resets = s.resets := rfl
@[simp] theorem queueCommand_freeReads (s : State) (w : BitVec 8) : (s.queueCommand w).freeReads = s.freeReads := rfl

end Sys2Proof.Machine
end

