-- ==== Sys2Proof/Laws/Ops.lean ====
section
/-! SUPPORT. For each shared operation one lemma that says once everything it can do, and the principle by which a
property of the engine is carried through a computation whatever its outcome. -/

namespace Sys2Proof.Machine

/-- A property of the engine holds where a computation ends, normally (`out` finds the engine in the result) or at a
`raise`. -/
def EffKeeps (P : Engine → Prop) {α : Type} (out : α → Engine) : Eff α → Prop
  | .ok a => P (out a)
  | .error (_, e) => P e

@[simp] theorem effKeeps_ok (P : Engine → Prop) {α : Type} (out : α → Engine) (a : α) :
    EffKeeps P out (.ok a) = P (out a) := rfl

@[simp] theorem effKeeps_error (P : Engine → Prop) {α : Type} (out : α → Engine) (k : ErrorKind) (e : Engine) :
    EffKeeps P out (.error (k, e)) = P e := rfl

@[simp] theorem effKeeps_raise (P : Engine → Prop) {α : Type} (out : α → Engine) (k : ErrorKind) (e : Engine) :
    EffKeeps P out (raise k e) = P e := rfl

@[simp] theorem eff_ok_bind {α β : Type} (a : α) (f : α → Eff β) : ((.ok a : Eff α) >>= f) = f a := rfl

@[simp] theorem eff_error_bind {α β : Type} (x : ErrorKind × Engine) (f : α → Eff β) :
    ((.error x : Eff α) >>= f) = .error x := rfl

@[simp] theorem eff_raise_bind {α β : Type} (k : ErrorKind) (e : Engine) (f : α → Eff β) :
    ((raise k e : Eff α) >>= f) = raise k e := rfl

theorem effKeeps_bind {P : Engine → Prop} {α β : Type} {out : α → Engine} {out1 : β → Engine} {x : Eff α}
    {f : α → Eff β} (hx : EffKeeps P out x) (hf : ∀ a, P (out a) → EffKeeps P out1 (f a)) :
    EffKeeps P out1 (x >>= f) := by
  cases x with
  | ok a => exact hf a hx
  | error p => exact hx

/-- A computation that ends normally: what its first part gave. -/
theorem eff_bind_eq_ok {α β : Type} {x : Eff α} {f : α → Eff β} {b : β} (h : (x >>= f) = .ok b) :
    ∃ a, x = .ok a ∧ f a = .ok b := by
  cases x with
  | ok a => exact ⟨a, rfl, h⟩
  | error p => cases h

/-- A computation that raises: in its first part or after it. -/
theorem eff_bind_eq_error {α β : Type} {x : Eff α} {f : α → Eff β} {p : ErrorKind × Engine}
    (h : (x >>= f) = .error p) : x = .error p ∨ ∃ a, x = .ok a ∧ f a = .error p := by
  cases x with
  | ok a => exact .inr ⟨a, rfl, h⟩
  | error q =>
    cases (show (Except.error q : Eff β) = .error p from h)
    exact .inl rfl

/-- Everything `OutByte` can do. -/
theorem outByte_cases (cap : Reg32) (b : Byte) (e : Engine) :
    (e.outLen = cap ∧ outByte cap b e = .error (.allocationFailure, e)) ∨
    (e.outLen ≠ cap ∧
      outByte cap b e = .ok { e with outBuf := e.outBuf.write e.outLen.toNat b, outLen := e.outLen + 1 }) := by
  by_cases h : e.outLen = cap
  · exact .inl ⟨h, by simp [outByte, h, raise]⟩
  · exact .inr ⟨h, by simp [outByte, h]⟩

theorem outByte_keeps {P : Engine → Prop} {cap : Reg32} {b : Byte} {e : Engine} (h : P e)
    (hout : e.outLen ≠ cap → P { e with outBuf := e.outBuf.write e.outLen.toNat b, outLen := e.outLen + 1 }) :
    EffKeeps P id (outByte cap b e) := by
  rcases outByte_cases cap b e with ⟨_, hb⟩ | ⟨hc, hb⟩
  · rw [hb]; exact h
  · rw [hb]; exact hout hc

theorem emitAll_keeps {P : Engine → Prop} {emit : Byte → Engine → Eff Engine}
    (hemit : ∀ b e, P e → EffKeeps P id (emit b e)) (bs : List Byte) (e : Engine) (h : P e) :
    EffKeeps P id (emitAll emit bs e) := by
  induction bs generalizing e with
  | nil => exact h
  | cons b bs ih => exact effKeeps_bind (hemit b e h) fun e1 h1 => ih e1 h1

@[simp] theorem emitAll_nil (emit : Byte → Engine → Eff Engine) (e : Engine) : emitAll emit [] e = .ok e := rfl

theorem emitAll_cons (emit : Byte → Engine → Eff Engine) (b : Byte) (bs : List Byte) (e : Engine) :
    emitAll emit (b :: bs) e = (emit b e >>= emitAll emit bs) := rfl

theorem emitAll_append (emit : Byte → Engine → Eff Engine) (bs cs : List Byte) (e : Engine) :
    emitAll emit (bs ++ cs) e = (emitAll emit bs e >>= emitAll emit cs) := by
  induction bs generalizing e with
  | nil => rfl
  | cons b bs ih =>
    rw [List.cons_append, emitAll_cons, emitAll_cons]
    cases emit b e with
    | ok e1 => exact ih e1
    | error p => rfl

/-- How a command completes (R210). -/
theorem complete_cases (s : State) (r : Eff Engine) :
    (∃ e, r = .ok e ∧ complete s r = { s with eng := e, runState := .done }) ∨
    (∃ k e, r = .error (k, e) ∧ complete s r = takeError k { s with eng := e }) := by
  cases r with
  | ok e => exact .inl ⟨e, rfl, rfl⟩
  | error p => exact .inr ⟨p.1, p.2, rfl, rfl⟩

/-- Everything a `CMD` write of a legal word can do (R73, R21). -/
theorem runCommand_cases (w : BitVec 8) (body : List Byte → Engine → Eff Engine) (s : State) :
    (s.runState = .busy ∧ runCommand w body s = .next s) ∨
    (s.runState ≠ .busy ∧ s.caps.inCap < s.inLen ∧
      runCommand w body s = .next (takeError .allocationFailure (commandStart w s))) ∨
    (s.runState ≠ .busy ∧ s.inLen ≤ s.caps.inCap ∧
      runCommand w body s = .next (complete (commandStart w s) (body (inBlock s) s.eng.start))) := by
  by_cases h : s.runState = .busy
  · exact .inl ⟨h, by simp [runCommand, h]⟩
  · by_cases hc : s.caps.inCap < s.inLen
    · exact .inr (.inl ⟨h, hc, by simp [runCommand, h, hc]⟩)
    · exact .inr (.inr ⟨h, BitVec.not_lt.1 hc, by simp [runCommand, h, hc]; rfl⟩)

/-- A started command whose block fits: the body runs on the block, from the start values. -/
theorem runCommand_ready (w : BitVec 8) (body : List Byte → Engine → Eff Engine) (s : State)
    (h : s.runState ≠ .busy) (hc : s.inLen ≤ s.caps.inCap) :
    runCommand w body s = .next (complete (commandStart w s) (body (inBlock s) s.eng.start)) := by
  rcases runCommand_cases w body s with ⟨h1, _⟩ | ⟨_, h1, _⟩ | ⟨_, _, h1⟩
  · exact absurd h1 h
  · exact absurd hc (BitVec.not_le.2 h1)
  · exact h1

/-- Everything a `CMD` write of an illegal or reserved word can do (R75, R21). -/
theorem rejectCommand_cases (w : BitVec 8) (s : State) :
    (s.runState = .busy ∧ rejectCommand w s = .next s) ∨
    (s.runState ≠ .busy ∧ rejectCommand w s = .next (takeError .illegalCommand (commandStart w s))) := by
  by_cases h : s.runState = .busy
  · exact .inl ⟨h, by simp [rejectCommand, h]⟩
  · exact .inr ⟨h, by simp [rejectCommand, h]⟩

@[simp] theorem inBlock_length (s : State) : (inBlock s).length = s.inLen.toNat := by simp [inBlock]

theorem inBlock_getElem? (s : State) (n : Nat) (h : n < s.inLen.toNat) : (inBlock s)[n]? = some (inByte s n) := by
  simp [inBlock, h]

/-- The block depends on `IN_LEN`, `IN_BUF` and the reset count only. -/
theorem inBlock_congr {s t : State} (hl : s.inLen = t.inLen) (hb : s.inBuf = t.inBuf) (hr : s.resets = t.resets) :
    inBlock s = inBlock t := by
  have : inByte s = inByte t := by funext p; simp [inByte, hb, hr]
  simp [inBlock, hl, this]

end Sys2Proof.Machine
end

