-- ==== Sys2Proof/Laws/BitStream.lean ====
section
/-! SUPPORT. Laws of the BitStream micro-operations. -/

namespace Sys2Proof.Machine

/-- Everything `BS.WBIT` can do (R92). -/
theorem wbit_cases (cap : Reg32) (b : Bool) (e : Engine) :
    (e.wN ≠ 7 ∧ wbit cap b e =
      .ok { e with wAcc := setBit e.wAcc (bitIndex e.wOrder e.wN.toNat) b, wN := e.wN + 1 }) ∨
    (e.wN = 7 ∧ e.outLen = cap ∧ wbit cap b e = .error (.allocationFailure, e)) ∨
    (e.wN = 7 ∧ e.outLen ≠ cap ∧ wbit cap b e =
      .ok { e with
        outBuf := e.outBuf.write e.outLen.toNat (setBit e.wAcc (bitIndex e.wOrder e.wN.toNat) b)
        outLen := e.outLen + 1, wAcc := 0, wN := 0 }) := by
  by_cases h : e.wN = 7
  · rcases outByte_cases cap (setBit e.wAcc (bitIndex e.wOrder e.wN.toNat) b) e with ⟨hc, hb⟩ | ⟨hc, hb⟩
    · exact .inr (.inl ⟨h, hc, by simp only [wbit, if_pos h, hb]; rfl⟩)
    · exact .inr (.inr ⟨h, hc, by simp only [wbit, if_pos h, hb]; rfl⟩)
  · exact .inl ⟨h, by simp only [wbit, if_neg h]⟩

/-- Everything `BS.FLUSH` can do (R94). -/
theorem bsFlush_cases (cap : Reg32) (e : Engine) :
    (e.wN = 0 ∧ bsFlush cap e = .ok e) ∨
    (0 < e.wN ∧ e.outLen = cap ∧ bsFlush cap e = .error (.allocationFailure, e)) ∨
    (0 < e.wN ∧ e.outLen ≠ cap ∧ bsFlush cap e =
      .ok { e with
        outBuf := e.outBuf.write e.outLen.toNat e.wAcc, outLen := e.outLen + 1, wAcc := 0, wN := 0 }) := by
  by_cases h : 0 < e.wN
  · rcases outByte_cases cap e.wAcc e with ⟨hc, hb⟩ | ⟨hc, hb⟩
    · exact .inr (.inl ⟨h, hc, by simp only [bsFlush, if_pos h, hb]; rfl⟩)
    · exact .inr (.inr ⟨h, hc, by simp only [bsFlush, if_pos h, hb]; rfl⟩)
  · refine .inl ⟨?_, by simp only [bsFlush, if_neg h]⟩
    bv_omega

@[simp] theorem writeBitList_nil (cap : Reg32) (e : Engine) : writeBitList cap [] e = .ok e := rfl

theorem writeBitList_cons (cap : Reg32) (b : Bool) (bs : List Bool) (e : Engine) :
    writeBitList cap (b :: bs) e = (wbit cap b e >>= writeBitList cap bs) := rfl

theorem writeBitList_append (cap : Reg32) (bs cs : List Bool) (e : Engine) :
    writeBitList cap (bs ++ cs) e = (writeBitList cap bs e >>= writeBitList cap cs) := by
  induction bs generalizing e with
  | nil => rfl
  | cons b bs ih =>
    rw [List.cons_append, writeBitList_cons, writeBitList_cons]
    cases wbit cap b e with
    | ok e1 => exact ih e1
    | error p => rfl

theorem writeBitList_keeps {P : Engine → Prop} {cap : Reg32} (hw : ∀ b e, P e → EffKeeps P id (wbit cap b e))
    (bs : List Bool) (e : Engine) (h : P e) : EffKeeps P id (writeBitList cap bs e) := by
  induction bs generalizing e with
  | nil => exact h
  | cons b bs ih => exact effKeeps_bind (hw b e h) fun e1 h1 => ih e1 h1

theorem bsWrite_keeps {P : Engine → Prop} {cap : Reg32} (hw : ∀ b e, P e → EffKeeps P id (wbit cap b e)) {w : Nat}
    (v : BitVec w) (e : Engine) (h : P e) : EffKeeps P id (bsWrite cap v e) := writeBitList_keeps hw _ _ h

/-- The writer touches `W_ACC`, `W_N`, `OUT_BUF` and `OUT_LEN` only (R99), so it keeps whatever does not speak of
them. -/
theorem wbit_keeps_of_insensitive {P : Engine → Prop} {cap : Reg32}
    (hP : ∀ e m l a n, P e → P { e with outBuf := m, outLen := l, wAcc := a, wN := n }) (b : Bool) (e : Engine)
    (h : P e) : EffKeeps P id (wbit cap b e) := by
  rcases wbit_cases cap b e with ⟨_, hb⟩ | ⟨_, _, hb⟩ | ⟨_, _, hb⟩
  · rw [hb]; exact hP e e.outBuf e.outLen _ _ h
  · rw [hb]; exact h
  · rw [hb]; exact hP e _ _ _ _ h

theorem bsFlush_keeps_of_insensitive {P : Engine → Prop} {cap : Reg32}
    (hP : ∀ e m l a n, P e → P { e with outBuf := m, outLen := l, wAcc := a, wN := n }) (e : Engine)
    (h : P e) : EffKeeps P id (bsFlush cap e) := by
  rcases bsFlush_cases cap e with ⟨_, hb⟩ | ⟨_, _, hb⟩ | ⟨_, _, hb⟩
  · rw [hb]; exact h
  · rw [hb]; exact h
  · rw [hb]; exact hP e _ _ _ _ h

/-- Everything `BS.RBIT` can do (R95). -/
theorem rbit_cases (x : List Byte) (e : Engine) :
    (e.rPos = 8 * x.length ∧ rbit x e = none) ∨
    (e.rPos ≠ 8 * x.length ∧ rbit x e =
      some ((x.getD (e.rPos / 8) 0).getLsbD (bitIndex e.rOrder (e.rPos % 8)), { e with rPos := e.rPos + 1 })) := by
  by_cases h : e.rPos = 8 * x.length
  · exact .inl ⟨h, by simp [rbit, endOfStream, h]⟩
  · exact .inr ⟨h, by simp [rbit, endOfStream, h]⟩

theorem rbit_eq_some {x : List Byte} {e e1 : Engine} {b : Bool} (h : rbit x e = some (b, e1)) :
    e.rPos ≠ 8 * x.length ∧ b = (x.getD (e.rPos / 8) 0).getLsbD (bitIndex e.rOrder (e.rPos % 8)) ∧
      e1 = { e with rPos := e.rPos + 1 } := by
  rcases rbit_cases x e with ⟨_, hb⟩ | ⟨hr, hb⟩
  · rw [hb] at h; cases h
  · rw [hb] at h
    simp only [Option.some.injEq, Prod.mk.injEq] at h
    exact ⟨hr, h.1.symm, h.2.symm⟩

/-- The reader touches `R_POS` only (R99). -/
theorem readBitList_keeps {P : Engine → Prop} (hP : ∀ e n, P e → P { e with rPos := n }) (x : List Byte) (n : Nat)
    (e : Engine) (h : P e) : EffKeeps P Prod.snd (readBitList x n e) := by
  induction n generalizing e with
  | zero => exact h
  | succ n ih =>
    rw [readBitList]
    cases hr : rbit x e with
    | none => exact h
    | some p =>
      obtain ⟨b, e1⟩ := p
      obtain ⟨_, _, rfl⟩ := rbit_eq_some hr
      exact effKeeps_bind (ih _ (hP e _ h)) fun _ hq => hq

theorem bsRead_keeps {P : Engine → Prop} (hP : ∀ e n, P e → P { e with rPos := n }) (x : List Byte) (w : Nat)
    (e : Engine) (h : P e) : EffKeeps P Prod.snd (bsRead x w e) :=
  effKeeps_bind (readBitList_keeps hP x w e h) fun _ hq => hq

/-- `BS.READ` raises `CorruptStream` and nothing else (R96). -/
theorem readBitList_error {x : List Byte} {n : Nat} {e e1 : Engine} {k : ErrorKind}
    (h : readBitList x n e = .error (k, e1)) : k = .corruptStream := by
  induction n generalizing e with
  | zero => cases h
  | succ n ih =>
    rw [readBitList] at h
    cases hr : rbit x e with
    | none => rw [hr] at h; cases h; rfl
    | some p =>
      obtain ⟨b, e2⟩ := p
      rw [hr] at h
      rcases eff_bind_eq_error h with h | ⟨q, _, h⟩
      · exact ih h
      · cases h

@[simp] theorem bitsOf_length {w : Nat} (o : BitOrder) (v : BitVec w) : (bitsOf o v).length = w := by
  cases o <;> simp [bitsOf]

end Sys2Proof.Machine
end

