-- ==== Sys2Proof/Laws/Codecs.lean ====
section
/-! SUPPORT. The bodies of the commands: what a property of the engine needs to be carried through each of them, on
every path. The hypotheses of a `_keeps` lemma are the engine updates that its body makes. -/

namespace Sys2Proof.Machine

-- Predictor

theorem undoByte_keeps {P : Engine → Prop} {cap : Reg32} (hout : ∀ b e, P e → EffKeeps P id (outByte cap b e))
    (hp : ∀ e b, P e → P { e with pPrev := b }) (d : Byte) (e : Engine) (h : P e) :
    EffKeeps P id (undoByte cap d e) :=
  effKeeps_bind (hout _ e h) fun e1 h1 => hp e1 _ h1

theorem predApply_keeps {P : Engine → Prop} {cap : Reg32} (hout : ∀ b e, P e → EffKeeps P id (outByte cap b e))
    (hp : ∀ e b, P e → P { e with pPrev := b }) (hc : ∀ e, P e → P (consume e)) (x : List Byte) (e : Engine)
    (h : P e) : EffKeeps P id (predApply cap x e) := by
  suffices hl : ∀ bs e, P e → EffKeeps P id (predApplyLoop cap bs e) from hl x _ (hp e 0 h)
  intro bs
  induction bs with
  | nil => intro e h; exact h
  | cons b bs ih => intro e h; exact effKeeps_bind (hout _ _ (hc e h)) fun e1 h1 => ih _ (hp e1 b h1)

theorem predUndo_keeps {P : Engine → Prop} {cap : Reg32} (hout : ∀ b e, P e → EffKeeps P id (outByte cap b e))
    (hp : ∀ e b, P e → P { e with pPrev := b }) (hc : ∀ e, P e → P (consume e)) (x : List Byte) (e : Engine)
    (h : P e) : EffKeeps P id (predUndo cap x e) := by
  suffices hl : ∀ bs e, P e → EffKeeps P id (predUndoLoop cap bs e) from hl x _ (hp e 0 h)
  intro bs
  induction bs with
  | nil => intro e h; exact h
  | cons b bs ih => intro e h; exact effKeeps_bind (undoByte_keeps hout hp b _ (hc e h)) fun e1 h1 => ih e1 h1

/-- The collecting loop of the predictor touches `IN_POS` and `P_PREV` only. -/
theorem predCollectLoop_snd (x : List Byte) (e : Engine) :
    ∃ n p, (predCollectLoop x e).2 = { e with inPos := n, pPrev := p } := by
  induction x generalizing e with
  | nil => exact ⟨e.inPos, e.pPrev, rfl⟩
  | cons b bs ih =>
    obtain ⟨n, p, h⟩ := ih { consume e with pPrev := b }
    exact ⟨n, p, h⟩

/-- The collecting loop leaves the last byte of the block in `P_PREV`. -/
theorem predCollectLoop_pPrev (x : List Byte) (e : Engine) : (predCollectLoop x e).2.pPrev = x.getLastD e.pPrev := by
  induction x generalizing e with
  | nil => rfl
  | cons b bs ih =>
    refine (ih { consume e with pPrev := b }).trans ?_
    cases bs <;> rfl

@[simp] theorem predCollectLoop_fst_length (x : List Byte) (e : Engine) :
    (predCollectLoop x e).1.length = x.length := by
  induction x generalizing e with
  | nil => rfl
  | cons b bs ih => exact congrArg Nat.succ (ih { consume e with pPrev := b })

-- LZW

/-- Everything `Insert` can do (R113). -/
theorem insert_cases (c : Code) (b : Byte) (e : Engine) :
    (4096 ≤ e.nextFree ∧ insert c b e = e) ∨
    (e.nextFree < 4096 ∧ insert c b e = { e with
      dictPrefix := arraySet e.dictPrefix (e.nextFree.toNat - 256) c
      dictSuffix := arraySet e.dictSuffix (e.nextFree.toNat - 256) b
      nextFree := e.nextFree + 1 }) := by
  by_cases h : e.nextFree < 4096
  · exact .inr ⟨h, by simp only [insert, if_pos h]⟩
  · exact .inl ⟨BitVec.not_lt.1 h, by simp only [insert, if_neg h]⟩

/-- What `Lookup` finds is a valid entry with the prefix and suffix looked for (R112). -/
theorem lookup_eq_some {c : Code} {b : Byte} {e : Engine} {k : Code} (h : lookup c b e = some k)
    (hn : e.nextFree.toNat ≤ 4096) :
    256 ≤ k.toNat ∧ k.toNat < e.nextFree.toNat ∧ prefixAt e k.toNat = c ∧ suffixAt e k.toNat = b := by
  simp only [lookup, Option.map_eq_some_iff] at h
  obtain ⟨j, hj, rfl⟩ := h
  have hm := List.mem_of_find?_eq_some hj
  have hp := List.find?_some hj
  simp only [List.mem_range] at hm
  simp only [decide_eq_true_eq] at hp
  have : (BitVec.ofNat 12 j).toNat = j := by simp; omega
  rw [this]
  exact ⟨hp.1, hm, hp.2⟩

/-- When `Lookup` finds nothing, no valid entry has that prefix and suffix (R112). -/
theorem lookup_eq_none {c : Code} {b : Byte} {e : Engine} (h : lookup c b e = none) (j : Nat) (h1 : 256 ≤ j)
    (h2 : j < e.nextFree.toNat) : ¬(prefixAt e j = c ∧ suffixAt e j = b) := by
  simp only [lookup, Option.map_eq_none_iff, List.find?_eq_none] at h
  have := h j (List.mem_range.2 h2)
  simpa [h1] using this

/-- Everything one byte of `LZW.C` can do (R116). -/
theorem lzwEncodeByte_cases (cap : Reg32) (c : Byte) (e : Engine) :
    (∃ j, lookup e.code c e = some j ∧ lzwEncodeByte cap c e = .ok { e with code := j }) ∨
    (lookup e.code c e = none ∧ lzwEncodeByte cap c e =
      (bsWrite cap e.code e >>= fun e1 => .ok { insert e.code c e1 with code := c.setWidth 12 })) := by
  cases h : lookup e.code c e with
  | some j => exact .inl ⟨j, rfl, by rw [lzwEncodeByte, h]⟩
  | none => exact .inr ⟨rfl, by rw [lzwEncodeByte, h]⟩

theorem lzwEncodeByte_keeps {P : Engine → Prop} {cap : Reg32} (hw : ∀ b e, P e → EffKeeps P id (wbit cap b e))
    (hfound : ∀ e c j, P e → lookup e.code c e = some j → P { e with code := j })
    (hnew : ∀ (e : Engine) (k : Code) (c : Byte), P e → P { insert k c e with code := c.setWidth 12 })
    (c : Byte) (e : Engine) (h : P e) : EffKeeps P id (lzwEncodeByte cap c e) := by
  rcases lzwEncodeByte_cases cap c e with ⟨j, hl, he⟩ | ⟨_, he⟩
  · rw [he]; exact hfound e c j h hl
  · rw [he]; exact effKeeps_bind (bsWrite_keeps hw _ e h) fun e1 h1 => hnew e1 e.code c h1

theorem lzwCompressLoop_keeps {P : Engine → Prop} {cap : Reg32} (hw : ∀ b e, P e → EffKeeps P id (wbit cap b e))
    (hf : ∀ e, P e → EffKeeps P id (bsFlush cap e)) (hc : ∀ e, P e → P (consume e))
    (hfound : ∀ e c j, P e → lookup e.code c e = some j → P { e with code := j })
    (hnew : ∀ (e : Engine) (k : Code) (c : Byte), P e → P { insert k c e with code := c.setWidth 12 })
    (x : List Byte) (e : Engine) (h : P e) : EffKeeps P id (lzwCompressLoop cap x e) := by
  induction x generalizing e with
  | nil => exact effKeeps_bind (bsWrite_keeps hw _ e h) fun e1 h1 => hf e1 h1
  | cons c cs ih => exact effKeeps_bind (lzwEncodeByte_keeps hw hfound hnew c _ (hc e h)) fun e1 h1 => ih e1 h1

theorem lzwCompress_keeps {P : Engine → Prop} {cap : Reg32} (hw : ∀ b e, P e → EffKeeps P id (wbit cap b e))
    (hf : ∀ e, P e → EffKeeps P id (bsFlush cap e)) (hc : ∀ e, P e → P (consume e))
    (hfound : ∀ e c j, P e → lookup e.code c e = some j → P { e with code := j })
    (hnew : ∀ (e : Engine) (k : Code) (c : Byte), P e → P { insert k c e with code := c.setWidth 12 })
    (hstart : ∀ (e : Engine) (b : Byte), P e → P { consume (dictReset (bsInitWrite .lsb e)) with code := b.setWidth 12 })
    (x : List Byte) (e : Engine) (h : P e) : EffKeeps P id (lzwCompress cap x e) := by
  cases x with
  | nil => exact h
  | cons b bs => exact lzwCompressLoop_keeps hw hf hc hfound hnew bs _ (hstart e b h)

theorem lzwDecodeCode_keeps {P : Engine → Prop} {emit : Byte → Engine → Eff Engine}
    (hemit : ∀ b e, P e → EffKeeps P id (emit b e))
    (hnew : ∀ (e : Engine) (b : Byte) (k : Code), P e → P { insert e.prev b e with prev := k }) (k : Code) (e : Engine) (h : P e) :
    EffKeeps P id (lzwDecodeCode emit k e) := by
  rw [lzwDecodeCode]
  split
  · exact h
  · exact effKeeps_bind (emitAll_keeps hemit _ e h) fun e1 h1 => hnew e1 _ k h1

theorem lzwDecompress_keeps {P : Engine → Prop} {emit : Byte → Engine → Eff Engine}
    (hemit : ∀ b e, P e → EffKeeps P id (emit b e)) (hr : ∀ e n, P e → P { e with rPos := n })
    (hnew : ∀ (e : Engine) (b : Byte) (k : Code), P e → P { insert e.prev b e with prev := k }) (hprev : ∀ e k, P e → P { e with prev := k })
    (hstart : ∀ e, P e → P (dictReset (bsInitRead .lsb e))) (x : List Byte) (e : Engine) (h : P e) :
    EffKeeps P id (lzwDecompress emit x e) := by
  have hloop : ∀ n e, P e → EffKeeps P id (lzwDecodeLoop emit x n e) := by
    intro n
    induction n with
    | zero => intro e h; exact h
    | succ n ih =>
      intro e h
      refine effKeeps_bind (bsRead_keeps hr x 12 e h) fun p hp => ?_
      exact effKeeps_bind (lzwDecodeCode_keeps hemit hnew p.1 p.2 hp) fun e1 h1 => ih e1 h1
  rw [lzwDecompress]
  split
  · exact h
  · simp only
    split
    · exact h
    · refine effKeeps_bind (bsRead_keeps hr x 12 _ (hstart e h)) fun p hp => ?_
      split
      · exact hp
      · exact effKeeps_bind (hemit _ p.2 hp) fun e1 h1 => hloop _ _ (hprev e1 _ h1)

-- Huffman

theorem serializeTree_keeps {P : Engine → Prop} {cap : Reg32} (hw : ∀ b e, P e → EffKeeps P id (wbit cap b e))
    (fuel : Nat) (n : NodeId) (e : Engine) (h : P e) : EffKeeps P id (serializeTree cap fuel n e) := by
  induction fuel generalizing n e with
  | zero => exact h
  | succ fuel ih =>
    rw [serializeTree]
    split
    · exact effKeeps_bind (bsWrite_keeps hw _ e h) fun e1 h1 => bsWrite_keeps hw _ e1 h1
    · exact effKeeps_bind (bsWrite_keeps hw _ e h) fun e1 h1 =>
        effKeeps_bind (ih _ e1 h1) fun e2 h2 => ih _ e2 h2

theorem writeCodes_keeps {P : Engine → Prop} {cap : Reg32} (hw : ∀ b e, P e → EffKeeps P id (wbit cap b e))
    (hc : ∀ e, P e → P (consume e)) (x : List Byte) (e : Engine) (h : P e) : EffKeeps P id (writeCodes cap x e) := by
  induction x generalizing e with
  | nil => exact h
  | cons b bs ih => exact effKeeps_bind (writeBitList_keeps hw _ _ (hc e h)) fun e1 h1 => ih e1 h1

theorem countAll_keeps {P : Engine → Prop} (hh : ∀ e v, P e → P { e with hist := v }) (hc : ∀ e, P e → P (consume e))
    (x : List Byte) (e : Engine) (h : P e) : P (countAll x e) := by
  have : ∀ (x : List Byte) (e : Engine), P e → P (x.foldl (fun e s => countByte (consume e) s) e) := by
    intro x
    induction x with
    | nil => intro e h; exact h
    | cons b bs ih => intro e h; exact ih _ (hh _ _ (hc e h))
  exact this x _ (hh e _ h)

/-- The tree builder touches `NNODES`, the nodes and `ROOT` only (R152). -/
theorem buildTree_keeps {P : Engine → Prop} (hn : ∀ e v m, P e → P { e with nodes := v, nNodes := m })
    (hr : ∀ e n, P e → P { e with root := n }) (e : Engine) (h : P e) : P (buildTree e) := by
  have hadd : ∀ d e, P e → P (addNode d e) := fun d e h => hn e _ _ h
  have hset : ∀ e n d, P e → P (setNode e n d) := fun e n d h => hn e _ e.nNodes h
  have hleaves : ∀ (l : List Nat) e, P e → P (l.foldl (fun e s => addLeaf e (BitVec.ofNat 8 s)) e) := by
    intro l
    induction l with
    | nil => intro e h; exact h
    | cons s l ih =>
      intro e h
      refine ih _ ?_
      show P (addLeaf e (BitVec.ofNat 8 s))
      unfold addLeaf
      split
      · exact hadd _ e h
      · exact h
  have hloop : ∀ fuel e, P e → P (mergeLoop fuel e) := by
    intro fuel
    induction fuel with
    | zero => intro e h; exact h
    | succ fuel ih =>
      intro e h
      rw [mergeLoop]
      split
      · exact h
      · split
        · exact h
        · exact ih _ (hset _ _ _ (hset _ _ _ (hadd _ e h)))
  refine hr _ _ (hloop _ _ ?_)
  rw [buildLeaves]
  simp only
  have h1 := hleaves (List.range Config.alphabet) { e with nNodes := 0 } (hn e e.nodes 0 h)
  split
  · exact hadd _ _ h1
  · exact h1

theorem huffmanEncode_keeps {P : Engine → Prop} {cap : Reg32} (hw : ∀ b e, P e → EffKeeps P id (wbit cap b e))
    (hf : ∀ e, P e → EffKeeps P id (bsFlush cap e)) (hpos : ∀ e n, P e → P { e with inPos := n })
    (hh : ∀ e v, P e → P { e with hist := v }) (hn : ∀ e v m, P e → P { e with nodes := v, nNodes := m })
    (hr : ∀ e n, P e → P { e with root := n }) (hi : ∀ e, P e → P (bsInitWrite .msb e)) (x : List Byte) (e : Engine)
    (h : P e) : EffKeeps P id (huffmanEncode cap x e) := by
  have hc : ∀ e, P e → P (consume e) := fun e h => hpos e _ h
  have h1 := buildTree_keeps hn hr _ (countAll_keeps hh hc x _ (hi e h))
  unfold huffmanEncode
  generalize buildTree (countAll x (bsInitWrite .msb e)) = e1 at h1 ⊢
  refine effKeeps_bind (serializeTree_keeps hw _ e1.root e1 h1) fun e2 h2 => ?_
  refine effKeeps_bind (bsWrite_keeps hw _ e2 h2) fun e3 h3 => ?_
  exact effKeeps_bind (writeCodes_keeps hw hc x _ (hpos e3 0 h3)) fun e4 h4 => hf e4 h4

theorem deserializeTree_keeps {P : Engine → Prop} (hr : ∀ e n, P e → P { e with rPos := n })
    (hset : ∀ e n d, P e → P (setNode e n d)) (halloc : ∀ e, P e → e.nNodes ≠ 511 → P { e with nNodes := e.nNodes + 1 })
    (x : List Byte) (fuel : Nat) (e : Engine) (h : P e) : EffKeeps P Prod.snd (deserializeTree x fuel e) := by
  induction fuel generalizing e with
  | zero => exact h
  | succ fuel ih =>
    rw [deserializeTree]
    split
    · exact h
    · rename_i hne
      simp only
      have h1 : P { e with nNodes := e.nNodes + 1 } := halloc e h hne
      cases hb : rbit x { e with nNodes := e.nNodes + 1 } with
      | none => exact h1
      | some p =>
        obtain ⟨b, e2⟩ := p
        obtain ⟨_, _, rfl⟩ := rbit_eq_some hb
        have h2 := hr _ (e.rPos + 1) h1
        cases b with
        | true =>
          exact effKeeps_bind (bsRead_keeps hr x _ _ (hset _ _ _ h2)) fun p hp => hset _ _ _ hp
        | false =>
          exact effKeeps_bind (ih _ (hset _ _ _ h2)) fun p hp =>
            effKeeps_bind (ih _ (hset _ _ _ hp)) fun q hq => hset _ _ _ hq

theorem walkTree_keeps {P : Engine → Prop} (hr : ∀ e n, P e → P { e with rPos := n })
    (hcur : ∀ e n, P e → P { e with cur := n }) (x : List Byte) (fuel : Nat) (e : Engine) (h : P e) :
    EffKeeps P Prod.snd (walkTree x fuel e) := by
  induction fuel generalizing e with
  | zero => exact h
  | succ fuel ih =>
    rw [walkTree]
    split
    · exact h
    · cases hb : rbit x e with
      | none => exact h
      | some p =>
        obtain ⟨b, e1⟩ := p
        obtain ⟨_, _, rfl⟩ := rbit_eq_some hb
        exact ih _ (hcur _ _ (hr e _ h))

theorem huffmanDecode_keeps {P : Engine → Prop} {emit : Byte → Engine → Eff Engine}
    (hemit : ∀ b e, P e → EffKeeps P id (emit b e)) (hr : ∀ e n, P e → P { e with rPos := n })
    (hset : ∀ e n d, P e → P (setNode e n d)) (halloc : ∀ e, P e → e.nNodes ≠ 511 → P { e with nNodes := e.nNodes + 1 })
    (hcur : ∀ e n, P e → P { e with cur := n }) (hrem : ∀ e n, P e → P { e with remaining := n })
    (hroot : ∀ e n, P e → P { e with root := n }) (hstart : ∀ e, P e → P { bsInitRead .msb e with nNodes := 0 })
    (x : List Byte) (e : Engine) (h : P e) : EffKeeps P id (huffmanDecode emit x e) := by
  have hloop : ∀ n e, P e → EffKeeps P id (decodeLoop emit x n e) := by
    intro n
    induction n with
    | zero => intro e h; exact h
    | succ n ih =>
      intro e h
      refine effKeeps_bind (walkTree_keeps hr hcur x _ _ (hcur e _ h)) fun p hp => ?_
      exact effKeeps_bind (hemit p.1 p.2 hp) fun e1 h1 => ih _ (hrem e1 _ h1)
  unfold huffmanDecode
  refine effKeeps_bind (deserializeTree_keeps hr hset halloc x 512 _ (hstart e h)) fun p hp => ?_
  refine effKeeps_bind (bsRead_keeps hr x _ _ (hroot p.2 p.1 hp)) fun q hq => ?_
  exact hloop _ _ (hrem q.2 q.1 hq)

end Sys2Proof.Machine
end

