-- ==== Sys2Proof/Laws/Host.lean ====
section
/-! SUPPORT. What the operations around an instance can do: a platform, a host script, a whole-buffer call. -/

namespace Sys2Proof.Machine

/-- Everything `platformReset` can answer (R6, R218). -/
theorem platformReset_cases (c : PlatformParams) :
    (c.wellFormed = false ∧ platformReset c = none) ∨
    (c.wellFormed = true ∧ platformReset c =
      some { params := c, instances := List.replicate c.nInstances { State.reset with caps := c.caps } }) := by
  cases h : c.wellFormed with
  | false => exact .inl ⟨rfl, by simp [platformReset, h]⟩
  | true => exact .inr ⟨rfl, by simp [platformReset, h]⟩

/-- A step of a platform that answers a next platform is a step of one instance, the parameters kept (R218). -/
theorem platformStep_eq_next {p q : Platform} {i : Nat} (h : platformStep p i = some (.next q)) :
    ∃ s t, p.instances[i]? = some s ∧ step s = .next t ∧ q = { p with instances := p.instances.set i t } := by
  simp only [platformStep, Option.map_eq_some_iff] at h
  obtain ⟨s, hs, h⟩ := h
  cases ht : step s with
  | next t =>
    rw [ht] at h
    exact ⟨s, t, hs, ht, (Host.Outcome.next.inj h).symm⟩
  | fault r => rw [ht] at h; cases h
  | refused r => rw [ht] at h; cases h

/-- One statement of a script whose accesses are performed, then the rest of it (R78, R252). -/
theorem runScript_cons_of_next {c : Statement} {rest : List Statement} {s t : State}
    (h : runAccesses (statementAccesses s c) s = .next t) :
    runScript (c :: rest) s =
      { observed := statementObserves t c ++ (runScript rest t).observed
        held := statementHolds s c && (runScript rest t).held
        final := (runScript rest t).final } := by simp only [runScript, h]

theorem runAccesses_append (l m : List HostAccess) (s : State) :
    runAccesses (l ++ m) s =
      match runAccesses l s with
      | .next t => runAccesses m t
      | .fault r => .fault r
      | .refused r => .refused r := by
  induction l generalizing s with
  | nil => rfl
  | cons a l ih =>
    simp only [List.cons_append, runAccesses]
    cases access a s with
    | next t => exact ih t
    | fault r => rfl
    | refused r => rfl

/-- What a whole-buffer `compress` needs before it issues a command (R219; log 17), and what it then is. -/
theorem compressBuffer_cases (k : CodecKind) (chunk : Nat) (buffer : List Byte) (s : State) :
    ((chunk = 0 ∨ s.caps.inCap.toNat < chunk) ∧ compressBuffer k chunk buffer s = .error (.chunkSize chunk)) ∨
    (1 ≤ chunk ∧ chunk ≤ s.caps.inCap.toNat ∧ buffer = [] ∧ compressBuffer k chunk buffer s = .error .noBlocks) ∨
    (1 ≤ chunk ∧ chunk ≤ s.caps.inCap.toNat ∧ buffer ≠ [] ∧ compressBuffer k chunk buffer s =
      (runBlocks (compressCommand k) (splitBlocks chunk buffer) s >>= fun r => .ok (packManifest r.1, r.2))) := by
  by_cases h : chunk = 0 ∨ s.caps.inCap.toNat < chunk
  · exact .inl ⟨h, by simp only [compressBuffer, if_pos h]⟩
  · have h1 : 1 ≤ chunk := by omega
    have h2 : chunk ≤ s.caps.inCap.toNat := by omega
    by_cases hb : buffer = []
    · exact .inr (.inl ⟨h1, h2, hb, by simp only [compressBuffer, if_neg h, if_pos hb]⟩)
    · exact .inr (.inr ⟨h1, h2, hb, by simp only [compressBuffer, if_neg h, if_neg hb]⟩)

end Sys2Proof.Machine
end

