-- ==== Sys2Proof/Laws/HostPort.lean ====
section
/-! SUPPORT. What one access of the host can do. -/

namespace Sys2Proof.Machine

@[simp] theorem step_of_pending_nil (s : State) (h : s.pending = []) : step s = .next s := by
  simp [step, performNext, h]

theorem step_of_pending_cons (s : State) (a : HostAccess) (rest : List HostAccess) (h : s.pending = a :: rest) :
    step s = access a { s with pending := rest } := by simp [step, performNext, h]

/-- The next step of `withFetchWord` writes the word to `CMD`. -/
theorem step_withFetchWord (s : State) (nbits w : Nat) :
    step (s.withFetchWord nbits w) = writeCmd (BitVec.ofNat 8 w) s := rfl

/-- A `CMD` write runs the decoded instruction, or rejects the word (R73). -/
theorem writeCmd_cases (w : BitVec 8) (s : State) :
    (∃ i, decode w = .ok i ∧ writeCmd w s = exec i s) ∨
    (∃ r, decode w = .error r ∧ writeCmd w s = rejectCommand w s) := by
  cases h : decode w with
  | ok i => exact .inl ⟨i, rfl, by simp [writeCmd, h]⟩
  | error r => exact .inr ⟨r, rfl, by simp [writeCmd, h]⟩

/-- Everything a write of an `IN_BUF` byte can do (R26, R244). -/
theorem writeIn_cases (a : Nat) (b : Byte) (s : State) :
    (s.caps.inCap.toNat ≤ a ∧ writeIn a b s = .fault (.inBufAddress a)) ∨
    (a < s.caps.inCap.toNat ∧ s.runState = .busy ∧ writeIn a b s = .refused (.inBufWriteWhileBusy a)) ∨
    (a < s.caps.inCap.toNat ∧ s.runState ≠ .busy ∧ writeIn a b s = .next { s with inBuf := s.inBuf.write a b }) := by
  by_cases h : s.caps.inCap.toNat ≤ a
  · exact .inl ⟨h, by simp [writeIn, h]⟩
  · by_cases hb : s.runState = .busy
    · exact .inr (.inl ⟨by omega, hb, by simp [writeIn, h, hb]⟩)
    · exact .inr (.inr ⟨by omega, hb, by simp [writeIn, h, hb]⟩)

/-- A host read changes nothing but what it returns and the count of unspecified reads (R54). -/
theorem readReg_frame (r : HostReg) (s : State) :
    readReg r s = { s with rdata := (readReg r s).rdata, freeReads := (readReg r s).freeReads } := by
  cases r <;> simp only [readReg] <;> first | rfl | (split <;> rfl)

theorem readIn_cases (a : Nat) (s : State) :
    (s.caps.inCap.toNat ≤ a ∧ readIn a s = .fault (.inBufAddress a)) ∨
    (a < s.caps.inCap.toNat ∧ ∃ v n, readIn a s = .next { s with rdata := v, freeReads := n }) := by
  by_cases h : s.caps.inCap.toNat ≤ a
  · exact .inl ⟨h, by simp [readIn, h]⟩
  · refine .inr ⟨by omega, ?_⟩
    by_cases hb : s.runState = .busy
    · exact ⟨_, _, by simp only [readIn, if_neg h, if_pos hb]; rfl⟩
    · exact ⟨_, s.freeReads, by simp only [readIn, if_neg h, if_neg hb]; rfl⟩

theorem readOut_cases (a : Nat) (s : State) :
    (s.caps.outCap.toNat ≤ a ∧ readOut a s = .fault (.outBufAddress a)) ∨
    (a < s.caps.outCap.toNat ∧ ∃ v n, readOut a s = .next { s with rdata := v, freeReads := n }) := by
  by_cases h : s.caps.outCap.toNat ≤ a
  · exact .inl ⟨h, by simp [readOut, h]⟩
  · refine .inr ⟨by omega, ?_⟩
    by_cases hb : s.runState = .busy
    · exact ⟨_, _, by simp only [readOut, if_neg h, if_pos hb]; rfl⟩
    · cases hr : s.eng.outBuf.read a with
      | some b => exact ⟨_, s.freeReads, by simp only [readOut, if_neg h, if_neg hb, hr]; rfl⟩
      | none => exact ⟨_, _, by simp only [readOut, if_neg h, if_neg hb, hr]; rfl⟩

/-- Hardware reset answers the reset state but for the capacities and the host's side (R240; log 18). -/
theorem hardwareReset_eq (s : State) :
    hardwareReset s = { State.reset with
      caps := s.caps, pending := s.pending, rdata := s.rdata, resets := s.resets + 1, freeReads := s.freeReads } := rfl

end Sys2Proof.Machine
end

