-- ==== Sys2Proof/Laws/PerInstr.lean ====
section
/-! SUPPORT. A statement about the syntax of every instruction, one lemma per constructor. -/

namespace Sys2Proof.Laws.EncodedFields

/-- The word of an instruction has `RSV` = 0, the `DIR` and `KIND` of R74, and is a named encoding (R70 to R75). -/
abbrev Statement (i : Instr) : Prop :=
  fieldsOf (encode i) = i.fields ∧ (fieldsOf (encode i)).wellFormed = true ∧ kindOf (fieldsOf (encode i)).kind = some i.kind ∧
    directionOf (fieldsOf (encode i)).dir = i.direction ∧ (reservedWord (encode i) = true ↔ i.kind = .rle)

theorem rleC : Statement .rleC := by decide
theorem lzwC : Statement .lzwC := by decide
theorem lzwpC : Statement .lzwpC := by decide
theorem hufpC : Statement .hufpC := by decide
theorem predA : Statement .predA := by decide
theorem hufE : Statement .hufE := by decide
theorem rleD : Statement .rleD := by decide
theorem lzwD : Statement .lzwD := by decide
theorem lzwpD : Statement .lzwpD := by decide
theorem hufpD : Statement .hufpD := by decide
theorem predU : Statement .predU := by decide
theorem hufD : Statement .hufD := by decide

end Sys2Proof.Laws.EncodedFields
end

