-- ==== Sys2Proof/Tests/Slice0.lean ====
section
/-! SUPPORT. The model's own tests: ill-formed terms refused, every command word decoded, one or two small vectors of
spec/95_test_vectors.md for each command, and for every statement with hypotheses a state and operands that meet them. -/

namespace Sys2Proof.Machine

-- Well-formedness: an ill-formed term for each check -----------------------------------------------------------------

/-- `RSV` = 1 (R70). -/
theorem test_rsv_check_refuses : CommandWord.rsvClear { rsv := 1, dir := 0, kind := 1 } = false := by decide

/-- `KIND` = 6 (R72), the first reserved value. -/
theorem test_kind_check_refuses : CommandWord.kindKnown { rsv := 0, dir := 0, kind := 6 } = false := by decide

/-- Each check alone makes a word ill-formed, and `HUF.D` passes both. -/
theorem test_word_check :
    CommandWord.wellFormed { rsv := 4, dir := 0, kind := 1 } = false ∧
    CommandWord.wellFormed { rsv := 0, dir := 1, kind := 15 } = false ∧
    CommandWord.wellFormed { rsv := 0, dir := 1, kind := 5 } = true := by decide

/-- A capacity of 0 (R6). -/
theorem test_capacity_check_refuses : capWellFormed 0 = false ∧ capWellFormed 1 = true := by decide

/-- The address `IN_CAP` or `OUT_CAP` does not exist, the one below does (R26, R27). -/
theorem test_access_check :
    HostAccess.wellFormed 4 8 (.writeIn 4 0) = false ∧ HostAccess.wellFormed 4 8 (.readIn 4) = false ∧
    HostAccess.wellFormed 4 8 (.readOut 8) = false ∧ HostAccess.wellFormed 4 8 (.writeIn 3 0) = true ∧
    HostAccess.wellFormed 4 8 (.readIn 3) = true ∧ HostAccess.wellFormed 4 8 (.readOut 7) = true := by decide

/-- `N_INSTANCES` = 0, `IN_CAP` = 0, `OUT_CAP` = 0 (R6). -/
theorem test_platform_params_check :
    PlatformParams.wellFormed { nInstances := 0, regBase := 0, caps := { inCap := 1, outCap := 1 } } = false ∧
    PlatformParams.wellFormed { nInstances := 1, regBase := 0, caps := { inCap := 0, outCap := 1 } } = false ∧
    PlatformParams.wellFormed { nInstances := 1, regBase := 0, caps := { inCap := 1, outCap := 0 } } = false ∧
    PlatformParams.wellFormed { nInstances := 1, regBase := 0, caps := { inCap := 1, outCap := 1 } } = true := by decide

-- Decoding: the words of R74, `RSV` `DIR` `KIND` written out bit by bit ----------------------------------------------

theorem test_decode_rleC : decodeTableWord 8 0b000_0_0000 = some .rleC := by decide
theorem test_decode_lzwC : decodeTableWord 8 0b000_0_0001 = some .lzwC := by decide
theorem test_decode_lzwpC : decodeTableWord 8 0b000_0_0010 = some .lzwpC := by decide
theorem test_decode_hufpC : decodeTableWord 8 0b000_0_0011 = some .hufpC := by decide
theorem test_decode_predA : decodeTableWord 8 0b000_0_0100 = some .predA := by decide
theorem test_decode_hufE : decodeTableWord 8 0b000_0_0101 = some .hufE := by decide
theorem test_decode_rleD : decodeTableWord 8 0b000_1_0000 = some .rleD := by decide
theorem test_decode_lzwD : decodeTableWord 8 0b000_1_0001 = some .lzwD := by decide
theorem test_decode_lzwpD : decodeTableWord 8 0b000_1_0010 = some .lzwpD := by decide
theorem test_decode_hufpD : decodeTableWord 8 0b000_1_0011 = some .hufpD := by decide
theorem test_decode_predU : decodeTableWord 8 0b000_1_0100 = some .predU := by decide
theorem test_decode_hufD : decodeTableWord 8 0b000_1_0101 = some .hufD := by decide

/-- V-CMD 3 and 4: `KIND` ≥ 6 is refused by name, `RSV` ≠ 0 whatever the rest is. -/
theorem test_decode_rejects :
    decode 0x06 = .error (.illegalKind 6) ∧ decode 0x1F = .error (.illegalKind 15) ∧
    decode 0x21 = .error (.reservedBits 1) ∧ decode 0xFF = .error (.reservedBits 7) := by decide

-- Small states ---------------------------------------------------------------------------------------------------------

/-- The machine after reset with the block `x` in `IN_BUF`. -/
def testBlock (x : List Byte) : State :=
  { State.reset with inBuf := x.zipIdx.map fun p => (p.2, p.1), inLen := BitVec.ofNat 32 x.length }

/-- The machine after reset with the accesses `l` waiting. -/
def testAccesses (l : List HostAccess) : State := { State.reset with pending := l }

/-- The state an outcome leads to; `s` where it stops. -/
def stateOr (s : State) : Host.Outcome State Fault Refusal → State
  | .next t => t
  | .fault _ => s
  | .refused _ => s

/-- The state after command `i`. -/
def afterCommand (i : Instr) (s : State) : State := stateOr s (exec i s)

/-- Command `i` on `x` completes with exactly `y` and leaves `NEXT_FREE` at `nf`. -/
def testDone (i : Instr) (x y : List Byte) (nf : BitVec 13) : Bool :=
  match exec i (testBlock x) with
  | .next t => decide (t.runState = .done ∧ t.err = 0 ∧ outBlock t = y ∧ t.eng.nextFree = nf)
  | .fault _ => false
  | .refused _ => false

/-- Command `i` on `x` ends with error `k`, `OUT_LEN` = 0, and leaves `NEXT_FREE` at `nf`. -/
def testError (i : Instr) (x : List Byte) (k : ErrorKind) (nf : BitVec 13) : Bool :=
  match exec i (testBlock x) with
  | .next t => decide (t.runState = .error ∧ t.err = k.code ∧ t.eng.outLen = 0 ∧ t.eng.nextFree = nf)
  | .fault _ => false
  | .refused _ => false

-- Vectors of spec/95_test_vectors.md ---------------------------------------------------------------------------------

/-- V-CMD 1 and 2. -/
theorem test_rleC : testError .rleC [] .illegalCommand 256 = true := by decide +kernel
theorem test_rleD : testError .rleD [0x41] .illegalCommand 256 = true := by decide +kernel

/-- V-LZW.C 8: codes 65, 66, 256, 258. -/
theorem test_lzwC : testDone .lzwC [0x41, 0x42, 0x41, 0x42, 0x41, 0x42, 0x41] [0x41, 0x20, 0x04, 0x00, 0x21, 0x10] 259 = true := by
  decide +kernel

/-- V-LZW.D 11: 256 is known, 258 is KwKwK. -/
theorem test_lzwD : testDone .lzwD [0x41, 0x20, 0x04, 0x00, 0x21, 0x10] [0x41, 0x42, 0x41, 0x42, 0x41, 0x42, 0x41] 259 = true := by
  decide +kernel

/-- V-LZW.D 12: 258 is out of range after one insertion. -/
theorem test_lzwD_error : testError .lzwD [0x41, 0x00, 0x10, 0x02, 0x01] .corruptStream 257 = true := by decide +kernel

/-- V-PRED 3. -/
theorem test_predA : testDone .predA [0x10, 0x20, 0x18, 0x18, 0x00, 0xFF] [0x10, 0x10, 0xF8, 0x00, 0xE8, 0xFF] 256 = true := by
  decide +kernel
theorem test_predU : testDone .predU [0x10, 0x20, 0x18, 0x18, 0x00, 0xFF] [0x10, 0x30, 0x48, 0x60, 0x60, 0x5F] 256 = true := by
  decide +kernel

/-- V-HUF.E 7: a tie between ids 1 and 3. -/
theorem test_hufE : testDone .hufE [0x41, 0x41, 0x42, 0x42, 0x42, 0x43] [0x50, 0x94, 0x3A, 0x08, 0x00, 0x00, 0x00, 0x37, 0x88] 256 = true := by
  decide +kernel

/-- V-HUF.D 10: length 5, all code bits used. -/
theorem test_hufD : testDone .hufD [0x50, 0x68, 0x40, 0x00, 0x00, 0x00, 0xAA] [0x41, 0x42, 0x41, 0x42, 0x41] 256 = true := by
  decide +kernel

/-- V-HUF.D 11: length 6 but 5 code bits. -/
theorem test_hufD_error : testError .hufD [0x50, 0x68, 0x40, 0x00, 0x00, 0x00, 0xCA] .corruptStream 256 = true := by
  decide +kernel

/-- V-CMP 2 and its inverse. -/
theorem test_lzwpC : testDone .lzwpC [0x0A, 0x14, 0x1E, 0x28, 0x32, 0x3C] [0x0A, 0x00, 0x10, 0x01, 0x01] 258 = true := by
  decide +kernel
theorem test_lzwpD : testDone .lzwpD [0x0A, 0x00, 0x10, 0x01, 0x01] [0x0A, 0x14, 0x1E, 0x28, 0x32, 0x3C] 258 = true := by
  decide +kernel
theorem test_hufpC : testDone .hufpC [0x0A, 0x14, 0x1E, 0x28, 0x32, 0x3C] [0x85, 0x00, 0x00, 0x00, 0x03, 0x00] 256 = true := by
  decide +kernel
theorem test_hufpD : testDone .hufpD [0x85, 0x00, 0x00, 0x00, 0x03, 0x00] [0x0A, 0x14, 0x1E, 0x28, 0x32, 0x3C] 256 = true := by
  decide +kernel

/-- A word placed by `withFetchWord` is what the next step runs (log 1). -/
theorem test_withFetchWord : step (State.reset.withFetchWord 8 0x14) = exec .predU State.reset := by rfl

/-- P3 up to its second `WAIT`: the observations are those the script's comments give (R252). -/
theorem test_script_observations :
    (runScript [.load [0x41, 0x00, 0x10, 0x02, 0x01], .command .lzwD, .wait, .expectError .corruptStream,
      .load [0x41, 0x00, 0x10], .command .lzwD, .wait, .expectDone [0x41, 0x41, 0x41]] State.reset).observed =
      [{ state := .error, err := 2, outLen := 0, output := [], full := false },
        { state := .done, err := 0, outLen := 3, output := [0x41, 0x41, 0x41], full := false }] := by decide +kernel

-- Witnesses: for every statement with hypotheses, concrete values that meet them all -----------------------------------

/-- The machine while a command would run: no step reaches it (R7), the host port's rules for it are stated. -/
def busyState (l : List HostAccess) : State := { testAccesses l with runState := .busy }

/-- The two-instance platform of P5. -/
def testPlatform : Platform where
  params := { nInstances := 2, regBase := 0x1000, caps := State.reset.caps }
  instances := [testAccesses [.writeCmd 0x04], testAccesses [.writeCmd 0x00]]

/-- A block of 7 bytes after reset, nothing waiting. -/
def ababaBlock : State := testBlock [0x41, 0x42, 0x41, 0x42, 0x41, 0x42, 0x41]

/-- The engine with junk that an earlier command could have left. -/
def junkEngine : Engine :=
  { Engine.reset with
    outLen := 9, outBuf := [(0, 7)], wAcc := 3, wN := 5, rPos := 11, nextFree := 300, code := 77, prev := 5, pPrev := 9, cur := 4 }

theorem witness_StepRunsDecodedInstruction :
    (testAccesses [.writeCmd 0x11]).pending = .writeCmd 0x11 :: [] ∧ decode 0x11 = .ok .lzwD := by decide +kernel

/-- One word for each cause: `RSV` ≠ 0, `KIND` = 6, `KIND` = 0. -/
theorem witness_IllegalAndReservedWordsReject :
    (∃ s : State, s.pending = .writeCmd 0x20 :: [] ∧ s.runState ≠ .busy ∧ (0x20 : BitVec 8).extractLsb' 5 3 ≠ 0) ∧
    (∃ s : State, s.pending = .writeCmd 0x06 :: [] ∧ s.runState ≠ .busy ∧ (6 : BitVec 4) ≤ (0x06 : BitVec 8).extractLsb' 0 4) ∧
    (∃ s : State, s.pending = .writeCmd 0x10 :: [] ∧ s.runState ≠ .busy ∧ (0x10 : BitVec 8).extractLsb' 0 4 = 0) :=
  ⟨⟨testAccesses [.writeCmd 0x20], rfl, by decide, by decide⟩, ⟨testAccesses [.writeCmd 0x06], rfl, by decide, by decide⟩,
    ⟨testAccesses [.writeCmd 0x10], rfl, by decide, by decide⟩⟩

theorem witness_IllegalCommandCauses :
    ∃ s : State, s.pending = .writeCmd 0x05 :: [] ∧ s.runState ≠ .busy := ⟨testAccesses [.writeCmd 0x05], rfl, by decide⟩

theorem witness_RleRaisesIllegalCommand : (testBlock [0x41]).runState ≠ .busy := by decide

theorem witness_EveryCommandCompletes : (testBlock [0x41]).runState ≠ .busy := by decide

/-- Both sides: `EmptyInput` on the empty block, not on the block of one byte. -/
theorem witness_EmptyInputCauses :
    (State.reset.runState ≠ .busy ∧ State.reset.inLen = 0 ∧ exec .lzwC State.reset = .next (afterCommand .lzwC State.reset)) ∧
    ((testBlock [0x41]).runState ≠ .busy ∧ (testBlock [0x41]).inLen ≠ 0 ∧
      exec .lzwC (testBlock [0x41]) = .next (afterCommand .lzwC (testBlock [0x41]))) :=
  ⟨⟨by decide, rfl, rfl⟩, by decide, by decide, rfl⟩

theorem witness_CorruptStreamOnlyFromDecoders :
    (testBlock [0x41]).runState ≠ .busy ∧ exec .lzwD (testBlock [0x41]) = .next (afterCommand .lzwD (testBlock [0x41])) ∧
      (afterCommand .lzwD (testBlock [0x41])).err = 2 :=
  ⟨by decide, rfl, by decide +kernel⟩

/-- V-CMD 6: `IN_LEN` = `IN_CAP` + 1. -/
theorem witness_OversizeInputFailsFirst :
    ∃ s : State, s.runState ≠ .busy ∧ s.caps.inCap < s.inLen ∧ s.inLen = s.caps.inCap + 1 :=
  ⟨{ State.reset with inLen := 65537 }, by decide, by decide, by decide⟩

theorem witness_ResultIndependentOfHistory :
    ∃ s s1 t t1 : State, s.runState ≠ .busy ∧ s1.runState ≠ .busy ∧ inBlock s = inBlock s1 ∧ s.caps = s1.caps ∧
      exec .lzwC s = .next t ∧ exec .lzwC s1 = .next t1 ∧ s.eng.outLen ≠ s1.eng.outLen :=
  ⟨ababaBlock, { ababaBlock with eng := junkEngine }, _, _, by decide, by decide, rfl, rfl, rfl, rfl, by decide⟩

theorem witness_OutputExactAfterCommand :
    ababaBlock.runState ≠ .busy ∧ exec .predA ababaBlock = .next (afterCommand .predA ababaBlock) := ⟨by decide, rfl⟩

theorem witness_DictFullClearAfterOtherCommands :
    ∃ s t : State, s.runState ≠ .busy ∧ exec .predA s = .next t ∧ s.eng.nextFree = 4096 :=
  ⟨{ ababaBlock with eng := { Engine.reset with nextFree := 4096 } }, _, by decide, rfl, rfl⟩

theorem witness_HardwareResetValues :
    (busyState [.hardwareReset]).pending = .hardwareReset :: [] ∧ (busyState [.hardwareReset]).runState = .busy := ⟨rfl, rfl⟩

/-- A state other than reset that has the invariant, and its next step. -/
theorem witness_StepKeepsInvariant :
    ∃ s t : State, s.Inv ∧ step s = .next t ∧ s.pending = .writeIn 65535 0x41 :: [] := by
  refine ⟨testAccesses [.writeIn 65535 0x41], _, ?_, rfl, rfl⟩
  constructor
  · decide
  · decide
  · decide
  · intro _; rfl
  · exact ⟨rfl, by decide⟩
  · decide
  · intro c hc; cases hc
  · intro n _ _; simp [testAccesses, State.reset, Engine.reset]
  · refine ⟨by decide, by decide, ?_⟩
    intro j h1 h2
    exact absurd h2 (Nat.not_lt.2 h1)
  · decide
  · exact ⟨by decide, by decide⟩

theorem witness_IdleEngineKeepsState : ababaBlock.pending = [] := rfl

theorem witness_BusyWritesIgnored :
    ((busyState [.writeCmd 0x01]).runState = .busy ∧ (busyState [.writeCmd 0x01]).pending = .writeCmd 0x01 :: []) ∧
    ((busyState [.writeInLen 5]).runState = .busy ∧ (busyState [.writeInLen 5]).pending = .writeInLen 5 :: []) :=
  ⟨⟨rfl, rfl⟩, rfl, rfl⟩

theorem witness_ReadOnlyRegistersIgnoreWrites :
    (testAccesses [.writeStatus 1]).pending = .writeStatus 1 :: [] ∧ (testAccesses [.writeErr 1]).pending = .writeErr 1 :: [] ∧
    (testAccesses [.writeOutLen 1]).pending = .writeOutLen 1 :: [] := ⟨rfl, rfl, rfl⟩

theorem witness_InLenStoresAnyValue :
    (testAccesses [.writeInLen 0xFFFFFFFF]).runState ≠ .busy ∧
    (testAccesses [.writeInLen 0xFFFFFFFF]).pending = .writeInLen 0xFFFFFFFF :: [] := ⟨by decide, rfl⟩

/-- Every register can be read, `STATUS` in each of the four states, `OUT_LEN` while not `BUSY` and while `BUSY`. -/
theorem witness_RegisterReads (r : HostReg) (q : RunState) :
    ∃ s : State, s.pending = .readReg r :: [] ∧ s.runState = q := ⟨{ testAccesses [.readReg r] with runState := q }, rfl, rfl⟩

/-- The last address that exists, and the first that does not, written, read, and written then read. -/
theorem witness_InBufWriteThenRead :
    (∃ s : State, s.pending = .writeIn 65536 1 :: [] ∧ s.caps.inCap.toNat ≤ 65536) ∧
    (∃ s : State, s.pending = .writeIn 65535 1 :: [] ∧ 65535 < s.caps.inCap.toNat ∧ s.runState ≠ .busy) ∧
    (∃ s : State, s.pending = .readIn 65536 :: [] ∧ s.caps.inCap.toNat ≤ 65536) ∧
    (∃ s : State, s.pending = .readIn 65535 :: [] ∧ 65535 < s.caps.inCap.toNat ∧ s.runState ≠ .busy) ∧
    (∃ s : State, s.pending = .writeIn 65535 1 :: .readIn 65535 :: [] ∧ 65535 < s.caps.inCap.toNat ∧ s.runState ≠ .busy) :=
  ⟨⟨testAccesses [.writeIn 65536 1], rfl, by decide⟩, ⟨testAccesses [.writeIn 65535 1], rfl, by decide, by decide⟩,
    ⟨testAccesses [.readIn 65536], rfl, by decide⟩, ⟨testAccesses [.readIn 65535], rfl, by decide, by decide⟩,
    testAccesses [.writeIn 65535 1, .readIn 65535], rfl, by decide, by decide⟩

/-- An address that does not exist, one that holds a specified byte, one that does not. -/
theorem witness_OutBufReads :
    (∃ s : State, s.pending = .readOut 65536 :: [] ∧ s.runState ≠ .busy ∧ s.caps.outCap.toNat ≤ 65536) ∧
    (∃ s : State, s.pending = .readOut 0 :: [] ∧ s.runState ≠ .busy ∧ 0 < s.caps.outCap.toNat ∧ s.eng.outBuf.read 0 = some 7) ∧
    (∃ s : State, s.pending = .readOut 65535 :: [] ∧ s.runState ≠ .busy ∧ 65535 < s.caps.outCap.toNat ∧
      s.eng.outBuf.read 65535 = none) :=
  ⟨⟨testAccesses [.readOut 65536], rfl, by decide, by decide⟩,
    ⟨{ testAccesses [.readOut 0] with eng := junkEngine }, rfl, by decide, by decide, rfl⟩,
    testAccesses [.readOut 65535], rfl, by decide, by decide, rfl⟩

theorem witness_WellBehavedHostNeverStops : HostBehaves (testAccesses [.writeIn 65535 1]) ∧ HostBehaves (testAccesses []) :=
  ⟨⟨by decide, by decide⟩, trivial⟩

theorem witness_LoadedBlockIsTheInput :
    ∃ (s : State) (x : List Byte), s.runState ≠ .busy ∧ x.length ≤ s.caps.inCap.toNat ∧ x.length = s.caps.inCap.toNat :=
  ⟨{ State.reset with caps := { inCap := 3, outCap := 1 } }, [1, 2, 3], by decide, by decide, by decide⟩

/-- Two instances; parameters outside R6, each way, and at its lower bound; a sound platform and its step. -/
theorem witness_InstancesAreIndependent :
    (∃ (s u s1 u1 : State), (0 : Nat) ≠ 1 ∧ testPlatform.instances[0]? = some s ∧ testPlatform.instances[1]? = some u ∧
      step s = .next s1 ∧ step u = .next u1) ∧
    (∃ c : PlatformParams, c.nInstances = 0) ∧ (∃ c : PlatformParams, c.caps.inCap = 0) ∧
    (∃ c : PlatformParams, c.caps.outCap = 0) ∧
    (∃ c : PlatformParams, 1 ≤ c.nInstances ∧ c.nInstances = 1 ∧ c.caps.inCap ≠ 0 ∧ c.caps.outCap ≠ 0) ∧
    (∃ q : Platform, PlatformSound testPlatform ∧ platformStep testPlatform 0 = some (.next q)) :=
  ⟨⟨_, _, _, _, by decide, rfl, rfl, rfl, rfl⟩, ⟨⟨0, 0, ⟨1, 1⟩⟩, rfl⟩, ⟨⟨1, 0, ⟨0, 1⟩⟩, rfl⟩, ⟨⟨1, 0, ⟨1, 0⟩⟩, rfl⟩,
    ⟨⟨1, 0, ⟨1, 1⟩⟩, by decide, rfl, by decide, by decide⟩,
    _, ⟨by decide, rfl, by intro s hs; simp [testPlatform, testAccesses] at hs; rcases hs with rfl | rfl <;> rfl⟩, rfl⟩

/-- The eighth bit with room for one byte. -/
theorem witness_WriterLaysStreamOut :
    Engine.reset.wAcc = 0 ∧ Engine.reset.wN = 0 ∧ Engine.reset.outLen = 0 ∧ Engine.reset.outBuf = [] ∧
    ((List.replicate 8 true).length + 7) / 8 ≤ (1 : Reg32).toNat := ⟨rfl, rfl, rfl, rfl, by decide⟩

/-- Enough bits, exactly; one bit too few. -/
theorem witness_ReaderReturnsStreamBits :
    (Engine.reset.rPos ≤ 8 * [(0xA0 : Byte)].length ∧ Engine.reset.rPos + 8 ≤ 8 * [(0xA0 : Byte)].length) ∧
    8 * [(0xA0 : Byte)].length < Engine.reset.rPos + 9 := by decide

/-- Both clauses: output that just fits, and one byte too little room. -/
theorem witness_PredictorApplyComputesDeltas :
    (∃ s : State, Ready s ∧ s.inLen ≤ s.caps.outCap ∧ s.inLen = s.caps.outCap) ∧
    (∃ s : State, Ready s ∧ s.caps.outCap < s.inLen) :=
  ⟨⟨{ ababaBlock with caps := { inCap := 7, outCap := 7 } }, ⟨by decide, by decide⟩, by decide, by decide⟩,
    { ababaBlock with caps := { inCap := 7, outCap := 6 } }, ⟨by decide, by decide⟩, by decide⟩

theorem witness_PredictorUndoComputesSums :
    (∃ s : State, Ready s ∧ s.inLen ≤ s.caps.outCap ∧ s.inLen = s.caps.outCap) ∧
    (∃ s : State, Ready s ∧ s.caps.outCap < s.inLen) := witness_PredictorApplyComputesDeltas

/-- V-PRED 2, both ways round. -/
theorem witness_PredictorCommandsAreInverse :
    (∃ s t u : State, Ready s ∧ exec .predA s = .next t ∧ Completed t ∧ Ready u ∧ inBlock u = outBlock t ∧
      s.inLen ≤ u.caps.outCap) ∧
    (∃ s t u : State, Ready s ∧ exec .predU s = .next t ∧ Completed t ∧ Ready u ∧ inBlock u = outBlock t ∧
      s.inLen ≤ u.caps.outCap) :=
  ⟨⟨testBlock [0xFF, 0xFF, 0xFF, 0xFF], afterCommand .predA (testBlock [0xFF, 0xFF, 0xFF, 0xFF]),
      testBlock [0xFF, 0x00, 0x00, 0x00], ⟨by decide, by decide⟩, rfl, ⟨by decide +kernel, by decide +kernel⟩,
      ⟨by decide, by decide⟩, by decide +kernel, by decide⟩,
    testBlock [0xFF, 0xFF, 0xFF, 0xFF], afterCommand .predU (testBlock [0xFF, 0xFF, 0xFF, 0xFF]),
      testBlock [0xFF, 0xFE, 0xFD, 0xFC], ⟨by decide, by decide⟩, rfl, ⟨by decide +kernel, by decide +kernel⟩,
      ⟨by decide, by decide⟩, by decide +kernel, by decide⟩

theorem witness_PredictorFrame :
    ∃ s t u : State, s.runState ≠ .busy ∧ exec .predA s = .next t ∧ exec .predU s = .next u :=
  ⟨ababaBlock, _, _, by decide, rfl, rfl⟩

/-- The last free entry, and the full dictionary. -/
theorem witness_InsertUnlessFull :
    (∃ e : Engine, 256 ≤ e.nextFree ∧ e.nextFree ≤ 4096 ∧ e.nextFree < 4096 ∧ e.nextFree = 4095) ∧
    (∃ e : Engine, 256 ≤ e.nextFree ∧ e.nextFree ≤ 4096 ∧ e.nextFree = 4096) :=
  ⟨⟨{ Engine.reset with nextFree := 4095 }, by decide, by decide, by decide, rfl⟩,
    { Engine.reset with nextFree := 4096 }, by decide, by decide, rfl⟩

/-- A dictionary with the one entry 256 = (65, `41`): the last literal and the entry. -/
theorem witness_StrFollowsPrefixes :
    ∃ e : Engine, DictionarySound e ∧ (255 : Code).toNat < e.nextFree.toNat ∧ (256 : Code).toNat < e.nextFree.toNat := by
  refine ⟨insert 65 0x41 Engine.reset, ⟨by decide, by decide, ?_⟩, by decide +kernel, by decide +kernel⟩
  intro j h1 h2
  have hj : j = 256 := by
    have : (insert 65 0x41 Engine.reset).nextFree.toNat = 257 := by decide +kernel
    omega
  subst hj
  decide +kernel

/-- The smallest block with room for exactly its payload, and with one byte too little. -/
theorem witness_LzwCompressGreedyCodes :
    (∃ s : State, Ready s ∧ s.inLen ≠ 0 ∧ (lzwPayload (lzwGreedyCodes (inBlock s))).length ≤ s.caps.outCap.toNat) ∧
    (∃ s : State, Ready s ∧ s.inLen ≠ 0 ∧ s.caps.outCap.toNat < (lzwPayload (lzwGreedyCodes (inBlock s))).length) :=
  ⟨⟨{ testBlock [0x41] with caps := { inCap := 1, outCap := 2 } }, ⟨by decide, by decide⟩, by decide, by decide +kernel⟩,
    { testBlock [0x41] with caps := { inCap := 1, outCap := 1 } }, ⟨by decide, by decide⟩, by decide, by decide +kernel⟩

/-- V-LZW.D 7, with room for exactly its three bytes. -/
theorem witness_LzwDecompressExpandsCodes :
    ∃ (s : State) (ys : List Byte), Ready s ∧ s.inLen ≠ 0 ∧ s.inLen.toNat % 3 ≠ 1 ∧
      lzwExpand (lzwCodesOf (inBlock s)) = some ys ∧ ys.length ≤ s.caps.outCap.toNat :=
  ⟨{ testBlock [0x41, 0x00, 0x10] with caps := { inCap := 3, outCap := 3 } }, [0x41, 0x41, 0x41], ⟨by decide, by decide⟩,
    by decide, by decide, by decide +kernel, by decide⟩

/-- V-LZW.D 0; 1; 4 (the first code is invalid, with no room at all); 12 (two codes, then 258) with exactly the room the
two need, and with one byte too little; 7 with too little room. -/
theorem witness_LzwDecompressErrors :
    (∃ s : State, Ready s ∧ s.inLen = 0) ∧
    (∃ s : State, Ready s ∧ s.inLen.toNat % 3 = 1) ∧
    (∃ s : State, Ready s ∧ s.inLen ≠ 0 ∧ s.inLen.toNat % 3 ≠ 1 ∧ 0 < (lzwCodesOf (inBlock s)).length ∧
      lzwExpand ((lzwCodesOf (inBlock s)).take 1) = none ∧ ([] : List Byte).length ≤ s.caps.outCap.toNat ∧ s.caps.outCap = 0) ∧
    (∃ s : State, Ready s ∧ s.inLen ≠ 0 ∧ s.inLen.toNat % 3 ≠ 1 ∧ 2 < (lzwCodesOf (inBlock s)).length ∧
      lzwExpand ((lzwCodesOf (inBlock s)).take 3) = none ∧
      lzwExpand ((lzwCodesOf (inBlock s)).take 2) = some [0x41, 0x41, 0x41] ∧ 3 ≤ s.caps.outCap.toNat) ∧
    (∃ s : State, Ready s ∧ s.inLen ≠ 0 ∧ s.inLen.toNat % 3 ≠ 1 ∧ 2 < (lzwCodesOf (inBlock s)).length ∧
      lzwExpand ((lzwCodesOf (inBlock s)).take 3) = none ∧
      lzwExpand ((lzwCodesOf (inBlock s)).take 2) = some [0x41, 0x41, 0x41] ∧ s.caps.outCap.toNat < 3) ∧
    (∃ (s : State) (ys : List Byte), Ready s ∧ s.inLen ≠ 0 ∧ s.inLen.toNat % 3 ≠ 1 ∧
      lzwExpand (lzwCodesOf (inBlock s)) = some ys ∧ s.caps.outCap.toNat < ys.length) :=
  ⟨⟨State.reset, ⟨by decide, by decide⟩, rfl⟩, ⟨testBlock [0x41], ⟨by decide, by decide⟩, by decide⟩,
    ⟨{ testBlock [0x00, 0x01] with caps := { inCap := 2, outCap := 0 } }, ⟨by decide, by decide⟩, by decide, by decide,
      by decide +kernel, by decide +kernel, by decide, rfl⟩,
    ⟨{ testBlock [0x41, 0x00, 0x10, 0x02, 0x01] with caps := { inCap := 5, outCap := 3 } }, ⟨by decide, by decide⟩, by decide,
      by decide, by decide +kernel, by decide +kernel, by decide +kernel, by decide⟩,
    ⟨{ testBlock [0x41, 0x00, 0x10, 0x02, 0x01] with caps := { inCap := 5, outCap := 2 } }, ⟨by decide, by decide⟩, by decide,
      by decide, by decide +kernel, by decide +kernel, by decide +kernel, by decide⟩,
    { testBlock [0x41, 0x00, 0x10] with caps := { inCap := 3, outCap := 2 } }, [0x41, 0x41, 0x41], ⟨by decide, by decide⟩,
    by decide, by decide, by decide +kernel, by decide⟩

/-- The compressing state, and a state that holds its output (V-LZW.C 3). -/
theorem witness_LzwRoundTrip :
    ∃ s u : State, Ready s ∧ s.inLen ≠ 0 ∧ (3 * s.inLen.toNat + 1) / 2 ≤ s.caps.outCap.toNat ∧ Ready u ∧
      inBlock u = outBlock (afterCommand .lzwC s) ∧ s.inLen ≤ u.caps.outCap :=
  ⟨testBlock [0x41, 0x42], testBlock [0x41, 0x20, 0x04], ⟨by decide, by decide⟩, by decide, by decide, ⟨by decide, by decide⟩,
    by decide +kernel, by decide⟩

theorem witness_LzwSizeBounds :
    (∃ s t : State, s.runState ≠ .busy ∧ exec .lzwC s = .next t ∧ Completed t) ∧
    (∃ s t : State, s.runState ≠ .busy ∧ exec .lzwD s = .next t ∧ Completed t) :=
  ⟨⟨testBlock [0x41], afterCommand .lzwC (testBlock [0x41]), by decide, rfl, by decide +kernel, by decide +kernel⟩,
    testBlock [0x41, 0x00], afterCommand .lzwD (testBlock [0x41, 0x00]), by decide, rfl, by decide +kernel, by decide +kernel⟩

theorem witness_LzwFrame :
    ∃ s t u : State, s.runState ≠ .busy ∧ exec .lzwC s = .next t ∧ exec .lzwD s = .next u :=
  ⟨ababaBlock, _, _, by decide, rfl, rfl⟩

/-- V-HUF.E 5 with room for exactly its seven bytes, and V-HUF.E 10 with room for six. -/
theorem witness_HuffmanEncodeWritesPayload :
    (∃ s : State, Ready s ∧ (huffmanPayload (inBlock s)).length ≤ s.caps.outCap.toNat) ∧
    (∃ s : State, Ready s ∧ s.caps.outCap.toNat < (huffmanPayload (inBlock s)).length) :=
  ⟨⟨{ testBlock [0x41, 0x42] with caps := { inCap := 2, outCap := 7 } }, ⟨by decide, by decide⟩, by decide +kernel⟩,
    { testBlock [0x41, 0x42] with caps := { inCap := 2, outCap := 6 } }, ⟨by decide, by decide⟩, by decide +kernel⟩

/-- The clauses of `BlockTreeOneLeafPerSymbol` with hypotheses: a symbol of a block, and a code. -/
theorem witness_BlockTreeOneLeafPerSymbol :
    ([0x41, 0x42] : List Byte) ≠ [] ∧ (0x42 : Byte) ∈ ([0x41, 0x42] : List Byte) ∧
    treeCode 0x42 (blockTree [0x41, 0x42]) = some [true] ∧ treeCode 0x41 (blockTree [0x41, 0x42]) = some [false] ∧
    ([true] : List Bool) <+: [true] := by decide +kernel

theorem witness_HuffmanSingleSymbolPayload :
    (∃ s : State, Ready s ∧ 6 ≤ s.caps.outCap.toNat ∧ inBlock s = List.replicate s.inLen.toNat 0x41 ∧ s.inLen ≠ 0) ∧
    (∃ s : State, Ready s ∧ 6 ≤ s.caps.outCap.toNat ∧ s.inLen = 0) :=
  ⟨⟨{ testBlock [0x41, 0x41] with caps := { inCap := 2, outCap := 6 } }, ⟨by decide, by decide⟩, by decide, by decide +kernel,
      by decide⟩,
    { testBlock [] with caps := { inCap := 1, outCap := 6 } }, ⟨by decide, by decide⟩, by decide, rfl⟩

/-- V-HUF.D 8: the stream of `50 68 40 00 00 00 48`. -/
theorem witness_HuffmanDecodeWalksTree :
    ∃ (s : State) (tree : HuffTree) (n : Reg32) (rest : List Bool) (ys : List Byte), Ready s ∧
      streamBits .msb (inBlock s) = treeBits tree ++ bitsOf .msb n ++ rest ∧ treeNodes tree ≤ 511 ∧
      treeDecode tree n.toNat rest = some ys ∧ n ≤ s.caps.outCap :=
  ⟨{ testBlock [0x50, 0x68, 0x40, 0x00, 0x00, 0x00, 0x48] with caps := { inCap := 7, outCap := 2 } },
    .node (.leaf 0x41) (.leaf 0x42), 2, [false, true, false, false, false], [0x41, 0x42], ⟨by decide, by decide⟩,
    by decide +kernel, by decide, by decide, by decide⟩

/-- One state for each clause: no tree at all; a tree and 31 bits of length (V-HUF.D 4); the stream ends in a walk
(V-HUF.D 11); the output is full (V-HUF.D 8 with room for one byte). -/
theorem witness_HuffmanDecodeErrors :
    (∃ s : State, Ready s ∧ ∀ tree rest, streamBits .msb (inBlock s) = treeBits tree ++ rest → 511 < treeNodes tree) ∧
    (∃ (s : State) (tree : HuffTree) (rest : List Bool), Ready s ∧ streamBits .msb (inBlock s) = treeBits tree ++ rest ∧
      treeNodes tree ≤ 511 ∧ rest.length = 31 ∧ rest.length < 32) ∧
    (∃ (s : State) (tree : HuffTree) (rest codes : List Bool) (n : Reg32), Ready s ∧
      streamBits .msb (inBlock s) = treeBits tree ++ rest ∧ treeNodes tree ≤ 511 ∧ rest = bitsOf .msb n ++ codes ∧
      treeDecode tree (min n.toNat (s.caps.outCap.toNat + 1)) codes = none) ∧
    (∃ (s : State) (tree : HuffTree) (rest codes : List Bool) (n : Reg32), Ready s ∧
      streamBits .msb (inBlock s) = treeBits tree ++ rest ∧ treeNodes tree ≤ 511 ∧ rest = bitsOf .msb n ++ codes ∧
      s.caps.outCap < n ∧ treeDecode tree (s.caps.outCap.toNat + 1) codes ≠ none) := by
  refine ⟨⟨testBlock [], ⟨by decide, by decide⟩, ?_⟩, ?_, ?_, ?_⟩
  · intro tree rest h
    have h0 : ([] : List Bool) = treeBits tree ++ rest := h
    cases tree <;> cases h0
  · exact ⟨testBlock [0xA0, 0x80, 0x00, 0x00, 0x02], .leaf 0x41,
      List.replicate 29 false ++ [true, false], ⟨by decide, by decide⟩, by decide +kernel, by decide, by decide, by decide⟩
  · exact ⟨testBlock [0x50, 0x68, 0x40, 0x00, 0x00, 0x00, 0xCA], .node (.leaf 0x41) (.leaf 0x42),
      bitsOf .msb (6 : Reg32) ++ [false, true, false, true, false], [false, true, false, true, false], 6,
      ⟨by decide, by decide⟩, by decide +kernel, by decide, rfl, by decide +kernel⟩
  · exact ⟨{ testBlock [0x50, 0x68, 0x40, 0x00, 0x00, 0x00, 0x48] with caps := { inCap := 7, outCap := 1 } },
      .node (.leaf 0x41) (.leaf 0x42), bitsOf .msb (2 : Reg32) ++ [false, true, false, false, false],
      [false, true, false, false, false], 2, ⟨by decide, by decide⟩, by decide +kernel, by decide, rfl, by decide, by decide⟩

/-- V-HUF.E 1: the empty block and a state that holds its payload. -/
theorem witness_HuffmanRoundTrip :
    ∃ s u : State, Ready s ∧ (huffmanPayload (inBlock s)).length ≤ s.caps.outCap.toNat ∧ Ready u ∧
      inBlock u = outBlock (afterCommand .hufE s) ∧ s.inLen ≤ u.caps.outCap :=
  ⟨testBlock [], testBlock [0x80, 0x00, 0x00, 0x00, 0x00, 0x00], ⟨by decide, by decide⟩, by decide +kernel,
    ⟨by decide, by decide⟩, by decide +kernel, by decide⟩

theorem witness_HuffmanFrame :
    ∃ s t u : State, s.runState ≠ .busy ∧ exec .hufE s = .next t ∧ exec .hufD s = .next u :=
  ⟨ababaBlock, _, _, by decide, rfl, rfl⟩

/-- V-CMP 2 with room for exactly its five bytes, and with one too little. -/
theorem witness_LzwPredictorCompressesDeltas :
    (∃ s : State, Ready s ∧ s.inLen ≠ 0 ∧
      (lzwPayload (lzwGreedyCodes (deltas (inBlock s)))).length ≤ s.caps.outCap.toNat) ∧
    (∃ s : State, Ready s ∧ s.inLen ≠ 0 ∧
      s.caps.outCap.toNat < (lzwPayload (lzwGreedyCodes (deltas (inBlock s)))).length) :=
  ⟨⟨{ testBlock [0x0A, 0x14, 0x1E, 0x28, 0x32, 0x3C] with caps := { inCap := 6, outCap := 5 } }, ⟨by decide, by decide⟩,
      by decide, by decide +kernel⟩,
    { testBlock [0x0A, 0x14, 0x1E, 0x28, 0x32, 0x3C] with caps := { inCap := 6, outCap := 4 } }, ⟨by decide, by decide⟩,
    by decide, by decide +kernel⟩

theorem witness_LzwPredictorDecompressesSums :
    ∃ (s : State) (ys : List Byte), Ready s ∧ s.inLen ≠ 0 ∧ s.inLen.toNat % 3 ≠ 1 ∧
      lzwExpand (lzwCodesOf (inBlock s)) = some ys ∧ ys.length ≤ s.caps.outCap.toNat := witness_LzwDecompressExpandsCodes

/-- A ramp with room for exactly its six bytes, and with one too little. -/
theorem witness_HuffmanPredictorEncodesDeltas :
    (∃ s : State, Ready s ∧ (huffmanPayload (deltas (inBlock s))).length ≤ s.caps.outCap.toNat) ∧
    (∃ s : State, Ready s ∧ s.caps.outCap.toNat < (huffmanPayload (deltas (inBlock s))).length) :=
  ⟨⟨{ testBlock [0x0A, 0x14, 0x1E] with caps := { inCap := 3, outCap := 6 } }, ⟨by decide, by decide⟩, by decide +kernel⟩,
    { testBlock [0x0A, 0x14, 0x1E] with caps := { inCap := 3, outCap := 5 } }, ⟨by decide, by decide⟩, by decide +kernel⟩

theorem witness_HuffmanPredictorDecodesSums :
    ∃ (s : State) (tree : HuffTree) (n : Reg32) (rest : List Bool) (ys : List Byte), Ready s ∧
      streamBits .msb (inBlock s) = treeBits tree ++ bitsOf .msb n ++ rest ∧ treeNodes tree ≤ 511 ∧
      treeDecode tree n.toNat rest = some ys ∧ n ≤ s.caps.outCap := witness_HuffmanDecodeWalksTree

/-- A block and its deltas; and a block and itself. -/
theorem witness_CompositesChainTheirStages :
    (∃ s u : State, Ready s ∧ Ready u ∧ s.caps.outCap = u.caps.outCap ∧ inBlock u = deltas (inBlock s)) ∧
    (∃ s u : State, Ready s ∧ Ready u ∧ s.caps.outCap = u.caps.outCap ∧ inBlock u = inBlock s) :=
  ⟨⟨testBlock [0x0A, 0x14], testBlock [0x0A, 0x0A], ⟨by decide, by decide⟩, ⟨by decide, by decide⟩, rfl, by decide +kernel⟩,
    testBlock [0x41, 0x00], testBlock [0x41, 0x00], ⟨by decide, by decide⟩, ⟨by decide, by decide⟩, rfl, rfl⟩

/-- V-CMP 1 and 4. -/
theorem witness_CompositeRoundTrips :
    (∃ s u : State, Ready s ∧ s.inLen ≠ 0 ∧ (3 * s.inLen.toNat + 1) / 2 ≤ s.caps.outCap.toNat ∧ Ready u ∧
      inBlock u = outBlock (afterCommand .lzwpC s) ∧ s.inLen ≤ u.caps.outCap) ∧
    (∃ s u : State, Ready s ∧ (huffmanPayload (deltas (inBlock s))).length ≤ s.caps.outCap.toNat ∧ Ready u ∧
      inBlock u = outBlock (afterCommand .hufpC s) ∧ s.inLen ≤ u.caps.outCap) :=
  ⟨⟨testBlock [1, 2, 3, 4, 5, 6, 7, 8], testBlock [0x01, 0x00, 0x10, 0x01, 0x01, 0x10], ⟨by decide, by decide⟩, by decide,
      by decide, ⟨by decide, by decide⟩, by decide +kernel, by decide⟩,
    testBlock [], testBlock [0x80, 0x00, 0x00, 0x00, 0x00, 0x00], ⟨by decide, by decide⟩, by decide +kernel,
    ⟨by decide, by decide⟩, by decide +kernel, by decide⟩

theorem witness_CompositeFrame :
    ∃ s t u v w : State, s.runState ≠ .busy ∧ exec .lzwpC s = .next t ∧ exec .lzwpD s = .next u ∧
      exec .hufpC s = .next v ∧ exec .hufpD s = .next w :=
  ⟨ababaBlock, _, _, _, _, by decide, rfl, rfl, rfl, rfl⟩

/-- A full block and a short last one; chunk sizes 0 and `IN_CAP` + 1 against 1 and `IN_CAP`; a `compress` that ends. -/
theorem witness_SplitIsExactPartition :
    (1 ≤ 2 ∧ (splitBlocks 2 [1, 2, 3])[0]? = some [1, 2] ∧ 0 + 1 < (splitBlocks 2 [1, 2, 3]).length) ∧
    (∃ s : State, s.caps.inCap.toNat < 65537 ∧ 1 ≤ 65536 ∧ 65536 ≤ s.caps.inCap.toNat) ∧
    (∃ (s : State) (x : List Byte × State), compressBuffer .lzw 2 [0x41] s = .ok x) :=
  ⟨by decide, ⟨State.reset, by decide, by decide, by decide⟩, State.reset, _, rfl⟩

/-- A block that is read back, a manifest that is accepted, and bytes that are no manifest: the length 2 with one byte. -/
theorem witness_ManifestRoundTrip :
    (∃ blocks : List (List Byte), blocks.length < 2 ^ 32 ∧ (∀ b ∈ blocks, b.length < 2 ^ 32) ∧
      unpackManifest (packManifest blocks) = .ok blocks) ∧
    unpackManifest [1, 0, 0, 0, 1, 0, 0, 0, 5] = .ok [[5]] ∧
    unpackManifest [1, 0, 0, 0, 2, 0, 0, 0, 5] = .error .corruptStream :=
  ⟨⟨[[5]], by decide, by decide, rfl⟩, rfl, rfl⟩

end Sys2Proof.Machine
end

section
/-! The engine's part of the machine invariant, carried through the body of every command, and from there through every
step (R7); the platform of R218 on top of it. -/

namespace Sys2Proof.Machine

-- Two ways to combine what a computation keeps

theorem effKeeps_and {P Q : Engine → Prop} {α : Type} {out : α → Engine} {x : Eff α} (hP : EffKeeps P out x)
    (hQ : EffKeeps Q out x) : EffKeeps (fun e => P e ∧ Q e) out x := by
  cases x with
  | ok a => exact ⟨hP, hQ⟩
  | error p => exact ⟨hP, hQ⟩

theorem effKeeps_mono {P Q : Engine → Prop} {α : Type} {out : α → Engine} {x : Eff α} (h : ∀ e, P e → Q e)
    (hP : EffKeeps P out x) : EffKeeps Q out x := by
  cases x with
  | ok a => exact h _ hP
  | error p => exact h _ hP

/-- A first part that keeps a stronger property, of which only `Q` is wanted where it raises. -/
theorem effKeeps_bind_of_raise {P Q : Engine → Prop} {α β : Type} {out : α → Engine} {out1 : β → Engine} {x : Eff α}
    {f : α → Eff β} (hPQ : ∀ e, P e → Q e) (hx : EffKeeps P out x) (hf : ∀ a, P (out a) → EffKeeps Q out1 (f a)) :
    EffKeeps Q out1 (x >>= f) := by
  cases x with
  | ok a => exact hf a hx
  | error p => exact hPQ _ hx

-- The engine's part of `State.Inv`

/-- The clauses of `State.Inv` that speak of the engine, where `OUT_CAP` is `cap`. They hold inside a command too,
so they can be carried through its body. -/
def EngineSound (cap : Reg32) (e : Engine) : Prop :=
  (e.outBuf.map Prod.fst = List.range e.outLen.toNat ∧ e.outLen ≤ cap) ∧ AccumulatorClear e ∧ DictionarySound e ∧
    e.nNodes ≤ 511

/-- A body that keeps the engine sound, whatever the block and however it ends. A structure, so that elaboration does
not unfold the body with it. -/
structure SoundBody (cap : Reg32) (body : List Byte → Engine → Eff Engine) : Prop where
  keeps : ∀ x e, EngineSound cap e → EffKeeps (EngineSound cap) id (body x e)

theorem accumulatorClear_of_wAcc_eq_zero {e : Engine} (h : e.wAcc = 0) : AccumulatorClear e := by
  intro n _ _
  simp [h]

/-- No entry above the literals is valid while `NEXT_FREE` = 256 (R111). -/
theorem dictionarySound_of_nextFree {e : Engine} (h : e.nextFree = 256) : DictionarySound e := by
  refine ⟨by simp [h], by simp [h], fun j hlo hhi => ?_⟩
  simp [h] at hhi
  omega

theorem engineSound_start (cap : Reg32) (e : Engine) : EngineSound cap e.start :=
  ⟨⟨rfl, Nat.zero_le _⟩, accumulatorClear_of_wAcc_eq_zero rfl, dictionarySound_of_nextFree rfl, Nat.zero_le _⟩

theorem engineSound_reset (cap : Reg32) : EngineSound cap Engine.reset :=
  ⟨⟨rfl, Nat.zero_le _⟩, accumulatorClear_of_wAcc_eq_zero rfl, dictionarySound_of_nextFree rfl, Nat.zero_le _⟩

theorem engineSound_bsInitWrite {cap : Reg32} {e : Engine} (o : BitOrder) (h : EngineSound cap e) :
    EngineSound cap (bsInitWrite o e) := by
  obtain ⟨hout, _, hdict, harena⟩ := h
  exact ⟨hout, accumulatorClear_of_wAcc_eq_zero rfl, hdict, harena⟩

theorem engineSound_dictReset {cap : Reg32} {e : Engine} (h : EngineSound cap e) : EngineSound cap (dictReset e) := by
  obtain ⟨hout, hacc, _, harena⟩ := h
  exact ⟨hout, hacc, dictionarySound_of_nextFree rfl, harena⟩

-- The output side and the bit writer

/-- Below the capacity `OUT_LEN` does not wrap. -/
theorem outLen_succ_toNat {cap : Reg32} {e : Engine} (hle : e.outLen ≤ cap) (hne : e.outLen ≠ cap) :
    (e.outLen + 1).toNat = e.outLen.toNat + 1 ∧ e.outLen + 1 ≤ cap := by
  bv_omega

/-- `OutByte` appends: the listed addresses stay those below `OUT_LEN` (R27, R54). -/
theorem outByte_engineSound {cap : Reg32} (b : Byte) (e : Engine) (h : EngineSound cap e) :
    EffKeeps (EngineSound cap) id (outByte cap b e) := by
  refine outByte_keeps h fun hne => ?_
  obtain ⟨⟨haddr, hle⟩, hrest⟩ := h
  obtain ⟨hsucc, hle'⟩ := outLen_succ_toNat hle hne
  have hbelow : ∀ c ∈ e.outBuf, c.1 < e.outLen.toNat := by
    intro c hc
    have : c.1 ∈ e.outBuf.map Prod.fst := List.mem_map_of_mem hc
    simpa [haddr] using this
  refine ⟨⟨?_, hle'⟩, hrest⟩
  simp only
  rw [memory_write_append _ _ _ hbelow, hsucc, List.range_succ, List.map_append, haddr]
  rfl

theorem getLsbD_setBit_other {v : Byte} {i n : Nat} (b : Bool) (hn : n < 8) (h : n ≠ i) :
    (setBit v i b).getLsbD n = v.getLsbD n := by
  cases b with
  | false => simp [setBit, hn]; omega
  | true => simp [setBit, hn]; omega

/-- Placing the next bit leaves the bits not yet placed zero (R30, R92). -/
theorem accumulatorClear_placeBit {e : Engine} (b : Bool) (h : AccumulatorClear e) (hn : e.wN ≠ 7) :
    AccumulatorClear { e with wAcc := setBit e.wAcc (bitIndex e.wOrder e.wN.toNat) b, wN := e.wN + 1 } := by
  intro n hlo hhi
  have hsucc : (e.wN + 1).toNat = e.wN.toNat + 1 := by bv_omega
  have hlo' : e.wN.toNat + 1 ≤ n := hsucc ▸ hlo
  have hclear := h n (by omega) hhi
  cases ho : e.wOrder with
  | msb =>
    simp only [ho, bitIndex] at hclear ⊢
    rw [getLsbD_setBit_other b (by omega) (by omega), hclear]
  | lsb =>
    simp only [ho, bitIndex] at hclear ⊢
    rw [getLsbD_setBit_other b hhi (by omega), hclear]

/-- After a byte has gone out, `W_ACC` is empty: the other clauses are those of `OutByte`. -/
theorem engineSound_emptyAccumulator {cap : Reg32} {e : Engine} (h : EngineSound cap e) :
    EngineSound cap { e with wAcc := 0, wN := 0 } := by
  obtain ⟨hout, _, hdict, harena⟩ := h
  exact ⟨hout, accumulatorClear_of_wAcc_eq_zero rfl, hdict, harena⟩

theorem wbit_engineSound {cap : Reg32} (b : Bool) (e : Engine) (h : EngineSound cap e) :
    EffKeeps (EngineSound cap) id (wbit cap b e) := by
  unfold wbit
  simp only
  split
  · exact effKeeps_bind (outByte_engineSound _ e h) fun _ h1 => engineSound_emptyAccumulator h1
  · rename_i hn
    obtain ⟨hout, hacc, hdict, harena⟩ := h
    exact ⟨hout, accumulatorClear_placeBit b hacc hn, hdict, harena⟩

theorem bsFlush_engineSound {cap : Reg32} (e : Engine) (h : EngineSound cap e) :
    EffKeeps (EngineSound cap) id (bsFlush cap e) := by
  unfold bsFlush
  split
  · exact effKeeps_bind (outByte_engineSound _ e h) fun _ h1 => engineSound_emptyAccumulator h1
  · exact h

-- The predictor

theorem soundBody_predApply (cap : Reg32) : SoundBody cap (predApply cap) :=
  ⟨predApply_keeps outByte_engineSound (fun _ _ h => h) fun _ h => h⟩

theorem soundBody_predUndo (cap : Reg32) : SoundBody cap (predUndo cap) :=
  ⟨predUndo_keeps outByte_engineSound (fun _ _ h => h) fun _ h => h⟩

/-- The collecting stage of the composite commands touches nothing that `EngineSound` speaks of. -/
theorem predCollect_engineSound {cap : Reg32} (x : List Byte) (e : Engine) (h : EngineSound cap e) :
    EngineSound cap (predCollect x e).2 := by
  obtain ⟨n, p, he⟩ := predCollectLoop_snd x { e with pPrev := 0 }
  rw [predCollect, he]
  exact h

-- LZW: a new entry follows a valid code, because `CODE` and `PREV` are valid (R33(a))

/-- `k` is a literal or a valid entry of the dictionary (R110). -/
def CodeValid (k : Code) (e : Engine) : Prop := k.toNat < e.nextFree.toNat

theorem codeValid_literal {cap : Reg32} {k : Code} {e : Engine} (h : EngineSound cap e) (hk : k.toNat < 256) :
    CodeValid k e := by
  obtain ⟨_, _, ⟨hlo, _⟩, _⟩ := h
  have : 256 ≤ e.nextFree.toNat := hlo
  exact lt_of_lt_of_le hk this

theorem byte_toCode_lt (b : Byte) : (b.setWidth 12 : Code).toNat < 256 := by
  rw [BitVec.toNat_setWidth]
  have := b.isLt
  omega

/-- Inserting after a valid code keeps the dictionary sound (R33(a), R113). -/
theorem insert_dictionarySound {c : Code} {e : Engine} (b : Byte) (h : DictionarySound e) (hc : CodeValid c e) :
    DictionarySound (insert c b e) := by
  rcases insert_cases c b e with ⟨_, heq⟩ | ⟨hfull, heq⟩
  · rw [heq]; exact h
  · obtain ⟨hlo, _, hsmaller⟩ := h
    have hlo' : 256 ≤ e.nextFree.toNat := hlo
    have hsucc : (e.nextFree + 1).toNat = e.nextFree.toNat + 1 := by bv_omega
    rw [heq]
    refine ⟨by simp only; bv_omega, by simp only; bv_omega, fun j hj hj1 => ?_⟩
    simp only [hsucc] at hj1 ⊢
    by_cases hnew : j = e.nextFree.toNat
    · subst hnew
      have hroom : e.nextFree.toNat < 4096 := hfull
      rw [arrayGet_arraySet_same _ _ _ _ (by simp only [Config.dictEntries]; omega)]
      exact hc
    · rw [arrayGet_arraySet_other _ _ _ _ _ (by omega)]
      exact hsmaller j hj (by omega)

theorem insert_engineSound {cap : Reg32} {c : Code} {e : Engine} (b : Byte) (h : EngineSound cap e)
    (hc : CodeValid c e) : EngineSound cap (insert c b e) := by
  obtain ⟨hout, hacc, hdict, harena⟩ := h
  have hdict1 := insert_dictionarySound b hdict hc
  rcases insert_cases c b e with ⟨_, heq⟩ | ⟨_, heq⟩
  · rw [heq]; exact ⟨hout, hacc, hdict, harena⟩
  · rw [heq] at hdict1 ⊢; exact ⟨hout, hacc, hdict1, harena⟩

/-- The code that `Insert` gives is valid afterwards, as is every valid one: in a full dictionary every code is. -/
theorem codeValid_insert {k c : Code} {b : Byte} {e : Engine} (hk : k.toNat ≤ e.nextFree.toNat) :
    CodeValid k (insert c b e) := by
  unfold CodeValid
  rcases insert_cases c b e with ⟨hfull, heq⟩ | ⟨hroom, heq⟩
  · rw [heq]
    exact lt_of_lt_of_le k.isLt hfull
  · rw [heq]
    simp only
    bv_omega

/-- The loop invariant of `LZW.C`: `CODE` is valid. -/
def CompressSound (cap : Reg32) (e : Engine) : Prop := EngineSound cap e ∧ CodeValid e.code e

/-- The bit writer leaves `CODE` and the dictionary alone (R99). -/
theorem bsWrite_compressSound {cap : Reg32} {w : Nat} (v : BitVec w) (e : Engine) (h : CompressSound cap e) :
    EffKeeps (fun e1 => EngineSound cap e1 ∧ CodeValid e1.code e1 ∧ e1.code = e.code) id (bsWrite cap v e) :=
  bsWrite_keeps (P := fun e1 => EngineSound cap e1 ∧ CodeValid e1.code e1 ∧ e1.code = e.code)
    (fun b e1 ⟨hs, hcode⟩ =>
      effKeeps_and (wbit_engineSound b e1 hs) (wbit_keeps_of_insensitive (fun _ _ _ _ _ h => h) b e1 hcode))
    v e ⟨h.1, h.2, rfl⟩

theorem lzwEncodeByte_compressSound {cap : Reg32} (c : Byte) (e : Engine) (h : CompressSound cap e) :
    EffKeeps (CompressSound cap) id (lzwEncodeByte cap c e) := by
  rcases lzwEncodeByte_cases cap c e with ⟨j, hfound, heq⟩ | ⟨_, heq⟩
  · obtain ⟨hs, _⟩ := h
    obtain ⟨_, _, ⟨_, hmax, _⟩, _⟩ := id hs
    obtain ⟨_, hj, _⟩ := lookup_eq_some hfound hmax
    rw [heq]
    exact ⟨hs, hj⟩
  · rw [heq]
    refine effKeeps_bind_of_raise (fun e1 ⟨hs, hcode, _⟩ => ⟨hs, hcode⟩) (bsWrite_compressSound e.code e h)
      fun e1 ⟨hs, hcode, hkept⟩ => ?_
    have hins := insert_engineSound c hs (hkept ▸ hcode)
    exact ⟨hins, codeValid_literal hins (byte_toCode_lt c)⟩

theorem lzwCompressLoop_engineSound {cap : Reg32} (x : List Byte) (e : Engine) (h : CompressSound cap e) :
    EffKeeps (EngineSound cap) id (lzwCompressLoop cap x e) := by
  induction x generalizing e with
  | nil => exact effKeeps_bind (bsWrite_keeps wbit_engineSound _ e h.1) fun e1 h1 => bsFlush_engineSound e1 h1
  | cons c cs ih =>
    exact effKeeps_bind_of_raise (fun _ h => h.1) (lzwEncodeByte_compressSound c _ h) fun e1 h1 => ih e1 h1

theorem soundBody_lzwCompress (cap : Reg32) : SoundBody cap (lzwCompress cap) := by
  refine ⟨fun x e h => ?_⟩
  cases x with
  | nil => exact h
  | cons b bs =>
    have hstart : EngineSound cap (consume (dictReset (bsInitWrite .lsb e))) :=
      engineSound_dictReset (e := bsInitWrite .lsb e) (engineSound_bsInitWrite .lsb h)
    exact lzwCompressLoop_engineSound bs _ ⟨hstart, codeValid_literal hstart (byte_toCode_lt b)⟩

/-- The engine is sound, with the `NEXT_FREE` and `PREV` of `e`. -/
def SoundSince (cap : Reg32) (e e1 : Engine) : Prop :=
  EngineSound cap e1 ∧ e1.nextFree = e.nextFree ∧ e1.prev = e.prev

/-- What `LZW.D` and `HUF.D` need of `emit`, which stands for `OutByte` (R191, R193): it keeps the engine sound and
leaves `NEXT_FREE` and `PREV` alone. -/
def EmitSound (cap : Reg32) (emit : Byte → Engine → Eff Engine) : Prop :=
  ∀ b e, EngineSound cap e → EffKeeps (SoundSince cap e) id (emit b e)

theorem emitSound_outByte (cap : Reg32) : EmitSound cap (outByte cap) := fun b e h =>
  effKeeps_and (outByte_engineSound b e h) (outByte_keeps ⟨rfl, rfl⟩ fun _ => ⟨rfl, rfl⟩)

theorem emitSound_undoByte (cap : Reg32) : EmitSound cap (undoByte cap) := fun d e h =>
  effKeeps_bind (emitSound_outByte cap (d + e.pPrev) e h) fun _ h1 => h1

theorem EmitSound.keeps {cap : Reg32} {emit : Byte → Engine → Eff Engine} (hemit : EmitSound cap emit) (b : Byte)
    (e : Engine) (h : EngineSound cap e) : EffKeeps (EngineSound cap) id (emit b e) :=
  effKeeps_mono (fun _ h1 => h1.1) (hemit b e h)

theorem EmitSound.emitAll {cap : Reg32} {emit : Byte → Engine → Eff Engine} (hemit : EmitSound cap emit)
    (bs : List Byte) (e : Engine) (h : EngineSound cap e) : EffKeeps (SoundSince cap e) id (emitAll emit bs e) := by
  refine emitAll_keeps (fun b e1 h1 => ?_) bs e ⟨h, rfl, rfl⟩
  obtain ⟨hs, hnext, hprev⟩ := h1
  exact effKeeps_mono (fun _ ⟨hs2, hnext2, hprev2⟩ => ⟨hs2, hnext2.trans hnext, hprev2.trans hprev⟩) (hemit b e1 hs)

/-- The loop invariant of `LZW.D`: `PREV` is valid. -/
def DecompressSound (cap : Reg32) (e : Engine) : Prop := EngineSound cap e ∧ CodeValid e.prev e

theorem bsRead_engineSound {cap : Reg32} (x : List Byte) (w : Nat) (e : Engine) (h : EngineSound cap e) :
    EffKeeps (EngineSound cap) Prod.snd (bsRead x w e) := bsRead_keeps (fun _ _ h => h) x w e h

/-- One code: the range check lets at most the code through that `Insert` is about to give (R120, R121). -/
theorem lzwDecodeCode_decompressSound {cap : Reg32} {emit : Byte → Engine → Eff Engine} (hemit : EmitSound cap emit)
    (k : Code) (e : Engine) (h : DecompressSound cap e) :
    EffKeeps (DecompressSound cap) id (lzwDecodeCode emit k e) := by
  obtain ⟨hs, hprev⟩ := h
  rw [lzwDecodeCode]
  split
  · exact ⟨hs, hprev⟩
  · rename_i hrange
    have hvalid : ∀ e1, SoundSince cap e e1 → DecompressSound cap e1 := by
      rintro e1 ⟨hs1, hn1, hp1⟩
      exact ⟨hs1, by rw [CodeValid, hn1, hp1]; exact hprev⟩
    refine effKeeps_bind_of_raise hvalid (hemit.emitAll _ e hs) fun e1 h1 => ?_
    obtain ⟨hs1, hprev1⟩ := hvalid e1 h1
    obtain ⟨_, hnext, _⟩ := h1
    have hk : k.toNat ≤ e1.nextFree.toNat := hnext ▸ not_lt.1 hrange
    exact ⟨insert_engineSound _ hs1 hprev1, codeValid_insert hk⟩

theorem lzwDecodeLoop_engineSound {cap : Reg32} {emit : Byte → Engine → Eff Engine} (hemit : EmitSound cap emit)
    (x : List Byte) (n : Nat) (e : Engine) (h : DecompressSound cap e) :
    EffKeeps (EngineSound cap) id (lzwDecodeLoop emit x n e) := by
  induction n generalizing e with
  | zero => exact h.1
  | succ n ih =>
    have hread : EffKeeps (DecompressSound cap) Prod.snd (bsRead x 12 e) := bsRead_keeps (fun _ _ h => h) x 12 e h
    refine effKeeps_bind_of_raise (fun _ h => h.1) hread fun p hp => ?_
    exact effKeeps_bind_of_raise (fun _ h => h.1) (lzwDecodeCode_decompressSound hemit p.1 p.2 hp) fun e1 h1 => ih e1 h1

theorem soundBody_lzwDecompress {cap : Reg32} {emit : Byte → Engine → Eff Engine} (hemit : EmitSound cap emit) :
    SoundBody cap (lzwDecompress emit) := by
  refine ⟨fun x e h => ?_⟩
  have hstart : EngineSound cap (dictReset (bsInitRead .lsb e)) := engineSound_dictReset h
  rw [lzwDecompress]
  split
  · exact h
  · simp only
    split
    · exact h
    · refine effKeeps_bind (bsRead_engineSound x 12 _ hstart) fun p hp => ?_
      split
      · exact hp
      · rename_i hliteral
        have hk : p.1.toNat < 256 := by bv_omega
        refine effKeeps_bind (hemit.keeps _ p.2 hp) fun e1 h1 => ?_
        exact lzwDecodeLoop_engineSound hemit x _ _ ⟨h1, codeValid_literal h1 hk⟩

-- The Huffman arena: every merge adds a node and leaves one alive node fewer (R152)

/-- The ids of the alive nodes (R36, R152). -/
def aliveIds (e : Engine) : Finset Nat :=
  (Finset.range e.nNodes.toNat).filter fun i => (arrayGet e.nodes i Node.blank).alive

theorem mem_aliveIds {e : Engine} {i : Nat} :
    i ∈ aliveIds e ↔ i < e.nNodes.toNat ∧ (arrayGet e.nodes i Node.blank).alive = true := by
  simp [aliveIds]

/-- What `MinAlive` finds is alive, and not the node it is told to leave out (R153). -/
theorem minAlive_eq_some {e : Engine} {x : Option NodeId} {n : NodeId} (h : minAlive e x = some n) :
    n.toNat ∈ aliveIds e ∧ x ≠ some n := by
  suffices hall : ∀ m, minAlive e x = some m → m.toNat ∈ aliveIds e ∧ x ≠ some m from hall n h
  unfold minAlive
  refine List.foldlRecOn (b := none) (motive := fun o => ∀ m, o = some m → m.toNat ∈ aliveIds e ∧ x ≠ some m) _ _
    (fun _ h => nomatch h) ?_
  intro o ih i hi m
  have hid : (BitVec.ofNat 9 i).toNat < e.nNodes.toNat :=
    lt_of_le_of_lt (by simpa using Nat.mod_le i 512) (List.mem_range.1 hi)
  simp only
  split
  · rename_i hc
    obtain ⟨halive, hne, _⟩ := hc
    rintro ⟨⟩
    exact ⟨mem_aliveIds.2 ⟨hid, halive⟩, hne⟩
  · exact ih m

/-- What bounds the arena in `BuildTree`: there are at most 256 leaves, and `NNODES` and the alive nodes together never
exceed twice their number. -/
def ArenaRoom (e : Engine) : Prop := e.nNodes.toNat ≤ 511 ∧ e.nNodes.toNat + (aliveIds e).card ≤ 512

theorem arenaRoom_of_nNodes_le {e : Engine} (h : e.nNodes.toNat ≤ 256) : ArenaRoom e := by
  have hcard : (aliveIds e).card ≤ e.nNodes.toNat := by
    simpa [aliveIds] using Finset.card_filter_le (Finset.range e.nNodes.toNat) fun i =>
      (arrayGet e.nodes i Node.blank).alive = true
  exact ⟨by omega, by omega⟩

/-- The 10-bit `NNODES` does not wrap below its bound. -/
theorem nNodes_succ_toNat {e : Engine} (h : e.nNodes.toNat ≤ 511) : (e.nNodes + 1).toNat = e.nNodes.toNat + 1 := by
  bv_omega

theorem addLeaf_nNodes_le {e : Engine} (s : Byte) (h : e.nNodes.toNat ≤ 511) :
    (addLeaf e s).nNodes.toNat ≤ e.nNodes.toNat + 1 := by
  unfold addLeaf
  split
  · rw [addNode_nNodes, nNodes_succ_toNat h]
  · omega

theorem addLeaves_nNodes_le (l : List Nat) (e : Engine) (h : e.nNodes.toNat + l.length ≤ 511) :
    (l.foldl (fun e s => addLeaf e (BitVec.ofNat 8 s)) e).nNodes.toNat ≤ e.nNodes.toNat + l.length := by
  induction l generalizing e with
  | nil => simp
  | cons s l ih =>
    simp only [List.length_cons, List.foldl_cons] at h ⊢
    have hleaf := addLeaf_nNodes_le (e := e) (BitVec.ofNat 8 s) (by omega)
    have := ih (addLeaf e (BitVec.ofNat 8 s)) (by omega)
    omega

/-- `BuildTree` starts with at most one leaf for each symbol (R152, R154). -/
theorem buildLeaves_nNodes_le (e : Engine) : (buildLeaves e).nNodes.toNat ≤ 256 := by
  have hlen : (List.range Config.alphabet).length = 256 := List.length_range
  have hleaves := addLeaves_nNodes_le (List.range Config.alphabet) { e with nNodes := 0 } (by simp [hlen])
  simp only [hlen, BitVec.ofNat_eq_ofNat, BitVec.toNat_ofNat, Nat.zero_mod, Nat.zero_add] at hleaves
  rw [buildLeaves]
  simp only
  split
  · rename_i hzero
    rw [addNode_nNodes, hzero]
    decide
  · exact hleaves

theorem mergeNodes_nNodes (a b : NodeId) (e : Engine) : (mergeNodes a b e).nNodes = e.nNodes + 1 := rfl

/-- Writing a dead node: an alive one is another, and was alive. -/
theorem alive_of_arraySet_dead {v : Vector Node Config.hufMaxNodes} {i j : Nat} {d : Node} (hj : j < 511)
    (hd : d.alive = false) (h : (arrayGet (arraySet v j d) i Node.blank).alive = true) :
    i ≠ j ∧ (arrayGet v i Node.blank).alive = true := by
  by_cases hij : i = j
  · subst hij
    rw [arrayGet_arraySet_same _ _ _ _ hj, hd] at h
    cases h
  · rw [arrayGet_arraySet_other _ _ _ _ _ hij] at h
    exact ⟨hij, h⟩

/-- After a merge the alive nodes are the new one and those that were alive, without the two children. -/
theorem aliveIds_mergeNodes {e : Engine} {a b : NodeId} (h : e.nNodes.toNat ≤ 510) (ha : a.toNat < e.nNodes.toNat)
    (hb : b.toNat < e.nNodes.toNat) :
    aliveIds (mergeNodes a b e) ⊆ {e.nNodes.toNat} ∪ ((aliveIds e).erase a.toNat).erase b.toNat := by
  intro i hi
  obtain ⟨hlt, halive⟩ := mem_aliveIds.1 hi
  rw [mergeNodes_nNodes, nNodes_succ_toNat (by omega)] at hlt
  obtain ⟨hib, halive⟩ := alive_of_arraySet_dead (by omega) rfl halive
  obtain ⟨hia, halive⟩ := alive_of_arraySet_dead (by omega) rfl halive
  have hnext : (nextNode e).toNat = e.nNodes.toNat := by
    rw [nextNode, BitVec.toNat_setWidth]
    omega
  by_cases hnew : i = e.nNodes.toNat
  · simp [hnew]
  · have hold : i ∈ aliveIds e := by
      rw [addNode_nodes, arrayGet_arraySet_other _ _ _ _ _ (hnext ▸ hnew)] at halive
      exact mem_aliveIds.2 ⟨by omega, halive⟩
    simp [hold, hia, hib]

theorem mergeNodes_arenaRoom {e : Engine} {a b : NodeId} (h : ArenaRoom e) (ha : a.toNat ∈ aliveIds e)
    (hb : b.toNat ∈ aliveIds e) (hne : b ≠ a) : ArenaRoom (mergeNodes a b e) := by
  obtain ⟨_, hroom⟩ := h
  have hb' : b.toNat ∈ (aliveIds e).erase a.toNat := Finset.mem_erase.2 ⟨fun hh => hne (BitVec.eq_of_toNat_eq hh), hb⟩
  have hcarda := Finset.card_erase_add_one ha
  have hcardb := Finset.card_erase_add_one hb'
  have hcard : (aliveIds (mergeNodes a b e)).card ≤ 1 + (((aliveIds e).erase a.toNat).erase b.toNat).card :=
    (Finset.card_le_card (aliveIds_mergeNodes (by omega) (mem_aliveIds.1 ha).1 (mem_aliveIds.1 hb).1)).trans
      (by simpa using Finset.card_union_le {e.nNodes.toNat} (((aliveIds e).erase a.toNat).erase b.toNat))
  unfold ArenaRoom
  rw [mergeNodes_nNodes, nNodes_succ_toNat (by omega)]
  omega

theorem mergeLoop_arenaRoom (fuel : Nat) (e : Engine) (h : ArenaRoom e) : ArenaRoom (mergeLoop fuel e) := by
  induction fuel generalizing e with
  | zero => exact h
  | succ fuel ih =>
    rw [mergeLoop]
    split
    · exact h
    · rename_i a ha
      split
      · exact h
      · rename_i b hb
        obtain ⟨hal, _⟩ := minAlive_eq_some ha
        obtain ⟨hbl, hne⟩ := minAlive_eq_some hb
        exact ih _ (mergeNodes_arenaRoom h hal hbl fun hh => hne (congrArg some hh.symm))

/-- `BuildTree` allocates at most 511 nodes, whatever the histogram and the arena held (R36, R152). -/
theorem buildTree_nNodes_le (e : Engine) : (buildTree e).nNodes ≤ 511 := by
  obtain ⟨hbound, _⟩ := mergeLoop_arenaRoom Config.hufMaxNodes _ (arenaRoom_of_nNodes_le (buildLeaves_nNodes_le e))
  rw [buildTree]
  generalize mergeLoop Config.hufMaxNodes (buildLeaves e) = e1 at hbound ⊢
  exact hbound

theorem engineSound_of_arena {cap : Reg32} {e : Engine} (h : EngineSound cap { e with nNodes := 0 })
    (harena : e.nNodes ≤ 511) : EngineSound cap e := by
  obtain ⟨hout, hacc, hdict, _⟩ := h
  exact ⟨hout, hacc, hdict, harena⟩

/-- The clauses but that on `NNODES` are kept by the tree builder as by any change of the arena. -/
theorem buildTree_engineSound {cap : Reg32} (e : Engine) (h : EngineSound cap e) : EngineSound cap (buildTree e) := by
  obtain ⟨hout, hacc, hdict, _⟩ := h
  exact engineSound_of_arena (buildTree_keeps (P := fun e => EngineSound cap { e with nNodes := 0 })
    (fun _ _ _ h => h) (fun _ _ h => h) e ⟨hout, hacc, hdict, Nat.zero_le _⟩) (buildTree_nNodes_le e)

theorem soundBody_huffmanEncode (cap : Reg32) : SoundBody cap (huffmanEncode cap) := by
  refine ⟨fun x e h => ?_⟩
  have htree : EngineSound cap (buildTree (countAll x (bsInitWrite .msb e))) :=
    buildTree_engineSound _ (countAll_keeps (fun _ _ h => h) (fun _ h => h) x _ (engineSound_bsInitWrite .msb h))
  unfold huffmanEncode
  generalize buildTree (countAll x (bsInitWrite .msb e)) = e1 at htree ⊢
  refine effKeeps_bind (serializeTree_keeps wbit_engineSound _ e1.root e1 htree) fun e2 h2 => ?_
  refine effKeeps_bind (bsWrite_keeps wbit_engineSound _ e2 h2) fun e3 h3 => ?_
  exact effKeeps_bind (writeCodes_keeps wbit_engineSound (fun _ h => h) x { e3 with inPos := 0 } h3) bsFlush_engineSound

/-- `DeserializeTree` refuses the 512th node (R157). -/
theorem engineSound_allocNode {cap : Reg32} (e : Engine) (h : EngineSound cap e) (hroom : e.nNodes ≠ 511) :
    EngineSound cap { e with nNodes := e.nNodes + 1 } := by
  obtain ⟨hout, hacc, hdict, harena⟩ := h
  exact ⟨hout, hacc, hdict, by simp only; bv_omega⟩

theorem soundBody_huffmanDecode {cap : Reg32} {emit : Byte → Engine → Eff Engine} (hemit : EmitSound cap emit) :
    SoundBody cap (huffmanDecode emit) := by
  refine ⟨fun x e h => ?_⟩
  refine huffmanDecode_keeps hemit.keeps (fun _ _ h => h) (fun _ _ _ h => h) engineSound_allocNode (fun _ _ h => h)
    (fun _ _ h => h) (fun _ _ h => h) (fun e h => ?_) x e h
  obtain ⟨hout, hacc, hdict, _⟩ := h
  exact ⟨hout, hacc, hdict, Nat.zero_le _⟩

-- The composite commands

/-- A sound body as the second stage after the predictor (R190, R192). -/
theorem SoundBody.afterCollect {cap : Reg32} {body : List Byte → Engine → Eff Engine} (hbody : SoundBody cap body) :
    SoundBody cap fun x e => body (predCollect x e).1 { (predCollect x e).2 with inPos := 0 } :=
  ⟨fun x e h => hbody.keeps _ _ (predCollect_engineSound x e h)⟩

/-- A sound body started with another `P_PREV` (R191, R193). -/
theorem SoundBody.withPPrev {cap : Reg32} {body : List Byte → Engine → Eff Engine} (hbody : SoundBody cap body)
    (b : Byte) : SoundBody cap fun x e => body x { e with pPrev := b } :=
  ⟨fun x e h => hbody.keeps x { e with pPrev := b } h⟩

theorem soundBody_lzwpCompress (cap : Reg32) : SoundBody cap (lzwpCompress cap) := by
  refine ⟨fun x e h => ?_⟩
  unfold lzwpCompress
  split
  · exact h
  · exact (soundBody_lzwCompress cap).afterCollect.keeps x e h

theorem soundBody_lzwpDecompress (cap : Reg32) : SoundBody cap (lzwpDecompress cap) :=
  (soundBody_lzwDecompress (emitSound_undoByte cap)).withPPrev 0

theorem soundBody_hufpEncode (cap : Reg32) : SoundBody cap (hufpEncode cap) :=
  (soundBody_huffmanEncode cap).afterCollect

theorem soundBody_hufpDecode (cap : Reg32) : SoundBody cap (hufpDecode cap) :=
  (soundBody_huffmanDecode (emitSound_undoByte cap)).withPPrev 0

-- Commands

/-- Every instruction is the frame of R73 around a sound body, or the completion of a reserved word (R194). -/
theorem exec_cases (i : Instr) (s : State) :
    exec i s = rejectCommand (encode i) s ∨
      ∃ body, SoundBody s.caps.outCap body ∧ exec i s = runCommand (encode i) body s := by
  cases i with
  | rleC => exact .inl rfl
  | rleD => exact .inl rfl
  | predA => exact .inr ⟨_, soundBody_predApply _, rfl⟩
  | predU => exact .inr ⟨_, soundBody_predUndo _, rfl⟩
  | lzwC => exact .inr ⟨_, soundBody_lzwCompress _, rfl⟩
  | lzwD => exact .inr ⟨_, soundBody_lzwDecompress (emitSound_outByte _), rfl⟩
  | hufE => exact .inr ⟨_, soundBody_huffmanEncode _, rfl⟩
  | hufD => exact .inr ⟨_, soundBody_huffmanDecode (emitSound_outByte _), rfl⟩
  | lzwpC => exact .inr ⟨_, soundBody_lzwpCompress _, rfl⟩
  | lzwpD => exact .inr ⟨_, soundBody_lzwpDecompress _, rfl⟩
  | hufpC => exact .inr ⟨_, soundBody_hufpEncode _, rfl⟩
  | hufpD => exact .inr ⟨_, soundBody_hufpDecode _, rfl⟩

/-- `t` is `s` after a started command: some word was stored, and its pseudocode or its rejection completed with a sound
engine (R73, R210). -/
def CommandEnds (s t : State) : Prop :=
  ∃ w r, EffKeeps (EngineSound s.caps.outCap) id r ∧ t = complete (commandStart w s) r

/-- An error before any codec work leaves the engine of command start (R75, R204). -/
theorem commandEnds_takeError (k : ErrorKind) (w : BitVec 8) (s : State) :
    CommandEnds s (takeError k (commandStart w s)) :=
  ⟨w, .error (k, s.eng.start), engineSound_start _ _, rfl⟩

theorem rejectCommand_ends (w : BitVec 8) (s : State) :
    (s.runState = .busy ∧ rejectCommand w s = .next s) ∨ ∃ t, rejectCommand w s = .next t ∧ CommandEnds s t := by
  rcases rejectCommand_cases w s with hbusy | ⟨_, heq⟩
  · exact .inl hbusy
  · exact .inr ⟨_, heq, commandEnds_takeError _ _ _⟩

theorem runCommand_ends (w : BitVec 8) {body : List Byte → Engine → Eff Engine} {s : State}
    (hbody : SoundBody s.caps.outCap body) :
    (s.runState = .busy ∧ runCommand w body s = .next s) ∨ ∃ t, runCommand w body s = .next t ∧ CommandEnds s t := by
  rcases runCommand_cases w body s with hbusy | ⟨_, _, heq⟩ | ⟨_, _, heq⟩
  · exact .inl hbusy
  · exact .inr ⟨_, heq, commandEnds_takeError _ _ _⟩
  · exact .inr ⟨_, heq, w, _, hbody.keeps _ _ (engineSound_start _ _), rfl⟩

/-- Everything a `CMD` write can do, whatever the word (R21, R73, R75): it always answers a next state. -/
theorem writeCmd_ends (w : BitVec 8) (s : State) :
    (s.runState = .busy ∧ writeCmd w s = .next s) ∨ ∃ t, writeCmd w s = .next t ∧ CommandEnds s t := by
  rcases writeCmd_cases w s with ⟨i, _, hexec⟩ | ⟨_, _, hreject⟩
  · rw [hexec]
    rcases exec_cases i s with heq | ⟨body, hbody, heq⟩
    · rw [heq]; exact rejectCommand_ends _ s
    · rw [heq]; exact runCommand_ends _ hbody
  · rw [hreject]; exact rejectCommand_ends w s

-- Host accesses and the step

/-- Everything an access that answers a next state can have done (R20 to R27, R240): a whole command; a hardware reset;
a byte of `IN_BUF`; or `IN_LEN` and the data the host reads. -/
theorem access_eq_next {a : HostAccess} {s t : State} (h : access a s = .next t) :
    CommandEnds s t ∨ t = hardwareReset s ∨
      (∃ p b, p < s.caps.inCap.toNat ∧ t = { s with inBuf := s.inBuf.write p b }) ∨
      (∃ n v f, t = { s with inLen := n, rdata := v, freeReads := f }) := by
  cases a with
  | writeCmd w =>
    rcases writeCmd_ends w s with ⟨_, heq⟩ | ⟨u, heq, hends⟩
    · cases heq.symm.trans h
      exact .inr (.inr (.inr ⟨s.inLen, s.rdata, s.freeReads, rfl⟩))
    · cases heq.symm.trans h
      exact .inl hends
  | writeStatus v | writeErr v | writeOutLen v =>
    cases h
    exact .inr (.inr (.inr ⟨s.inLen, s.rdata, s.freeReads, rfl⟩))
  | writeInLen n =>
    cases h
    refine .inr (.inr (.inr ?_))
    unfold writeInLen
    split
    · exact ⟨s.inLen, s.rdata, s.freeReads, rfl⟩
    · exact ⟨n, s.rdata, s.freeReads, rfl⟩
  | readReg r =>
    cases h
    exact .inr (.inr (.inr ⟨s.inLen, _, _, readReg_frame r s⟩))
  | writeIn p b =>
    rcases writeIn_cases p b s with ⟨_, heq⟩ | ⟨_, _, heq⟩ | ⟨hp, _, heq⟩
    · cases heq.symm.trans h
    · cases heq.symm.trans h
    · cases heq.symm.trans h
      exact .inr (.inr (.inl ⟨p, b, hp, rfl⟩))
  | readIn p =>
    rcases readIn_cases p s with ⟨_, heq⟩ | ⟨_, v, f, heq⟩
    · cases heq.symm.trans h
    · cases heq.symm.trans h
      exact .inr (.inr (.inr ⟨s.inLen, v, f, rfl⟩))
  | readOut p =>
    rcases readOut_cases p s with ⟨_, heq⟩ | ⟨_, v, f, heq⟩
    · cases heq.symm.trans h
    · cases heq.symm.trans h
      exact .inr (.inr (.inr ⟨s.inLen, v, f, rfl⟩))
  | hardwareReset =>
    cases h
    exact .inr (.inl rfl)

/-- A step with an access waiting performs it; a step with none keeps the state (R217). -/
theorem step_eq_next {s t : State} (h : step s = .next t) :
    t = s ∨ ∃ a rest, s.pending = a :: rest ∧ access a { s with pending := rest } = .next t := by
  cases hp : s.pending with
  | nil =>
    rw [step_of_pending_nil s hp] at h
    cases h
    exact .inl rfl
  | cons a rest =>
    rw [step_of_pending_cons s a rest hp] at h
    exact .inr ⟨a, rest, rfl, h⟩

-- The invariant

theorem State.Inv.commandEnds {s t : State} (h : s.Inv) (ht : CommandEnds s t) : t.Inv := by
  obtain ⟨w, r, hr, rfl⟩ := ht
  cases r with
  | ok e =>
    obtain ⟨hout, hacc, hdict, harena⟩ := hr
    exact
      { notBusy := by simp
        errIffError := by simp
        errLegal := by simp
        outputOnlyWhenDone := fun hd => absurd rfl hd
        output := hout
        inputCanonical := h.inputCanonical
        inputInRange := h.inputInRange
        accumulator := hacc
        dictionary := hdict
        arena := harena
        capacities := h.capacities }
  | error p =>
    obtain ⟨k, e⟩ := p
    obtain ⟨_, hacc, hdict, harena⟩ := hr
    exact
      { notBusy := by simp
        errIffError := by cases k <;> simp [ErrorKind.code]
        errLegal := by cases k <;> simp [ErrorKind.code]
        outputOnlyWhenDone := fun _ => rfl
        output := ⟨rfl, Nat.zero_le _⟩
        inputCanonical := h.inputCanonical
        inputInRange := h.inputInRange
        accumulator := hacc
        dictionary := hdict
        arena := harena
        capacities := h.capacities }

theorem State.Inv.hardwareReset {s : State} (h : s.Inv) : (hardwareReset s).Inv := by
  obtain ⟨hout, hacc, hdict, harena⟩ := engineSound_reset s.caps.outCap
  exact
    { notBusy := by simp
      errIffError := by simp
      errLegal := by simp
      outputOnlyWhenDone := fun _ => rfl
      output := hout
      inputCanonical := memory_wf_nil
      inputInRange := fun _ hc => nomatch hc
      accumulator := hacc
      dictionary := hdict
      arena := harena
      capacities := h.capacities }

theorem State.Inv.writeIn {s : State} (h : s.Inv) {p : Nat} (b : Byte) (hp : p < s.caps.inCap.toNat) :
    State.Inv { s with inBuf := s.inBuf.write p b } :=
  { h with
    inputCanonical := memory_wf_write _ p b h.inputCanonical
    inputInRange := fun c hc => by
      rcases memory_mem_write _ _ _ _ hc with rfl | hold
      · exact hp
      · exact h.inputInRange c hold }

/-- The invariant does not speak of `IN_LEN`, nor of the host's side but the capacities. -/
theorem State.Inv.hostSide {s : State} (h : s.Inv) (n v : Reg32) (q : List HostAccess) (f : Nat) :
    State.Inv { s with inLen := n, pending := q, rdata := v, freeReads := f } := { h with }

/-- Settles O17: an access is a command, a reset, a byte of `IN_BUF`, or of the host's side only. -/
theorem stepKeepsInvariant : Obligations.StepKeepsInvariant := by
  intro s t hs hstep
  rcases step_eq_next hstep with rfl | ⟨a, rest, _, haccess⟩
  · exact hs
  · have hs1 : State.Inv { s with pending := rest } := hs.hostSide s.inLen s.rdata rest s.freeReads
    rcases access_eq_next haccess with hends | rfl | ⟨p, b, hp, rfl⟩ | ⟨n, v, f, rfl⟩
    · exact hs1.commandEnds hends
    · exact hs1.hardwareReset
    · exact hs1.writeIn b hp
    · exact hs1.hostSide n v rest f

-- The platform (R218)

theorem commandEnds_caps {s t : State} (h : CommandEnds s t) : t.caps = s.caps := by
  obtain ⟨w, r, _, rfl⟩ := h
  cases r <;> rfl

/-- No step changes the capacities, from any state (R6; log 7). -/
theorem step_caps {s t : State} (h : step s = .next t) : t.caps = s.caps := by
  rcases step_eq_next h with rfl | ⟨a, rest, _, haccess⟩
  · rfl
  · rcases access_eq_next haccess with hends | rfl | ⟨_, _, _, rfl⟩ | ⟨_, _, _, rfl⟩
    · exact (commandEnds_caps hends).trans rfl
    · rfl
    · rfl
    · rfl

theorem platformStep_of_next {p : Platform} {i : Nat} {s t : State} (hs : p.instances[i]? = some s)
    (h : step s = .next t) : platformStep p i = some (.next { p with instances := p.instances.set i t }) := by
  simp only [platformStep, hs, Option.map_some, h]

/-- Steps of two instances, in either order (R218). -/
theorem platformStep_comm {p : Platform} {i j : Nat} {s u s1 u1 : State} (hij : i ≠ j) (hs : p.instances[i]? = some s)
    (hu : p.instances[j]? = some u) (hs1 : step s = .next s1) (hu1 : step u = .next u1) :
    ∃ q q1 r, platformStep p i = some (.next q) ∧ platformStep p j = some (.next q1) ∧
      q.instances[i]? = some s1 ∧ (∀ k, k ≠ i → q.instances[k]? = p.instances[k]?) ∧
      platformStep q j = some (.next r) ∧ platformStep q1 i = some (.next r) := by
  obtain ⟨hi, _⟩ := List.getElem?_eq_some_iff.1 hs
  have hother : ∀ k, k ≠ i → (p.instances.set i s1)[k]? = p.instances[k]? := fun k hk => List.getElem?_set_ne hk.symm
  refine ⟨_, _, _, platformStep_of_next hs hs1, platformStep_of_next hu hu1, List.getElem?_set_self hi, hother,
    platformStep_of_next ((hother j hij.symm).trans hu) hu1, ?_⟩
  rw [List.set_comm _ _ hij]
  exact platformStep_of_next ((List.getElem?_set_ne hij.symm).trans hs) hs1

/-- The parameters of R6 in the terms of the rule. -/
theorem platformParams_wellFormed_iff (c : PlatformParams) :
    c.wellFormed = true ↔ 1 ≤ c.nInstances ∧ c.caps.inCap ≠ 0 ∧ c.caps.outCap ≠ 0 := by
  simp [PlatformParams.wellFormed, capWellFormed, and_assoc]

theorem platformReset_none {c : PlatformParams} (h : c.nInstances = 0 ∨ c.caps.inCap = 0 ∨ c.caps.outCap = 0) :
    platformReset c = none := by
  rcases platformReset_cases c with ⟨_, heq⟩ | ⟨hwf, _⟩
  · exact heq
  · obtain ⟨hn, hin, hout⟩ := (platformParams_wellFormed_iff c).1 hwf
    rcases h with h | h | h
    · omega
    · exact absurd h hin
    · exact absurd h hout

theorem platformReset_sound {c : PlatformParams} (hn : 1 ≤ c.nInstances) (hin : c.caps.inCap ≠ 0)
    (hout : c.caps.outCap ≠ 0) :
    ∃ p, platformReset c = some p ∧ PlatformSound p ∧ p.params = c ∧
      ∀ s ∈ p.instances, s = { State.reset with caps := c.caps } := by
  have hwf := (platformParams_wellFormed_iff c).2 ⟨hn, hin, hout⟩
  rcases platformReset_cases c with ⟨hbad, _⟩ | ⟨_, heq⟩
  · rw [hwf] at hbad; cases hbad
  · have hall : ∀ s ∈ List.replicate c.nInstances { State.reset with caps := c.caps },
        s = { State.reset with caps := c.caps } := fun s hs => List.eq_of_mem_replicate hs
    exact ⟨_, heq, ⟨hwf, List.length_replicate, fun s hs => by rw [hall s hs]⟩, rfl, hall⟩

theorem platformStep_sound {p q : Platform} {i : Nat} (hp : PlatformSound p) (h : platformStep p i = some (.next q)) :
    PlatformSound q ∧ q.params = p.params := by
  obtain ⟨s, t, hs, hstep, rfl⟩ := platformStep_eq_next h
  obtain ⟨hwf, hlen, hcaps⟩ := hp
  refine ⟨⟨hwf, by simpa using hlen, fun u hu => ?_⟩, rfl⟩
  rcases List.mem_or_eq_of_mem_set hu with hold | rfl
  · exact hcaps u hold
  · exact (step_caps hstep).trans (hcaps s (List.mem_of_getElem? hs))

/-- Settles O27: a platform step replaces one list element, which commutes at different positions, and keeps `caps`. -/
theorem instancesAreIndependent : Obligations.InstancesAreIndependent :=
  ⟨fun _ _ _ _ _ _ _ hij hs hu hs1 hu1 => platformStep_comm hij hs hu hs1 hu1,
    fun _ => ⟨platformReset_none, platformReset_sound⟩, fun _ _ _ hp h => platformStep_sound hp h⟩

/-- Settles O3: of the two cases of a `CMD` write, the word being legal leaves the first. -/
theorem stepRunsDecodedInstruction : Obligations.StepRunsDecodedInstruction := by
  intro s w rest i hpending hdecode
  rw [step_of_pending_cons s _ rest hpending]
  show writeCmd w { s with pending := rest } = _
  rcases writeCmd_cases w { s with pending := rest } with ⟨j, hj, hexec⟩ | ⟨r, hr, _⟩
  · cases hdecode.symm.trans hj
    exact hexec
  · cases hdecode.symm.trans hr

end Sys2Proof.Machine
end

section
/-! What the host sees of the engine: its registers and buffers through the port (R20 to R27), and the outcome of a
command whatever the engine held before (R27, R38). -/

namespace Sys2Proof.Machine

-- The port while `BUSY`

/-- While `BUSY` a command changes nothing (R21). -/
theorem exec_of_busy (i : Instr) {s : State} (h : s.runState = .busy) : exec i s = .next s := by
  rcases exec_cases i s with heq | ⟨body, _, heq⟩
  · simp only [heq, rejectCommand, if_pos h]
  · simp only [heq, runCommand, if_pos h]

theorem writeCmd_of_busy (w : BitVec 8) {s : State} (h : s.runState = .busy) : writeCmd w s = .next s := by
  rcases writeCmd_cases w s with ⟨i, _, heq⟩ | ⟨_, _, heq⟩
  · rw [heq, exec_of_busy i h]
  · simp only [heq, rejectCommand, if_pos h]

theorem writeInLen_of_busy (n : Reg32) {s : State} (h : s.runState = .busy) : writeInLen n s = s := if_pos h

theorem writeInLen_of_not_busy (n : Reg32) {s : State} (h : s.runState ≠ .busy) :
    writeInLen n s = { s with inLen := n } := if_neg h

/-- Settles O19: both accesses test `STATE` before anything else. -/
theorem busyWritesIgnored : Obligations.BusyWritesIgnored := by
  intro s rest w n hbusy
  constructor
  · intro hpending
    rw [step_of_pending_cons s _ rest hpending]
    exact writeCmd_of_busy w (s := { s with pending := rest }) hbusy
  · intro hpending
    rw [step_of_pending_cons s _ rest hpending]
    exact congrArg Host.Outcome.next (writeInLen_of_busy n (s := { s with pending := rest }) hbusy)

-- Registers

/-- Settles O20: the three read-only registers have no effect in `access`. -/
theorem readOnlyRegistersIgnoreWrites : Obligations.ReadOnlyRegistersIgnoreWrites := by
  intro s rest v n hpending
  rcases hpending with hpending | hpending | hpending
  · exact step_of_pending_cons s _ rest hpending
  · exact step_of_pending_cons s _ rest hpending
  · exact step_of_pending_cons s _ rest hpending

/-- Settles O21: outside `BUSY` the write stores the value, with no test against `IN_CAP`. -/
theorem inLenStoresAnyValue : Obligations.InLenStoresAnyValue := by
  intro s rest n hbusy hpending
  rw [step_of_pending_cons s _ rest hpending]
  exact congrArg Host.Outcome.next (writeInLen_of_not_busy n (s := { s with pending := rest }) hbusy)

theorem dictFull_eq_true_iff (e : Engine) : dictFull e = true ↔ e.nextFree = 4096 := beq_iff_eq

theorem statusReg_state (s : State) : ((statusReg s).setWidth 32).extractLsb' 0 2 = s.runState.code := by
  unfold statusReg
  cases dictFull s.eng <;> cases s.runState <;> rfl

theorem statusReg_dictFull (s : State) : (statusReg s).getLsbD 2 = dictFull s.eng := by
  unfold statusReg
  cases dictFull s.eng <;> cases s.runState <;> rfl

/-- Bits [7:3] of `STATUS` are zero (R22). -/
theorem statusReg_toNat_lt (s : State) : (statusReg s).toNat < 8 := by
  unfold statusReg
  cases dictFull s.eng <;> cases s.runState <;> decide

theorem readReg_freeReads (r : HostReg) (s : State) (h : s.runState ≠ .busy ∨ r ≠ .outLen) :
    (readReg r s).freeReads = s.freeReads := by
  cases r with
  | cmd | status | err | inLen => rfl
  | outLen =>
    have hbusy : s.runState ≠ .busy := h.resolve_right fun hr => hr rfl
    simp only [readReg, if_neg hbusy, returnValue_freeReads]

/-- Outside `BUSY` a read of `OUT_LEN` returns the register (R25). -/
theorem readReg_outLen {s : State} (h : s.runState ≠ .busy) : (readReg .outLen s).rdata = s.eng.outLen := by
  simp only [readReg, if_neg h, returnValue_rdata]

/-- Settles O22: one lemma for each field of `STATUS`; the other registers are returned as they are. -/
theorem registerReads : Obligations.RegisterReads := by
  intro s rest r hpending
  let s1 : State := { s with pending := rest }
  refine ⟨readReg r s1, step_of_pending_cons s _ rest hpending, readReg_frame r s1, readReg_freeReads r s1,
    ?_, ?_, ?_, ?_, ?_⟩
  · rintro rfl
    exact BitVec.toNat_setWidth_of_le (by omega)
  · rintro rfl
    exact BitVec.toNat_setWidth_of_le (by omega)
  · rintro rfl
    rfl
  · rintro rfl hbusy
    exact readReg_outLen (s := s1) hbusy
  · rintro rfl
    have hstate : (readReg .status s1).rdata.extractLsb' 0 2 = s.runState.code := statusReg_state s1
    have hnat : (readReg .status s1).rdata.toNat = (statusReg s1).toNat := BitVec.toNat_setWidth_of_le (by omega)
    refine ⟨fun h => ?_, fun h => ?_, fun h => ?_, fun h => ?_, ?_, hnat ▸ statusReg_toNat_lt s1⟩
    · rw [hstate, h]; rfl
    · rw [hstate, h]; rfl
    · rw [hstate, h]; rfl
    · rw [hstate, h]; rfl
    · have hbit : (readReg .status s1).rdata.getLsbD 2 = dictFull s.eng :=
        (BitVec.getLsbD_setWidth ..).trans (by simpa using statusReg_dictFull s1)
      rw [hbit, dictFull_eq_true_iff]

-- Buffers

theorem inByte_write_same (s : State) (a : Nat) (b : Byte) : inByte { s with inBuf := s.inBuf.write a b } a = b := by
  simp only [inByte, memory_read_write_same, Option.getD_some]

theorem inByte_write_other (s : State) {a p : Nat} (b : Byte) (h : p ≠ a) :
    inByte { s with inBuf := s.inBuf.write a b } p = inByte s p := by
  simp only [inByte, memory_read_write_other _ _ _ _ h]

theorem writeIn_of_missing {a : Nat} (b : Byte) {s : State} (h : s.caps.inCap.toNat ≤ a) :
    writeIn a b s = .fault (.inBufAddress a) := if_pos h

theorem writeIn_of_exists {a : Nat} (b : Byte) {s : State} (h : a < s.caps.inCap.toNat) (hbusy : s.runState ≠ .busy) :
    writeIn a b s = .next { s with inBuf := s.inBuf.write a b } := by
  simp only [writeIn, if_neg (not_le.2 h), if_neg hbusy]

theorem readIn_of_missing {a : Nat} {s : State} (h : s.caps.inCap.toNat ≤ a) :
    readIn a s = .fault (.inBufAddress a) := if_pos h

theorem readIn_of_exists {a : Nat} {s : State} (h : a < s.caps.inCap.toNat) (hbusy : s.runState ≠ .busy) :
    readIn a s = .next (returnValue ((inByte s a).setWidth 32) s) := by
  simp only [readIn, if_neg (not_le.2 h), if_neg hbusy]

/-- Settles O23: the port's cases for an address, and the laws of a buffer under a write. -/
theorem inBufWriteThenRead : Obligations.InBufWriteThenRead := by
  intro s rest a b
  refine ⟨fun hpending => ?_, fun hpending => ?_, fun hpending ha hbusy => ?_⟩
  · rw [step_of_pending_cons s _ rest hpending]
    let s1 : State := { s with pending := rest }
    refine ⟨writeIn_of_missing b (s := s1), fun ha hbusy => ?_⟩
    exact ⟨_, writeIn_of_exists b (s := s1) ha hbusy, inByte_write_same s1 a b,
      fun p hp => inByte_write_other s1 b hp, rfl⟩
  · rw [step_of_pending_cons s _ rest hpending]
    let s1 : State := { s with pending := rest }
    exact ⟨readIn_of_missing (s := s1), readIn_of_exists (s := s1)⟩
  · let s1 : State := { s with pending := .readIn a :: rest, inBuf := s.inBuf.write a b }
    let s2 : State := { s1 with pending := rest }
    have hwrite : step s = .next s1 := (step_of_pending_cons s _ _ hpending).trans (writeIn_of_exists b ha hbusy)
    have hread : step s1 = .next (returnValue ((inByte s2 a).setWidth 32) s2) :=
      (step_of_pending_cons s1 _ rest rfl).trans (readIn_of_exists (s := s2) ha hbusy)
    have hbyte : inByte s2 a = b := inByte_write_same s a b
    refine ⟨_, _, hwrite, hread, ?_, rfl⟩
    rw [returnValue_rdata, hbyte, BitVec.toNat_setWidth_of_le (by omega)]

theorem readOut_of_missing {a : Nat} {s : State} (h : s.caps.outCap.toNat ≤ a) :
    readOut a s = .fault (.outBufAddress a) := if_pos h

theorem readOut_of_specified {a : Nat} {b : Byte} {s : State} (h : a < s.caps.outCap.toNat)
    (hbusy : s.runState ≠ .busy) (hb : s.eng.outBuf.read a = some b) :
    readOut a s = .next (returnValue (b.setWidth 32) s) := by
  simp only [readOut, if_neg (not_le.2 h), if_neg hbusy, hb]

theorem readOut_of_unspecified {a : Nat} {s : State} (h : a < s.caps.outCap.toNat) (hbusy : s.runState ≠ .busy)
    (hnone : s.eng.outBuf.read a = none) :
    readOut a s = .next (returnUnspecified ((Config.unspecifiedByte s.freeReads).setWidth 32) s) := by
  simp only [readOut, if_neg (not_le.2 h), if_neg hbusy, hnone]

/-- Settles O24: one case of the port for each clause. -/
theorem outBufReads : Obligations.OutBufReads := by
  intro s rest a hpending hbusy
  rw [step_of_pending_cons s _ rest hpending]
  let s1 : State := { s with pending := rest }
  exact ⟨readOut_of_missing (s := s1), fun _ ha hb => readOut_of_specified (s := s1) ha hbusy hb,
    fun ha hnone => readOut_of_unspecified (s := s1) ha hbusy hnone⟩

/-- An access that names an address that exists, and does not write `IN_BUF` while `BUSY`, is performed. -/
theorem access_of_wellFormed {a : HostAccess} {s : State} (h : a.wellFormed s.caps.inCap s.caps.outCap = true)
    (hbusy : ∀ p b, a = .writeIn p b → s.runState ≠ .busy) : ∃ t, access a s = .next t := by
  cases a with
  | writeCmd w =>
    rcases writeCmd_ends w s with ⟨_, heq⟩ | ⟨t, heq, _⟩
    · exact ⟨s, heq⟩
    · exact ⟨t, heq⟩
  | writeStatus | writeErr | writeOutLen | writeInLen | readReg | hardwareReset => exact ⟨_, rfl⟩
  | writeIn p b => exact ⟨_, writeIn_of_exists b (of_decide_eq_true h) (hbusy p b rfl)⟩
  | readIn p =>
    have hp : p < s.caps.inCap.toNat := of_decide_eq_true h
    rcases readIn_cases p s with ⟨hmissing, _⟩ | ⟨_, v, n, heq⟩
    · omega
    · exact ⟨_, heq⟩
  | readOut p =>
    have hp : p < s.caps.outCap.toNat := of_decide_eq_true h
    rcases readOut_cases p s with ⟨hmissing, _⟩ | ⟨_, v, n, heq⟩
    · omega
    · exact ⟨_, heq⟩

/-- Settles O25: `HostBehaves` excludes every fault and the one refusal of `access`. -/
theorem wellBehavedHostNeverStops : Obligations.WellBehavedHostNeverStops := by
  intro s hbehaves
  cases hpending : s.pending with
  | nil => exact ⟨s, step_of_pending_nil s hpending⟩
  | cons a rest =>
    rw [step_of_pending_cons s a rest hpending]
    rw [HostBehaves, hpending] at hbehaves
    cases a with
    | writeIn p b =>
      obtain ⟨hp, hbusy⟩ := hbehaves
      exact access_of_wellFormed (decide_eq_true hp) fun _ _ _ => hbusy
    | writeCmd | writeStatus | writeErr | writeInLen | writeOutLen | readReg | readIn | readOut | hardwareReset =>
      exact access_of_wellFormed hbehaves fun _ _ h => nomatch h

-- The outcome of a command

/-- A command outside `BUSY` ends, with a sound engine (R73, R210). -/
theorem exec_ends (i : Instr) {s t : State} (hbusy : s.runState ≠ .busy) (h : exec i s = .next t) :
    CommandEnds s t := by
  have hends : (s.runState = .busy ∧ exec i s = .next s) ∨ ∃ u, exec i s = .next u ∧ CommandEnds s u := by
    rcases exec_cases i s with heq | ⟨body, hbody, heq⟩
    · rw [heq]; exact rejectCommand_ends _ s
    · rw [heq]; exact runCommand_ends _ hbody
  rcases hends with ⟨hb, _⟩ | ⟨u, heq, hu⟩
  · exact absurd hb hbusy
  · cases heq.symm.trans h
    exact hu

/-- Settles O12: the engine is sound where the command ends, and an error leaves no output. -/
theorem outputExactAfterCommand : Obligations.OutputExactAfterCommand := by
  intro i s t hbusy h
  obtain ⟨w, r, hr, rfl⟩ := exec_ends i hbusy h
  cases r with
  | ok e =>
    obtain ⟨hout, _⟩ := hr
    exact hout
  | error p => exact ⟨rfl, Nat.zero_le _⟩

/-- `NEXT_FREE` is what command start leaves: no entry above the literals (R111). -/
def DictEmpty (e : Engine) : Prop := e.nextFree = 256

theorem outByte_dictEmpty {cap : Reg32} (b : Byte) (e : Engine) (h : DictEmpty e) :
    EffKeeps DictEmpty id (outByte cap b e) := outByte_keeps h fun _ => h

theorem wbit_dictEmpty {cap : Reg32} (b : Bool) (e : Engine) (h : DictEmpty e) :
    EffKeeps DictEmpty id (wbit cap b e) := wbit_keeps_of_insensitive (fun _ _ _ _ _ h => h) b e h

theorem undoByte_dictEmpty {cap : Reg32} (b : Byte) (e : Engine) (h : DictEmpty e) :
    EffKeeps DictEmpty id (undoByte cap b e) := undoByte_keeps outByte_dictEmpty (fun _ _ h => h) b e h

/-- A body that inserts nothing, whatever the block and however it ends. A structure, so that elaboration does not
unfold the body with it. -/
structure DictEmptyBody (body : List Byte → Engine → Eff Engine) : Prop where
  keeps : ∀ x e, DictEmpty e → EffKeeps DictEmpty id (body x e)

theorem dictEmptyBody_predApply (cap : Reg32) : DictEmptyBody (predApply cap) :=
  ⟨predApply_keeps outByte_dictEmpty (fun _ _ h => h) fun _ h => h⟩

theorem dictEmptyBody_predUndo (cap : Reg32) : DictEmptyBody (predUndo cap) :=
  ⟨predUndo_keeps outByte_dictEmpty (fun _ _ h => h) fun _ h => h⟩

theorem dictEmptyBody_huffmanEncode (cap : Reg32) : DictEmptyBody (huffmanEncode cap) := by
  refine ⟨fun x e h => ?_⟩
  have htree : DictEmpty (buildTree (countAll x (bsInitWrite .msb e))) :=
    buildTree_keeps (fun _ _ _ h => h) (fun _ _ h => h) _ (countAll_keeps (fun _ _ h => h) (fun _ h => h) x _ h)
  unfold huffmanEncode
  generalize buildTree (countAll x (bsInitWrite .msb e)) = e1 at htree ⊢
  refine effKeeps_bind (serializeTree_keeps wbit_dictEmpty _ e1.root e1 htree) fun e2 h2 => ?_
  refine effKeeps_bind (bsWrite_keeps wbit_dictEmpty _ e2 h2) fun e3 h3 => ?_
  exact effKeeps_bind (writeCodes_keeps wbit_dictEmpty (fun _ h => h) x { e3 with inPos := 0 } h3)
    (bsFlush_keeps_of_insensitive fun _ _ _ _ _ h => h)

theorem dictEmptyBody_huffmanDecode {emit : Byte → Engine → Eff Engine}
    (hemit : ∀ b e, DictEmpty e → EffKeeps DictEmpty id (emit b e)) : DictEmptyBody (huffmanDecode emit) :=
  ⟨huffmanDecode_keeps hemit (fun _ _ h => h) (fun _ _ _ h => h) (fun _ h _ => h) (fun _ _ h => h) (fun _ _ h => h)
    (fun _ _ h => h) fun _ h => h⟩

theorem predCollect_dictEmpty (x : List Byte) (e : Engine) (h : DictEmpty e) : DictEmpty (predCollect x e).2 := by
  obtain ⟨n, p, he⟩ := predCollectLoop_snd x { e with pPrev := 0 }
  rw [predCollect, he]
  exact h

theorem DictEmptyBody.afterCollect {body : List Byte → Engine → Eff Engine} (hbody : DictEmptyBody body) :
    DictEmptyBody fun x e => body (predCollect x e).1 { (predCollect x e).2 with inPos := 0 } :=
  ⟨fun x e h => hbody.keeps _ _ (predCollect_dictEmpty x e h)⟩

theorem DictEmptyBody.withPPrev {body : List Byte → Engine → Eff Engine} (hbody : DictEmptyBody body) (b : Byte) :
    DictEmptyBody fun x e => body x { e with pPrev := b } :=
  ⟨fun x e h => hbody.keeps x { e with pPrev := b } h⟩

theorem rejectCommand_dictEmpty {w : BitVec 8} {s t : State} (hbusy : s.runState ≠ .busy)
    (h : rejectCommand w s = .next t) : DictEmpty t.eng := by
  rcases rejectCommand_cases w s with ⟨hb, _⟩ | ⟨_, heq⟩
  · exact absurd hb hbusy
  · cases heq.symm.trans h
    rfl

theorem runCommand_dictEmpty {w : BitVec 8} {body : List Byte → Engine → Eff Engine}
    (hbody : DictEmptyBody body) {s t : State} (hbusy : s.runState ≠ .busy)
    (h : runCommand w body s = .next t) : DictEmpty t.eng := by
  rcases runCommand_cases w body s with ⟨hb, _⟩ | ⟨_, _, heq⟩ | ⟨_, _, heq⟩
  · exact absurd hb hbusy
  · cases heq.symm.trans h
    rfl
  · have hkept := hbody.keeps (inBlock s) s.eng.start rfl
    cases heq.symm.trans h
    cases hr : body (inBlock s) s.eng.start with
    | ok e => rw [hr] at hkept; exact hkept
    | error p => rw [hr] at hkept; exact hkept

/-- Only the LZW commands insert in the dictionary (R38). -/
theorem exec_dictEmpty {i : Instr} {s t : State} (hbusy : s.runState ≠ .busy) (h : exec i s = .next t)
    (hlzwC : i ≠ .lzwC) (hlzwD : i ≠ .lzwD) (hlzwpC : i ≠ .lzwpC) (hlzwpD : i ≠ .lzwpD) : DictEmpty t.eng := by
  cases i with
  | lzwC | lzwD | lzwpC | lzwpD => contradiction
  | rleC | rleD => exact rejectCommand_dictEmpty hbusy h
  | predA => exact runCommand_dictEmpty (dictEmptyBody_predApply _) hbusy h
  | predU => exact runCommand_dictEmpty (dictEmptyBody_predUndo _) hbusy h
  | hufE => exact runCommand_dictEmpty (dictEmptyBody_huffmanEncode _) hbusy h
  | hufD => exact runCommand_dictEmpty (dictEmptyBody_huffmanDecode outByte_dictEmpty) hbusy h
  | hufpC => exact runCommand_dictEmpty (dictEmptyBody_huffmanEncode _).afterCollect hbusy h
  | hufpD => exact runCommand_dictEmpty ((dictEmptyBody_huffmanDecode undoByte_dictEmpty).withPPrev 0) hbusy h

/-- Settles O13: with an empty dictionary bit [2] of `STATUS` is 0. -/
theorem dictFullClearAfterOtherCommands : Obligations.DictFullClearAfterOtherCommands := by
  intro i s t hbusy h hlzwC hlzwD hlzwpC hlzwpD
  have hempty : t.eng.nextFree = 256 := exec_dictEmpty hbusy h hlzwC hlzwD hlzwpC hlzwpD
  refine ⟨hempty, ?_⟩
  rw [statusReg_dictFull, dictFull, hempty]
  rfl

end Sys2Proof.Machine
end

section
/-! Two runs of one command on the same block, from engines that an earlier history filled differently: what the host
sees is the same (R40, R211, R248). Each operation is shown to carry an agreement of two engines along. What the two
histories may leave different is what the command never reads before it writes it: dictionary entries from `NEXT_FREE`
on (R32), nodes from `NNODES` on and the unused fields of a node (R36), and registers the command sets first. -/

namespace Sys2Proof.Machine

-- Two computations that end alike

/-- Two computations both end normally, with results in `R`, or both raise the same error, with the same `NEXT_FREE`.
An inductive predicate, so that comparing two such statements does not run the computations. -/
inductive EffAgree {α : Type} (R : α → α → Prop) : Eff α → Eff α → Prop
  | ok {a b : α} (h : R a b) : EffAgree R (.ok a) (.ok b)
  | error {k : ErrorKind} {e e1 : Engine} (h : e.nextFree = e1.nextFree) : EffAgree R (.error (k, e)) (.error (k, e1))

theorem effAgree_raise {α : Type} {R : α → α → Prop} (k : ErrorKind) {e e1 : Engine} (h : e.nextFree = e1.nextFree) :
    EffAgree R (raise k e) (raise k e1) := .error h

theorem EffAgree.bind {α β : Type} {R : α → α → Prop} {S : β → β → Prop} {x y : Eff α} {f g : α → Eff β}
    (h : EffAgree R x y) (hf : ∀ a b, x = .ok a → y = .ok b → R a b → EffAgree S (f a) (g b)) :
    EffAgree S (x >>= f) (y >>= g) := by
  cases h with
  | ok h => exact hf _ _ rfl rfl h
  | error h => exact .error h

theorem EffAgree.mono {α : Type} {R S : α → α → Prop} {x y : Eff α} (hRS : ∀ a b, R a b → S a b)
    (h : EffAgree R x y) : EffAgree S x y := by
  cases h with
  | ok h => exact .ok (hRS _ _ h)
  | error h => exact .error h

/-- What the first run keeps by itself may be used beside the agreement. -/
theorem EffAgree.withKept {α : Type} {R : α → α → Prop} {P : Engine → Prop} {out : α → Engine} {x y : Eff α}
    (h : EffAgree R x y) (hP : EffKeeps P out x) : EffAgree (fun a b => R a b ∧ P (out a)) x y := by
  cases h with
  | ok h => exact .ok ⟨h, hP⟩
  | error h => exact .error h

-- The agreement of two engines

/-- The output side, the bit cursors, `P_PREV` and `NEXT_FREE` are the same: what command start sets (R241) but for the
histogram and `NNODES`, and all that the host sees of the engine. -/
structure IoAgrees (e e1 : Engine) : Prop where
  outLen : e.outLen = e1.outLen
  outBuf : e.outBuf = e1.outBuf
  rPos : e.rPos = e1.rPos
  wAcc : e.wAcc = e1.wAcc
  wN : e.wN = e1.wN
  pPrev : e.pPrev = e1.pPrev
  nextFree : e.nextFree = e1.nextFree

/-- The engine without what the output, the bit writer, the bit reader and the predictor change. -/
def Engine.codec (e : Engine) : Engine :=
  { e with outLen := 0, outBuf := [], inPos := 0, rPos := 0, wAcc := 0, wN := 0, pPrev := 0 }

/-- Two engines agree, `Q` being what the codec needs of the rest. -/
structure Agree (Q : Engine → Engine → Prop) (e e1 : Engine) : Prop where
  io : IoAgrees e e1
  codec : Q e.codec e1.codec

/-- Two results with the same value and agreeing engines. -/
def ValueAgrees (Q : Engine → Engine → Prop) {β : Type} (p q : β × Engine) : Prop := p.1 = q.1 ∧ Agree Q p.2 q.2

theorem ioAgrees_start (e e1 : Engine) : IoAgrees e.start e1.start := ⟨rfl, rfl, rfl, rfl, rfl, rfl, rfl⟩

/-- A body whose outcome two engines agree on whenever they agree at its start. -/
structure AgreeingBody (cap : Reg32) (body : List Byte → Engine → Eff Engine) : Prop where
  agrees : ∀ x e e1, EngineSound cap e → IoAgrees e e1 → EffAgree IoAgrees (body x e) (body x e1)

-- The output side and the bit streams

section
variable {Q : Engine → Engine → Prop} {cap : Reg32} {x : List Byte} {e e1 : Engine}

theorem outByte_agree (b : Byte) (h : Agree Q e e1) : EffAgree (Agree Q) (outByte cap b e) (outByte cap b e1) := by
  simp only [outByte, h.io.outLen, h.io.outBuf]
  split
  · exact effAgree_raise _ h.io.nextFree
  · exact .ok ⟨{ h.io with outLen := rfl, outBuf := rfl }, h.codec⟩

theorem undoByte_agree (d : Byte) (h : Agree Q e e1) : EffAgree (Agree Q) (undoByte cap d e) (undoByte cap d e1) := by
  simp only [undoByte, h.io.pPrev]
  exact (outByte_agree _ h).bind fun _ _ _ _ h1 => .ok ⟨{ h1.io with pPrev := rfl }, h1.codec⟩

/-- What the decoders need of `emit`, which stands for `OutByte` (R191, R193). -/
def EmitAgrees (emit : Byte → Engine → Eff Engine) : Prop :=
  ∀ (Q : Engine → Engine → Prop) b e e1, Agree Q e e1 → EffAgree (Agree Q) (emit b e) (emit b e1)

theorem emitAgrees_outByte (cap : Reg32) : EmitAgrees (outByte cap) := fun _ b _ _ h => outByte_agree b h

theorem emitAgrees_undoByte (cap : Reg32) : EmitAgrees (undoByte cap) := fun _ b _ _ h => undoByte_agree b h

theorem emitAll_agree {emit : Byte → Engine → Eff Engine} (hemit : EmitAgrees emit) (bs : List Byte)
    (h : Agree Q e e1) : EffAgree (Agree Q) (emitAll emit bs e) (emitAll emit bs e1) := by
  induction bs generalizing e e1 with
  | nil => exact .ok h
  | cons b bs ih => exact (hemit Q b e e1 h).bind fun _ _ _ _ h1 => ih h1

theorem bsFlush_agree (h : Agree Q e e1) : EffAgree (Agree Q) (bsFlush cap e) (bsFlush cap e1) := by
  simp only [bsFlush, h.io.wN, h.io.wAcc]
  split
  · exact (outByte_agree _ h).bind fun _ _ _ _ h1 => .ok ⟨{ h1.io with wAcc := rfl, wN := rfl }, h1.codec⟩
  · exact .ok h

theorem Agree.wOrder (hQ : ∀ e e1, Q e e1 → e.wOrder = e1.wOrder) (h : Agree Q e e1) : e.wOrder = e1.wOrder :=
  hQ e.codec e1.codec h.codec

theorem Agree.rOrder (hQ : ∀ e e1, Q e e1 → e.rOrder = e1.rOrder) (h : Agree Q e e1) : e.rOrder = e1.rOrder :=
  hQ e.codec e1.codec h.codec

theorem wbit_agree (hQ : ∀ e e1, Q e e1 → e.wOrder = e1.wOrder) (b : Bool) (h : Agree Q e e1) :
    EffAgree (Agree Q) (wbit cap b e) (wbit cap b e1) := by
  have hacc : setBit e.wAcc (bitIndex e.wOrder e.wN.toNat) b = setBit e1.wAcc (bitIndex e1.wOrder e1.wN.toNat) b := by
    rw [h.io.wAcc, h.io.wN, h.wOrder hQ]
  simp only [wbit]
  rw [hacc, h.io.wN]
  split
  · exact (outByte_agree _ h).bind fun _ _ _ _ h1 => .ok ⟨{ h1.io with wAcc := rfl, wN := rfl }, h1.codec⟩
  · exact .ok ⟨{ h.io with wAcc := rfl, wN := rfl }, h.codec⟩

theorem writeBitList_agree (hQ : ∀ e e1, Q e e1 → e.wOrder = e1.wOrder) (bs : List Bool) (h : Agree Q e e1) :
    EffAgree (Agree Q) (writeBitList cap bs e) (writeBitList cap bs e1) := by
  induction bs generalizing e e1 with
  | nil => exact .ok h
  | cons b bs ih => exact (wbit_agree hQ b h).bind fun _ _ _ _ h1 => ih h1

theorem bsWrite_agree (hQ : ∀ e e1, Q e e1 → e.wOrder = e1.wOrder) {w : Nat} (v : BitVec w) (h : Agree Q e e1) :
    EffAgree (Agree Q) (bsWrite cap v e) (bsWrite cap v e1) := by
  rw [bsWrite, bsWrite, h.wOrder hQ]
  exact writeBitList_agree hQ _ h

/-- Both runs are at the end of the stream, or read the same bit (R95). -/
theorem rbit_agree (hQ : ∀ e e1, Q e e1 → e.rOrder = e1.rOrder) (h : Agree Q e e1) :
    (rbit x e = none ∧ rbit x e1 = none) ∨
    ∃ b, rbit x e = some (b, { e with rPos := e.rPos + 1 }) ∧ rbit x e1 = some (b, { e1 with rPos := e1.rPos + 1 }) ∧
      Agree Q { e with rPos := e.rPos + 1 } { e1 with rPos := e1.rPos + 1 } := by
  have hpos : e.rPos = e1.rPos := h.io.rPos
  rcases rbit_cases x e with ⟨hend, heq⟩ | ⟨hend, heq⟩
  · rcases rbit_cases x e1 with ⟨_, heq1⟩ | ⟨hend1, _⟩
    · exact .inl ⟨heq, heq1⟩
    · exact absurd (hpos ▸ hend) hend1
  · rcases rbit_cases x e1 with ⟨hend1, _⟩ | ⟨_, heq1⟩
    · exact absurd (hpos ▸ hend1) hend
    · refine .inr ⟨_, heq, ?_, { h.io with rPos := congrArg (· + 1) hpos }, h.codec⟩
      rw [heq1, h.rOrder hQ, hpos]

theorem readBitList_agree (hQ : ∀ e e1, Q e e1 → e.rOrder = e1.rOrder) (n : Nat) (h : Agree Q e e1) :
    EffAgree (ValueAgrees Q) (readBitList x n e) (readBitList x n e1) := by
  induction n generalizing e e1 with
  | zero => exact .ok ⟨rfl, h⟩
  | succ n ih =>
    rw [readBitList, readBitList]
    rcases rbit_agree hQ h with ⟨hend, hend1⟩ | ⟨b, hbit, hbit1, hnext⟩
    · rw [hend, hend1]
      exact effAgree_raise _ h.io.nextFree
    · rw [hbit, hbit1]
      exact (ih hnext).bind fun _ _ _ _ ⟨hbits, h1⟩ => .ok ⟨congrArg (b :: ·) hbits, h1⟩

theorem bsRead_agree (hQ : ∀ e e1, Q e e1 → e.rOrder = e1.rOrder) (w : Nat) (h : Agree Q e e1) :
    EffAgree (ValueAgrees Q) (bsRead x w e) (bsRead x w e1) := by
  refine (readBitList_agree hQ w h).bind fun _ _ _ _ ⟨hbits, h1⟩ => .ok ⟨?_, h1⟩
  rw [hbits, h.rOrder hQ]

end

-- The predictor, which needs nothing of the codec state

theorem predApplyLoop_agree {Q : Engine → Engine → Prop} {cap : Reg32} (x : List Byte) {e e1 : Engine}
    (h : Agree Q e e1) : EffAgree (Agree Q) (predApplyLoop cap x e) (predApplyLoop cap x e1) := by
  induction x generalizing e e1 with
  | nil => exact .ok h
  | cons b bs ih =>
    have hconsume : Agree Q (consume e) (consume e1) := ⟨{ h.io with }, h.codec⟩
    simp only [predApplyLoop, hconsume.io.pPrev]
    exact (outByte_agree _ hconsume).bind fun _ _ _ _ h1 => ih ⟨{ h1.io with pPrev := rfl }, h1.codec⟩

theorem predUndoLoop_agree {Q : Engine → Engine → Prop} {cap : Reg32} (x : List Byte) {e e1 : Engine}
    (h : Agree Q e e1) : EffAgree (Agree Q) (predUndoLoop cap x e) (predUndoLoop cap x e1) := by
  induction x generalizing e e1 with
  | nil => exact .ok h
  | cons d ds ih =>
    have hconsume : Agree Q (consume e) (consume e1) := ⟨{ h.io with }, h.codec⟩
    exact (undoByte_agree d hconsume).bind fun _ _ _ _ h1 => ih h1

theorem IoAgrees.withPPrev {e e1 : Engine} (h : IoAgrees e e1) (b : Byte) :
    IoAgrees { e with pPrev := b } { e1 with pPrev := b } := { h with pPrev := rfl }

theorem agreeingBody_predApply (cap : Reg32) : AgreeingBody cap (predApply cap) :=
  ⟨fun x _ _ _ h => (predApplyLoop_agree (Q := fun _ _ => True) x ⟨h.withPPrev 0, trivial⟩).mono fun _ _ h => h.io⟩

theorem agreeingBody_predUndo (cap : Reg32) : AgreeingBody cap (predUndo cap) :=
  ⟨fun x _ _ _ h => (predUndoLoop_agree (Q := fun _ _ => True) x ⟨h.withPPrev 0, trivial⟩).mono fun _ _ h => h.io⟩

theorem predCollectLoop_fst_congr (x : List Byte) {e e1 : Engine} (h : e.pPrev = e1.pPrev) :
    (predCollectLoop x e).1 = (predCollectLoop x e1).1 := by
  induction x generalizing e e1 with
  | nil => rfl
  | cons b bs ih =>
    have htail := ih (e := { consume e with pPrev := b }) (e1 := { consume e1 with pPrev := b }) rfl
    simp only [predCollectLoop, h, htail]

theorem predCollect_fst_congr (x : List Byte) (e e1 : Engine) : (predCollect x e).1 = (predCollect x e1).1 :=
  predCollectLoop_fst_congr x rfl

theorem predCollect_ioAgrees (x : List Byte) {e e1 : Engine} (h : IoAgrees e e1) :
    IoAgrees (predCollect x e).2 (predCollect x e1).2 := by
  have hp : (predCollect x e).2.pPrev = x.getLastD 0 := predCollectLoop_pPrev x { e with pPrev := 0 }
  have hp1 : (predCollect x e1).2.pPrev = x.getLastD 0 := predCollectLoop_pPrev x { e1 with pPrev := 0 }
  obtain ⟨n, p, he⟩ := predCollectLoop_snd x { e with pPrev := 0 }
  obtain ⟨n1, p1, he1⟩ := predCollectLoop_snd x { e1 with pPrev := 0 }
  rw [predCollect, he] at hp ⊢
  rw [predCollect, he1] at hp1 ⊢
  exact { h with pPrev := hp.trans hp1.symm }

/-- An agreeing body as the second stage after the predictor (R190, R192). -/
theorem AgreeingBody.afterCollect {cap : Reg32} {body : List Byte → Engine → Eff Engine}
    (hbody : AgreeingBody cap body) :
    AgreeingBody cap fun x e => body (predCollect x e).1 { (predCollect x e).2 with inPos := 0 } := by
  refine ⟨fun x e e1 hs h => ?_⟩
  rw [predCollect_fst_congr x e e1]
  exact hbody.agrees _ _ _ (predCollect_engineSound x e hs) { predCollect_ioAgrees x h with }

/-- An agreeing body started with another `P_PREV` (R191, R193). -/
theorem AgreeingBody.withPPrev {cap : Reg32} {body : List Byte → Engine → Eff Engine} (hbody : AgreeingBody cap body)
    (b : Byte) : AgreeingBody cap fun x e => body x { e with pPrev := b } :=
  ⟨fun x e e1 hs h => hbody.agrees x { e with pPrev := b } { e1 with pPrev := b } hs (h.withPPrev b)⟩

-- LZW: the valid entries of the dictionary agree

/-- The valid entries, those below `NEXT_FREE`, are the same (R32). -/
def DictAgrees (e e1 : Engine) : Prop :=
  ∀ j, 256 ≤ j → j < e.nextFree.toNat → prefixAt e j = prefixAt e1 j ∧ suffixAt e j = suffixAt e1 j

theorem dictAgrees_of_nextFree {e e1 : Engine} (h : e.nextFree = 256) : DictAgrees e e1 := by
  intro j hlo hhi
  simp [h] at hhi
  omega

theorem lookup_congr {e e1 : Engine} (c : Code) (b : Byte) (hn : e.nextFree = e1.nextFree) (h : DictAgrees e e1) :
    lookup c b e = lookup c b e1 := by
  unfold lookup
  rw [← hn]
  refine congrArg _ (List.find?_congr fun j hj => ?_)
  by_cases hlo : 256 ≤ j
  · obtain ⟨hprefix, hsuffix⟩ := h j hlo (List.mem_range.1 hj)
    simp only [hprefix, hsuffix]
  · simp only [hlo, false_and]

/-- `Insert` does the same in both runs (R113). -/
theorem insert_cases_of_nextFree_eq {e e1 : Engine} (c : Code) (b : Byte) (hn : e.nextFree = e1.nextFree) :
    (insert c b e = e ∧ insert c b e1 = e1) ∨
    (e.nextFree < 4096 ∧
      insert c b e = { e with
        dictPrefix := arraySet e.dictPrefix (e.nextFree.toNat - 256) c
        dictSuffix := arraySet e.dictSuffix (e.nextFree.toNat - 256) b
        nextFree := e.nextFree + 1 } ∧
      insert c b e1 = { e1 with
        dictPrefix := arraySet e1.dictPrefix (e.nextFree.toNat - 256) c
        dictSuffix := arraySet e1.dictSuffix (e.nextFree.toNat - 256) b
        nextFree := e.nextFree + 1 }) := by
  rcases insert_cases c b e with ⟨hfull, heq⟩ | ⟨hroom, heq⟩
  · rcases insert_cases c b e1 with ⟨_, heq1⟩ | ⟨hroom1, _⟩
    · exact .inl ⟨heq, heq1⟩
    · exact absurd (hn ▸ hfull) (BitVec.not_le.2 hroom1)
  · rcases insert_cases c b e1 with ⟨hfull1, _⟩ | ⟨_, heq1⟩
    · exact absurd hroom (BitVec.not_lt.2 (hn ▸ hfull1))
    · exact .inr ⟨hroom, heq, by rw [heq1, hn]⟩

theorem insert_ioAgrees {e e1 : Engine} (c : Code) (b : Byte) (h : IoAgrees e e1) :
    IoAgrees (insert c b e) (insert c b e1) := by
  rcases insert_cases_of_nextFree_eq c b h.nextFree with ⟨heq, heq1⟩ | ⟨_, heq, heq1⟩
  · rw [heq, heq1]; exact h
  · rw [heq, heq1]; exact { h with nextFree := rfl }

/-- The new entry is the same in both runs, and no valid one is overwritten. -/
theorem insert_dictAgrees {e e1 : Engine} (c : Code) (b : Byte) (hn : e.nextFree = e1.nextFree)
    (h : DictAgrees e e1) : DictAgrees (insert c b e) (insert c b e1) := by
  rcases insert_cases_of_nextFree_eq c b hn with ⟨heq, heq1⟩ | ⟨hroom, heq, heq1⟩
  · rw [heq, heq1]; exact h
  · have hsucc : (e.nextFree + 1).toNat = e.nextFree.toNat + 1 := by bv_omega
    have hroom' : e.nextFree.toNat < 4096 := hroom
    rw [heq, heq1]
    intro j hlo hhi
    simp only [hsucc] at hhi
    simp only [prefixAt, suffixAt]
    by_cases hnew : j = e.nextFree.toNat
    · subst hnew
      have hin : e.nextFree.toNat - 256 < Config.dictEntries := by simp only [Config.dictEntries]; omega
      simp only [arrayGet_arraySet_same _ _ _ _ hin, and_self]
    · simp only [arrayGet_arraySet_other _ _ _ _ _ (show j - 256 ≠ e.nextFree.toNat - 256 by omega)]
      exact h j hlo (by omega)

/-- `Insert` touches the dictionary and `NEXT_FREE` only (R113). -/
theorem insert_eq (c : Code) (b : Byte) (e : Engine) :
    ∃ p s n, insert c b e = { e with dictPrefix := p, dictSuffix := s, nextFree := n } := by
  rcases insert_cases c b e with ⟨_, heq⟩ | ⟨_, heq⟩
  · exact ⟨e.dictPrefix, e.dictSuffix, e.nextFree, heq⟩
  · exact ⟨_, _, _, heq⟩

@[simp] theorem insert_wOrder (c : Code) (b : Byte) (e : Engine) : (insert c b e).wOrder = e.wOrder := by
  obtain ⟨_, _, _, heq⟩ := insert_eq c b e
  rw [heq]

@[simp] theorem insert_rOrder (c : Code) (b : Byte) (e : Engine) : (insert c b e).rOrder = e.rOrder := by
  obtain ⟨_, _, _, heq⟩ := insert_eq c b e
  rw [heq]

/-- What `LZW.C` needs: `W_ORDER`, `CODE` and the valid entries. -/
def LzwEncoderAgrees (e e1 : Engine) : Prop := e.wOrder = e1.wOrder ∧ e.code = e1.code ∧ DictAgrees e e1

theorem insert_encoderAgree {e e1 : Engine} (c : Code) (b : Byte) (v : Code) (h : Agree LzwEncoderAgrees e e1) :
    Agree LzwEncoderAgrees { insert c b e with code := v } { insert c b e1 with code := v } := by
  obtain ⟨horder, _, hdict⟩ : LzwEncoderAgrees e e1 := h.codec
  exact ⟨{ insert_ioAgrees c b h.io with },
    (insert_wOrder c b e).trans (horder.trans (insert_wOrder c b e1).symm), rfl,
    insert_dictAgrees c b h.io.nextFree hdict⟩

theorem lzwEncodeByte_agree {cap : Reg32} (c : Byte) {e e1 : Engine} (h : Agree LzwEncoderAgrees e e1) :
    EffAgree (Agree LzwEncoderAgrees) (lzwEncodeByte cap c e) (lzwEncodeByte cap c e1) := by
  obtain ⟨horder, hcode, hdict⟩ : LzwEncoderAgrees e e1 := h.codec
  have hlookup : lookup e.code c e = lookup e1.code c e1 := hcode ▸ lookup_congr e.code c h.io.nextFree hdict
  rw [lzwEncodeByte, lzwEncodeByte, ← hlookup, ← hcode]
  cases lookup e.code c e with
  | some j => exact .ok ⟨{ h.io with }, horder, rfl, hdict⟩
  | none =>
    exact (bsWrite_agree (fun _ _ hq => hq.1) e.code h).bind fun _ _ _ _ h1 => .ok (insert_encoderAgree e.code c _ h1)

theorem lzwCompressLoop_agree {cap : Reg32} (x : List Byte) {e e1 : Engine} (h : Agree LzwEncoderAgrees e e1) :
    EffAgree (Agree LzwEncoderAgrees) (lzwCompressLoop cap x e) (lzwCompressLoop cap x e1) := by
  induction x generalizing e e1 with
  | nil =>
    have hcode : e.code = e1.code := h.codec.2.1
    rw [lzwCompressLoop, lzwCompressLoop, hcode]
    exact (bsWrite_agree (fun _ _ hq => hq.1) e1.code h).bind fun _ _ _ _ h1 => bsFlush_agree h1
  | cons c cs ih =>
    have hconsume : Agree LzwEncoderAgrees (consume e) (consume e1) := ⟨{ h.io with }, h.codec⟩
    exact (lzwEncodeByte_agree c hconsume).bind fun _ _ _ _ h1 => ih h1

theorem agreeingBody_lzwCompress (cap : Reg32) : AgreeingBody cap (lzwCompress cap) := by
  refine ⟨fun x e e1 _ h => ?_⟩
  cases x with
  | nil => exact effAgree_raise _ h.nextFree
  | cons b bs =>
    have hstart : Agree LzwEncoderAgrees { consume (dictReset (bsInitWrite .lsb e)) with code := b.setWidth 12 }
        { consume (dictReset (bsInitWrite .lsb e1)) with code := b.setWidth 12 } :=
      ⟨{ h with wAcc := rfl, wN := rfl, nextFree := rfl }, rfl, rfl, dictAgrees_of_nextFree rfl⟩
    exact (lzwCompressLoop_agree bs hstart).mono fun _ _ h => h.io

/-- Valid codes stand for the same strings: a valid entry extends a valid code (R33(a), R114). -/
theorem strWithin_congr {e e1 : Engine} (hsound : DictionarySound e) (h : DictAgrees e e1) (fuel : Nat) {k : Code}
    (hk : CodeValid k e) : strWithin e fuel k = strWithin e1 fuel k := by
  obtain ⟨_, _, hsmaller⟩ := hsound
  induction fuel generalizing k with
  | zero => rw [strWithin, strWithin]
  | succ fuel ih =>
    rw [strWithin, strWithin]
    by_cases hliteral : k < 256
    · rw [if_pos hliteral, if_pos hliteral]
    · rw [if_neg hliteral, if_neg hliteral]
      have hlo : 256 ≤ k.toNat := by bv_omega
      obtain ⟨hprefix, hsuffix⟩ := h k.toNat hlo hk
      have hvalid : CodeValid (prefixAt e k.toNat) e := lt_trans (hsmaller k.toNat hlo hk) hk
      rw [← hprefix, ← hsuffix, ih hvalid]

theorem str_congr {e e1 : Engine} (hsound : DictionarySound e) (h : DictAgrees e e1) {k : Code} (hk : CodeValid k e) :
    str e k = str e1 k := strWithin_congr hsound h k.toNat hk

/-- What `LZW.D` needs: `R_ORDER`, `PREV` and the valid entries. -/
def LzwDecoderAgrees (e e1 : Engine) : Prop := e.rOrder = e1.rOrder ∧ e.prev = e1.prev ∧ DictAgrees e e1

theorem insert_decoderAgree {e e1 : Engine} (b : Byte) (k : Code) (h : Agree LzwDecoderAgrees e e1) :
    Agree LzwDecoderAgrees { insert e.prev b e with prev := k } { insert e1.prev b e1 with prev := k } := by
  obtain ⟨horder, hprev, hdict⟩ : LzwDecoderAgrees e e1 := h.codec
  rw [← hprev]
  exact ⟨{ insert_ioAgrees e.prev b h.io with },
    (insert_rOrder e.prev b e).trans (horder.trans (insert_rOrder e.prev b e1).symm), rfl,
    insert_dictAgrees e.prev b h.io.nextFree hdict⟩

theorem lzwDecodeCode_agree {cap : Reg32} {emit : Byte → Engine → Eff Engine} (hemit : EmitAgrees emit) (k : Code)
    {e e1 : Engine} (hs : DecompressSound cap e) (h : Agree LzwDecoderAgrees e e1) :
    EffAgree (Agree LzwDecoderAgrees) (lzwDecodeCode emit k e) (lzwDecodeCode emit k e1) := by
  obtain ⟨⟨_, _, hsound, _⟩, hvalid⟩ := hs
  obtain ⟨_, hprev, hdict⟩ : LzwDecoderAgrees e e1 := h.codec
  have hstrPrev : str e e.prev = str e1 e1.prev := hprev ▸ str_congr hsound hdict hvalid
  have hstring : (if k.toNat < e.nextFree.toNat then str e k else str e e.prev ++ [first e e.prev]) =
      if k.toNat < e1.nextFree.toNat then str e1 k else str e1 e1.prev ++ [first e1 e1.prev] := by
    rw [← h.io.nextFree, first, first, hstrPrev]
    split
    · rename_i hk
      exact str_congr hsound hdict hk
    · rfl
  simp only [lzwDecodeCode]
  rw [hstring, h.io.nextFree]
  split
  · exact effAgree_raise _ h.io.nextFree
  · exact (emitAll_agree hemit _ h).bind fun _ _ _ _ h1 => .ok (insert_decoderAgree _ k h1)

theorem lzwDecodeLoop_agree {cap : Reg32} {emit : Byte → Engine → Eff Engine} (hsound : EmitSound cap emit)
    (hemit : EmitAgrees emit) (x : List Byte) (n : Nat) {e e1 : Engine} (hs : DecompressSound cap e)
    (h : Agree LzwDecoderAgrees e e1) :
    EffAgree (Agree LzwDecoderAgrees) (lzwDecodeLoop emit x n e) (lzwDecodeLoop emit x n e1) := by
  induction n generalizing e e1 with
  | zero => exact .ok h
  | succ n ih =>
    have hread : EffKeeps (DecompressSound cap) Prod.snd (bsRead x 12 e) := bsRead_keeps (fun _ _ h => h) x 12 e hs
    refine ((bsRead_agree (fun _ _ hq => hq.1) 12 h).withKept hread).bind ?_
    rintro ⟨k, e2⟩ ⟨_, e3⟩ _ _ ⟨⟨hcode, h1⟩, hs1⟩
    cases hcode
    exact ((lzwDecodeCode_agree hemit k hs1 h1).withKept (lzwDecodeCode_decompressSound hsound k e2 hs1)).bind
      fun _ _ _ _ ⟨h2, hs2⟩ => ih hs2 h2

theorem agreeingBody_lzwDecompress {cap : Reg32} {emit : Byte → Engine → Eff Engine} (hsound : EmitSound cap emit)
    (hemit : EmitAgrees emit) : AgreeingBody cap (lzwDecompress emit) := by
  refine ⟨fun x e e1 hs h => ?_⟩
  rw [lzwDecompress, lzwDecompress]
  split
  · exact effAgree_raise _ h.nextFree
  · simp only
    split
    · exact effAgree_raise _ h.nextFree
    · -- Only the first code sets `PREV`, so up to it the runs agree on `R_ORDER` alone.
      have hstart : Agree (fun e e1 => e.rOrder = e1.rOrder ∧ e.nextFree = 256) (dictReset (bsInitRead .lsb e))
          (dictReset (bsInitRead .lsb e1)) := ⟨{ h with rPos := rfl, nextFree := rfl }, rfl, rfl⟩
      have hread := bsRead_engineSound x 12 _ (engineSound_dictReset (e := bsInitRead .lsb e) hs)
      refine ((bsRead_agree (fun _ _ hq => hq.1) 12 hstart).withKept hread).bind ?_
      rintro ⟨k, e2⟩ ⟨_, e3⟩ _ _ ⟨⟨hcode, h1⟩, hs1⟩
      cases hcode
      simp only
      split
      · exact effAgree_raise _ h1.io.nextFree
      · rename_i hliteral
        have hk : k.toNat < 256 := by bv_omega
        refine ((hemit _ _ _ _ h1).withKept (hsound.keeps _ e2 hs1)).bind fun e4 e5 _ _ ⟨h2, hs2⟩ => ?_
        obtain ⟨horder, hempty⟩ := h2.codec
        have h3 : Agree LzwDecoderAgrees { e4 with prev := k } { e5 with prev := k } :=
          ⟨{ h2.io with }, horder, rfl, dictAgrees_of_nextFree hempty⟩
        have hs3 : DecompressSound cap { e4 with prev := k } := ⟨hs2, codeValid_literal (k := k) hs2 hk⟩
        exact (lzwDecodeLoop_agree hsound hemit x _ hs3 h3).mono fun _ _ h => h.io

-- The node arena: what a walk reads of a node, below `NNODES`

@[simp] theorem nodeAt_setNode_other (e : Engine) {n i : NodeId} (d : Node) (h : i ≠ n) :
    nodeAt (setNode e n d) i = nodeAt e i :=
  arrayGet_arraySet_other _ _ _ _ _ fun hi => h (BitVec.eq_of_toNat_eq hi)

theorem nodeAt_setNode_same (e : Engine) {n : NodeId} (d : Node) (h : n.toNat < 511) : nodeAt (setNode e n d) n = d :=
  arrayGet_arraySet_same _ _ _ _ h

theorem nextNode_toNat {e : Engine} (h : e.nNodes.toNat < 511) : (nextNode e).toNat = e.nNodes.toNat := by
  rw [nextNode, BitVec.toNat_setWidth]
  omega

theorem nextNode_congr {e e1 : Engine} (h : e.nNodes = e1.nNodes) : nextNode e = nextNode e1 := by
  rw [nextNode, nextNode, h]

/-- What the walks read of a node is the same, and its children are below `m` (R155, R156, R160). The symbol of an
internal node and the children of a leaf are never read, and may be what an earlier tree left there. -/
structure NodeAgrees (m : Nat) (d d1 : Node) : Prop where
  leaf : d.leaf = d1.leaf
  sym : d.leaf = true → d.sym = d1.sym
  left : d.leaf = false → d.left = d1.left ∧ d.left.toNat < m
  right : d.leaf = false → d.right = d1.right ∧ d.right.toNat < m

theorem NodeAgrees.mono {m k : Nat} {d d1 : Node} (h : NodeAgrees m d d1) (hmk : m ≤ k) : NodeAgrees k d d1 :=
  { h with
    left := fun hl => ⟨(h.left hl).1, lt_of_lt_of_le (h.left hl).2 hmk⟩
    right := fun hl => ⟨(h.right hl).1, lt_of_lt_of_le (h.right hl).2 hmk⟩ }

/-- The nodes below `m` agree, `ROOT` is one of them, and so is every child. -/
def TreeAgrees (m : Nat) (e e1 : Engine) : Prop :=
  e.root = e1.root ∧ e.root.toNat < m ∧ ∀ n : NodeId, n.toNat < m → NodeAgrees m (nodeAt e n) (nodeAt e1 n)

-- `BuildTree`, which reads frequencies and `N_ALIVE` too

/-- While the tree is built, a frequency and `N_ALIVE` are read of a node besides (R153). -/
structure BuildNodeAgrees (m : Nat) (d d1 : Node) : Prop extends NodeAgrees m d d1 where
  freq : d.freq = d1.freq
  alive : d.alive = d1.alive

/-- What `BuildTree` needs: the histogram, `NNODES` and the nodes below it. -/
structure BuildAgrees (e e1 : Engine) : Prop where
  hist : e.hist = e1.hist
  nNodes : e.nNodes = e1.nNodes
  node : ∀ n : NodeId, n.toNat < e.nNodes.toNat → BuildNodeAgrees e.nNodes.toNat (nodeAt e n) (nodeAt e1 n)

theorem setNode_buildAgrees {e e1 : Engine} {n : NodeId} {d d1 : Node} (h : BuildAgrees e e1) (hn : n.toNat < 511)
    (hd : BuildNodeAgrees e.nNodes.toNat d d1) : BuildAgrees (setNode e n d) (setNode e1 n d1) := by
  refine ⟨h.hist, h.nNodes, fun i hi => ?_⟩
  by_cases hin : i = n
  · subst hin
    rw [nodeAt_setNode_same e d hn, nodeAt_setNode_same e1 d1 hn]
    exact hd
  · rw [nodeAt_setNode_other e d hin, nodeAt_setNode_other e1 d1 hin]
    exact h.node i hi

theorem addNode_buildAgrees {e e1 : Engine} {d d1 : Node} (h : BuildAgrees e e1) (hroom : e.nNodes.toNat < 511)
    (hd : BuildNodeAgrees (e.nNodes.toNat + 1) d d1) : BuildAgrees (addNode d e) (addNode d1 e1) := by
  have hnext : nextNode e = nextNode e1 := nextNode_congr h.nNodes
  have hid : (nextNode e).toNat = e.nNodes.toNat := nextNode_toNat hroom
  have hsucc : (e.nNodes + 1).toNat = e.nNodes.toNat + 1 := nNodes_succ_toNat hroom.le
  refine ⟨h.hist, by rw [addNode_nNodes, addNode_nNodes, h.nNodes], fun i hi => ?_⟩
  rw [addNode_nNodes, hsucc] at hi ⊢
  show BuildNodeAgrees _ (nodeAt (setNode e (nextNode e) d) i) (nodeAt (setNode e1 (nextNode e1) d1) i)
  rw [← hnext]
  by_cases hnew : i = nextNode e
  · subst hnew
    rw [nodeAt_setNode_same e d (by omega), nodeAt_setNode_same e1 d1 (by omega)]
    exact hd
  · rw [nodeAt_setNode_other e d hnew, nodeAt_setNode_other e1 d1 hnew]
    have hold : i.toNat < e.nNodes.toNat := by
      have : i.toNat ≠ (nextNode e).toNat := fun hh => hnew (BitVec.eq_of_toNat_eq hh)
      omega
    have hnode := h.node i hold
    exact { hnode with toNodeAgrees := hnode.mono (Nat.le_succ _) }

/-- Two new leaves of the same symbol and frequency agree, whatever the node records held (R152). -/
theorem buildNodeAgrees_leaf (m : Nat) (d d1 : Node) (s : Byte) (f : Reg32) :
    BuildNodeAgrees m { d with leaf := true, sym := s, freq := f, alive := true }
      { d1 with leaf := true, sym := s, freq := f, alive := true } :=
  { leaf := rfl, sym := fun _ => rfl, left := nofun, right := nofun, freq := rfl, alive := rfl }

/-- Two new internal nodes with the same children agree, whatever the node records held (R152). -/
theorem buildNodeAgrees_internal {m : Nat} (d d1 : Node) {a b : NodeId} (f : Reg32) (ha : a.toNat < m)
    (hb : b.toNat < m) :
    BuildNodeAgrees m { d with leaf := false, left := a, right := b, freq := f, alive := true }
      { d1 with leaf := false, left := a, right := b, freq := f, alive := true } :=
  { leaf := rfl, sym := nofun, left := fun _ => ⟨rfl, ha⟩, right := fun _ => ⟨rfl, hb⟩, freq := rfl, alive := rfl }

theorem addLeaf_buildAgrees {e e1 : Engine} (s : Byte) (h : BuildAgrees e e1) (hroom : e.nNodes.toNat < 511) :
    BuildAgrees (addLeaf e s) (addLeaf e1 s) := by
  have hfreq : histAt e s = histAt e1 s := by rw [histAt, histAt, h.hist]
  rw [addLeaf, addLeaf, ← hfreq]
  split
  · exact addNode_buildAgrees h hroom (buildNodeAgrees_leaf _ _ _ s _)
  · exact h

theorem addLeaves_buildAgrees (l : List Nat) {e e1 : Engine} (h : BuildAgrees e e1)
    (hroom : e.nNodes.toNat + l.length ≤ 511) :
    BuildAgrees (l.foldl (fun e s => addLeaf e (BitVec.ofNat 8 s)) e)
      (l.foldl (fun e s => addLeaf e (BitVec.ofNat 8 s)) e1) := by
  induction l generalizing e e1 with
  | nil => exact h
  | cons s l ih =>
    simp only [List.length_cons] at hroom
    have hle := addLeaf_nNodes_le (e := e) (BitVec.ofNat 8 s) (by omega)
    have hleaf := addLeaf_buildAgrees (BitVec.ofNat 8 s) h (by omega)
    have hrest := ih hleaf (by omega)
    exact hrest

/-- The leaves are built from the histogram alone: no node is there before (R152). -/
theorem buildLeaves_buildAgrees {e e1 : Engine} (h : e.hist = e1.hist) :
    BuildAgrees (buildLeaves e) (buildLeaves e1) ∧ 0 < (buildLeaves e).nNodes.toNat := by
  have hlen : (List.range Config.alphabet).length = 256 := List.length_range
  have hempty : BuildAgrees { e with nNodes := 0 } { e1 with nNodes := 0 } :=
    ⟨h, rfl, fun _ hi => absurd hi (Nat.not_lt_zero _)⟩
  have hleaves := addLeaves_buildAgrees (List.range Config.alphabet) hempty (by simp [hlen])
  rw [buildLeaves, buildLeaves]
  simp only
  generalize (List.range Config.alphabet).foldl (fun e s => addLeaf e (BitVec.ofNat 8 s)) { e with nNodes := 0 } = f
    at hleaves ⊢
  generalize (List.range Config.alphabet).foldl (fun e s => addLeaf e (BitVec.ofNat 8 s)) { e1 with nNodes := 0 } = f1
    at hleaves ⊢
  rw [← hleaves.nNodes]
  split
  · rename_i hzero
    exact ⟨addNode_buildAgrees hleaves (by simp [hzero]) (buildNodeAgrees_leaf _ _ _ 0x00 0), by
      rw [addNode_nNodes, hzero]; decide⟩
  · exact ⟨hleaves, by bv_omega⟩

/-- One candidate of `MinAlive` (R153). -/
def minAliveStep (e : Engine) (x m : Option NodeId) (i : Nat) : Option NodeId :=
  let n := BitVec.ofNat 9 i
  if (nodeAt e n).alive ∧ x ≠ some n ∧ (m.all fun j => (nodeAt e n).freq < (nodeAt e j).freq) then some n else m

theorem minAlive_eq_foldl (e : Engine) (x : Option NodeId) :
    minAlive e x = (List.range e.nNodes.toNat).foldl (minAliveStep e x) none := rfl

theorem minAliveStep_congr {e e1 : Engine} (h : BuildAgrees e e1) (x : Option NodeId) {m : Option NodeId} {i : Nat}
    (hi : i < e.nNodes.toNat) (hm : ∀ j ∈ m, j.toNat < e.nNodes.toNat) :
    minAliveStep e x m i = minAliveStep e1 x m i ∧ ∀ j ∈ minAliveStep e x m i, j.toNat < e.nNodes.toNat := by
  have hid : (BitVec.ofNat 9 i).toNat < e.nNodes.toNat := lt_of_le_of_lt (by simpa using Nat.mod_le i 512) hi
  have hnode := h.node _ hid
  have hfreq : (m.all fun j => (nodeAt e (BitVec.ofNat 9 i)).freq < (nodeAt e j).freq) =
      m.all fun j => (nodeAt e1 (BitVec.ofNat 9 i)).freq < (nodeAt e1 j).freq := by
    cases m with
    | none => rfl
    | some j => simp only [Option.all_some, hnode.freq, (h.node j (hm j rfl)).freq]
  constructor
  · simp only [minAliveStep, hnode.alive, hfreq]
  · intro j hj
    simp only [minAliveStep] at hj
    split at hj
    · cases hj
      exact hid
    · exact hm j hj

theorem minAlive_congr {e e1 : Engine} (h : BuildAgrees e e1) (x : Option NodeId) : minAlive e x = minAlive e1 x := by
  have hfold : ∀ (l : List Nat) (m : Option NodeId), (∀ i ∈ l, i < e.nNodes.toNat) →
      (∀ j ∈ m, j.toNat < e.nNodes.toNat) → l.foldl (minAliveStep e x) m = l.foldl (minAliveStep e1 x) m := by
    intro l
    induction l with
    | nil => intro m _ _; rfl
    | cons i l ih =>
      intro m hl hm
      obtain ⟨heq, hstep⟩ := minAliveStep_congr h x (hl i (by simp)) hm
      rw [List.foldl_cons, List.foldl_cons, ← heq]
      exact ih _ (fun i hi => hl i (by simp [hi])) hstep
  rw [minAlive_eq_foldl, minAlive_eq_foldl, ← h.nNodes]
  exact hfold _ none (fun i hi => List.mem_range.1 hi) nofun

/-- Two alive nodes leave room for the node that merges them. -/
theorem ArenaRoom.lt_of_two_alive {e : Engine} {a b : NodeId} (h : ArenaRoom e) (ha : a.toNat ∈ aliveIds e)
    (hb : b.toNat ∈ aliveIds e) (hne : a ≠ b) : e.nNodes.toNat < 511 := by
  obtain ⟨_, hroom⟩ := h
  have htwo : 1 < (aliveIds e).card :=
    Finset.one_lt_card.2 ⟨_, ha, _, hb, fun hh => hne (BitVec.eq_of_toNat_eq hh)⟩
  omega

theorem clearAlive_buildAgrees {e e1 : Engine} {n : NodeId} (h : BuildAgrees e e1) (hn : n.toNat < e.nNodes.toNat)
    (hroom : n.toNat < 511) :
    BuildAgrees (setNode e n { nodeAt e n with alive := false }) (setNode e1 n { nodeAt e1 n with alive := false }) :=
  setNode_buildAgrees h hroom { h.node n hn with alive := rfl }

theorem mergeNodes_buildAgrees {e e1 : Engine} {a b : NodeId} (h : BuildAgrees e e1) (hroom : e.nNodes.toNat < 511)
    (ha : a.toNat < e.nNodes.toNat) (hb : b.toNat < e.nNodes.toNat) :
    BuildAgrees (mergeNodes a b e) (mergeNodes a b e1) := by
  have hsucc : (e.nNodes + 1).toNat = e.nNodes.toNat + 1 := nNodes_succ_toNat hroom.le
  simp only [mergeNodes]
  rw [← (h.node a ha).freq, ← (h.node b hb).freq]
  have hadded := addNode_buildAgrees h hroom (buildNodeAgrees_internal (nodeAt e (nextNode e)) (nodeAt e1 (nextNode e1))
    ((nodeAt e a).freq + (nodeAt e b).freq) (Nat.lt_succ_of_lt ha) (Nat.lt_succ_of_lt hb))
  have hkilled := clearAlive_buildAgrees (n := a) hadded (by rw [addNode_nNodes, hsucc]; omega) (by omega)
  exact clearAlive_buildAgrees (n := b) hkilled (by rw [setNode_nNodes, addNode_nNodes, hsucc]; omega) (by omega)

theorem mergeLoop_buildAgrees (fuel : Nat) {e e1 : Engine} (hroom : ArenaRoom e) (hpos : 0 < e.nNodes.toNat)
    (h : BuildAgrees e e1) :
    BuildAgrees (mergeLoop fuel e) (mergeLoop fuel e1) ∧ 0 < (mergeLoop fuel e).nNodes.toNat := by
  induction fuel generalizing e e1 with
  | zero => exact ⟨h, hpos⟩
  | succ fuel ih =>
    rw [mergeLoop, mergeLoop, ← minAlive_congr h none]
    cases ha : minAlive e none with
    | none => exact ⟨h, hpos⟩
    | some a =>
      simp only
      rw [← minAlive_congr h (some a)]
      cases hb : minAlive e (some a) with
      | none => exact ⟨h, hpos⟩
      | some b =>
        obtain ⟨haAlive, _⟩ := minAlive_eq_some ha
        obtain ⟨hbAlive, hne⟩ := minAlive_eq_some hb
        have hab : a ≠ b := fun hh => hne (congrArg some hh)
        have hlt : e.nNodes.toNat < 511 := hroom.lt_of_two_alive haAlive hbAlive hab
        refine ih (mergeNodes_arenaRoom hroom haAlive hbAlive hab.symm) ?_
          (mergeNodes_buildAgrees h hlt (mem_aliveIds.1 haAlive).1 (mem_aliveIds.1 hbAlive).1)
        rw [mergeNodes_nNodes, nNodes_succ_toNat hlt.le]
        omega

/-- `BuildTree` makes the same tree from the same histogram, whatever the arena held (R152, R241). -/
theorem buildTree_treeAgrees {e e1 : Engine} (h : e.hist = e1.hist) :
    ∃ m, TreeAgrees m (buildTree e) (buildTree e1) := by
  obtain ⟨hleaves, hpos⟩ := buildLeaves_buildAgrees h
  have hroom : ArenaRoom (buildLeaves e) := arenaRoom_of_nNodes_le (buildLeaves_nNodes_le e)
  have hbound := (mergeLoop_arenaRoom Config.hufMaxNodes _ hroom).1
  obtain ⟨hmerged, hpos⟩ := mergeLoop_buildAgrees Config.hufMaxNodes hroom hpos hleaves
  rw [buildTree, buildTree]
  generalize mergeLoop Config.hufMaxNodes (buildLeaves e) = f at hmerged hpos hbound ⊢
  generalize mergeLoop Config.hufMaxNodes (buildLeaves e1) = f1 at hmerged ⊢
  refine ⟨f.nNodes.toNat, ?_, ?_, fun n hn => (hmerged.node n hn).toNodeAgrees⟩
  · simp only [hmerged.nNodes]
  · simp only [BitVec.toNat_setWidth]
    have : (f.nNodes - 1).toNat = f.nNodes.toNat - 1 := by bv_omega
    omega

theorem countAll_hist_congr (x : List Byte) (e e1 : Engine) : (countAll x e).hist = (countAll x e1).hist := by
  suffices hfold : ∀ e e1 : Engine, e.hist = e1.hist →
      (x.foldl (fun e s => countByte (consume e) s) e).hist =
        (x.foldl (fun e s => countByte (consume e) s) e1).hist from hfold _ _ rfl
  induction x with
  | nil => intro e e1 h; exact h
  | cons b bs ih =>
    intro e e1 h
    exact ih _ _ (by simp only [countByte_hist, histAt, consume_hist, h])

/-- The first pass and the tree builder change neither what `IoAgrees` speaks of nor `W_ORDER` (R151, R152). -/
theorem encoderTree_ioAgrees {e f : Engine} (x : List Byte) (h : IoAgrees e f ∧ e.wOrder = .msb) :
    IoAgrees (buildTree (countAll x e)) f ∧ (buildTree (countAll x e)).wOrder = .msb :=
  buildTree_keeps (P := fun a => IoAgrees a f ∧ a.wOrder = .msb) (fun _ _ _ ⟨hio, ho⟩ => ⟨{ hio with }, ho⟩)
    (fun _ _ ⟨hio, ho⟩ => ⟨{ hio with }, ho⟩) _
    (countAll_keeps (P := fun a => IoAgrees a f ∧ a.wOrder = .msb) (fun _ _ ⟨hio, ho⟩ => ⟨{ hio with }, ho⟩)
      (fun _ ⟨hio, ho⟩ => ⟨{ hio with }, ho⟩) x e h)

theorem IoAgrees.symm {e e1 : Engine} (h : IoAgrees e e1) : IoAgrees e1 e :=
  ⟨h.outLen.symm, h.outBuf.symm, h.rPos.symm, h.wAcc.symm, h.wN.symm, h.pPrev.symm, h.nextFree.symm⟩

/-- What `HUF.E` needs once the tree is built: `W_ORDER` and the tree. -/
def HuffmanEncoderAgrees (m : Nat) (e e1 : Engine) : Prop := e.wOrder = e1.wOrder ∧ TreeAgrees m e e1

theorem encoderTree_agree {e e1 : Engine} (x : List Byte) (h : IoAgrees e e1) :
    ∃ m, Agree (HuffmanEncoderAgrees m) (buildTree (countAll x (bsInitWrite .msb e)))
      (buildTree (countAll x (bsInitWrite .msb e1))) := by
  obtain ⟨m, htree⟩ := buildTree_treeAgrees (countAll_hist_congr x (bsInitWrite .msb e) (bsInitWrite .msb e1))
  have hinit : IoAgrees (bsInitWrite .msb e) (bsInitWrite .msb e1) := { h with wAcc := rfl, wN := rfl }
  obtain ⟨hleft, ho⟩ := encoderTree_ioAgrees x ⟨hinit, rfl⟩
  obtain ⟨hboth, ho1⟩ := encoderTree_ioAgrees x ⟨hleft.symm, rfl⟩
  generalize buildTree (countAll x (bsInitWrite .msb e)) = f at htree hboth ho ⊢
  generalize buildTree (countAll x (bsInitWrite .msb e1)) = f1 at htree hboth ho1 ⊢
  exact ⟨m, hboth.symm, ho.trans ho1.symm, htree⟩

theorem serializeTree_agree {cap : Reg32} {m : Nat} {e e1 : Engine} (fuel : Nat) {n : NodeId} (hn : n.toNat < m)
    (h : Agree (HuffmanEncoderAgrees m) e e1) :
    EffAgree (Agree (HuffmanEncoderAgrees m)) (serializeTree cap fuel n e) (serializeTree cap fuel n e1) := by
  induction fuel generalizing n e e1 with
  | zero => exact .ok h
  | succ fuel ih =>
    obtain ⟨_, _, _, hnodes⟩ : HuffmanEncoderAgrees m e e1 := h.codec
    have hnode := hnodes n hn
    rw [serializeTree, serializeTree, ← hnode.leaf]
    cases hleaf : (nodeAt e n).leaf with
    | true =>
      rw [if_pos rfl, if_pos rfl, ← hnode.sym hleaf]
      exact (bsWrite_agree (fun _ _ hq => hq.1) _ h).bind fun _ _ _ _ h1 => bsWrite_agree (fun _ _ hq => hq.1) _ h1
    | false =>
      obtain ⟨hleft, hl⟩ := hnode.left hleaf
      obtain ⟨hright, hr⟩ := hnode.right hleaf
      rw [if_neg Bool.false_ne_true, if_neg Bool.false_ne_true, ← hleft, ← hright]
      exact (bsWrite_agree (fun _ _ hq => hq.1) _ h).bind fun _ _ _ _ h1 =>
        (ih hl h1).bind fun _ _ _ _ h2 => ih hr h2

theorem codeFrom_congr {m : Nat} {e e1 : Engine} (h : TreeAgrees m e e1) (s : Byte) (fuel : Nat) {n : NodeId}
    (hn : n.toNat < m) : codeFrom e s fuel n = codeFrom e1 s fuel n := by
  obtain ⟨_, _, hnodes⟩ := h
  induction fuel generalizing n with
  | zero => rfl
  | succ fuel ih =>
    have hnode := hnodes n hn
    rw [codeFrom, codeFrom, ← hnode.leaf]
    cases hleaf : (nodeAt e n).leaf with
    | true => rw [if_pos rfl, if_pos rfl, hnode.sym hleaf]
    | false =>
      obtain ⟨hleft, hl⟩ := hnode.left hleaf
      obtain ⟨hright, hr⟩ := hnode.right hleaf
      rw [if_neg Bool.false_ne_true, if_neg Bool.false_ne_true, ← hleft, ← hright, ih hl, ih hr]

theorem codeOf_congr {m : Nat} {e e1 : Engine} (h : TreeAgrees m e e1) (s : Byte) : codeOf e s = codeOf e1 s := by
  obtain ⟨hroot, hlt, _⟩ := id h
  rw [codeOf, codeOf, ← hroot, codeFrom_congr h s _ hlt]

theorem writeCodes_agree {cap : Reg32} {m : Nat} (x : List Byte) {e e1 : Engine}
    (h : Agree (HuffmanEncoderAgrees m) e e1) :
    EffAgree (Agree (HuffmanEncoderAgrees m)) (writeCodes cap x e) (writeCodes cap x e1) := by
  induction x generalizing e e1 with
  | nil => exact .ok h
  | cons b bs ih =>
    have hconsume : Agree (HuffmanEncoderAgrees m) (consume e) (consume e1) := ⟨{ h.io with }, h.codec⟩
    have htree : TreeAgrees m (consume e) (consume e1) := hconsume.codec.2
    simp only [writeCodes, codeOf_congr htree b]
    exact (writeBitList_agree (fun _ _ hq => hq.1) _ hconsume).bind fun _ _ _ _ h1 => ih h1

theorem agreeingBody_huffmanEncode (cap : Reg32) : AgreeingBody cap (huffmanEncode cap) := by
  refine ⟨fun x e e1 _ h => ?_⟩
  obtain ⟨m, htree⟩ := encoderTree_agree x h
  unfold huffmanEncode
  generalize buildTree (countAll x (bsInitWrite .msb e)) = f at htree ⊢
  generalize buildTree (countAll x (bsInitWrite .msb e1)) = f1 at htree ⊢
  obtain ⟨_, hroot, hlt, _⟩ : HuffmanEncoderAgrees m f f1 := htree.codec
  simp only [← hroot]
  refine (serializeTree_agree Config.hufMaxNodes hlt htree).bind fun e2 _ _ _ h2 => ?_
  refine (bsWrite_agree (fun _ _ hq => hq.1) _ h2).bind fun e3 f3 _ _ h3 => ?_
  have h3' : Agree (HuffmanEncoderAgrees m) { e3 with inPos := 0 } { f3 with inPos := 0 } := ⟨{ h3.io with }, h3.codec⟩
  refine (writeCodes_agree x h3').bind fun e4 _ _ _ h4 => ?_
  exact (bsFlush_agree h4).mono fun _ _ h => h.io

-- `DeserializeTree`: each call fills the nodes it allocates and leaves those below alone

theorem bsRead_eq_ok {x : List Byte} {w : Nat} {e : Engine} {p : BitVec w × Engine} (h : bsRead x w e = .ok p) :
    ∃ r, p.2 = { e with rPos := r } := by
  have hkeeps : EffKeeps (fun a => ∃ r, a = { e with rPos := r }) Prod.snd (bsRead x w e) :=
    bsRead_keeps (P := fun a => ∃ r, a = { e with rPos := r }) (fun a n ⟨_, ha⟩ => ⟨n, by rw [ha]⟩) x w e ⟨e.rPos, rfl⟩
  rw [h] at hkeeps
  exact hkeeps

/-- What `DeserializeTree` needs: `R_ORDER` and `NNODES`. -/
def ArenaReaderAgrees (e e1 : Engine) : Prop := e.rOrder = e1.rOrder ∧ e.nNodes = e1.nNodes

/-- The engine after a call of `DeserializeTree()` has allocated its node, read its first bit and written `N_LEAF`
(R157). -/
def openNode (leaf : Bool) (e : Engine) : Engine :=
  let e2 := { e with nNodes := e.nNodes + 1, rPos := e.rPos + 1 }
  setNode e2 (nextNode e) { nodeAt e2 (nextNode e) with leaf := leaf }

theorem openNode_nNodes {e : Engine} (leaf : Bool) (h : e.nNodes.toNat < 511) :
    (openNode leaf e).nNodes.toNat = e.nNodes.toNat + 1 := nNodes_succ_toNat h.le

theorem nodeAt_openNode_new {e : Engine} (leaf : Bool) (h : e.nNodes.toNat < 511) :
    (nodeAt (openNode leaf e) (nextNode e)).leaf = leaf := by
  rw [openNode, nodeAt_setNode_same _ _ (by rw [nextNode_toNat h]; exact h)]

theorem nodeAt_openNode_old {e : Engine} (leaf : Bool) (h : e.nNodes.toNat < 511) {i : NodeId}
    (hi : i.toNat < e.nNodes.toNat) : nodeAt (openNode leaf e) i = nodeAt e i := by
  have hne : i ≠ nextNode e := by
    rintro rfl
    rw [nextNode_toNat h] at hi
    exact lt_irrefl _ hi
  exact nodeAt_setNode_other _ _ hne

theorem openNode_agree {e e1 : Engine} (leaf : Bool) (h : Agree ArenaReaderAgrees e e1) :
    Agree ArenaReaderAgrees (openNode leaf e) (openNode leaf e1) := by
  obtain ⟨horder, hn⟩ : ArenaReaderAgrees e e1 := h.codec
  exact ⟨{ h.io with rPos := congrArg (· + 1) h.io.rPos }, horder, congrArg (· + 1) hn⟩

/-- What two calls of `DeserializeTree()` that return leave (R157): the same node, which is the first of those they have
allocated; these agree, and those below are as they were. -/
structure DeserializedAgree (e e1 : Engine) (p q : NodeId × Engine) : Prop where
  id : p.1 = q.1
  first : p.1.toNat = e.nNodes.toNat
  agree : Agree ArenaReaderAgrees p.2 q.2
  grows : e.nNodes.toNat < p.2.nNodes.toNat
  bound : p.2.nNodes.toNat ≤ 511
  kept : ∀ i : NodeId, i.toNat < e.nNodes.toNat → nodeAt p.2 i = nodeAt e i ∧ nodeAt q.2 i = nodeAt e1 i
  filled : ∀ i : NodeId, e.nNodes.toNat ≤ i.toNat → i.toNat < p.2.nNodes.toNat →
    NodeAgrees p.2.nNodes.toNat (nodeAt p.2 i) (nodeAt q.2 i)

/-- A leaf: the symbol is written to the node that was opened. -/
theorem deserializedAgree_leaf {e e1 f f1 : Engine} (v : Byte) (hroom : e.nNodes.toNat < 511)
    (hnext : nextNode e1 = nextNode e) (hold1 : e1.nNodes.toNat = e.nNodes.toNat) (h : Agree ArenaReaderAgrees f f1)
    (hf : ∃ r, f = { openNode true e with rPos := r }) (hf1 : ∃ r, f1 = { openNode true e1 with rPos := r }) :
    DeserializedAgree e e1 (nextNode e, setNode f (nextNode e) { nodeAt f (nextNode e) with sym := v })
      (nextNode e1, setNode f1 (nextNode e1) { nodeAt f1 (nextNode e1) with sym := v }) := by
  rw [hnext]
  obtain ⟨r, rfl⟩ := hf
  obtain ⟨r1, rfl⟩ := hf1
  have hid : (nextNode e).toNat = e.nNodes.toNat := nextNode_toNat hroom
  have hn : (openNode true e).nNodes.toNat = e.nNodes.toNat + 1 := openNode_nNodes true hroom
  have hleaf : (nodeAt (openNode true e) (nextNode e)).leaf = true := nodeAt_openNode_new true hroom
  have hleaf1 : (nodeAt (openNode true e1) (nextNode e)).leaf = true :=
    hnext ▸ nodeAt_openNode_new true (hold1 ▸ hroom)
  have hother : ∀ i : NodeId, i.toNat < e.nNodes.toNat → i ≠ nextNode e := by
    rintro i hi rfl
    omega
  refine
    { id := rfl
      first := hid
      agree := ⟨{ h.io with }, h.codec⟩
      grows := by rw [setNode_nNodes, hn]; omega
      bound := by rw [setNode_nNodes, hn]; omega
      kept := fun i hi => ?_
      filled := fun i hlo hhi => ?_ }
  · rw [nodeAt_setNode_other _ _ (hother i hi), nodeAt_setNode_other _ _ (hother i hi)]
    exact ⟨nodeAt_openNode_old true hroom hi, nodeAt_openNode_old true (hold1 ▸ hroom) (hold1 ▸ hi)⟩
  · rw [setNode_nNodes, hn] at hhi
    have hi : i = nextNode e := BitVec.eq_of_toNat_eq (by omega)
    subst hi
    rw [nodeAt_setNode_same _ _ (by omega), nodeAt_setNode_same _ _ (by omega)]
    exact { leaf := hleaf.trans hleaf1.symm, sym := fun _ => rfl, left := fun hl => absurd (hl.symm.trans hleaf) nofun,
            right := fun hl => absurd (hl.symm.trans hleaf) nofun }

/-- An internal node: its subtrees fill the nodes after it, and leave it alone while they do. -/
theorem deserializedAgree_internal {e e1 f f1 g g1 : Engine} {l r : NodeId} (hroom : e.nNodes.toNat < 511)
    (hnext : nextNode e1 = nextNode e) (hold1 : e1.nNodes.toNat = e.nNodes.toNat)
    (hleft : DeserializedAgree (openNode false e) (openNode false e1) (l, f) (l, f1))
    (hright : DeserializedAgree (setNode f (nextNode e) { nodeAt f (nextNode e) with left := l })
      (setNode f1 (nextNode e1) { nodeAt f1 (nextNode e1) with left := l }) (r, g) (r, g1)) :
    DeserializedAgree e e1 (nextNode e, setNode g (nextNode e) { nodeAt g (nextNode e) with right := r })
      (nextNode e1, setNode g1 (nextNode e1) { nodeAt g1 (nextNode e1) with right := r }) := by
  rw [hnext] at hright ⊢
  have hid : (nextNode e).toNat = e.nNodes.toNat := nextNode_toNat hroom
  have hopen := openNode_nNodes (e := e) false hroom
  have hgrowsL : e.nNodes.toNat + 1 < f.nNodes.toNat := hopen ▸ hleft.grows
  have hgrowsR : f.nNodes.toNat < g.nNodes.toNat := hright.grows
  have hbound : g.nNodes.toNat ≤ 511 := hright.bound
  have hl : l.toNat = e.nNodes.toNat + 1 := hleft.first.trans hopen
  have hr : r.toNat = f.nNodes.toNat := hright.first
  have hother : ∀ i : NodeId, i.toNat ≠ e.nNodes.toNat → i ≠ nextNode e := by
    rintro i hi rfl
    exact hi hid
  -- The node itself: opened as internal, then given its left child.
  have hnodeL := hleft.kept (nextNode e) (by omega)
  have hnodeR := hright.kept (nextNode e) (by rw [setNode_nNodes]; omega)
  rw [nodeAt_setNode_same _ _ (by omega), nodeAt_setNode_same _ _ (by omega)] at hnodeR
  obtain ⟨hnodeL, hnodeL1⟩ := hnodeL
  obtain ⟨hnodeR, hnodeR1⟩ := hnodeR
  simp only at hnodeL hnodeL1 hnodeR hnodeR1
  have hleaf : (nodeAt f (nextNode e)).leaf = false := hnodeL ▸ nodeAt_openNode_new false hroom
  have hleaf1 : (nodeAt f1 (nextNode e)).leaf = false :=
    hnodeL1 ▸ hnext ▸ nodeAt_openNode_new false (hold1 ▸ hroom)
  -- The nodes below those of the right subtree: as the left one left them.
  have hbelow : ∀ i : NodeId, i ≠ nextNode e → i.toNat < f.nNodes.toNat →
      nodeAt g i = nodeAt f i ∧ nodeAt g1 i = nodeAt f1 i := by
    intro i hne hi
    have hkept := hright.kept i hi
    rwa [nodeAt_setNode_other _ _ hne, nodeAt_setNode_other _ _ hne] at hkept
  refine
    { id := rfl
      first := hid
      agree := ⟨{ hright.agree.io with }, hright.agree.codec⟩
      grows := by rw [setNode_nNodes]; omega
      bound := hbound
      kept := fun i hi => ?_
      filled := fun i hlo hhi => ?_ }
  · have hne : i ≠ nextNode e := hother i (by omega)
    obtain ⟨hg, hg1⟩ := hbelow i hne (by omega)
    obtain ⟨hf, hf1⟩ := hleft.kept i (by omega)
    rw [nodeAt_setNode_other _ _ hne, nodeAt_setNode_other _ _ hne, hg, hg1]
    exact ⟨hf.trans (nodeAt_openNode_old false hroom hi),
      hf1.trans (nodeAt_openNode_old false (hold1 ▸ hroom) (hold1 ▸ hi))⟩
  · rw [setNode_nNodes] at hhi ⊢
    by_cases hnew : i = nextNode e
    · subst hnew
      rw [nodeAt_setNode_same _ _ (by omega), nodeAt_setNode_same _ _ (by omega), hnodeR, hnodeR1]
      exact { leaf := hleaf.trans hleaf1.symm, sym := fun hl => absurd (hl.symm.trans hleaf) nofun,
              left := fun _ => ⟨rfl, by simp only; omega⟩, right := fun _ => ⟨rfl, by simp only; omega⟩ }
    · rw [nodeAt_setNode_other _ _ hnew, nodeAt_setNode_other _ _ hnew]
      have hne : i.toNat ≠ e.nNodes.toNat := fun hh => hnew (BitVec.eq_of_toNat_eq (hh.trans hid.symm))
      by_cases hi : i.toNat < f.nNodes.toNat
      · obtain ⟨hg, hg1⟩ := hbelow i hnew hi
        rw [hg, hg1]
        exact (hleft.filled i (by omega) hi).mono hgrowsR.le
      · exact hright.filled i (not_lt.1 hi) hhi

theorem deserializeTree_agree (x : List Byte) (fuel : Nat) {e e1 : Engine} (hbound : e.nNodes.toNat ≤ 511)
    (h : Agree ArenaReaderAgrees e e1) :
    EffAgree (DeserializedAgree e e1) (deserializeTree x fuel e) (deserializeTree x fuel e1) := by
  induction fuel generalizing e e1 with
  | zero => exact effAgree_raise _ h.io.nextFree
  | succ fuel ih =>
    obtain ⟨horder, hn⟩ : ArenaReaderAgrees e e1 := h.codec
    have hnext : nextNode e1 = nextNode e := nextNode_congr hn.symm
    have hold1 : e1.nNodes.toNat = e.nNodes.toNat := congrArg BitVec.toNat hn.symm
    rw [deserializeTree, deserializeTree]
    by_cases hfull : e.nNodes = 511
    · rw [if_pos hfull, if_pos (hn ▸ hfull)]
      exact effAgree_raise _ h.io.nextFree
    · have hroom : e.nNodes.toNat < 511 := by bv_omega
      have halloc : Agree ArenaReaderAgrees { e with nNodes := e.nNodes + 1 } { e1 with nNodes := e1.nNodes + 1 } :=
        ⟨{ h.io with }, horder, congrArg (· + 1) hn⟩
      have hopen (b : Bool) : Agree ArenaReaderAgrees (openNode b e) (openNode b e1) := openNode_agree b h
      rw [if_neg hfull, if_neg (hn ▸ hfull)]
      simp only
      rcases rbit_agree (x := x) (fun _ _ hq => hq.1) halloc with ⟨hend, hend1⟩ | ⟨b, hbit, hbit1, _⟩
      · rw [hend, hend1]
        exact effAgree_raise _ h.io.nextFree
      · rw [hbit, hbit1]
        cases b with
        | true =>
          refine EffAgree.bind (bsRead_agree (fun _ _ hq => hq.1) _ (hopen true)) ?_
          rintro ⟨v, f⟩ ⟨_, f1⟩ hf hf1 ⟨hv, h1⟩
          cases hv
          exact .ok (deserializedAgree_leaf v hroom hnext hold1 h1 (bsRead_eq_ok hf) (bsRead_eq_ok hf1))
        | false =>
          refine EffAgree.bind (ih (openNode_nNodes false hroom ▸ hroom) (hopen false)) ?_
          rintro ⟨l, f⟩ ⟨_, f1⟩ _ _ hleft
          obtain rfl := hleft.id
          refine EffAgree.bind (ih hleft.bound ⟨{ hleft.agree.io with }, hleft.agree.codec⟩) ?_
          rintro ⟨r, g⟩ ⟨_, g1⟩ _ _ hright
          obtain rfl := hright.id
          exact .ok (deserializedAgree_internal hroom hnext hold1 hleft hright)

/-- What the loop of `HUF.D` needs: `R_ORDER` and the tree. -/
def HuffmanDecoderAgrees (m : Nat) (e e1 : Engine) : Prop := e.rOrder = e1.rOrder ∧ TreeAgrees m e e1

theorem walkTree_agree {m : Nat} (x : List Byte) (fuel : Nat) {e e1 : Engine} (hcur : e.cur = e1.cur)
    (hlt : e.cur.toNat < m) (h : Agree (HuffmanDecoderAgrees m) e e1) :
    EffAgree (ValueAgrees (HuffmanDecoderAgrees m)) (walkTree x fuel e) (walkTree x fuel e1) := by
  induction fuel generalizing e e1 with
  | zero => exact effAgree_raise _ h.io.nextFree
  | succ fuel ih =>
    obtain ⟨_, _, _, hnodes⟩ : HuffmanDecoderAgrees m e e1 := h.codec
    have hnode := hnodes e.cur hlt
    rw [walkTree, walkTree, ← hcur, ← hnode.leaf]
    cases hleaf : (nodeAt e e.cur).leaf with
    | true =>
      rw [if_pos rfl, if_pos rfl]
      exact .ok ⟨hnode.sym hleaf, h⟩
    | false =>
      obtain ⟨hleft, hl⟩ := hnode.left hleaf
      obtain ⟨hright, hr⟩ := hnode.right hleaf
      rw [if_neg Bool.false_ne_true, if_neg Bool.false_ne_true]
      rcases rbit_agree (x := x) (fun _ _ hq => hq.1) h with ⟨hend, hend1⟩ | ⟨b, hbit, hbit1, hnext⟩
      · rw [hend, hend1]
        exact effAgree_raise _ h.io.nextFree
      · rw [hbit, hbit1]
        cases b with
        | true => exact ih (hcur ▸ hright) hr ⟨{ hnext.io with }, hnext.codec⟩
        | false => exact ih (hcur ▸ hleft) hl ⟨{ hnext.io with }, hnext.codec⟩

theorem decodeSymbol_agree {m : Nat} (x : List Byte) {e e1 : Engine} (h : Agree (HuffmanDecoderAgrees m) e e1) :
    EffAgree (ValueAgrees (HuffmanDecoderAgrees m)) (decodeSymbol x e) (decodeSymbol x e1) := by
  obtain ⟨_, hroot, hlt, _⟩ : HuffmanDecoderAgrees m e e1 := h.codec
  have hfuel : 8 * x.length - e.rPos + 1 = 8 * x.length - e1.rPos + 1 := by rw [h.io.rPos]
  rw [decodeSymbol, decodeSymbol, hfuel]
  exact walkTree_agree x _ (e := { e with cur := e.root }) (e1 := { e1 with cur := e1.root }) hroot hlt
    ⟨{ h.io with }, h.codec⟩

theorem decodeLoop_agree {m : Nat} {emit : Byte → Engine → Eff Engine} (hemit : EmitAgrees emit) (x : List Byte)
    (n : Nat) {e e1 : Engine} (h : Agree (HuffmanDecoderAgrees m) e e1) :
    EffAgree (Agree (HuffmanDecoderAgrees m)) (decodeLoop emit x n e) (decodeLoop emit x n e1) := by
  induction n generalizing e e1 with
  | zero => exact .ok h
  | succ n ih =>
    refine (decodeSymbol_agree x h).bind ?_
    rintro ⟨b, f⟩ ⟨_, f1⟩ _ _ ⟨hb, h1⟩
    cases hb
    exact (hemit _ b f f1 h1).bind fun _ _ _ _ h2 => ih ⟨{ h2.io with }, h2.codec⟩

theorem agreeingBody_huffmanDecode (cap : Reg32) {emit : Byte → Engine → Eff Engine} (hemit : EmitAgrees emit) :
    AgreeingBody cap (huffmanDecode emit) := by
  refine ⟨fun x e e1 _ h => ?_⟩
  have hstart : Agree ArenaReaderAgrees { bsInitRead .msb e with nNodes := 0 }
      { bsInitRead .msb e1 with nNodes := 0 } := ⟨{ h with rPos := rfl }, rfl, rfl⟩
  refine (deserializeTree_agree x 512 (Nat.zero_le _) hstart).bind ?_
  rintro ⟨r, f⟩ ⟨_, f1⟩ _ _ hd
  obtain ⟨horder, _⟩ : ArenaReaderAgrees f f1 := hd.agree.codec
  obtain rfl := hd.id
  have hroot : r.toNat = 0 := hd.first
  have hfilled := hd.filled
  have hpos : 0 < f.nNodes.toNat := hd.grows
  have htree : Agree (HuffmanDecoderAgrees f.nNodes.toNat) { f with root := r } { f1 with root := r } :=
    ⟨{ hd.agree.io with }, horder, rfl, hroot ▸ hpos, fun i hi => hfilled i (Nat.zero_le _) hi⟩
  refine (bsRead_agree (fun _ _ hq => hq.1) _ htree).bind ?_
  rintro ⟨n, g⟩ ⟨_, g1⟩ _ _ ⟨hn, h1⟩
  cases hn
  refine (decodeLoop_agree hemit x n.toNat (e := { g with remaining := n }) (e1 := { g1 with remaining := n })
    ⟨{ h1.io with }, h1.codec⟩).mono fun _ _ h => h.io

-- Commands

theorem agreeingBody_lzwpCompress (cap : Reg32) : AgreeingBody cap (lzwpCompress cap) := by
  refine ⟨fun x e e1 hs h => ?_⟩
  rw [lzwpCompress, lzwpCompress]
  split
  · exact effAgree_raise _ h.nextFree
  · exact (agreeingBody_lzwCompress cap).afterCollect.agrees x e e1 hs h

/-- Every instruction completes a reserved word, or runs a body that two engines agree on: one body for all states with
the same `OUT_CAP`. -/
theorem exec_eq_agreeingBody (i : Instr) :
    (∀ s, exec i s = rejectCommand (encode i) s) ∨
      ∃ body : Reg32 → List Byte → Engine → Eff Engine, (∀ cap, AgreeingBody cap (body cap)) ∧
        ∀ s, exec i s = runCommand (encode i) (body s.caps.outCap) s := by
  cases i with
  | rleC | rleD => exact .inl fun _ => rfl
  | predA => exact .inr ⟨_, agreeingBody_predApply, fun _ => rfl⟩
  | predU => exact .inr ⟨_, agreeingBody_predUndo, fun _ => rfl⟩
  | lzwC => exact .inr ⟨_, agreeingBody_lzwCompress, fun _ => rfl⟩
  | lzwD =>
    exact .inr ⟨_, fun cap => agreeingBody_lzwDecompress (emitSound_outByte cap) (emitAgrees_outByte cap), fun _ => rfl⟩
  | hufE => exact .inr ⟨_, agreeingBody_huffmanEncode, fun _ => rfl⟩
  | hufD => exact .inr ⟨_, fun cap => agreeingBody_huffmanDecode cap (emitAgrees_outByte cap), fun _ => rfl⟩
  | lzwpC => exact .inr ⟨_, agreeingBody_lzwpCompress, fun _ => rfl⟩
  | lzwpD =>
    exact .inr ⟨_, fun cap =>
      (agreeingBody_lzwDecompress (emitSound_undoByte cap) (emitAgrees_undoByte cap)).withPPrev 0, fun _ => rfl⟩
  | hufpC => exact .inr ⟨_, fun cap => (agreeingBody_huffmanEncode cap).afterCollect, fun _ => rfl⟩
  | hufpD =>
    exact .inr ⟨_, fun cap => (agreeingBody_huffmanDecode cap (emitAgrees_undoByte cap)).withPPrev 0, fun _ => rfl⟩

theorem sameResult_takeError (k : ErrorKind) {s s1 : State} (h : s.eng.nextFree = s1.eng.nextFree) :
    SameResult (takeError k s) (takeError k s1) := ⟨rfl, rfl, rfl, rfl, h⟩

theorem sameResult_complete {s s1 : State} {r r1 : Eff Engine} (herr : s.err = s1.err) (h : EffAgree IoAgrees r r1) :
    SameResult (complete s r) (complete s1 r1) := by
  cases h with
  | ok h => exact ⟨rfl, herr, h.outLen, h.outBuf, h.nextFree⟩
  | error h => exact sameResult_takeError _ h

theorem rejectCommand_sameResult {w : BitVec 8} {s s1 t t1 : State} (hbusy : s.runState ≠ .busy)
    (hbusy1 : s1.runState ≠ .busy) (h : rejectCommand w s = .next t) (h1 : rejectCommand w s1 = .next t1) :
    SameResult t t1 := by
  rw [rejectCommand, if_neg hbusy] at h
  rw [rejectCommand, if_neg hbusy1] at h1
  cases h
  cases h1
  exact sameResult_takeError _ rfl

theorem runCommand_sameResult {w : BitVec 8} {body : List Byte → Engine → Eff Engine} {s s1 t t1 : State}
    (hbody : AgreeingBody s.caps.outCap body) (hbusy : s.runState ≠ .busy) (hbusy1 : s1.runState ≠ .busy)
    (hblock : inBlock s = inBlock s1) (hcaps : s.caps = s1.caps) (h : runCommand w body s = .next t)
    (h1 : runCommand w body s1 = .next t1) : SameResult t t1 := by
  have hlen : s.inLen = s1.inLen :=
    BitVec.eq_of_toNat_eq (by rw [← inBlock_length s, ← inBlock_length s1, hblock])
  rcases runCommand_cases w body s with ⟨hb, _⟩ | ⟨_, hbig, heq⟩ | ⟨_, hfits, heq⟩
  · exact absurd hb hbusy
  · rcases runCommand_cases w body s1 with ⟨hb, _⟩ | ⟨_, _, heq1⟩ | ⟨_, hfits1, _⟩
    · exact absurd hb hbusy1
    · cases heq.symm.trans h
      cases heq1.symm.trans h1
      exact sameResult_takeError _ rfl
    · rw [← hlen, ← hcaps] at hfits1
      exact absurd hfits1 (BitVec.not_le.2 hbig)
  · rw [hlen, hcaps] at hfits
    rw [runCommand_ready w body s1 hbusy1 hfits, ← hblock] at h1
    cases heq.symm.trans h
    cases h1
    exact sameResult_complete rfl (hbody.agrees _ _ _ (engineSound_start _ _) (ioAgrees_start _ _))

/-- Settles O11: command start makes two engines agree, and every body keeps the agreement. -/
theorem resultIndependentOfHistory : Obligations.ResultIndependentOfHistory := by
  intro i s s1 t t1 hbusy hbusy1 hblock hcaps h h1
  rcases exec_eq_agreeingBody i with hreject | ⟨body, hbody, hrun⟩
  · rw [hreject] at h h1
    exact rejectCommand_sameResult hbusy hbusy1 h h1
  · rw [hrun] at h h1
    rw [← hcaps] at h1
    exact runCommand_sameResult (hbody _) hbusy hbusy1 hblock hcaps h h1

end Sys2Proof.Machine
end

section
/-! Command words and the host script: the decoder against the encoder (R70 to R76), what the words without a meaning do
(R75), and how a script brings a block to its command (R78). -/

namespace Sys2Proof

-- The fields of a word

/-- The three fields cover the word (R70). -/
theorem wordOf_fieldsOf (w : BitVec 8) : wordOf (fieldsOf w) = w := by
  have hhigh : (fieldsOf w).rsv ++ (fieldsOf w).dir = w.extractLsb' 4 4 :=
    BitVec.extractLsb'_append_extractLsb'_eq_extractLsb' rfl
  rw [wordOf, hhigh]
  exact (BitVec.extractLsb'_append_extractLsb'_eq_extractLsb' rfl).trans BitVec.extractLsb'_eq_self

/-- A word with `RSV` = 0 lies below the first `RSV` value, 0x20 (R70). -/
theorem wordOf_toNat_lt {f : CommandWord} (h : f.rsv = 0) : (wordOf f).toNat < 0x20 := by
  have hdir := f.dir.isLt
  have hkind := f.kind.isLt
  rw [wordOf, h, BitVec.toNat_append, BitVec.toNat_append, ← Nat.shiftLeft_add_eq_or_of_lt hkind,
    ← Nat.shiftLeft_add_eq_or_of_lt hdir]
  simp only [Nat.shiftLeft_eq, BitVec.ofNat_eq_ofNat, BitVec.toNat_ofNat]
  omega

theorem bit_directionOf (d : BitVec 1) : (directionOf d).bit = d := by revert d; decide

theorem kindOf_eq_some {v : BitVec 4} {k : Kind} (h : kindOf v = some k) : v = k.value := by
  revert v
  cases k <;> decide

theorem kindOf_eq_none_iff (v : BitVec 4) : kindOf v = none ↔ 6 ≤ v := by revert v; decide

-- `KIND` and `DIR` of a command (R74)

theorem instrOf_kind_direction (i : Instr) : instrOf i.kind i.direction = i := by cases i <;> rfl

theorem fields_instrOf (k : Kind) (d : Direction) :
    (instrOf k d).fields = { rsv := 0, dir := d.bit, kind := k.value } := by
  cases k <;> cases d <;> rfl

theorem kind_instrOf (k : Kind) (d : Direction) : (instrOf k d).kind = k := by cases k <;> cases d <;> rfl

-- The decoder

/-- Everything the decoder can answer (R74, R75). -/
theorem decode_cases (w : BitVec 8) :
    ((fieldsOf w).rsv ≠ 0 ∧ decode w = .error (.reservedBits (fieldsOf w).rsv)) ∨
    ((fieldsOf w).rsv = 0 ∧ kindOf (fieldsOf w).kind = none ∧ decode w = .error (.illegalKind (fieldsOf w).kind)) ∨
    ((fieldsOf w).rsv = 0 ∧ ∃ k, kindOf (fieldsOf w).kind = some k ∧
      decode w = .ok (instrOf k (directionOf (fieldsOf w).dir))) := by
  by_cases hrsv : (fieldsOf w).rsv = 0
  · cases hkind : kindOf (fieldsOf w).kind with
    | none => exact .inr (.inl ⟨hrsv, rfl, by simp [decode, hrsv, hkind]⟩)
    | some k => exact .inr (.inr ⟨hrsv, k, rfl, by simp [decode, hrsv, hkind]⟩)
  · exact .inl ⟨hrsv, if_pos hrsv⟩

/-- `Laws.EncodedFields` for all instructions. -/
theorem encodedFields (i : Instr) : Laws.EncodedFields.Statement i := by
  cases i with
  | rleC => exact Laws.EncodedFields.rleC
  | lzwC => exact Laws.EncodedFields.lzwC
  | lzwpC => exact Laws.EncodedFields.lzwpC
  | hufpC => exact Laws.EncodedFields.hufpC
  | predA => exact Laws.EncodedFields.predA
  | hufE => exact Laws.EncodedFields.hufE
  | rleD => exact Laws.EncodedFields.rleD
  | lzwD => exact Laws.EncodedFields.lzwD
  | lzwpD => exact Laws.EncodedFields.lzwpD
  | hufpD => exact Laws.EncodedFields.hufpD
  | predU => exact Laws.EncodedFields.predU
  | hufD => exact Laws.EncodedFields.hufD

theorem decode_encode (i : Instr) : decode (encode i) = .ok i := by
  obtain ⟨hfields, _, hkind, hdir, _⟩ := encodedFields i
  have hrsv : (fieldsOf (encode i)).rsv = 0 := congrArg CommandWord.rsv hfields
  rcases decode_cases (encode i) with ⟨hbad, _⟩ | ⟨_, hnone, _⟩ | ⟨_, k, hk, hdec⟩
  · exact absurd hrsv hbad
  · cases hnone.symm.trans hkind
  · cases hk.symm.trans hkind
    rw [hdec, hdir, instrOf_kind_direction]

/-- No other word decodes to a command (R76): its fields are those the command is written with. -/
theorem eq_encode_of_decode {w : BitVec 8} {i : Instr} (h : decode w = .ok i) : w = encode i := by
  rcases decode_cases w with ⟨_, herr⟩ | ⟨_, _, herr⟩ | ⟨hrsv, k, hk, hdec⟩
  · cases herr.symm.trans h
  · cases herr.symm.trans h
  · cases hdec.symm.trans h
    have hfields : fieldsOf w = { rsv := 0, dir := (fieldsOf w).dir, kind := k.value } := by
      rw [← hrsv, ← kindOf_eq_some hk]
    rw [encode, fields_instrOf, bit_directionOf, ← hfields, wordOf_fieldsOf]

/-- Settles O2: the decoder reads back the fields a command is written with, and the fields determine the word. -/
theorem decodeEncodeAgree : Obligations.DecodeEncodeAgree := fun i =>
  ⟨wordOf_toNat_lt rfl, decode_encode i, fun _ => eq_encode_of_decode⟩

/-- Settles O1: each word of the table is the word its command is written as. -/
theorem tableWordsDecode : Obligations.TableWordsDecode :=
  ⟨decode_encode .rleC, decode_encode .lzwC, decode_encode .lzwpC, decode_encode .hufpC, decode_encode .predA,
    decode_encode .hufE, decode_encode .rleD, decode_encode .lzwD, decode_encode .lzwpD, decode_encode .hufpD,
    decode_encode .predU, decode_encode .hufD⟩

end Sys2Proof

namespace Sys2Proof.Machine

-- Words without a meaning

theorem writeCmd_of_decode {w : BitVec 8} {i : Instr} (h : decode w = .ok i) (s : State) : writeCmd w s = exec i s := by
  rcases writeCmd_cases w s with ⟨j, hj, hexec⟩ | ⟨r, hr, _⟩
  · cases h.symm.trans hj
    exact hexec
  · cases h.symm.trans hr

theorem writeCmd_of_reject {w : BitVec 8} {r : DecodeReject} (h : decode w = .error r) (s : State) :
    writeCmd w s = rejectCommand w s := by
  rcases writeCmd_cases w s with ⟨j, hj, _⟩ | ⟨_, _, hreject⟩
  · cases h.symm.trans hj
  · exact hreject

/-- The two commands of kind `RLE` are the reserved words (R75, R194). -/
theorem exec_of_kind_rle {i : Instr} (h : i.kind = .rle) (s : State) : exec i s = rejectCommand (encode i) s := by
  cases i with
  | rleC | rleD => rfl
  | lzwC | lzwpC | hufpC | predA | hufE | lzwD | lzwpD | hufpD | predU | hufD => cases h

/-- Illegal words, which the decoder rejects, and reserved words, which it decodes to `RLE.C` and `RLE.D`, do the same
(R75, R205). -/
theorem writeCmd_eq_rejectCommand {w : BitVec 8}
    (h : (fieldsOf w).rsv ≠ 0 ∨ 6 ≤ (fieldsOf w).kind ∨ (fieldsOf w).kind = 0) (s : State) :
    writeCmd w s = rejectCommand w s := by
  rcases decode_cases w with ⟨_, herr⟩ | ⟨_, _, herr⟩ | ⟨hrsv, k, hk, hdec⟩
  · exact writeCmd_of_reject herr s
  · exact writeCmd_of_reject herr s
  · rcases h with hbad | hlarge | hzero
    · exact absurd hrsv hbad
    · cases ((kindOf_eq_none_iff _).2 hlarge).symm.trans hk
    · have hrle : k = .rle := by
        rw [hzero] at hk
        exact (Option.some.inj hk).symm
      rw [writeCmd_of_decode hdec, exec_of_kind_rle ((kind_instrOf ..).trans hrle), ← eq_encode_of_decode hdec]

/-- What the completion with `IllegalCommand` leaves (R75, R210). -/
theorem rejectCommand_effect (w : BitVec 8) {s : State} (hbusy : s.runState ≠ .busy) :
    ∃ t, rejectCommand w s = .next t ∧ FailedWith .illegalCommand t ∧ t.err = 4 ∧ t.cmd = w ∧ t.eng = s.eng.start ∧
      HostSideKept s t := by
  rcases rejectCommand_cases w s with ⟨hb, _⟩ | ⟨_, heq⟩
  · exact absurd hb hbusy
  · exact ⟨_, heq, ⟨rfl, rfl, rfl, rfl⟩, rfl, rfl, rfl, rfl, fun _ => rfl, rfl, rfl, rfl, rfl, rfl, rfl⟩

/-- Settles O4: a write of a word of any of the three causes is `rejectCommand`; the counts run over the 256 words. -/
theorem illegalAndReservedWordsReject : Obligations.IllegalAndReservedWordsReject := by
  refine ⟨fun s w rest hpending hbusy hcause => ?_, by decide +kernel, by decide +kernel, by decide +kernel⟩
  have hstep : step s = rejectCommand w { s with pending := rest } :=
    (step_of_pending_cons s _ rest hpending).trans (writeCmd_eq_rejectCommand hcause _)
  rw [hstep]
  exact rejectCommand_effect w (s := { s with pending := rest }) hbusy

-- Loading a block

/-- `s` with the block `x` in `IN_BUF` from index 0 and its length in `IN_LEN` (R78, R243). -/
def State.withBlock (s : State) (x : List Byte) : State :=
  { s with inBuf := s.inBuf.writeBytes 0 x, inLen := BitVec.ofNat 32 x.length }

theorem runAccesses_cons_of_next {a : HostAccess} {s t : State} (h : access a s = .next t) (l : List HostAccess) :
    runAccesses (a :: l) s = runAccesses l t := by simp only [runAccesses, h]

/-- Consecutive writes from address `a` store the bytes there, if all addresses exist (R26). -/
theorem runAccesses_writeBytes (x : List Byte) (a : Nat) {s : State} (hbusy : s.runState ≠ .busy)
    (hfits : a + x.length ≤ s.caps.inCap.toNat) :
    runAccesses ((x.zipIdx a).map fun p => .writeIn p.2 p.1) s =
      .next { s with inBuf := s.inBuf.writeBytes a x } := by
  induction x generalizing a s with
  | nil => rfl
  | cons b x ih =>
    rw [List.length_cons] at hfits
    have hwrite : access (.writeIn a b) s = .next { s with inBuf := s.inBuf.write a b } :=
      writeIn_of_exists b (by omega) hbusy
    rw [List.zipIdx_cons, List.map_cons, runAccesses_cons_of_next hwrite]
    exact ih (a + 1) (s := { s with inBuf := s.inBuf.write a b }) hbusy (by show _ ≤ s.caps.inCap.toNat; omega)

theorem runAccesses_loadAccesses {s : State} {x : List Byte} (hbusy : s.runState ≠ .busy)
    (hfits : x.length ≤ s.caps.inCap.toNat) : runAccesses (loadAccesses x) s = .next (s.withBlock x) := by
  have hbytes := runAccesses_writeBytes x 0 hbusy (by omega)
  let s1 : State := { s with inBuf := s.inBuf.writeBytes 0 x }
  have hlength : access (.writeInLen (BitVec.ofNat 32 x.length)) s1 = .next (s.withBlock x) :=
    congrArg Host.Outcome.next (writeInLen_of_not_busy _ (s := s1) hbusy)
  rw [loadAccesses, runAccesses_append, hbytes]
  exact runAccesses_cons_of_next hlength []

theorem withBlock_inLen_toNat (s : State) {x : List Byte} (h : x.length < 2 ^ 32) :
    (s.withBlock x).inLen.toNat = x.length := (BitVec.toNat_ofNat ..).trans (Nat.mod_eq_of_lt h)

theorem withBlock_read_below (s : State) {x : List Byte} {a : Nat} (h : a < x.length) :
    (s.withBlock x).inBuf.read a = some x[a] := by
  simp [State.withBlock, memory_read_writeBytes, h]

theorem withBlock_read_above (s : State) {x : List Byte} {a : Nat} (h : x.length ≤ a) :
    (s.withBlock x).inBuf.read a = s.inBuf.read a := by
  simp [State.withBlock, memory_read_writeBytes, Nat.not_lt.2 h]

theorem inBlock_withBlock (s : State) {x : List Byte} (h : x.length < 2 ^ 32) : inBlock (s.withBlock x) = x := by
  have hlen := withBlock_inLen_toNat s h
  refine List.ext_getElem (by rw [inBlock_length, hlen]) fun a _ ha => ?_
  simp [inBlock, inByte, withBlock_read_below s ha]

-- The script that loads, commands and waits

/-- A command issued by a script runs the command (R73, R78). -/
theorem runAccesses_command (i : Instr) (s : State) {t : State} (h : exec i s = .next t) :
    runAccesses (statementAccesses s (.command i)) s = .next t := by
  have hwrite : access (.writeCmd (encode i)) s = .next t := (writeCmd_of_decode (decode_encode i) s).trans h
  exact runAccesses_cons_of_next hwrite []

/-- The `STATUS` read of `WAIT` leaves what it shows as it was (R22, R252). -/
theorem runScript_wait_observed (s : State) : (runScript [.wait] s).observed = [observe s] := rfl

/-- A command always answers a next state (R73, R210). -/
theorem exec_eq_next (i : Instr) (s : State) : ∃ t, exec i s = .next t := by
  rw [← writeCmd_of_decode (decode_encode i)]
  rcases writeCmd_ends (encode i) s with ⟨_, heq⟩ | ⟨t, heq, _⟩
  · exact ⟨s, heq⟩
  · exact ⟨t, heq⟩

/-- Settles O26: the accesses of `LOAD` reach `withBlock`, and the script goes on from there. -/
theorem loadedBlockIsTheInput : Obligations.LoadedBlockIsTheInput := by
  intro s x hbusy hfits
  have hload : runAccesses (statementAccesses s (.load x)) s = .next (s.withBlock x) :=
    runAccesses_loadAccesses hbusy hfits
  have hlen : x.length < 2 ^ 32 := lt_of_le_of_lt hfits s.caps.inCap.isLt
  refine ⟨s.withBlock x, hload, inBlock_withBlock s hlen, withBlock_inLen_toNat s hlen, rfl,
    fun a ha => withBlock_read_above s ha, fun i => ?_⟩
  obtain ⟨u, hu⟩ := exec_eq_next i (s.withBlock x)
  refine ⟨u, hu, ?_⟩
  rw [runScript_cons_of_next hload, runScript_cons_of_next (runAccesses_command i _ hu), runScript_wait_observed]
  rfl

end Sys2Proof.Machine
end

section
/-! The BitStream against the layout of a stream in bytes (R90 to R99): the bits of a packed byte one by one, what the
writer holds after some bits of a stream, what the reader finds at a position, and the numbers the bits stand for. -/

namespace Sys2Proof.Machine

-- The bits of a byte, in stream order

theorem bitIndex_lt (o : BitOrder) {j : Nat} (h : j < 8) : bitIndex o j < 8 := by
  cases o with
  | msb => exact Nat.sub_lt_succ 7 j
  | lsb => exact h

theorem bitIndex_bitIndex (o : BitOrder) {j : Nat} (h : j < 8) : bitIndex o (bitIndex o j) = j := by
  cases o with
  | msb => exact Nat.sub_sub_self (Nat.le_of_lt_succ h)
  | lsb => rfl

theorem bitIndex_inj (o : BitOrder) {j k : Nat} (hj : j < 8) (hk : k < 8) : bitIndex o j = bitIndex o k ↔ j = k :=
  ⟨fun h => by rw [← bitIndex_bitIndex o hj, h, bitIndex_bitIndex o hk], congrArg _⟩

/-- A byte is determined by its eight bits in stream order. -/
theorem byte_ext_bitIndex (o : BitOrder) {u v : Byte}
    (h : ∀ j < 8, u.getLsbD (bitIndex o j) = v.getLsbD (bitIndex o j)) : u = v := by
  refine BitVec.eq_of_getLsbD_eq fun i hi => ?_
  have hbit := h (bitIndex o i) (bitIndex_lt o hi)
  rwa [bitIndex_bitIndex o hi] at hbit

theorem getLsbD_setBit_same {v : Byte} {i : Nat} (b : Bool) (h : i < 8) : (setBit v i b).getLsbD i = b := by
  cases b with
  | false => simp [setBit, h]
  | true => simp [setBit, h]

-- The bytes of a payload

theorem getLsbD_foldl_setBits (o : BitOrder) (f : Nat → Bool) (l : List Nat) (v : Byte) {k : Nat} (hk : k < 8)
    (hl : ∀ j ∈ l, j < 8) :
    (l.foldl (fun v j => if f j then v ||| (1#8 <<< bitIndex o j) else v) v).getLsbD (bitIndex o k) =
      (v.getLsbD (bitIndex o k) || (decide (k ∈ l) && f k)) := by
  induction l generalizing v with
  | nil => simp
  | cons j l ih =>
    have hj : j < 8 := hl j List.mem_cons_self
    have hset : v ||| (1#8 <<< bitIndex o j) = setBit v (bitIndex o j) true := rfl
    rw [List.foldl_cons, ih _ fun i hi => hl i (List.mem_cons_of_mem j hi)]
    by_cases hjk : k = j
    · subst hjk
      cases hf : f k with
      | false => simp
      | true => rw [if_pos rfl, hset, getLsbD_setBit_same true (bitIndex_lt o hk)]; simp
    · have hne : bitIndex o k ≠ bitIndex o j := fun h => hjk ((bitIndex_inj o hk hj).1 h)
      cases hf : f j with
      | false => simp [hjk]
      | true => rw [if_pos rfl, hset, getLsbD_setBit_other true (bitIndex_lt o hk) hne]; simp [hjk]

/-- Bit `j` of byte `q`, in stream order, is bit 8`q` + `j` of the stream (R97). -/
theorem getLsbD_packedByte (o : BitOrder) (s : List Bool) (q : Nat) {j : Nat} (h : j < 8) :
    (packedByte o s q).getLsbD (bitIndex o j) = s.getD (8 * q + j) false := by
  rw [packedByte, getLsbD_foldl_setBits o (fun j => s.getD (8 * q + j) false) _ _ h fun i hi => List.mem_range.1 hi]
  simp [h]

theorem packedByte_past_end (o : BitOrder) {s : List Bool} {q : Nat} (h : s.length ≤ 8 * q) : packedByte o s q = 0 :=
  byte_ext_bitIndex o fun j hj => by
    rw [getLsbD_packedByte o s q hj, List.getD_eq_default _ _ (by omega)]
    exact BitVec.getLsbD_zero.symm

/-- A full byte does not change any more. -/
theorem packedByte_append (o : BitOrder) {s : List Bool} (t : List Bool) {q : Nat} (h : 8 * q + 8 ≤ s.length) :
    packedByte o (s ++ t) q = packedByte o s q :=
  byte_ext_bitIndex o fun j hj => by
    rw [getLsbD_packedByte o _ q hj, getLsbD_packedByte o _ q hj, List.getD_append _ _ _ _ (by omega)]

/-- Placing a bit in the byte that is not full is appending it to the stream (R92). -/
theorem setBit_packedByte (o : BitOrder) (s : List Bool) (b : Bool) :
    setBit (packedByte o s (s.length / 8)) (bitIndex o (s.length % 8)) b = packedByte o (s ++ [b]) (s.length / 8) := by
  have hn : s.length % 8 < 8 := Nat.mod_lt _ (by decide)
  have hlen : (s ++ [b]).length = s.length + 1 := List.length_append
  refine byte_ext_bitIndex o fun j hj => ?_
  rw [getLsbD_packedByte o _ _ hj]
  by_cases h : j = s.length % 8
  · have hpos : 8 * (s.length / 8) + j = s.length := by omega
    rw [h, getLsbD_setBit_same b (bitIndex_lt o hn), ← h, hpos]
    simp [List.getD_eq_getElem?_getD]
  · rw [getLsbD_setBit_other b (bitIndex_lt o hj) fun hi => h ((bitIndex_inj o hj hn).1 hi),
      getLsbD_packedByte o _ _ hj]
    rcases Nat.lt_or_gt_of_ne h with hlt | hgt
    · rw [List.getD_append _ _ _ _ (by omega)]
    · rw [List.getD_eq_default _ _ (by omega), List.getD_eq_default _ _ (by omega)]

@[simp] theorem packBits_length (o : BitOrder) (s : List Bool) : (packBits o s).length = (s.length + 7) / 8 := by
  simp [packBits]

theorem packBits_getElem? (o : BitOrder) (s : List Bool) (q : Nat) :
    (packBits o s)[q]? = if q < (s.length + 7) / 8 then some (packedByte o s q) else none := by
  split
  next h => simp [packBits, h]
  next h => exact List.getElem?_eq_none (by rw [packBits_length]; omega)

-- The stream of payload bytes

@[simp] theorem streamBits_length (o : BitOrder) (p : List Byte) : (streamBits o p).length = 8 * p.length := by
  simp [streamBits, Nat.mul_comm]

/-- Bit `n` of the stream is bit `n` mod 8, in stream order, of byte `n` div 8 (R95, R97). -/
theorem streamBits_getElem? (o : BitOrder) (p : List Byte) (n : Nat) (h : n < 8 * p.length) :
    (streamBits o p)[n]? = some ((p.getD (n / 8) 0).getLsbD (bitIndex o (n % 8))) := by
  induction p generalizing n with
  | nil => exact absurd h (Nat.not_lt_zero n)
  | cons b p ih =>
    rw [List.length_cons] at h
    rw [streamBits, List.flatMap_cons]
    by_cases hn : n < 8
    · rw [List.getElem?_append_left (by simpa using hn), Nat.mod_eq_of_lt hn, Nat.div_eq_of_lt hn]
      simp [hn]
    · obtain ⟨m, rfl⟩ : ∃ m, n = m + 8 := ⟨n - 8, by omega⟩
      rw [List.getElem?_append_right (by simp)]
      simpa [streamBits] using ih m (by omega)

/-- Settles O29: bit by bit, what is past the end of the stream being the zero bits of its last byte. -/
theorem packedStreamReadsBack : Obligations.PackedStreamReadsBack := by
  intro o bits
  have hround : bits.length ≤ 8 * ((bits.length + 7) / 8) := by omega
  refine ⟨8 * ((bits.length + 7) / 8) - bits.length, by omega, List.ext_getElem? fun n => ?_⟩
  by_cases hn : n < 8 * ((bits.length + 7) / 8)
  · have hbyte : (packBits o bits).getD (n / 8) 0 = packedByte o bits (n / 8) := by
      rw [List.getD_eq_getElem?_getD, packBits_getElem?, if_pos (by omega)]
      rfl
    have hpos : 8 * (n / 8) + n % 8 = n := Nat.div_add_mod n 8
    rw [streamBits_getElem? o _ n (by rwa [packBits_length]), hbyte,
      getLsbD_packedByte o _ _ (Nat.mod_lt n (by decide)), hpos]
    by_cases hb : n < bits.length
    · simp [List.getElem?_append_left hb, hb]
    · rw [List.getElem?_append_right (by omega), List.getElem?_replicate, if_pos (by omega),
        List.getD_eq_default _ _ (by omega)]
  · have hbits : (bits ++ List.replicate (8 * ((bits.length + 7) / 8) - bits.length) false).length =
        8 * ((bits.length + 7) / 8) := by
      rw [List.length_append, List.length_replicate, Nat.add_sub_cancel' hround]
    rw [List.getElem?_eq_none (by rw [streamBits_length, packBits_length]; omega), List.getElem?_eq_none (by omega)]

-- The writer

/-- A buffer that lists the first `k` bytes of `f` and nothing else. -/
def Memory.ListsFirst (m : Memory) (f : Nat → Byte) (k : Nat) : Prop :=
  ∀ a, m.read a = if a < k then some (f a) else none

theorem listsFirst_write {m : Memory} {f : Nat → Byte} {k : Nat} (h : m.ListsFirst f k) :
    (m.write k (f k)).ListsFirst f (k + 1) := by
  intro a
  by_cases ha : a = k
  · rw [ha, memory_read_write_same, if_pos (Nat.lt_succ_self k)]
  · rw [memory_read_write_other _ _ _ _ ha, h a]
    exact if_congr (by omega) rfl rfl

theorem listsFirst_congr {m : Memory} {f g : Nat → Byte} {k : Nat} (h : m.ListsFirst f k) (hfg : ∀ a < k, f a = g a) :
    m.ListsFirst g k := by
  intro a
  rw [h a]
  split
  next ha => rw [hfg a ha]
  next => rfl

/-- The engine's output side after the bits `s` of a stream (R92): its whole bytes stand in `OUT_BUF`, the bits left
over in `W_ACC`. -/
structure WriterHolds (s : List Bool) (e : Engine) : Prop where
  outLen : e.outLen.toNat = s.length / 8
  wN : e.wN.toNat = s.length % 8
  wAcc : e.wAcc = packedByte e.wOrder s (s.length / 8)
  outBuf : e.outBuf.ListsFirst (packedByte e.wOrder s) (s.length / 8)

theorem writerHolds_nil {e : Engine} (hacc : e.wAcc = 0) (hn : e.wN = 0) (hlen : e.outLen = 0) (hbuf : e.outBuf = []) :
    WriterHolds [] e where
  outLen := by rw [hlen]; rfl
  wN := by rw [hn]; rfl
  wAcc := by rw [hacc, packedByte_past_end _ (by simp)]
  outBuf := by rw [hbuf]; exact fun a => by simp

/-- `BS.WBIT` with room for the byte it may complete (R92). -/
theorem wbit_writerHolds {cap : Reg32} {s : List Bool} {e : Engine} (b : Bool) (h : WriterHolds s e)
    (hroom : (s.length + 1) / 8 ≤ cap.toNat) : ∃ e1, wbit cap b e = .ok e1 ∧ WriterHolds (s ++ [b]) e1 := by
  have hlen := h.outLen
  have hn := h.wN
  have hlength : (s ++ [b]).length = s.length + 1 := List.length_append
  have hacc : setBit e.wAcc (bitIndex e.wOrder e.wN.toNat) b = packedByte e.wOrder (s ++ [b]) (s.length / 8) := by
    rw [h.wAcc, hn, setBit_packedByte]
  have hbuf : e.outBuf.ListsFirst (packedByte e.wOrder (s ++ [b])) (s.length / 8) :=
    listsFirst_congr h.outBuf fun a ha => (packedByte_append _ _ (by omega)).symm
  rcases wbit_cases cap b e with ⟨h7, hok⟩ | ⟨h7, hcap, _⟩ | ⟨h7, hcap, hok⟩
  · have hsucc : (e.wN + 1).toNat = e.wN.toNat + 1 := by bv_omega
    have hfew : s.length % 8 + 1 < 8 := by bv_omega
    have hbyte : (s ++ [b]).length / 8 = s.length / 8 := by omega
    exact ⟨_, hok, by rw [hbyte]; exact hlen, hsucc.trans (by omega), by rw [hbyte]; exact hacc,
      by rw [hbyte]; exact hbuf⟩
  · have h8 : s.length % 8 = 7 := by rw [← hn, h7]; rfl
    rw [hcap] at hlen
    omega
  · have h8 : s.length % 8 = 7 := by rw [← hn, h7]; rfl
    have hbyte : (s ++ [b]).length / 8 = s.length / 8 + 1 := by omega
    have hempty : (s ++ [b]).length % 8 = 0 := by omega
    refine ⟨_, hok, ?_, hempty.symm, (packedByte_past_end _ (by omega)).symm, ?_⟩
    · have hlt := cap.isLt
      rw [hbyte]
      show (e.outLen + 1).toNat = _
      bv_omega
    · rw [hbyte]
      show (e.outBuf.write e.outLen.toNat _).ListsFirst _ _
      rw [hlen, hacc]
      exact listsFirst_write hbuf

theorem writeBitList_writerHolds {cap : Reg32} {s : List Bool} {e : Engine} (bits : List Bool) (h : WriterHolds s e)
    (hroom : (s.length + bits.length) / 8 ≤ cap.toNat) :
    ∃ e1, writeBitList cap bits e = .ok e1 ∧ WriterHolds (s ++ bits) e1 := by
  induction bits generalizing s e with
  | nil => exact ⟨e, rfl, by rwa [List.append_nil]⟩
  | cons b bits ih =>
    rw [List.length_cons] at hroom
    obtain ⟨e1, hbit, h1⟩ := wbit_writerHolds (cap := cap) b h (by omega)
    obtain ⟨e2, hrest, h2⟩ := ih h1 (by rw [List.length_append, List.length_singleton]; omega)
    refine ⟨e2, ?_, by rwa [List.append_cons]⟩
    rw [writeBitList_cons, hbit, eff_ok_bind, hrest]

/-- `BS.FLUSH` with room for the byte it may append completes the payload (R94). -/
theorem bsFlush_writerHolds {cap : Reg32} {s : List Bool} {e : Engine} (h : WriterHolds s e)
    (hroom : (s.length + 7) / 8 ≤ cap.toNat) :
    ∃ e1, bsFlush cap e = .ok e1 ∧ e1.outLen.toNat = (s.length + 7) / 8 ∧
      e1.outBuf.ListsFirst (packedByte e1.wOrder s) ((s.length + 7) / 8) ∧ e1.wAcc = 0 ∧ e1.wN = 0 := by
  have hlen := h.outLen
  have hn := h.wN
  rcases bsFlush_cases cap e with ⟨h0, hok⟩ | ⟨hpos, hcap, _⟩ | ⟨hpos, _, hok⟩
  · have hwhole : s.length % 8 = 0 := by rw [← hn, h0]; rfl
    have hbytes : (s.length + 7) / 8 = s.length / 8 := by omega
    rw [hbytes]
    exact ⟨e, hok, hlen, h.outBuf, h.wAcc.trans (packedByte_past_end _ (by omega)), h0⟩
  · have hrest : 0 < s.length % 8 := by bv_omega
    rw [hcap] at hlen
    omega
  · have hrest : 0 < s.length % 8 := by bv_omega
    have hbytes : (s.length + 7) / 8 = s.length / 8 + 1 := by omega
    rw [hbytes]
    refine ⟨_, hok, ?_, ?_, rfl, rfl⟩
    · have hlt := cap.isLt
      show (e.outLen + 1).toNat = _
      bv_omega
    · show (e.outBuf.write e.outLen.toNat e.wAcc).ListsFirst _ _
      rw [hlen, h.wAcc]
      exact listsFirst_write h.outBuf

/-- The second engine is the first but for what the writer and the flush may touch (R99). -/
def DiffersInWriter (e e1 : Engine) : Prop :=
  ∃ m l a n, e1 = { e with outBuf := m, outLen := l, wAcc := a, wN := n }

theorem differsInWriter_refl (e : Engine) : DiffersInWriter e e := ⟨_, _, _, _, rfl⟩

theorem differsInWriter_update {e : Engine} (e1 : Engine) (m : Memory) (l : Reg32) (a : Byte) (n : BitVec 3)
    (h : DiffersInWriter e e1) : DiffersInWriter e { e1 with outBuf := m, outLen := l, wAcc := a, wN := n } := by
  obtain ⟨_, _, _, _, rfl⟩ := h
  exact ⟨m, l, a, n, rfl⟩

theorem writeBitList_bsFlush_differsInWriter (cap : Reg32) (bits : List Bool) (e : Engine) :
    EffKeeps (DiffersInWriter e) id (writeBitList cap bits e >>= bsFlush cap) :=
  effKeeps_bind (writeBitList_keeps (wbit_keeps_of_insensitive differsInWriter_update) bits e (differsInWriter_refl e))
    (bsFlush_keeps_of_insensitive differsInWriter_update)

/-- Settles O28: the writer holds the bits it was given, and the flush completes the last byte. -/
theorem writerLaysStreamOut : Obligations.WriterLaysStreamOut := by
  intro cap bits e hacc hn hlen hbuf hroom
  obtain ⟨e1, hwrite, h1⟩ := writeBitList_writerHolds (cap := cap) bits (writerHolds_nil hacc hn hlen hbuf)
    (by rw [List.length_nil]; omega)
  obtain ⟨e2, hflush, hlen2, hbuf2, hacc2, hn2⟩ := bsFlush_writerHolds h1 hroom
  have hrun : (writeBitList cap bits e >>= bsFlush cap) = .ok e2 := by rw [hwrite, eff_ok_bind, hflush]
  have hframe := writeBitList_bsFlush_differsInWriter cap bits e
  rw [hrun] at hframe
  obtain ⟨m, l, a, n, rfl⟩ := hframe
  refine ⟨_, hrun, hlen2, fun a => (hbuf2 a).trans (packBits_getElem? e.wOrder bits a).symm, ?_⟩
  rw [show a = e.wAcc from hacc2.trans hacc.symm, show n = e.wN from hn2.trans hn.symm]

-- The reader

/-- `BS.RBIT` before the end of the stream returns its next bit (R95). -/
theorem rbit_eq_streamBits {x : List Byte} {e : Engine} (h : e.rPos < 8 * x.length) :
    rbit x e = some ((streamBits e.rOrder x)[e.rPos]'(by simpa using h), { e with rPos := e.rPos + 1 }) := by
  rcases rbit_cases x e with ⟨hend, _⟩ | ⟨_, hbit⟩
  · omega
  · rw [hbit, (List.getElem_eq_iff _).2 (streamBits_getElem? e.rOrder x e.rPos h)]

theorem readBitList_of_enough {x : List Byte} {n : Nat} {e : Engine} (h : e.rPos + n ≤ 8 * x.length) :
    readBitList x n e = .ok (((streamBits e.rOrder x).drop e.rPos).take n, { e with rPos := e.rPos + n }) := by
  induction n generalizing e with
  | zero => rfl
  | succ n ih =>
    have hlt : e.rPos < (streamBits e.rOrder x).length := by rw [streamBits_length]; omega
    have hrest := ih (e := { e with rPos := e.rPos + 1 }) (by show e.rPos + 1 + n ≤ _; omega)
    rw [readBitList, rbit_eq_streamBits (by omega), List.drop_eq_getElem_cons hlt, List.take_succ_cons]
    simp only [hrest, eff_ok_bind, Nat.add_assoc, Nat.add_comm 1 n]

/-- With too few bits left the reader stops at the end of the stream (R98). -/
theorem readBitList_of_too_few {x : List Byte} {n : Nat} {e : Engine} (hpos : e.rPos ≤ 8 * x.length)
    (h : 8 * x.length < e.rPos + n) :
    readBitList x n e = .error (.corruptStream, { e with rPos := 8 * x.length }) := by
  induction n generalizing e with
  | zero => omega
  | succ n ih =>
    rw [readBitList]
    rcases rbit_cases x e with ⟨hend, hnone⟩ | ⟨hne, hbit⟩
    · rw [hnone, ← hend]
      rfl
    · have hrest := ih (e := { e with rPos := e.rPos + 1 }) (by show e.rPos + 1 ≤ _; omega)
        (by show _ < e.rPos + 1 + n; omega)
      simp only [hbit, hrest, eff_error_bind]

/-- Settles O30: bit by bit, `BS.READ` being the number that the list of bits stands for. -/
theorem readerReturnsStreamBits : Obligations.ReaderReturnsStreamBits := by
  intro x w e hpos
  refine ⟨fun henough => ?_, fun hfew => ⟨{ e with rPos := 8 * x.length }, ?_⟩⟩
  · rw [bsRead, readBitList_of_enough henough, eff_ok_bind]
  · rw [bsRead, readBitList_of_too_few hpos hfew, eff_error_bind]

-- The numbers that bits stand for

/-- Most significant first is least significant first, read from the other end (R93, R96). -/
theorem bitsValue_msb (bs : List Bool) : bitsValue .msb bs = bitsValue .lsb bs.reverse := by
  simp only [bitsValue, List.foldr_reverse, Nat.add_comm]

theorem bitsOf_msb {w : Nat} (v : BitVec w) : bitsOf .msb v = (bitsOf .lsb v).reverse := rfl

/-- The low `w` bits of a number, least significant first, stand for the number modulo 2^`w`. -/
theorem bitsValue_lsb_testBit (w n : Nat) : bitsValue .lsb ((List.range w).map n.testBit) = n % 2 ^ w := by
  induction w generalizing n with
  | zero => simp [bitsValue, Nat.mod_one]
  | succ w ih =>
    have hrest : (List.range w).map (n.testBit ∘ Nat.succ) = (List.range w).map (n / 2).testBit :=
      List.map_congr_left fun i _ => Nat.testBit_succ n i
    calc bitsValue .lsb ((List.range (w + 1)).map n.testBit)
      _ = (n.testBit 0).toNat + 2 * bitsValue .lsb ((List.range w).map (n / 2).testBit) := by
        rw [List.range_succ_eq_map, List.map_cons, List.map_map, hrest]
        rfl
      _ = n % 2 + 2 * (n / 2 % 2 ^ w) := by rw [ih, Nat.toNat_testBit, pow_zero, Nat.div_one]
      _ = n % 2 ^ (w + 1) := by rw [Nat.pow_succ', Nat.mod_mul]

theorem bitsValue_bitsOf {w : Nat} (o : BitOrder) (v : BitVec w) : bitsValue o (bitsOf o v) = v.toNat := by
  have hlsb : bitsValue .lsb (bitsOf .lsb v) = v.toNat :=
    (bitsValue_lsb_testBit w v.toNat).trans (Nat.mod_eq_of_lt v.isLt)
  cases o with
  | msb => rw [bitsValue_msb, bitsOf_msb, List.reverse_reverse, hlsb]
  | lsb => exact hlsb

/-- Settles O31: the bits of a number in either order, and the number they stand for. -/
theorem readInvertsWrite : Obligations.ReadInvertsWrite := fun _ v o => ⟨bitsOf_length o v, bitsValue_bitsOf o v⟩

end Sys2Proof.Machine
end

section
/-! What the frame of a command (R73) makes of the outcome of its body (R210), and the implicit operands (R77). -/

namespace Sys2Proof.Machine

-- The outcome

/-- Completion leaves the host's side as command start had it (R210). -/
theorem hostSideKept_complete (w : BitVec 8) (s : State) (r : Eff Engine) :
    HostSideKept s (complete (commandStart w s) r) := by
  cases r <;> exact ⟨rfl, fun _ => rfl, rfl, rfl, rfl, rfl, rfl, rfl⟩

/-- A started command whose body ends normally (R210). -/
theorem runCommand_completes {w : BitVec 8} {body : List Byte → Engine → Eff Engine} {s : State} {e : Engine}
    (h : Ready s) (hbody : body (inBlock s) s.eng.start = .ok e) :
    ∃ t, runCommand w body s = .next t ∧ Completed t ∧ t.cmd = w ∧ HostSideKept s t ∧ t.eng = e := by
  refine ⟨_, runCommand_ready w body s h.1 h.2, ?_, ?_, hostSideKept_complete w s _, ?_⟩ <;> rw [hbody]
  · exact ⟨rfl, rfl⟩
  · rfl
  · rfl

/-- A started command whose body raises (R210). -/
theorem runCommand_fails {w : BitVec 8} {body : List Byte → Engine → Eff Engine} {s : State} {k : ErrorKind}
    {e : Engine} (h : Ready s) (hbody : body (inBlock s) s.eng.start = .error (k, e)) :
    ∃ t, runCommand w body s = .next t ∧ FailedWith k t ∧ t.cmd = w ∧ HostSideKept s t ∧
      t.eng = { e with outLen := 0, outBuf := [] } := by
  refine ⟨_, runCommand_ready w body s h.1 h.2, ?_, ?_, hostSideKept_complete w s _, ?_⟩ <;> rw [hbody]
  · exact ⟨rfl, rfl, rfl, rfl⟩
  · rfl
  · rfl

/-- A command that completed was started on a block that fits, and its body ended normally. -/
theorem runCommand_completed {w : BitVec 8} {body : List Byte → Engine → Eff Engine} {s t : State}
    (hbusy : s.runState ≠ .busy) (h : runCommand w body s = .next t) (ht : Completed t) :
    Ready s ∧ body (inBlock s) s.eng.start = .ok t.eng := by
  obtain ⟨hdone, _⟩ := ht
  rcases runCommand_cases w body s with ⟨hb, _⟩ | ⟨_, _, heq⟩ | ⟨_, hfits, heq⟩
  · exact absurd hb hbusy
  · cases heq.symm.trans h
    cases hdone
  · cases heq.symm.trans h
    cases hbody : body (inBlock s) s.eng.start with
    | ok e => exact ⟨⟨hbusy, hfits⟩, rfl⟩
    | error p =>
      rw [hbody] at hdone
      cases hdone

/-- A property of the engine that does not speak of the output side holds after a command that keeps it on every path
from command start on (R73, R210). -/
theorem runCommand_frame {P : Engine → Prop} {w : BitVec 8} {body : List Byte → Engine → Eff Engine} {s t : State}
    (hout : ∀ e, P e → P { e with outLen := 0, outBuf := [] }) (hstart : P s.eng.start)
    (hbody : EffKeeps P id (body (inBlock s) s.eng.start)) (hbusy : s.runState ≠ .busy)
    (h : runCommand w body s = .next t) : P t.eng ∧ HostSideKept s t := by
  have hends : ∀ r : Eff Engine, EffKeeps P id r →
      P (complete (commandStart w s) r).eng ∧ HostSideKept s (complete (commandStart w s) r) := by
    intro r hr
    refine ⟨?_, hostSideKept_complete w s r⟩
    cases r with
    | ok e => exact hr
    | error p => exact hout _ hr
  rcases runCommand_cases w body s with ⟨hb, _⟩ | ⟨_, _, heq⟩ | ⟨_, _, heq⟩
  · exact absurd hb hbusy
  · cases heq.symm.trans h
    exact hends (.error (.allocationFailure, s.eng.start)) hstart
  · cases heq.symm.trans h
    exact hends _ hbody

-- The operands

theorem inBlock_eq_cons {s : State} (h : s.inLen ≠ 0) :
    ∃ bs, inBlock s = inByte s 0 :: bs ∧ bs.length + 1 = s.inLen.toNat := by
  have hpos : 0 < s.inLen.toNat := by bv_omega
  have hlength := inBlock_length s
  have hhead := inBlock_getElem? s 0 hpos
  cases hx : inBlock s with
  | nil => rw [hx] at hhead; cases hhead
  | cons b bs =>
    rw [hx] at hlength hhead
    cases hhead
    exact ⟨bs, rfl, hlength⟩

theorem inBlock_ne_nil {s : State} (h : s.inLen ≠ 0) : inBlock s ≠ [] := by
  obtain ⟨bs, hblock, _⟩ := inBlock_eq_cons h
  rw [hblock]
  exact List.cons_ne_nil _ _

/-- What `OUT_BUF` holds is what the host reads of it. -/
theorem outBlock_of_outputIs {t : State} {ys : List Byte} (h : OutputIs ys t) : outBlock t = ys := by
  obtain ⟨hlen, hread⟩ := h
  have hbytes : (List.range ys.length).filterMap t.eng.outBuf.read = (List.range ys.length).map (ys.getD · 0) := by
    rw [← List.filterMap_eq_map]
    refine List.filterMap_congr fun a ha => ?_
    rw [hread, Function.comp_apply, List.getD_eq_getElem _ _ (List.mem_range.1 ha),
      List.getElem?_eq_getElem (List.mem_range.1 ha)]
  rw [outBlock, hlen, hbytes]
  refine List.ext_getElem (by simp) fun a _ ha => ?_
  rw [List.getElem_map, List.getElem_range, List.getD_eq_getElem _ _ ha]

end Sys2Proof.Machine
end

section
/-! The LZW dictionary (R110 to R114): what `Insert` writes, the strings of codes, and the dictionary as the list of its
strings, in whose terms the payload format is written. -/

namespace Sys2Proof.Machine

-- `DictReset`, `Lookup` and `Insert` entry by entry

/-- Settles O36: a found entry would lie between 256 and `NEXT_FREE` = 256. -/
theorem dictResetEmptiesDictionary : Obligations.DictResetEmptiesDictionary := by
  intro e c b
  refine ⟨rfl, rfl, ?_, rfl, rfl⟩
  cases hfound : lookup c b (dictReset e) with
  | none => rfl
  | some k =>
    obtain ⟨hlo, hhi, _⟩ := lookup_eq_some hfound (by rw [dictReset_nextFree]; decide)
    exact absurd (lt_of_le_of_lt hlo hhi) (lt_irrefl 256)

theorem insert_nextFree_toNat (c : Code) (b : Byte) {e : Engine} (hmax : e.nextFree.toNat ≤ 4096) :
    (insert c b e).nextFree.toNat = min (e.nextFree.toNat + 1) 4096 := by
  rcases insert_cases c b e with ⟨hfull, heq⟩ | ⟨hroom, heq⟩
  · have hfull' : 4096 ≤ e.nextFree.toNat := hfull
    rw [heq]
    omega
  · have hroom' : e.nextFree.toNat < 4096 := hroom
    have hsucc : (e.nextFree + 1).toNat = e.nextFree.toNat + 1 := by bv_omega
    rw [heq, hsucc]
    omega

theorem insert_entry_new (c : Code) (b : Byte) {e : Engine} (hroom : e.nextFree.toNat < 4096) :
    prefixAt (insert c b e) e.nextFree.toNat = c ∧ suffixAt (insert c b e) e.nextFree.toNat = b := by
  rcases insert_cases c b e with ⟨hfull, _⟩ | ⟨_, heq⟩
  · exact absurd hfull (not_le.2 hroom)
  · have hin : e.nextFree.toNat - 256 < Config.dictEntries := by simp only [Config.dictEntries]; omega
    rw [heq]
    simp only [prefixAt, suffixAt, arrayGet_arraySet_same _ _ _ _ hin, and_self]

theorem insert_entry_other (c : Code) (b : Byte) {e : Engine} {j : Nat} (hlo : 256 ≤ e.nextFree.toNat) (hj : 256 ≤ j)
    (hne : j ≠ e.nextFree.toNat) :
    prefixAt (insert c b e) j = prefixAt e j ∧ suffixAt (insert c b e) j = suffixAt e j := by
  rcases insert_cases c b e with ⟨_, heq⟩ | ⟨_, heq⟩
  · rw [heq]
    exact ⟨rfl, rfl⟩
  · have hindex : j - 256 ≠ e.nextFree.toNat - 256 := by omega
    rw [heq]
    simp only [prefixAt, suffixAt, arrayGet_arraySet_other _ _ _ _ _ hindex, and_self]

/-- Settles O37: the two cases of `Insert`, the new entry and the others apart. -/
theorem insertUnlessFull : Obligations.InsertUnlessFull := by
  intro e c b hlo hmax
  have hlo' : 256 ≤ e.nextFree.toNat := hlo
  refine ⟨fun hfull => ?_, fun hroom => ?_⟩
  · rcases insert_cases c b e with ⟨_, heq⟩ | ⟨hroom, _⟩
    · exact heq
    · exact absurd hroom (by rw [hfull]; decide)
  · obtain ⟨hprefix, hsuffix⟩ := insert_entry_new c b (e := e) hroom
    have hothers : ∀ j, 256 ≤ j → j ≠ e.nextFree.toNat → _ := fun j => insert_entry_other c b (e := e) hlo'
    rcases insert_cases c b e with ⟨hfull, _⟩ | ⟨_, heq⟩
    · exact absurd hroom (BitVec.not_lt.2 hfull)
    · refine ⟨hprefix, hsuffix, by rw [heq], hothers, ?_, by rw [heq]⟩
      rw [dictFull_eq_true_iff, heq]
      simp only
      bv_omega

/-- A new entry leaves the valid ones as they are (R113). -/
theorem dictAgrees_insert (c : Code) (b : Byte) {e : Engine} (hlo : 256 ≤ e.nextFree.toNat) :
    DictAgrees e (insert c b e) := by
  intro j hj hvalid
  obtain ⟨hprefix, hsuffix⟩ := insert_entry_other c b hlo hj (Nat.ne_of_lt hvalid)
  exact ⟨hprefix.symm, hsuffix.symm⟩

/-- The dictionary, all of it, is the same: what the bit writer, the bit reader and the output side leave alone. -/
structure SameDict (e e1 : Engine) : Prop where
  nextFree : e1.nextFree = e.nextFree
  dictPrefix : e1.dictPrefix = e.dictPrefix
  dictSuffix : e1.dictSuffix = e.dictSuffix

theorem SameDict.refl (e : Engine) : SameDict e e := ⟨rfl, rfl, rfl⟩

theorem SameDict.trans {e e1 e2 : Engine} (h : SameDict e e1) (h1 : SameDict e1 e2) : SameDict e e2 :=
  ⟨h1.nextFree.trans h.nextFree, h1.dictPrefix.trans h.dictPrefix, h1.dictSuffix.trans h.dictSuffix⟩

theorem SameDict.dictAgrees {e e1 : Engine} (h : SameDict e e1) : DictAgrees e e1 := by
  intro j _ _
  simp only [prefixAt, suffixAt, h.dictPrefix, h.dictSuffix, and_self]

theorem SameDict.dictionarySound {e e1 : Engine} (h : SameDict e e1) (hs : DictionarySound e) : DictionarySound e1 := by
  unfold DictionarySound at hs ⊢
  rwa [h.nextFree, h.dictPrefix]

theorem SameDict.codeValid {e e1 : Engine} {k : Code} (h : SameDict e e1) (hk : CodeValid k e) : CodeValid k e1 := by
  rwa [CodeValid, h.nextFree]

theorem SameDict.insert {e e1 : Engine} (c : Code) (b : Byte) (h : SameDict e e1) :
    SameDict (insert c b e) (insert c b e1) := by
  rcases insert_cases_of_nextFree_eq c b h.nextFree.symm with ⟨heq, heq1⟩ | ⟨_, heq, heq1⟩
  · rwa [heq, heq1]
  · rw [heq, heq1]
    exact ⟨rfl, by rw [h.dictPrefix], by rw [h.dictSuffix]⟩

-- The string of a code

theorem dictionarySound_bounds {e : Engine} (h : DictionarySound e) :
    256 ≤ e.nextFree.toNat ∧ e.nextFree.toNat ≤ 4096 := ⟨h.1, h.2.1⟩

/-- A literal is valid in every dictionary (R110). -/
theorem codeValid_of_literal {k : Code} {e : Engine} (h : DictionarySound e) (hk : k.toNat < 256) : CodeValid k e :=
  lt_of_lt_of_le hk (dictionarySound_bounds h).1

/-- `DICT_PREFIX` of a valid entry is a smaller valid code (R33(a)). -/
theorem prefix_lt {k : Code} {e : Engine} (h : DictionarySound e) (hlo : 256 ≤ k.toNat) (hk : CodeValid k e) :
    (prefixAt e k.toNat).toNat < k.toNat := h.2.2 k.toNat hlo hk

theorem prefix_codeValid {k : Code} {e : Engine} (h : DictionarySound e) (hlo : 256 ≤ k.toNat) (hk : CodeValid k e) :
    CodeValid (prefixAt e k.toNat) e := lt_trans (prefix_lt h hlo hk) hk

theorem strWithin_literal (e : Engine) (fuel : Nat) {k : Code} (hk : k.toNat < 256) :
    strWithin e fuel k = [k.setWidth 8] := by
  have hk' : k < 256 := hk
  cases fuel <;> rw [strWithin, if_pos hk']

theorem strWithin_entry (e : Engine) (fuel : Nat) {k : Code} (hk : 256 ≤ k.toNat) :
    strWithin e (fuel + 1) k = strWithin e fuel (prefixAt e k.toNat) ++ [suffixAt e k.toNat] := by
  have hk' : ¬k < 256 := BitVec.not_lt.2 hk
  rw [strWithin, if_neg hk']

/-- The bound of `Str` does not matter: prefixes get smaller, so the chain from `k` has at most `k` steps (R114). -/
theorem strWithin_of_enough {e : Engine} (h : DictionarySound e) (fuel : Nat) {k : Code} (hk : CodeValid k e)
    (hfuel : k.toNat ≤ fuel) : strWithin e fuel k = str e k := by
  induction fuel using Nat.strong_induction_on generalizing k with
  | _ fuel ih =>
    by_cases hlo : 256 ≤ k.toNat
    · obtain ⟨m, hm⟩ : ∃ m, k.toNat = m + 1 := ⟨k.toNat - 1, by omega⟩
      obtain ⟨n, rfl⟩ : ∃ n, fuel = n + 1 := ⟨fuel - 1, by omega⟩
      have hlt := prefix_lt h hlo hk
      have hvalid := prefix_codeValid h hlo hk
      rw [str, hm, strWithin_entry e n hlo, strWithin_entry e m hlo, ih n (by omega) hvalid (by omega),
        ih m (by omega) hvalid (by omega)]
    · rw [str, strWithin_literal e _ (not_le.1 hlo), strWithin_literal e _ (not_le.1 hlo)]

theorem str_literal (e : Engine) {k : Code} (hk : k.toNat < 256) : str e k = [k.setWidth 8] :=
  strWithin_literal e _ hk

theorem str_entry {e : Engine} {k : Code} (h : DictionarySound e) (hlo : 256 ≤ k.toNat) (hk : CodeValid k e) :
    str e k = str e (prefixAt e k.toNat) ++ [suffixAt e k.toNat] := by
  have hlt := prefix_lt h hlo hk
  rw [← strWithin_of_enough h (k.toNat + 1) hk (Nat.le_succ _), strWithin_entry e _ hlo,
    strWithin_of_enough h _ (prefix_codeValid h hlo hk) hlt.le]

/-- Induction along the chain of `DICT_PREFIX` from a valid code (R114). -/
theorem code_induction {e : Engine} {P : Code → Prop} (h : DictionarySound e) (literal : ∀ k, k.toNat < 256 → P k)
    (entry : ∀ k, 256 ≤ k.toNat → CodeValid k e → P (prefixAt e k.toNat) → P k) (k : Code) (hk : CodeValid k e) :
    P k := by
  induction hn : k.toNat using Nat.strong_induction_on generalizing k with
  | _ n ih =>
    subst hn
    by_cases hlo : 256 ≤ k.toNat
    · exact entry k hlo hk (ih _ (prefix_lt h hlo hk) _ (prefix_codeValid h hlo hk) rfl)
    · exact literal k (not_le.1 hlo)

/-- A valid code stands for at least one byte, and an entry 256 + i for at most i + 2 (R114). -/
theorem str_length_bounds {e : Engine} {k : Code} (h : DictionarySound e) (hk : CodeValid k e) :
    1 ≤ (str e k).length ∧ (str e k).length ≤ max 1 (k.toNat - 254) := by
  refine code_induction (P := fun k => 1 ≤ (str e k).length ∧ (str e k).length ≤ max 1 (k.toNat - 254)) h
    (fun k hk => ?_) (fun k hlo hk ih => ?_) k hk
  · rw [str_literal e hk, List.length_singleton]
    omega
  · have hlt := prefix_lt h hlo hk
    rw [str_entry h hlo hk, List.length_append, List.length_singleton]
    omega

theorem str_ne_nil {e : Engine} {k : Code} (h : DictionarySound e) (hk : CodeValid k e) : str e k ≠ [] :=
  List.ne_nil_of_length_pos (str_length_bounds h hk).1

/-- An entry's string has two bytes or more (R110). -/
theorem two_le_str_length {e : Engine} {k : Code} (h : DictionarySound e) (hlo : 256 ≤ k.toNat) (hk : CodeValid k e) :
    2 ≤ (str e k).length := by
  have hprefix := (str_length_bounds h (prefix_codeValid h hlo hk)).1
  rw [str_entry h hlo hk, List.length_append, List.length_singleton]
  omega

/-- Settles O38: `Str` follows the chain whatever its bound, and no string of the chain is empty. -/
theorem strFollowsPrefixes : Obligations.StrFollowsPrefixes := by
  intro e k h hk
  refine ⟨str_literal e, fun hlo => ⟨str_entry h hlo hk, ?_⟩, ?_⟩
  · have hbounds := str_length_bounds h hk
    omega
  · obtain ⟨b, w, hw⟩ := List.exists_cons_of_ne_nil (str_ne_nil h hk)
    rw [first, hw]
    rfl

/-- Every non-empty beginning of a valid code's string is the string of a valid code. -/
theorem exists_code_of_prefix {e : Engine} {k : Code} {w : List Byte} (h : DictionarySound e) (hk : CodeValid k e)
    (hw : w ≠ []) (hprefix : w <+: str e k) : ∃ j, CodeValid j e ∧ str e j = w := by
  revert hprefix
  refine code_induction (P := fun k => w <+: str e k → ∃ j, CodeValid j e ∧ str e j = w) h (fun k hk hprefix => ?_)
    (fun k hlo hk ih hprefix => ?_) k hk
  · refine ⟨k, codeValid_of_literal h hk, ?_⟩
    rw [str_literal e hk] at hprefix ⊢
    rcases List.prefix_cons_iff.1 hprefix with hnil | ⟨t, rfl, ht⟩
    · exact absurd hnil hw
    · rw [List.prefix_nil.1 ht]
  · rw [str_entry h hlo hk] at hprefix
    rcases List.prefix_concat_iff.1 hprefix with heq | hshort
    · exact ⟨k, hk, (str_entry h hlo hk).trans heq.symm⟩
    · exact ih hshort

theorem SameDict.str {e e1 : Engine} {k : Code} (h : SameDict e e1) (hs : DictionarySound e) (hk : CodeValid k e) :
    str e1 k = str e k := (str_congr hs h.dictAgrees hk).symm

theorem str_insert_old {e : Engine} {k : Code} (c : Code) (b : Byte) (h : DictionarySound e) (hk : CodeValid k e) :
    str (insert c b e) k = str e k := (str_congr h (dictAgrees_insert c b (dictionarySound_bounds h).1) hk).symm

/-- The code that `Insert` gives stands for the string of its first part and the suffix (R113, R114). -/
theorem str_insert_new {e : Engine} {c k : Code} (b : Byte) (h : DictionarySound e) (hc : CodeValid c e)
    (hk : k.toNat = e.nextFree.toNat) : str (insert c b e) k = str e c ++ [b] := by
  obtain ⟨hlo, hmax⟩ := dictionarySound_bounds h
  have hroom : e.nextFree.toNat < 4096 := hk ▸ k.isLt
  obtain ⟨hprefix, hsuffix⟩ := insert_entry_new c b hroom
  have hvalid : CodeValid k (insert c b e) := codeValid_insert hk.le
  rw [str_entry (insert_dictionarySound b h hc) (hk ▸ hlo) hvalid, hk, hprefix, hsuffix, str_insert_old c b h hc]

/-- The codes valid after `Insert` are those valid before it and the one it gives. -/
theorem codeValid_of_insert {e : Engine} {k c : Code} {b : Byte} (h : DictionarySound e)
    (hk : CodeValid k (insert c b e)) : CodeValid k e ∨ k.toNat = e.nextFree.toNat := by
  have hnext := insert_nextFree_toNat c b (dictionarySound_bounds h).2
  rw [CodeValid, hnext] at hk
  rw [CodeValid]
  omega

-- The dictionary as the list of its strings

/-- The strings of the valid entries: code 256 + i stands for the i-th. -/
def dictStrings (e : Engine) : List (List Byte) :=
  (List.range (e.nextFree.toNat - 256)).map fun i => str e (BitVec.ofNat 12 (256 + i))

@[simp] theorem dictStrings_length (e : Engine) : (dictStrings e).length = e.nextFree.toNat - 256 := by
  simp [dictStrings]

theorem dictStrings_getElem? {e : Engine} {k : Code} (hlo : 256 ≤ k.toNat) (hk : CodeValid k e) :
    (dictStrings e)[k.toNat - 256]? = some (str e k) := by
  have hin : k.toNat - 256 < e.nextFree.toNat - 256 := Nat.sub_lt_sub_right hlo hk
  have hcode : BitVec.ofNat 12 (256 + (k.toNat - 256)) = k := by
    rw [Nat.add_sub_cancel' hlo, BitVec.ofNat_toNat, BitVec.setWidth_eq]
  rw [dictStrings, List.getElem?_map, List.getElem?_range hin, Option.map_some, hcode]

theorem dictStrings_of_empty {e : Engine} (h : e.nextFree = 256) : dictStrings e = [] := by
  rw [dictStrings, h]
  rfl

/-- The `i`-th string belongs to a valid code. -/
theorem exists_code_of_index {e : Engine} {i : Nat} (h : DictionarySound e) (hi : i < e.nextFree.toNat - 256) :
    ∃ k : Code, k.toNat = 256 + i ∧ CodeValid k e := by
  have hmax := (dictionarySound_bounds h).2
  have hk : (BitVec.ofNat 12 (256 + i)).toNat = 256 + i := by rw [BitVec.toNat_ofNat]; omega
  exact ⟨_, hk, by rw [CodeValid, hk]; omega⟩

theorem mem_dictStrings {e : Engine} {w : List Byte} (h : DictionarySound e) :
    w ∈ dictStrings e ↔ ∃ k, 256 ≤ k.toNat ∧ CodeValid k e ∧ str e k = w := by
  constructor
  · intro hw
    obtain ⟨i, hi⟩ := List.mem_iff_getElem?.1 hw
    have hlt : i < e.nextFree.toNat - 256 := by
      rw [← dictStrings_length]
      exact (List.getElem?_eq_some_iff.1 hi).1
    obtain ⟨k, hk, hvalid⟩ := exists_code_of_index h hlt
    have hstr := dictStrings_getElem? (k := k) (by omega) hvalid
    rw [hk, Nat.add_sub_cancel_left, hi] at hstr
    exact ⟨k, by omega, hvalid, (Option.some.inj hstr).symm⟩
  · rintro ⟨k, hlo, hk, rfl⟩
    exact List.mem_iff_getElem?.2 ⟨_, dictStrings_getElem? hlo hk⟩

theorem dictStrings_congr {e e1 : Engine} (h : SameDict e e1) (hs : DictionarySound e) :
    dictStrings e1 = dictStrings e := by
  rw [dictStrings, dictStrings, h.nextFree]
  refine List.map_congr_left fun i hi => ?_
  obtain ⟨k, hk, hvalid⟩ := exists_code_of_index hs (List.mem_range.1 hi)
  rw [← hk, BitVec.ofNat_toNat, BitVec.setWidth_eq]
  exact h.str hs hvalid

/-- `Insert` grows the list of strings by one, unless the dictionary is full (R113). -/
theorem dictStrings_insert {e : Engine} {c : Code} (s : List Byte) (h : DictionarySound e) (hc : CodeValid c e) :
    dictStrings (insert c (s.headD 0) e) = lzwGrow (dictStrings e) (str e c) s := by
  obtain ⟨hlo, hmax⟩ := dictionarySound_bounds h
  have hnext := insert_nextFree_toNat c (s.headD 0) hmax
  have hold : (List.range (e.nextFree.toNat - 256)).map
      (fun i => str (insert c (s.headD 0) e) (BitVec.ofNat 12 (256 + i))) = dictStrings e := by
    refine List.map_congr_left fun i hi => ?_
    obtain ⟨k, hk, hvalid⟩ := exists_code_of_index h (List.mem_range.1 hi)
    rw [← hk, BitVec.ofNat_toNat, BitVec.setWidth_eq]
    exact str_insert_old c _ h hvalid
  rw [lzwGrow, dictStrings_length, dictStrings.eq_1 (insert c _ e), hnext]
  by_cases hroom : e.nextFree.toNat < 4096
  · have hone : min (e.nextFree.toNat + 1) 4096 - 256 = e.nextFree.toNat - 256 + 1 := by omega
    have hnew : (BitVec.ofNat 12 (256 + (e.nextFree.toNat - 256))).toNat = e.nextFree.toNat := by
      rw [BitVec.toNat_ofNat]; omega
    rw [if_pos (by simp only [Config.dictEntries]; omega), hone, List.range_succ, List.map_append, List.map_singleton,
      str_insert_new _ h hc hnew, hold]
  · have hsame : min (e.nextFree.toNat + 1) 4096 - 256 = e.nextFree.toNat - 256 := by omega
    rw [if_neg (by simp only [Config.dictEntries]; omega), hsame, hold]

end Sys2Proof.Machine
end

section
/-! The LZW payload format on lists (R110, R115 to R124): the greedy code sequence of a block, which LZW.D's reading of
it gives back (R125), and the bytes of a payload, which give its codes back. -/

namespace Sys2Proof.Machine

-- The dictionary's strings

/-- What a list of dictionary strings satisfies while a block is compressed or expanded (R32, R110). -/
structure DictFormed (dict : List (List Byte)) : Prop where
  strings : ∀ w ∈ dict, 2 ≤ w.length
  capacity : dict.length ≤ 3840

theorem dictFormed_nil : DictFormed [] := ⟨nofun, Nat.zero_le _⟩

theorem lzwGrow_length (prev cur : List Byte) {dict : List (List Byte)} (h : dict.length ≤ 3840) :
    (lzwGrow dict prev cur).length = min (dict.length + 1) 3840 := by
  rw [lzwGrow]
  split
  next hroom =>
    simp only [Config.dictEntries] at hroom
    rw [List.length_append, List.length_singleton]
    omega
  next hfull =>
    simp only [Config.dictEntries] at hfull
    omega

/-- The new string is known by the first byte of the one after it (R120). -/
theorem lzwGrow_congr (dict : List (List Byte)) (prev : List Byte) {cur cur1 : List Byte}
    (h : cur.headD 0 = cur1.headD 0) : lzwGrow dict prev cur = lzwGrow dict prev cur1 := by
  rw [lzwGrow, lzwGrow, h]

theorem mem_lzwGrow {dict : List (List Byte)} {prev cur w : List Byte} (h : w ∈ lzwGrow dict prev cur) :
    w ∈ dict ∨ w = prev ++ [cur.headD 0] := by
  rw [lzwGrow] at h
  split at h
  next => exact (List.mem_append.1 h).imp_right List.mem_singleton.1
  next => exact .inl h

theorem DictFormed.grow {dict : List (List Byte)} {prev : List Byte} (h : DictFormed dict) (hprev : prev ≠ [])
    (cur : List Byte) : DictFormed (lzwGrow dict prev cur) where
  strings w hw := by
    rcases mem_lzwGrow hw with hold | rfl
    · exact h.strings w hold
    · have := List.length_pos_of_ne_nil hprev
      rw [List.length_append, List.length_singleton]
      omega
  capacity := by rw [lzwGrow_length prev cur h.capacity]; exact Nat.min_le_right _ _

/-- A string that has a code: a single byte, or one of the dictionary's (R110). -/
def Coded (dict : List (List Byte)) (w : List Byte) : Prop := (∃ b, w = [b]) ∨ w ∈ dict

theorem coded_singleton (dict : List (List Byte)) (b : Byte) : Coded dict [b] := .inl ⟨b, rfl⟩

theorem Coded.ne_nil {dict : List (List Byte)} {w : List Byte} (h : DictFormed dict) (hw : Coded dict w) : w ≠ [] := by
  rcases hw with ⟨b, rfl⟩ | hmem
  · exact List.cons_ne_nil b []
  · exact List.ne_nil_of_length_pos (lt_of_lt_of_le Nat.two_pos (h.strings w hmem))

theorem lzwCodeFor_entry (dict : List (List Byte)) {w : List Byte} (h : 2 ≤ w.length) :
    lzwCodeFor dict w = BitVec.ofNat 12 (256 + dict.idxOf w) := by
  match w, h with
  | _ :: _ :: _, _ => rfl

theorem lzwCodeFor_entry_toNat {dict : List (List Byte)} {w : List Byte} (h : DictFormed dict) (hw : w ∈ dict) :
    (lzwCodeFor dict w).toNat = 256 + dict.idxOf w := by
  have hlt := List.idxOf_lt_length_iff.2 hw
  have hmax := h.capacity
  rw [lzwCodeFor_entry dict (h.strings w hw), BitVec.toNat_ofNat]
  omega

theorem lzwCodeFor_lt {dict : List (List Byte)} {w : List Byte} (h : DictFormed dict) (hw : Coded dict w) :
    (lzwCodeFor dict w).toNat < 256 + dict.length := by
  rcases hw with ⟨b, rfl⟩ | hmem
  · exact Nat.lt_add_right _ (byte_toCode_lt b)
  · have hlt := List.idxOf_lt_length_iff.2 hmem
    rw [lzwCodeFor_entry_toNat h hmem]
    omega

theorem byte_toCode_toByte (b : Byte) : ((b.setWidth 12 : Code).setWidth 8 : Byte) = b := by
  rw [BitVec.setWidth_setWidth_of_le _ (by decide), BitVec.setWidth_eq]

theorem lzwString_literal (dict : List (List Byte)) (prev : List Byte) {k : Code} (hk : k.toNat < 256) :
    lzwString dict prev k = some [k.setWidth 8] := if_pos hk

/-- The code of a string stands for the string, in a dictionary that lags behind by the entry the last emission made
(R120, R125). -/
theorem lzwString_lzwCodeFor {dict : List (List Byte)} {prev cur : List Byte} (h : DictFormed dict) (hprev : prev ≠ [])
    (hcur : Coded (lzwGrow dict prev cur) cur) :
    lzwString dict prev (lzwCodeFor (lzwGrow dict prev cur) cur) = some cur := by
  have hgrown := h.grow hprev cur
  rcases hcur with ⟨b, rfl⟩ | hmem
  · show lzwString dict prev (b.setWidth 12) = _
    rw [lzwString_literal dict prev (byte_toCode_lt b)]
    exact congrArg (some [·]) (byte_toCode_toByte b)
  · have hcode := lzwCodeFor_entry_toNat hgrown hmem
    have hget := List.getElem?_idxOf hmem
    have hlt := List.idxOf_lt_length_iff.2 hmem
    have hlo : 256 ≤ (lzwCodeFor (lzwGrow dict prev cur) cur).toNat := by omega
    have hindex : (lzwCodeFor (lzwGrow dict prev cur) cur).toNat - 256 = (lzwGrow dict prev cur).idxOf cur := by omega
    rw [lzwString, if_neg (BitVec.not_lt.2 hlo), hindex]
    rw [lzwGrow] at hlt hget ⊢
    split at hlt
    next hroom =>
      rw [if_pos hroom] at hget ⊢
      rw [List.length_append, List.length_singleton] at hlt
      split
      next hnew =>
        -- The entry that the expanding side has not made yet: `cur` begins with the first byte of `prev`.
        rw [hnew, List.getElem?_concat_length, Option.some.injEq] at hget
        obtain ⟨p, ps, rfl⟩ := List.exists_cons_of_ne_nil hprev
        have hfirst : cur.headD 0 = p := by rw [← hget]; rfl
        rw [hfirst] at hget
        rw [← hget]
        rfl
      next hold =>
        have hin : (dict ++ [prev ++ [cur.headD 0]]).idxOf cur < dict.length := by omega
        rw [← hget, List.getElem?_append_left hin]
    next hfull =>
      rw [if_neg hfull] at hget ⊢
      rw [if_neg (Nat.ne_of_lt hlt), hget]

-- The greedy code sequence (R116, R117)

theorem lzwGreedyFrom_extend {dict : List (List Byte)} {cur : List Byte} {c : Byte} (h : cur ++ [c] ∈ dict)
    (cs : List Byte) : lzwGreedyFrom dict cur (c :: cs) = lzwGreedyFrom dict (cur ++ [c]) cs := by
  rw [lzwGreedyFrom, if_pos h]

theorem lzwGreedyFrom_emit {dict : List (List Byte)} {cur : List Byte} {c : Byte} (h : cur ++ [c] ∉ dict)
    (cs : List Byte) : lzwGreedyFrom dict cur (c :: cs) =
      lzwCodeFor dict cur :: lzwGreedyFrom (lzwGrow dict cur [c]) [c] cs := by
  rw [lzwGreedyFrom, if_neg h]

theorem lzwGreedyFrom_length (dict : List (List Byte)) (cur cs : List Byte) :
    1 ≤ (lzwGreedyFrom dict cur cs).length ∧ (lzwGreedyFrom dict cur cs).length ≤ cs.length + 1 := by
  induction cs generalizing dict cur with
  | nil => exact ⟨le_rfl, le_rfl⟩
  | cons c cs ih =>
    rw [List.length_cons]
    by_cases h : cur ++ [c] ∈ dict
    · have := ih dict (cur ++ [c])
      rw [lzwGreedyFrom_extend h]
      omega
    · have := ih (lzwGrow dict cur [c]) [c]
      rw [lzwGreedyFrom_emit h, List.length_cons]
      omega

/-- Where no pair of adjacent bytes repeats, and the dictionary has none of those to come, every byte is a string of its
own (R117(b)). -/
theorem lzwGreedyFrom_length_of_nodup (dict : List (List Byte)) (b : Byte) (cs : List Byte)
    (hnodup : ((b :: cs).zip cs).Nodup) (hdict : ∀ w ∈ dict, ∀ p ∈ (b :: cs).zip cs, w ≠ [p.1, p.2]) :
    (lzwGreedyFrom dict [b] cs).length = cs.length + 1 := by
  induction cs generalizing dict b with
  | nil => rfl
  | cons c cs ih =>
    rw [List.zip_cons_cons] at hnodup hdict
    obtain ⟨hnew, hrest⟩ := List.nodup_cons.1 hnodup
    have hnot : [b] ++ [c] ∉ dict := fun hmem => hdict _ hmem (b, c) List.mem_cons_self rfl
    rw [lzwGreedyFrom_emit hnot, List.length_cons, List.length_cons, ih _ c hrest]
    intro w hw p hp
    rcases mem_lzwGrow hw with hold | rfl
    · exact hdict w hold p (List.mem_cons_of_mem _ hp)
    · intro heq
      have hpair : p = (b, c) := by
        simp only [List.headD_cons, List.cons_append, List.nil_append, List.cons.injEq, and_true] at heq
        exact Prod.ext heq.1.symm heq.2.symm
      exact hnew (hpair ▸ hp)

/-- The `n`-th code from here on is one the dictionary has at its emission (R117(c)). -/
theorem lzwGreedyFrom_code_lt {dict : List (List Byte)} {cur cs : List Byte} (h : DictFormed dict)
    (hcur : Coded dict cur) {n : Nat} {k : Code} (hk : (lzwGreedyFrom dict cur cs)[n]? = some k) :
    k.toNat < 256 + min (dict.length + n) 3840 := by
  have hmax := h.capacity
  induction cs generalizing dict cur n with
  | nil =>
    obtain ⟨rfl, rfl⟩ : n = 0 ∧ lzwCodeFor dict cur = k := by
      cases n with
      | zero => exact ⟨rfl, Option.some.inj hk⟩
      | succ n => cases hk
    have := lzwCodeFor_lt h hcur
    omega
  | cons c cs ih =>
    by_cases hmem : cur ++ [c] ∈ dict
    · rw [lzwGreedyFrom_extend hmem] at hk
      exact ih h (.inr hmem) hk hmax
    · rw [lzwGreedyFrom_emit hmem] at hk
      cases n with
      | zero =>
        have := lzwCodeFor_lt h hcur
        cases hk
        omega
      | succ n =>
        have hgrown := h.grow (hcur.ne_nil h) [c]
        have hlt := ih hgrown (coded_singleton _ c) hk hgrown.capacity
        rw [lzwGrow_length cur [c] hmax] at hlt
        omega

/-- The loop of `LZW.D` takes the codes of the loop of `LZW.C` back to the bytes: the expanding side's dictionary lags
by the entry the last emission made (R125). -/
theorem lzwExpandFrom_lzwGreedyFrom {dict : List (List Byte)} {prev cur cs : List Byte} (h : DictFormed dict)
    (hprev : prev ≠ []) (hcur : Coded (lzwGrow dict prev cur) cur) :
    lzwExpandFrom dict prev (lzwGreedyFrom (lzwGrow dict prev cur) cur cs) = some (cur ++ cs) := by
  have hgrown := h.grow hprev cur
  have hne := hcur.ne_nil hgrown
  induction cs generalizing dict prev cur with
  | nil =>
    rw [lzwGreedyFrom, lzwExpandFrom, lzwString_lzwCodeFor h hprev hcur]
    rfl
  | cons c cs ih =>
    by_cases hmem : cur ++ [c] ∈ lzwGrow dict prev cur
    · have hsame : lzwGrow dict prev cur = lzwGrow dict prev (cur ++ [c]) :=
        lzwGrow_congr dict prev (by cases cur with
          | nil => exact absurd rfl hne
          | cons _ _ => rfl)
      have hrest := ih h hprev (hsame ▸ .inr hmem) (hsame ▸ hgrown) (by simp)
      rw [lzwGreedyFrom_extend hmem, hsame, hrest, List.append_assoc, List.singleton_append]
    · have hrest := ih hgrown hne (coded_singleton _ c) (hgrown.grow hne [c]) (List.cons_ne_nil c [])
      rw [lzwGreedyFrom_emit hmem, lzwExpandFrom, lzwString_lzwCodeFor h hprev hcur]
      simp only [hrest, Option.map_some, List.singleton_append]

/-- The first code is a literal: the dictionary is empty (R117(c), R122). -/
theorem lzwExpand_lzwGreedyCodes {x : List Byte} (h : x ≠ []) : lzwExpand (lzwGreedyCodes x) = some x := by
  obtain ⟨b, bs, rfl⟩ := List.exists_cons_of_ne_nil h
  have hlit : (b.setWidth 12 : Code) < 256 := byte_toCode_lt b
  rw [lzwGreedyCodes]
  cases bs with
  | nil =>
    show lzwExpand [b.setWidth 12] = some [b]
    rw [lzwExpand, if_pos hlit, byte_toCode_toByte]
    rfl
  | cons c cs =>
    have hrest := lzwExpandFrom_lzwGreedyFrom (cs := cs) dictFormed_nil (List.cons_ne_nil b []) (coded_singleton _ c)
    rw [lzwGreedyFrom_emit List.not_mem_nil]
    show lzwExpand (b.setWidth 12 :: _) = _
    rw [lzwExpand, if_pos hlit, byte_toCode_toByte, hrest]
    rfl

-- The payload (R115)

theorem lzwStream_cons (k : Code) (ks : List Code) : lzwStream (k :: ks) = bitsOf .lsb k ++ lzwStream ks :=
  List.flatMap_cons

@[simp] theorem lzwStream_length (codes : List Code) : (lzwStream codes).length = 12 * codes.length := by
  induction codes with
  | nil => rfl
  | cons k ks ih =>
    rw [lzwStream_cons, List.length_append, bitsOf_length, ih, List.length_cons]
    omega

theorem lzwPayload_length (codes : List Code) : (lzwPayload codes).length = (3 * codes.length + 1) / 2 := by
  rw [lzwPayload, packBits_length, lzwStream_length]
  omega

/-- One literal code: its eight low bits, then four zero bits and the padding (R117(a)). -/
theorem lzwPayload_literal (b : Byte) : lzwPayload [b.setWidth 12] = [b, 0x00] := by
  have hbit : ∀ j, (lzwStream [b.setWidth 12]).getD j false = b.getLsbD j := by
    intro j
    rw [lzwStream_cons, lzwStream, List.flatMap_nil, List.append_nil, bitsOf, List.getD_eq_getElem?_getD]
    by_cases hj : j < 12
    · simp [hj]
    · rw [List.getElem?_eq_none (by simpa using hj), BitVec.getLsbD_of_ge b j (by omega)]
      rfl
  have hlow : packedByte .lsb (lzwStream [b.setWidth 12]) 0 = b := byte_ext_bitIndex .lsb fun j hj => by
    rw [getLsbD_packedByte .lsb _ _ hj, hbit, Nat.mul_zero, Nat.zero_add]
    rfl
  have hhigh : packedByte .lsb (lzwStream [b.setWidth 12]) 1 = 0x00 := byte_ext_bitIndex .lsb fun j hj => by
    rw [getLsbD_packedByte .lsb _ _ hj, hbit, BitVec.getLsbD_of_ge b _ (by omega)]
    exact BitVec.getLsbD_zero.symm
  rw [lzwPayload, packBits, lzwStream_length, List.length_singleton]
  show (List.range 2).map _ = _
  rw [List.range_succ, List.range_one, List.map_append, List.map_singleton, List.map_singleton, hlow, hhigh]
  rfl

@[simp] theorem lzwCodesOf_length (x : List Byte) : (lzwCodesOf x).length = 8 * x.length / 12 := by simp [lzwCodesOf]

theorem lzwCodesOf_getElem? {x : List Byte} {t : Nat} (h : t < 8 * x.length / 12) :
    (lzwCodesOf x)[t]? =
      some (BitVec.ofNat 12 (bitsValue .lsb (((streamBits .lsb x).drop (12 * t)).take 12))) := by
  rw [lzwCodesOf, List.getElem?_map, List.getElem?_range h, Option.map_some]

theorem lzwStream_drop (codes : List Code) (t : Nat) : (lzwStream codes).drop (12 * t) = lzwStream (codes.drop t) := by
  induction t generalizing codes with
  | zero => rfl
  | succ t ih =>
    cases codes with
    | nil => exact List.drop_nil
    | cons k ks =>
      have hfirst : (lzwStream (k :: ks)).drop 12 = lzwStream ks := List.drop_left' (bitsOf_length .lsb k)
      rw [List.drop_succ_cons, ← ih, Nat.mul_succ, Nat.add_comm, ← List.drop_drop, hfirst]

/-- The whole codes of a payload are the codes it was made of: the padding is less than a code (R115, R123). -/
theorem lzwCodesOf_lzwPayload (codes : List Code) : lzwCodesOf (lzwPayload codes) = codes := by
  have hwhole : 8 * (lzwPayload codes).length / 12 = codes.length := by rw [lzwPayload_length]; omega
  refine List.ext_getElem? fun t => ?_
  by_cases ht : t < codes.length
  · obtain ⟨n, _, hbits⟩ := packedStreamReadsBack .lsb (lzwStream codes)
    have hcode : (((streamBits .lsb (lzwPayload codes)).drop (12 * t)).take 12) = bitsOf .lsb codes[t] := by
      have hlen : (bitsOf .lsb codes[t]).length = 12 := bitsOf_length .lsb _
      rw [lzwPayload, hbits, List.drop_append_of_le_length (by rw [lzwStream_length]; omega), lzwStream_drop,
        List.drop_eq_getElem_cons ht, lzwStream_cons, List.append_assoc, List.take_left' hlen]
    rw [lzwCodesOf_getElem? (hwhole ▸ ht), hcode, bitsValue_bitsOf, BitVec.ofNat_toNat, BitVec.setWidth_eq,
      List.getElem?_eq_getElem ht]
  · rw [List.getElem?_eq_none (by rw [lzwCodesOf_length, hwhole]; omega), List.getElem?_eq_none (by omega)]

end Sys2Proof.Machine
end

section
/-! The bit writer where there is no room for the stream (R92, R94, R204(b)). -/

namespace Sys2Proof.Machine

theorem writeBitList_no_room {cap : Reg32} {s : List Bool} {e : Engine} (bits : List Bool) (h : WriterHolds s e)
    (hle : s.length / 8 ≤ cap.toNat) (hroom : cap.toNat < (s.length + bits.length) / 8) :
    ∃ e1, writeBitList cap bits e = .error (.allocationFailure, e1) := by
  induction bits generalizing s e with
  | nil => exact absurd hle (not_le.2 hroom)
  | cons b bits ih =>
    rw [List.length_cons] at hroom
    rw [writeBitList_cons]
    by_cases hbit : (s.length + 1) / 8 ≤ cap.toNat
    · obtain ⟨e1, hok, h1⟩ := wbit_writerHolds b h hbit
      have hlen : (s ++ [b]).length = s.length + 1 := List.length_append
      obtain ⟨e2, hrest⟩ := ih h1 (by omega) (by omega)
      exact ⟨e2, by rw [hok, eff_ok_bind, hrest]⟩
    · have hn := h.wN
      have hout := h.outLen
      rcases wbit_cases cap b e with ⟨h7, _⟩ | ⟨_, _, herr⟩ | ⟨_, hcap, _⟩
      · have hfew : s.length % 8 ≠ 7 := fun h8 => h7 (BitVec.eq_of_toNat_eq (hn.trans h8))
        omega
      · exact ⟨e, by rw [herr, eff_error_bind]⟩
      · exact absurd (BitVec.eq_of_toNat_eq (by omega)) hcap

theorem bsFlush_no_room {cap : Reg32} {s : List Bool} {e : Engine} (h : WriterHolds s e)
    (hle : s.length / 8 ≤ cap.toNat) (hroom : cap.toNat < (s.length + 7) / 8) :
    ∃ e1, bsFlush cap e = .error (.allocationFailure, e1) := by
  have hn := h.wN
  have hout := h.outLen
  rcases bsFlush_cases cap e with ⟨h0, _⟩ | ⟨_, _, herr⟩ | ⟨_, hcap, _⟩
  · have hwhole : s.length % 8 = 0 := by rw [← hn, h0]; rfl
    omega
  · exact ⟨e, herr⟩
  · exact absurd (BitVec.eq_of_toNat_eq (by omega)) hcap

theorem bsWrite_writerHolds {cap : Reg32} {s : List Bool} {e : Engine} {w : Nat} (v : BitVec w) (h : WriterHolds s e)
    (hroom : (s.length + w) / 8 ≤ cap.toNat) :
    ∃ e1, bsWrite cap v e = .ok e1 ∧ WriterHolds (s ++ bitsOf e.wOrder v) e1 ∧ DiffersInWriter e e1 := by
  obtain ⟨e1, hok, h1⟩ := writeBitList_writerHolds (bitsOf e.wOrder v) h (by rwa [bitsOf_length])
  have hframe := bsWrite_keeps (wbit_keeps_of_insensitive (cap := cap) differsInWriter_update) v e
    (differsInWriter_refl e)
  rw [bsWrite, hok] at hframe
  exact ⟨e1, hok, h1, hframe⟩

theorem bsWrite_no_room {cap : Reg32} {s : List Bool} {e : Engine} {w : Nat} (v : BitVec w) (h : WriterHolds s e)
    (hle : s.length / 8 ≤ cap.toNat) (hroom : cap.toNat < (s.length + w) / 8) :
    ∃ e1, bsWrite cap v e = .error (.allocationFailure, e1) :=
  writeBitList_no_room _ h hle (by rwa [bitsOf_length])

/-- The output side holds `ys` and no other specified byte: `OutputIs` inside a command (R27). -/
def OutputHolds (ys : List Byte) (e : Engine) : Prop :=
  e.outLen.toNat = ys.length ∧ ∀ a, e.outBuf.read a = ys[a]?

/-- After the flush the output is the payload of the stream (R94, R97). -/
theorem bsFlush_outputHolds {cap : Reg32} {s : List Bool} {e : Engine} (h : WriterHolds s e)
    (hroom : (s.length + 7) / 8 ≤ cap.toNat) :
    ∃ e1, bsFlush cap e = .ok e1 ∧ OutputHolds (packBits e.wOrder s) e1 ∧ DiffersInWriter e e1 := by
  obtain ⟨e1, hok, hlen, hbuf, _⟩ := bsFlush_writerHolds h hroom
  have hframe := bsFlush_keeps_of_insensitive (cap := cap) differsInWriter_update e (differsInWriter_refl e)
  rw [hok] at hframe
  have horder : e1.wOrder = e.wOrder := by
    obtain ⟨_, _, _, _, rfl⟩ := hframe
    rfl
  exact ⟨e1, hok, ⟨hlen.trans (packBits_length _ s).symm,
    fun a => (hbuf a).trans (by rw [horder, packBits_getElem?])⟩, hframe⟩

end Sys2Proof.Machine
end

section
/-! `LZW.C` (R116 to R118): while its loop runs, the engine's dictionary is the list of strings that the greedy code
sequence grows; what a run leaves in the dictionary; the outcome with and without room for the payload. -/

namespace Sys2Proof.Machine

-- Distinct strings: a string has one code (R33(b))

/-- No two valid codes stand for the same string. -/
def StringsDistinct (e : Engine) : Prop := ∀ j k, CodeValid j e → CodeValid k e → str e j = str e k → j = k

theorem stringsDistinct_of_empty {e : Engine} (h : e.nextFree = 256) : StringsDistinct e := by
  intro j k hj hk heq
  rw [CodeValid, h] at hj hk
  have hj' : j.toNat < 256 := hj
  have hk' : k.toNat < 256 := hk
  rw [str_literal e hj', str_literal e hk'] at heq
  have hbyte : j.setWidth 8 = k.setWidth 8 := List.head_eq_of_cons_eq heq
  bv_omega

theorem SameDict.stringsDistinct {e e1 : Engine} (h : SameDict e e1) (hs : DictionarySound e)
    (hd : StringsDistinct e) : StringsDistinct e1 := by
  intro j k hj hk heq
  rw [CodeValid, h.nextFree] at hj hk
  exact hd j k hj hk (by rwa [h.str hs hj, h.str hs hk] at heq)

/-- A valid code's string of two bytes or more is one of the dictionary's. -/
theorem mem_dictStrings_of_str {e : Engine} {k : Code} {w : List Byte} (h : DictionarySound e) (hk : CodeValid k e)
    (hstr : str e k = w) (hw : 2 ≤ w.length) : w ∈ dictStrings e := by
  refine (mem_dictStrings h).2 ⟨k, not_lt.1 fun hlit => ?_, hk, hstr⟩
  rw [← hstr, str_literal e hlit, List.length_singleton] at hw
  omega

theorem two_le_length_extended {e : Engine} {k : Code} (h : DictionarySound e) (hk : CodeValid k e) (c : Byte) :
    2 ≤ (str e k ++ [c]).length := by
  have := (str_length_bounds h hk).1
  rw [List.length_append, List.length_singleton]
  omega

/-- A new string keeps the strings distinct (R112, R113). -/
theorem stringsDistinct_insert {e : Engine} {c : Code} {b : Byte} (h : DictionarySound e) (hc : CodeValid c e)
    (hd : StringsDistinct e) (hnew : str e c ++ [b] ∉ dictStrings e) : StringsDistinct (insert c b e) := by
  have hother : ∀ j k : Code, CodeValid j e → k.toNat = e.nextFree.toNat →
      str (insert c b e) j ≠ str (insert c b e) k := by
    intro j k hj hk heq
    rw [str_insert_old c b h hj, str_insert_new b h hc hk] at heq
    exact hnew (mem_dictStrings_of_str h hj heq (two_le_length_extended h hc b))
  intro j k hj hk heq
  rcases codeValid_of_insert h hj with hj | hj <;> rcases codeValid_of_insert h hk with hk | hk
  · rw [str_insert_old c b h hj, str_insert_old c b h hk] at heq
    exact hd j k hj hk heq
  · exact absurd heq (hother j k hj hk)
  · exact absurd heq.symm (hother k j hk hj)
  · exact BitVec.eq_of_toNat_eq (hj.trans hk.symm)

/-- What `Lookup` finds stands for the longer string (R112). -/
theorem str_lookup {e : Engine} {k j : Code} {c : Byte} (h : DictionarySound e) (hfound : lookup k c e = some j) :
    CodeValid j e ∧ str e j = str e k ++ [c] := by
  obtain ⟨hlo, hj, hprefix, hsuffix⟩ := lookup_eq_some hfound (dictionarySound_bounds h).2
  exact ⟨hj, by rw [str_entry h hlo hj, hprefix, hsuffix]⟩

theorem mem_dictStrings_of_lookup {e : Engine} {k j : Code} {c : Byte} (h : DictionarySound e) (hk : CodeValid k e)
    (hfound : lookup k c e = some j) : str e k ++ [c] ∈ dictStrings e := by
  obtain ⟨hj, hstr⟩ := str_lookup h hfound
  exact mem_dictStrings_of_str h hj hstr (two_le_length_extended h hk c)

/-- Where `Lookup` finds nothing, the dictionary has no such string: its entry would be the one looked for, since
the current string has one code only. -/
theorem not_mem_dictStrings_of_lookup {e : Engine} {k : Code} {c : Byte} (h : DictionarySound e)
    (hd : StringsDistinct e) (hk : CodeValid k e) (hnone : lookup k c e = none) : str e k ++ [c] ∉ dictStrings e := by
  intro hmem
  obtain ⟨j, hlo, hj, hstr⟩ := (mem_dictStrings h).1 hmem
  rw [str_entry h hlo hj] at hstr
  obtain ⟨hprefix, hsuffix⟩ := List.append_inj' hstr (List.length_singleton.trans List.length_singleton.symm)
  exact lookup_eq_none hnone j.toNat hlo hj
    ⟨hd _ _ (prefix_codeValid h hlo hj) hk hprefix, List.head_eq_of_cons_eq hsuffix⟩

/-- In a dictionary with distinct strings, the code of a valid code's string is that code. -/
theorem lzwCodeFor_str {e : Engine} {k : Code} (h : DictionarySound e) (hd : StringsDistinct e) (hk : CodeValid k e) :
    lzwCodeFor (dictStrings e) (str e k) = k := by
  by_cases hlo : 256 ≤ k.toNat
  · have hmem : str e k ∈ dictStrings e := (mem_dictStrings h).2 ⟨k, hlo, hk, rfl⟩
    have hlt := List.idxOf_lt_length_iff.2 hmem
    have hget := List.getElem?_idxOf hmem
    rw [dictStrings_length] at hlt
    obtain ⟨j, hj, hvalid⟩ := exists_code_of_index h hlt
    have hstr := dictStrings_getElem? (k := j) (by omega) hvalid
    rw [hj, Nat.add_sub_cancel_left, hget] at hstr
    rw [lzwCodeFor_entry _ (two_le_str_length h hlo hk), ← hj, BitVec.ofNat_toNat, BitVec.setWidth_eq]
    exact hd j k hvalid hk (Option.some.inj hstr).symm
  · have hlit : k.toNat < 256 := not_le.1 hlo
    rw [str_literal e hlit]
    show (k.setWidth 8).setWidth 12 = k
    bv_omega

-- The dictionary a run leaves

/-- The second dictionary has the entries of the first, and perhaps more. -/
structure DictExtends (e e1 : Engine) : Prop where
  agrees : DictAgrees e e1
  le : e.nextFree.toNat ≤ e1.nextFree.toNat

theorem SameDict.dictExtends {e e1 : Engine} (h : SameDict e e1) : DictExtends e e1 :=
  ⟨h.dictAgrees, by rw [h.nextFree]⟩

theorem DictExtends.trans {e e1 e2 : Engine} (h : DictExtends e e1) (h1 : DictExtends e1 e2) : DictExtends e e2 where
  agrees j hlo hj := by
    obtain ⟨hp, hs⟩ := h.agrees j hlo hj
    obtain ⟨hp1, hs1⟩ := h1.agrees j hlo (lt_of_lt_of_le hj h.le)
    exact ⟨hp.trans hp1, hs.trans hs1⟩
  le := h.le.trans h1.le

theorem DictExtends.codeValid {e e1 : Engine} {k : Code} (h : DictExtends e e1) (hk : CodeValid k e) :
    CodeValid k e1 := lt_of_lt_of_le hk h.le

theorem DictExtends.str {e e1 : Engine} {k : Code} (h : DictExtends e e1) (hs : DictionarySound e)
    (hk : CodeValid k e) : str e1 k = str e k := (str_congr hs h.agrees hk).symm

theorem dictExtends_insert (c : Code) (b : Byte) {e : Engine} (h : DictionarySound e) :
    DictExtends e (insert c b e) := by
  obtain ⟨hlo, hmax⟩ := dictionarySound_bounds h
  exact ⟨dictAgrees_insert c b hlo, by rw [insert_nextFree_toNat c b hmax]; omega⟩

/-- Where the dictionary lacks the current string with the next byte, no string it has goes further than the current one
(R117(f)): it has every beginning of its strings. -/
theorem str_length_le_of_longest {e : Engine} {k k1 : Code} {c : Byte} {cs : List Byte} (h : DictionarySound e)
    (hk : CodeValid k e) (hk1 : CodeValid k1 e) (hnew : str e k ++ [c] ∉ dictStrings e)
    (hprefix : str e k1 <+: str e k ++ c :: cs) : (str e k1).length ≤ (str e k).length := by
  by_contra hlong
  have hnext : str e k ++ [c] <+: str e k ++ c :: cs := ⟨cs, by simp⟩
  have hbegins : str e k ++ [c] <+: str e k1 :=
    List.prefix_of_prefix_length_le hnext hprefix (by rw [List.length_append, List.length_singleton]; omega)
  obtain ⟨j, hj, hstr⟩ := exists_code_of_prefix h hk1 (by simp) hbegins
  exact hnew (mem_dictStrings_of_str h hj hstr (two_le_length_extended h hk c))

/-- What a run of the loop of `LZW.C` on the bytes `x`, from the engine `e`, has done with the dictionary when it has
emitted `ks` and ended in `e1` (R117). -/
structure LzwEncoded (e : Engine) (x : List Byte) (ks : List Code) (e1 : Engine) : Prop where
  sound : DictionarySound e1
  extend : DictExtends e e1
  nonempty : ks ≠ []
  valid : ∀ k ∈ ks, CodeValid k e1
  nextFree : e1.nextFree.toNat = min (e.nextFree.toNat + ks.length - 1) 4096
  strings : ks.flatMap (str e1) = str e e.code ++ x
  longest : ∀ n k k1, ks[n]? = some k → k1.toNat < min (e.nextFree.toNat + n) 4096 →
    str e1 k1 <+: (str e e.code ++ x).drop ((ks.take n).flatMap (str e1)).length →
    (str e1 k1).length ≤ (str e1 k).length
  entries : ∀ n k k1, e.nextFree.toNat + n < 4096 → ks[n]? = some k → ks[n + 1]? = some k1 →
    prefixAt e1 (e.nextFree.toNat + n) = k ∧ suffixAt e1 (e.nextFree.toNat + n) = first e1 k1

/-- The end of the block: the pending code goes out. -/
theorem lzwEncoded_last {e e1 : Engine} (h : DictionarySound e) (hcode : CodeValid e.code e) (hsame : SameDict e e1) :
    LzwEncoded e [] [e.code] e1 where
  sound := hsame.dictionarySound h
  extend := hsame.dictExtends
  nonempty := List.cons_ne_nil _ _
  valid k hk := by
    rw [List.mem_singleton.1 hk]
    exact hsame.codeValid hcode
  nextFree := by
    have := (dictionarySound_bounds h).2
    rw [hsame.nextFree, List.length_singleton]
    omega
  strings := by rw [List.flatMap_singleton, hsame.str h hcode, List.append_nil]
  longest n k k1 hk hk1 hprefix := by
    cases n with
    | zero =>
      cases hk
      rw [hsame.str h hcode]
      simpa using hprefix.length_le
    | succ n => cases hk
  entries n k k1 _ _ hk1 := by cases hk1

/-- The current string grows: nothing is emitted. -/
theorem LzwEncoded.found {e e1 e2 : Engine} {c : Byte} {cs : List Byte} {ks : List Code} (hsame : SameDict e e1)
    (hstr : str e1 e1.code = str e e.code ++ [c]) (h1 : LzwEncoded e1 cs ks e2) : LzwEncoded e (c :: cs) ks e2 := by
  have hrest : str e e.code ++ c :: cs = str e1 e1.code ++ cs := by rw [hstr, List.append_assoc, List.singleton_append]
  exact
    { sound := h1.sound
      extend := hsame.dictExtends.trans h1.extend
      nonempty := h1.nonempty
      valid := h1.valid
      nextFree := by rw [← hsame.nextFree]; exact h1.nextFree
      strings := by rw [hrest]; exact h1.strings
      longest := by rw [hrest, ← hsame.nextFree]; exact h1.longest
      entries := by rw [← hsame.nextFree]; exact h1.entries }

/-- The code `k` of the string that the bytes after an emission begin with: its first byte is the first of them. -/
theorem LzwEncoded.first_head {e e1 : Engine} {c : Byte} {cs : List Byte} {ks : List Code} {k : Code}
    (h : LzwEncoded e cs ks e1) (hstr : str e e.code = [c]) (hk : ks[0]? = some k) : first e1 k = c := by
  obtain ⟨k', ks', rfl⟩ := List.exists_cons_of_ne_nil h.nonempty
  cases hk
  have hstrings := h.strings
  obtain ⟨b, w, hw⟩ := List.exists_cons_of_ne_nil (str_ne_nil h.sound (h.valid k List.mem_cons_self))
  rw [List.flatMap_cons, hstr, hw] at hstrings
  rw [first, hw]
  exact List.head_eq_of_cons_eq hstrings

/-- The current code goes out, and the string with the next byte is inserted unless the dictionary is full. -/
theorem LzwEncoded.emit {e e1 e2 : Engine} {c : Byte} {cs : List Byte} {ks : List Code} (h : DictionarySound e)
    (hcode : CodeValid e.code e) (hnew : str e e.code ++ [c] ∉ dictStrings e)
    (hsame : SameDict (insert e.code c e) e1) (hstr : str e1 e1.code = [c]) (h1 : LzwEncoded e1 cs ks e2) :
    LzwEncoded e (c :: cs) (e.code :: ks) e2 := by
  have hmax := (dictionarySound_bounds h).2
  have hnext : e1.nextFree.toNat = min (e.nextFree.toNat + 1) 4096 := by
    rw [hsame.nextFree, insert_nextFree_toNat _ _ hmax]
  have hgrown : DictExtends (insert e.code c e) e2 := hsame.dictExtends.trans h1.extend
  have hextends : DictExtends e e2 := (dictExtends_insert e.code c h).trans hgrown
  have hfirst := hextends.str h hcode
  have hlength := List.length_pos_of_ne_nil h1.nonempty
  have hrest : str e e.code ++ c :: cs = str e2 e.code ++ (str e1 e1.code ++ cs) := by
    rw [hfirst, hstr, List.singleton_append]
  exact
    { sound := h1.sound
      extend := hextends
      nonempty := List.cons_ne_nil _ _
      valid := List.forall_mem_cons.2 ⟨hextends.codeValid hcode, h1.valid⟩
      nextFree := by
        rw [h1.nextFree, hnext, List.length_cons]
        omega
      strings := by rw [List.flatMap_cons, h1.strings, hrest]
      longest := by
        intro n k k1 hk hk1 hprefix
        cases n with
        | zero =>
          cases hk
          have hvalid : CodeValid k1 e := by rw [CodeValid]; omega
          rw [List.take_zero, List.flatMap_nil, List.length_nil, List.drop_zero, hextends.str h hvalid] at hprefix
          rw [hfirst, hextends.str h hvalid]
          exact str_length_le_of_longest h hcode hvalid hnew hprefix
        | succ n =>
          rw [List.take_succ_cons, List.flatMap_cons, List.length_append, hrest, List.drop_length_add_append] at hprefix
          exact h1.longest n k k1 hk (by omega) hprefix
      entries := by
        intro n k k1 hroom hk hk1
        cases n with
        | zero =>
          cases hk
          have hin : e.nextFree.toNat < (insert e.code c e).nextFree.toNat := by
            rw [insert_nextFree_toNat _ _ hmax]
            omega
          obtain ⟨hprefix, hsuffix⟩ := insert_entry_new e.code c hroom
          obtain ⟨hprefix2, hsuffix2⟩ := hgrown.agrees _ (dictionarySound_bounds h).1 hin
          exact ⟨hprefix2.symm.trans hprefix, (hsuffix2.symm.trans hsuffix).trans (h1.first_head hstr hk1).symm⟩
        | succ n =>
          have hindex : e.nextFree.toNat + (n + 1) = e1.nextFree.toNat + n := by omega
          rw [hindex]
          exact h1.entries n k k1 (by omega) hk hk1 }

-- The loop

/-- The loop invariant of `LZW.C`: the bits `s` have been written, and `CODE` is the one code of the current string. -/
structure EncoderHolds (s : List Bool) (e : Engine) : Prop where
  writer : WriterHolds s e
  order : e.wOrder = .lsb
  sound : DictionarySound e
  distinct : StringsDistinct e
  code : CodeValid e.code e

/-- The codes that the loop emits on the bytes `x` from the engine `e` on. -/
def restCodes (e : Engine) (x : List Byte) : List Code := lzwGreedyFrom (dictStrings e) (str e e.code) x

theorem writerHolds_insert {s : List Bool} {e : Engine} (k : Code) (c : Byte) (code : Code) (h : WriterHolds s e) :
    WriterHolds s { insert k c e with code := code } := by
  obtain ⟨_, _, _, heq⟩ := insert_eq k c e
  rw [heq]
  exact ⟨h.outLen, h.wN, h.wAcc, h.outBuf⟩

theorem DiffersInWriter.sameDict {e e1 : Engine} (h : DiffersInWriter e e1) : SameDict e e1 := by
  obtain ⟨_, _, _, _, rfl⟩ := h
  exact ⟨rfl, rfl, rfl⟩

theorem DiffersInWriter.wOrder {e e1 : Engine} (h : DiffersInWriter e e1) : e1.wOrder = e.wOrder := by
  obtain ⟨_, _, _, _, rfl⟩ := h
  rfl

theorem EncoderHolds.consume {s : List Bool} {e : Engine} (h : EncoderHolds s e) : EncoderHolds s (consume e) where
  writer := ⟨h.writer.outLen, h.writer.wN, h.writer.wAcc, h.writer.outBuf⟩
  order := h.order
  sound := h.sound
  distinct := SameDict.stringsDistinct (e := e) ⟨rfl, rfl, rfl⟩ h.sound h.distinct
  code := h.code

theorem restCodes_consume {s : List Bool} {e : Engine} (h : EncoderHolds s e) (x : List Byte) :
    restCodes (consume e) x = restCodes e x := by
  have hsame : SameDict e (consume e) := ⟨rfl, rfl, rfl⟩
  have hstr : str (consume e) (consume e).code = str e e.code := hsame.str h.sound h.code
  rw [restCodes, restCodes, dictStrings_congr hsame h.sound, hstr]

/-- Consuming a byte does not concern the dictionary. -/
theorem LzwEncoded.of_consume {e e1 : Engine} {x : List Byte} {ks : List Code} (h : DictionarySound e)
    (hcode : CodeValid e.code e) (h1 : LzwEncoded (consume e) x ks e1) : LzwEncoded e x ks e1 := by
  have hsame : SameDict e (consume e) := ⟨rfl, rfl, rfl⟩
  have hstr : str (consume e) (consume e).code = str e e.code := hsame.str h hcode
  exact
    { sound := h1.sound
      extend := hsame.dictExtends.trans h1.extend
      nonempty := h1.nonempty
      valid := h1.valid
      nextFree := h1.nextFree
      strings := by rw [← hstr]; exact h1.strings
      longest := by rw [← hstr]; exact h1.longest
      entries := h1.entries }

theorem restCodes_nil {s : List Bool} {e : Engine} (h : EncoderHolds s e) : restCodes e [] = [e.code] := by
  rw [restCodes, lzwGreedyFrom, lzwCodeFor_str h.sound h.distinct h.code]

/-- `Lookup` finds the longer string: it is the current one now. -/
theorem EncoderHolds.found {s : List Bool} {e : Engine} {c : Byte} {j : Code} (h : EncoderHolds s e)
    (hfound : lookup e.code c e = some j) :
    EncoderHolds s { e with code := j } ∧ SameDict e { e with code := j } ∧
      str { e with code := j } j = str e e.code ++ [c] ∧
      ∀ cs, restCodes e (c :: cs) = restCodes { e with code := j } cs := by
  have hsame : SameDict e { e with code := j } := ⟨rfl, rfl, rfl⟩
  obtain ⟨hj, hstr⟩ := str_lookup h.sound hfound
  have hstr1 : str { e with code := j } j = str e e.code ++ [c] := (hsame.str h.sound hj).trans hstr
  refine ⟨⟨⟨h.writer.outLen, h.writer.wN, h.writer.wAcc, h.writer.outBuf⟩, h.order, h.sound,
    hsame.stringsDistinct h.sound h.distinct, hj⟩, hsame, hstr1, fun cs => ?_⟩
  rw [restCodes, restCodes, lzwGreedyFrom_extend (mem_dictStrings_of_lookup h.sound h.code hfound),
    dictStrings_congr hsame h.sound, hstr1]

/-- `Lookup` finds nothing: after the current code has gone out, the longer string is inserted and the byte starts the
next one. -/
theorem EncoderHolds.emit {s s1 : List Bool} {e e1 : Engine} {c : Byte} (h : EncoderHolds s e)
    (hnone : lookup e.code c e = none) (hframe : DiffersInWriter e e1) (hwriter : WriterHolds s1 e1) :
    EncoderHolds s1 { insert e.code c e1 with code := c.setWidth 12 } ∧
      SameDict (insert e.code c e) { insert e.code c e1 with code := c.setWidth 12 } ∧
      str { insert e.code c e1 with code := c.setWidth 12 } (c.setWidth 12) = [c] ∧
      ∀ cs, restCodes e (c :: cs) = e.code :: restCodes { insert e.code c e1 with code := c.setWidth 12 } cs := by
  have hnew := not_mem_dictStrings_of_lookup h.sound h.distinct h.code hnone
  have hsound := insert_dictionarySound c h.sound h.code
  have hsame1 := hframe.sameDict.insert e.code c
  have hsame : SameDict (insert e.code c e) { insert e.code c e1 with code := c.setWidth 12 } :=
    ⟨hsame1.nextFree, hsame1.dictPrefix, hsame1.dictSuffix⟩
  have hsound1 := hsame.dictionarySound hsound
  have hstr : str { insert e.code c e1 with code := c.setWidth 12 } (c.setWidth 12) = [c] := by
    rw [str_literal _ (byte_toCode_lt c), byte_toCode_toByte]
  have horder : (insert e.code c e1).wOrder = .lsb := by rw [insert_wOrder, hframe.wOrder, h.order]
  refine ⟨⟨writerHolds_insert _ _ _ hwriter, horder, hsound1,
    hsame.stringsDistinct hsound (stringsDistinct_insert h.sound h.code h.distinct hnew),
    codeValid_of_literal hsound1 (byte_toCode_lt c)⟩, hsame, hstr, fun cs => ?_⟩
  rw [restCodes, restCodes, lzwGreedyFrom_emit hnew, lzwCodeFor_str h.sound h.distinct h.code,
    dictStrings_congr hsame hsound, ← dictStrings_insert [c] h.sound h.code]
  show _ = e.code :: lzwGreedyFrom _ (str { insert e.code c e1 with code := c.setWidth 12 } (c.setWidth 12)) cs
  rw [hstr]
  rfl

theorem lzwCompressLoop_nil (cap : Reg32) (e : Engine) :
    lzwCompressLoop cap [] e = (bsWrite cap e.code e >>= bsFlush cap) := rfl

theorem lzwCompressLoop_cons (cap : Reg32) (c : Byte) (cs : List Byte) (e : Engine) :
    lzwCompressLoop cap (c :: cs) e = (lzwEncodeByte cap c (consume e) >>= lzwCompressLoop cap cs) := rfl

/-- Everything one byte can do to the loop: the current string grows; or its code goes out, where there is room for
it. -/
theorem lzwEncodeByte_encoderHolds {cap : Reg32} {s : List Bool} {e : Engine} (c : Byte) (h : EncoderHolds s e) :
    (∃ e1, lzwEncodeByte cap c e = .ok e1 ∧ EncoderHolds s e1 ∧
      (∀ cs, restCodes e (c :: cs) = restCodes e1 cs) ∧
      ∀ cs ks e2, LzwEncoded e1 cs ks e2 → LzwEncoded e (c :: cs) ks e2) ∨
    (∃ e1, lzwEncodeByte cap c e = .ok e1 ∧ EncoderHolds (s ++ bitsOf .lsb e.code) e1 ∧
      (s.length + 12) / 8 ≤ cap.toNat ∧
      (∀ cs, restCodes e (c :: cs) = e.code :: restCodes e1 cs) ∧
      ∀ cs ks e2, LzwEncoded e1 cs ks e2 → LzwEncoded e (c :: cs) (e.code :: ks) e2) ∨
    (cap.toNat < (s.length + 12) / 8 ∧
      (s.length / 8 ≤ cap.toNat → ∃ e1, lzwEncodeByte cap c e = .error (.allocationFailure, e1))) := by
  rcases lzwEncodeByte_cases cap c e with ⟨j, hfound, heq⟩ | ⟨hnone, heq⟩
  · obtain ⟨h1, hsame, hstr, hcodes⟩ := h.found hfound
    exact .inl ⟨_, heq, h1, hcodes, fun _ _ _ hdone => hdone.found hsame hstr⟩
  · by_cases hroom : (s.length + 12) / 8 ≤ cap.toNat
    · obtain ⟨e1, hwrite, hw1, hframe⟩ := bsWrite_writerHolds (cap := cap) e.code h.writer hroom
      obtain ⟨h1, hsame, hstr, hcodes⟩ := h.emit hnone hframe hw1
      have hnew := not_mem_dictStrings_of_lookup h.sound h.distinct h.code hnone
      rw [h.order] at h1
      exact .inr (.inl ⟨_, by rw [heq, hwrite, eff_ok_bind], h1, hroom, hcodes,
        fun _ _ _ hdone => hdone.emit h.sound h.code hnew hsame hstr⟩)
    · refine .inr (.inr ⟨not_le.1 hroom, fun hle => ?_⟩)
      obtain ⟨e1, hwrite⟩ := bsWrite_no_room e.code h.writer hle (not_le.1 hroom)
      exact ⟨e1, by rw [heq, hwrite, eff_error_bind]⟩

theorem restCodes_length_pos (e : Engine) (x : List Byte) : 1 ≤ (restCodes e x).length :=
  (lzwGreedyFrom_length _ _ x).1

/-- With room for the rest of the payload the loop completes it. -/
theorem lzwCompressLoop_completes {cap : Reg32} {s : List Bool} {e : Engine} (x : List Byte) (h : EncoderHolds s e)
    (hroom : (s.length + 12 * (restCodes e x).length + 7) / 8 ≤ cap.toNat) :
    ∃ e1, lzwCompressLoop cap x e = .ok e1 ∧ OutputHolds (packBits .lsb (s ++ lzwStream (restCodes e x))) e1 ∧
      LzwEncoded e x (restCodes e x) e1 := by
  induction x generalizing s e with
  | nil =>
    rw [restCodes_nil h] at hroom ⊢
    rw [List.length_singleton] at hroom
    obtain ⟨e1, hwrite, h1, hframe1⟩ := bsWrite_writerHolds (cap := cap) e.code h.writer (by omega)
    obtain ⟨e2, hflush, hout, hframe2⟩ := bsFlush_outputHolds (cap := cap) h1
      (by rw [List.length_append, bitsOf_length]; omega)
    refine ⟨e2, by rw [lzwCompressLoop_nil, hwrite, eff_ok_bind, hflush], ?_,
      lzwEncoded_last h.sound h.code (hframe1.sameDict.trans hframe2.sameDict)⟩
    rw [hframe1.wOrder, h.order] at hout
    rwa [lzwStream, List.flatMap_singleton]
  | cons c cs ih =>
    have hpos := restCodes_length_pos e (c :: cs)
    rw [← restCodes_consume h] at hroom hpos ⊢
    suffices hrun : ∃ e1, lzwCompressLoop cap (c :: cs) e = .ok e1 ∧
        OutputHolds (packBits .lsb (s ++ lzwStream (restCodes (consume e) (c :: cs)))) e1 ∧
        LzwEncoded (consume e) (c :: cs) (restCodes (consume e) (c :: cs)) e1 from
      hrun.imp fun _ ⟨hok, hout, hdone⟩ => ⟨hok, hout, hdone.of_consume h.sound h.code⟩
    rw [lzwCompressLoop_cons]
    rcases lzwEncodeByte_encoderHolds (cap := cap) c h.consume with
      ⟨e1, heq, h1, hcodes, hsteps⟩ | ⟨e1, heq, h1, _, hcodes, hsteps⟩ | ⟨hfull, _⟩
    · rw [hcodes] at hroom ⊢
      obtain ⟨e2, hrun, hout, hdone⟩ := ih h1 hroom
      exact ⟨e2, by rw [heq, eff_ok_bind, hrun], hout, hsteps _ _ _ hdone⟩
    · rw [hcodes] at hroom ⊢
      rw [List.length_cons] at hroom
      obtain ⟨e2, hrun, hout, hdone⟩ := ih h1 (by rw [List.length_append, bitsOf_length]; omega)
      refine ⟨e2, by rw [heq, eff_ok_bind, hrun], ?_, hsteps _ _ _ hdone⟩
      rwa [lzwStream_cons, ← List.append_assoc]
    · omega

/-- Without room for the rest of the payload the loop ends with `AllocationFailure` (R204(b)). -/
theorem lzwCompressLoop_no_room {cap : Reg32} {s : List Bool} {e : Engine} (x : List Byte) (h : EncoderHolds s e)
    (hle : s.length / 8 ≤ cap.toNat) (hroom : cap.toNat < (s.length + 12 * (restCodes e x).length + 7) / 8) :
    ∃ e1, lzwCompressLoop cap x e = .error (.allocationFailure, e1) := by
  induction x generalizing s e with
  | nil =>
    rw [restCodes_nil h, List.length_singleton] at hroom
    rw [lzwCompressLoop_nil]
    by_cases hcode : (s.length + 12) / 8 ≤ cap.toNat
    · obtain ⟨e1, hwrite, h1, _⟩ := bsWrite_writerHolds (cap := cap) e.code h.writer hcode
      obtain ⟨e2, hflush⟩ := bsFlush_no_room (cap := cap) h1 (by rw [List.length_append, bitsOf_length]; omega)
        (by rw [List.length_append, bitsOf_length]; omega)
      exact ⟨e2, by rw [hwrite, eff_ok_bind, hflush]⟩
    · obtain ⟨e1, hwrite⟩ := bsWrite_no_room e.code h.writer hle (not_le.1 hcode)
      exact ⟨e1, by rw [hwrite, eff_error_bind]⟩
  | cons c cs ih =>
    rw [← restCodes_consume h] at hroom
    rw [lzwCompressLoop_cons]
    rcases lzwEncodeByte_encoderHolds (cap := cap) c h.consume with
      ⟨e1, heq, h1, hcodes, _⟩ | ⟨e1, heq, h1, hcode, hcodes, _⟩ | ⟨_, hfull⟩
    · rw [hcodes] at hroom
      obtain ⟨e2, hrun⟩ := ih h1 hle hroom
      exact ⟨e2, by rw [heq, eff_ok_bind, hrun]⟩
    · rw [hcodes, List.length_cons] at hroom
      obtain ⟨e2, hrun⟩ := ih h1 (by rw [List.length_append, bitsOf_length]; omega)
        (by rw [List.length_append, bitsOf_length]; omega)
      exact ⟨e2, by rw [heq, eff_ok_bind, hrun]⟩
    · obtain ⟨e1, herr⟩ := hfull hle
      exact ⟨e1, by rw [herr, eff_error_bind]⟩

-- The body of `LZW.C`

/-- The engine with which the loop of `LZW.C` starts (R116). -/
def lzwCompressStart (b : Byte) (e : Engine) : Engine :=
  { consume (dictReset (bsInitWrite .lsb e)) with code := b.setWidth 12 }

theorem lzwCompress_cons (cap : Reg32) (b : Byte) (bs : List Byte) (e : Engine) :
    lzwCompress cap (b :: bs) e = lzwCompressLoop cap bs (lzwCompressStart b e) := rfl

theorem str_lzwCompressStart (b : Byte) (e : Engine) :
    str (lzwCompressStart b e) (lzwCompressStart b e).code = [b] := by
  show str (lzwCompressStart b e) (b.setWidth 12) = [b]
  rw [str_literal _ (byte_toCode_lt b), byte_toCode_toByte]

theorem encoderHolds_lzwCompressStart (b : Byte) {e : Engine} (hlen : e.outLen = 0) (hbuf : e.outBuf = []) :
    EncoderHolds [] (lzwCompressStart b e) where
  writer := writerHolds_nil rfl rfl hlen hbuf
  order := rfl
  sound := dictionarySound_of_nextFree rfl
  distinct := stringsDistinct_of_empty rfl
  code := byte_toCode_lt b

theorem restCodes_lzwCompressStart (b : Byte) (bs : List Byte) (e : Engine) :
    restCodes (lzwCompressStart b e) bs = lzwGreedyCodes (b :: bs) := by
  rw [restCodes, dictStrings_of_empty rfl, str_lzwCompressStart, lzwGreedyCodes]

/-- `LZW.C` with room for the payload (R115 to R118). -/
theorem lzwCompress_completes {cap : Reg32} (b : Byte) (bs : List Byte) {e : Engine} (hlen : e.outLen = 0)
    (hbuf : e.outBuf = []) (hroom : (lzwPayload (lzwGreedyCodes (b :: bs))).length ≤ cap.toNat) :
    ∃ e1, lzwCompress cap (b :: bs) e = .ok e1 ∧ OutputHolds (lzwPayload (lzwGreedyCodes (b :: bs))) e1 ∧
      LzwEncoded (lzwCompressStart b e) bs (lzwGreedyCodes (b :: bs)) e1 := by
  have hrun := lzwCompressLoop_completes (cap := cap) bs (encoderHolds_lzwCompressStart b hlen hbuf)
  rw [restCodes_lzwCompressStart] at hrun
  rw [lzwCompress_cons]
  exact hrun (by rw [lzwPayload_length] at hroom; rw [List.length_nil]; omega)

/-- What `LZW.C` leaves in the dictionary, in the terms of R117(d) to (f). -/
theorem LzwEncoded.of_block {b : Byte} {bs : List Byte} {e e1 : Engine} {ks : List Code}
    (h : LzwEncoded (lzwCompressStart b e) bs ks e1) :
    e1.nextFree.toNat = min (256 + ks.length - 1) 4096 ∧ ks.flatMap (str e1) = b :: bs ∧
      (∀ n k k1, ks[n]? = some k → k1.toNat < 256 + min n 3840 →
        str e1 k1 <+: (b :: bs).drop ((ks.take n).flatMap (str e1)).length →
        (str e1 k1).length ≤ (str e1 k).length) ∧
      ∀ n k k1, n < 3840 → ks[n]? = some k → ks[n + 1]? = some k1 →
        prefixAt e1 (256 + n) = k ∧ suffixAt e1 (256 + n) = first e1 k1 := by
  have hnext : (lzwCompressStart b e).nextFree.toNat = 256 := rfl
  have hnextFree := h.nextFree
  have hstrings := h.strings
  have hlongest := h.longest
  have hentries := h.entries
  rw [str_lzwCompressStart, List.singleton_append] at hstrings hlongest
  rw [hnext] at hnextFree hlongest hentries
  exact ⟨hnextFree, hstrings, fun n k k1 hk hk1 => hlongest n k k1 hk (by omega),
    fun n k k1 hn => hentries n k k1 (by omega)⟩

/-- `LZW.C` without room for the payload (R204(b)). -/
theorem lzwCompress_no_room {cap : Reg32} (b : Byte) (bs : List Byte) {e : Engine} (hlen : e.outLen = 0)
    (hbuf : e.outBuf = []) (hroom : cap.toNat < (lzwPayload (lzwGreedyCodes (b :: bs))).length) :
    ∃ e1, lzwCompress cap (b :: bs) e = .error (.allocationFailure, e1) := by
  have hrun := lzwCompressLoop_no_room (cap := cap) bs (encoderHolds_lzwCompressStart b hlen hbuf)
  rw [restCodes_lzwCompressStart] at hrun
  rw [lzwCompress_cons]
  exact hrun (Nat.zero_le _) (by rw [lzwPayload_length] at hroom; rw [List.length_nil]; omega)

-- The command

/-- R117 as far as it does not depend on the room: the code sequence of a block. -/
theorem lzwGreedyCodes_laws (b : Byte) (bs : List Byte) :
    1 ≤ (lzwGreedyCodes (b :: bs)).length ∧ (lzwGreedyCodes (b :: bs)).length ≤ bs.length + 1 ∧
      (((b :: bs).zip bs).Nodup → (lzwGreedyCodes (b :: bs)).length = bs.length + 1) ∧
      ∀ n k, (lzwGreedyCodes (b :: bs))[n]? = some k → k.toNat < 256 + min n 3840 := by
  obtain ⟨hpos, hle⟩ := lzwGreedyFrom_length [] [b] bs
  refine ⟨hpos, hle, fun hnodup => lzwGreedyFrom_length_of_nodup [] b bs hnodup nofun, fun n k hk => ?_⟩
  have hlt := lzwGreedyFrom_code_lt dictFormed_nil (coded_singleton [] b) hk
  rwa [List.length_nil, Nat.zero_add] at hlt

/-- Settles O39: the laws of the greedy code sequence, and what the loop of `LZW.C` leaves. -/
theorem lzwCompressGreedyCodes : Obligations.LzwCompressGreedyCodes := by
  intro s hready hne
  obtain ⟨bs, hblock, hlength⟩ := inBlock_eq_cons hne
  intro codes
  have hcodes : codes = lzwGreedyCodes (inByte s 0 :: bs) := congrArg lzwGreedyCodes hblock
  obtain ⟨hpos, hle, hnodup, hlt⟩ := lzwGreedyCodes_laws (inByte s 0) bs
  have hexpand : lzwExpand codes = some (inBlock s) :=
    lzwExpand_lzwGreedyCodes (by rw [hblock]; exact List.cons_ne_nil _ _)
  refine ⟨⟨by rwa [hcodes], by rw [hcodes]; omega, lzwPayload_length codes, fun hone => ?_, fun hpairs => ?_,
    by rw [hcodes]; exact hlt, hexpand⟩, fun hroom => ?_, fun hroom => ?_⟩
  · have hnil : bs = [] := List.eq_nil_of_length_eq_zero (by rw [hone] at hlength; exact Nat.succ.inj hlength)
    rw [hcodes, hnil]
    exact lzwPayload_literal (inByte s 0)
  · rw [hblock] at hpairs
    rw [hcodes, hnodup hpairs, hlength]
  · rw [hcodes] at hroom
    obtain ⟨e1, hrun, hout, hdone⟩ := lzwCompress_completes (cap := s.caps.outCap) (inByte s 0) bs
      (engineStart_outLen s.eng) (engineStart_outBuf s.eng) hroom
    rw [← hblock] at hrun
    obtain ⟨t, hexec, hcompleted, hcmd, hhost, rfl⟩ :=
      runCommand_completes (w := encode .lzwC) (body := lzwCompress s.caps.outCap) hready hrun
    obtain ⟨hnext, hstrings, hlongest, hentries⟩ := hdone.of_block
    rw [← hcodes] at hout hnext hstrings hlongest hentries
    rw [← hblock] at hstrings hlongest
    exact ⟨t, hexec, hcompleted, hcmd, hhost, hout, hnext, hstrings, hlongest, hentries⟩
  · rw [hcodes] at hroom
    obtain ⟨e1, hrun⟩ := lzwCompress_no_room (cap := s.caps.outCap) (inByte s 0) bs
      (engineStart_outLen s.eng) (engineStart_outBuf s.eng) hroom
    rw [← hblock] at hrun
    obtain ⟨t, hexec, hfailed, hcmd, hhost, _⟩ :=
      runCommand_fails (w := encode .lzwC) (body := lzwCompress s.caps.outCap) hready hrun
    exact ⟨t, hexec, hfailed, hcmd, hhost⟩

end Sys2Proof.Machine
end

section
/-! `LZW.D` (R119 to R124), whatever takes the place of `OutByte`: its loop expands the codes of the payload as the
format does, until a code is invalid or the output is full. -/

namespace Sys2Proof.Machine

-- What takes the place of `OutByte` (R119, R191)

/-- What the loop of `LZW.D` needs besides the output side is the same. -/
structure SameDecoder (e e1 : Engine) : Prop where
  dict : SameDict e e1
  prev : e1.prev = e.prev
  rPos : e1.rPos = e.rPos
  rOrder : e1.rOrder = e.rOrder

theorem SameDecoder.refl (e : Engine) : SameDecoder e e := ⟨.refl e, rfl, rfl, rfl⟩

theorem SameDecoder.trans {e e1 e2 : Engine} (h : SameDecoder e e1) (h1 : SameDecoder e1 e2) : SameDecoder e e2 :=
  ⟨h.dict.trans h1.dict, h1.prev.trans h.prev, h1.rPos.trans h.rPos, h1.rOrder.trans h.rOrder⟩

/-- `emit` takes bytes until `cap` of them are out, `W zs e` saying that `zs` are the bytes it has taken; it leaves the
decoder alone, and the decoder does not touch what `W` speaks of. -/
structure Emitter (cap : Reg32) (emit : Byte → Engine → Eff Engine) (W : List Byte → Engine → Prop) : Prop where
  room : ∀ zs b e, W zs e → zs.length < cap.toNat → ∃ e1, emit b e = .ok e1 ∧ W (zs ++ [b]) e1 ∧ SameDecoder e e1
  full : ∀ zs b e, W zs e → zs.length = cap.toNat → ∃ e1, emit b e = .error (.allocationFailure, e1)
  congr : ∀ zs e e1, W zs e → e1.outLen = e.outLen → e1.outBuf = e.outBuf → e1.pPrev = e.pPrev → W zs e1

theorem outputHolds_nil {e : Engine} (hlen : e.outLen = 0) (hbuf : e.outBuf = []) : OutputHolds [] e :=
  ⟨by rw [hlen]; rfl, fun a => by rw [hbuf]; rfl⟩

/-- `OutByte` appends to the output (R54). -/
theorem emitter_outByte (cap : Reg32) : Emitter cap (outByte cap) OutputHolds where
  room zs b e h hroom := by
    obtain ⟨hlen, hbuf⟩ := h
    rcases outByte_cases cap b e with ⟨hcap, _⟩ | ⟨_, hok⟩
    · rw [hcap] at hlen
      omega
    · refine ⟨_, hok, ⟨?_, fun a => ?_⟩, ⟨⟨rfl, rfl, rfl⟩, rfl, rfl, rfl⟩⟩
      · have hlt := cap.isLt
        show (e.outLen + 1).toNat = _
        rw [List.length_append, List.length_singleton]
        bv_omega
      · show (e.outBuf.write e.outLen.toNat b).read a = _
        rw [hlen]
        by_cases ha : a = zs.length
        · rw [ha, memory_read_write_same, List.getElem?_concat_length]
        · rw [memory_read_write_other _ _ _ _ ha, hbuf]
          rcases Nat.lt_or_gt_of_ne ha with hlt | hgt
          · rw [List.getElem?_append_left hlt]
          · rw [List.getElem?_eq_none hgt.le, List.getElem?_eq_none (by
              rw [List.length_append, List.length_singleton]; omega)]
  full zs b e h hfull := by
    obtain ⟨hlen, _⟩ := h
    rcases outByte_cases cap b e with ⟨_, herr⟩ | ⟨hcap, _⟩
    · exact ⟨e, herr⟩
    · exact absurd (BitVec.eq_of_toNat_eq (hlen.trans hfull)) hcap
  congr zs e e1 h hlen hbuf _ := by
    unfold OutputHolds at h ⊢
    rwa [hlen, hbuf]

theorem Emitter.emitAll_room {cap : Reg32} {emit : Byte → Engine → Eff Engine} {W : List Byte → Engine → Prop}
    (hemit : Emitter cap emit W) {zs : List Byte} (ys : List Byte) {e : Engine} (hW : W zs e)
    (hroom : zs.length + ys.length ≤ cap.toNat) :
    ∃ e1, emitAll emit ys e = .ok e1 ∧ W (zs ++ ys) e1 ∧ SameDecoder e e1 := by
  induction ys generalizing zs e with
  | nil => exact ⟨e, rfl, by rwa [List.append_nil], .refl e⟩
  | cons b ys ih =>
    rw [List.length_cons] at hroom
    obtain ⟨e1, hok, hW1, hsame1⟩ := hemit.room zs b e hW (by omega)
    obtain ⟨e2, hrest, hW2, hsame2⟩ := ih hW1 (by rw [List.length_append, List.length_singleton]; omega)
    exact ⟨e2, by rw [emitAll_cons, hok, eff_ok_bind, hrest], by rwa [List.append_cons], hsame1.trans hsame2⟩

theorem Emitter.emitAll_no_room {cap : Reg32} {emit : Byte → Engine → Eff Engine} {W : List Byte → Engine → Prop}
    (hemit : Emitter cap emit W) {zs : List Byte} (ys : List Byte) {e : Engine} (hW : W zs e)
    (hle : zs.length ≤ cap.toNat) (hroom : cap.toNat < zs.length + ys.length) :
    ∃ e1, emitAll emit ys e = .error (.allocationFailure, e1) := by
  induction ys generalizing zs e with
  | nil => exact absurd hle (not_le.2 hroom)
  | cons b ys ih =>
    rw [List.length_cons] at hroom
    rw [emitAll_cons]
    rcases Nat.eq_or_lt_of_le hle with hfull | hlt
    · obtain ⟨e1, herr⟩ := hemit.full zs b e hW hfull
      exact ⟨e1, by rw [herr, eff_error_bind]⟩
    · obtain ⟨e1, hok, hW1, _⟩ := hemit.room zs b e hW hlt
      have hlen : (zs ++ [b]).length = zs.length + 1 := List.length_append
      obtain ⟨e2, hrest⟩ := ih hW1 (by omega) (by omega)
      exact ⟨e2, by rw [hok, eff_ok_bind, hrest]⟩

-- One code

/-- The loop invariant of `LZW.D` on `x`: `t` codes have been read, `PREV` is the last of them. -/
structure DecoderHolds (t : Nat) (e : Engine) : Prop where
  order : e.rOrder = .lsb
  pos : e.rPos = 12 * t
  sound : DictionarySound e
  prev : CodeValid e.prev e

/-- The reader stands before code `t`. -/
def atCode (t : Nat) (e : Engine) : Engine := { e with rPos := 12 * t }

theorem bsRead_code {x : List Byte} {t : Nat} {e : Engine} {k : Code} (horder : e.rOrder = .lsb)
    (hpos : e.rPos = 12 * t) (hk : (lzwCodesOf x)[t]? = some k) :
    bsRead x 12 e = .ok (k, atCode (t + 1) e) := by
  have hlt : t < 8 * x.length / 12 := by
    rw [← lzwCodesOf_length]
    exact (List.getElem?_eq_some_iff.1 hk).1
  rw [lzwCodesOf_getElem? hlt, ← horder, ← hpos] at hk
  cases hk
  have hread := (readerReturnsStreamBits x 12 e (by omega)).1 (by omega)
  rw [hread, atCode, Nat.mul_succ, hpos]

/-- The string that `LZW.D` writes for a code that passes the range check (R120). -/
def decodedString (e : Engine) (k : Code) : List Byte :=
  if k.toNat < e.nextFree.toNat then str e k else str e e.prev ++ [first e e.prev]

theorem lzwDecodeCode_out_of_range (emit : Byte → Engine → Eff Engine) {e : Engine} {k : Code}
    (h : e.nextFree.toNat < k.toNat) : lzwDecodeCode emit k e = .error (.corruptStream, e) := by
  rw [lzwDecodeCode, if_pos h]
  rfl

theorem lzwDecodeCode_in_range (emit : Byte → Engine → Eff Engine) {e : Engine} {k : Code}
    (h : k.toNat ≤ e.nextFree.toNat) : lzwDecodeCode emit k e = (emitAll emit (decodedString e k) e >>= fun e1 =>
      .ok { insert e1.prev ((decodedString e k).headD 0) e1 with prev := k }) := by
  rw [lzwDecodeCode, if_neg (not_lt.2 h)]
  rfl

/-- The range check and the string of a code are those of the format (R114, R120, R121). -/
theorem lzwString_dictStrings {e : Engine} (h : DictionarySound e) (k : Code) :
    lzwString (dictStrings e) (str e e.prev) k =
      if k.toNat ≤ e.nextFree.toNat then some (decodedString e k) else none := by
  obtain ⟨hmin, hmax⟩ := dictionarySound_bounds h
  by_cases hlo : 256 ≤ k.toNat
  · rw [lzwString, if_neg (BitVec.not_lt.2 hlo), dictStrings_length, decodedString]
    rcases Nat.lt_trichotomy k.toNat e.nextFree.toNat with hlt | heq | hgt
    · rw [if_neg (by omega), dictStrings_getElem? hlo hlt, if_pos hlt.le, if_pos hlt]
    · rw [if_pos (by omega), if_pos heq.le, if_neg heq.not_lt]
      rfl
    · rw [if_neg (by omega), if_neg (by omega), List.getElem?_eq_none (by rw [dictStrings_length]; omega)]
  · have hlit : k.toNat < 256 := not_le.1 hlo
    have hvalid : k.toNat < e.nextFree.toNat := codeValid_of_literal h hlit
    rw [lzwString_literal _ _ hlit, if_pos hvalid.le, decodedString, if_pos hvalid, str_literal e hlit]

/-- Once its entry is there, the code stands for the string that was written for it (R120). -/
theorem str_insert_decodedString {e : Engine} {k : Code} (h : DictionarySound e) (hprev : CodeValid e.prev e)
    (hk : k.toNat ≤ e.nextFree.toNat) :
    str (insert e.prev ((decodedString e k).headD 0) e) k = decodedString e k := by
  by_cases hlt : k.toNat < e.nextFree.toNat
  · rw [str_insert_old _ _ h hlt, decodedString, if_pos hlt]
  · have heq : k.toNat = e.nextFree.toNat := hk.antisymm (not_lt.1 hlt)
    obtain ⟨b, w, hw⟩ := List.exists_cons_of_ne_nil (str_ne_nil h hprev)
    rw [str_insert_new _ h hprev heq, decodedString, if_neg hlt, first, hw]
    rfl

/-- What one code within the range does: the decoder and the dictionary's strings after it. -/
theorem DecoderHolds.step {t : Nat} {e e1 : Engine} {k : Code} (h : DecoderHolds t e) (hk : k.toNat ≤ e.nextFree.toNat)
    (hsame : SameDecoder e e1) :
    let e2 := { insert e1.prev ((decodedString e k).headD 0) e1 with prev := k }
    DecoderHolds t e2 ∧ dictStrings e2 = lzwGrow (dictStrings e) (str e e.prev) (decodedString e k) ∧
      str e2 e2.prev = decodedString e k ∧ e2.nextFree.toNat = min (e.nextFree.toNat + 1) 4096 := by
  intro e2
  have hmax := (dictionarySound_bounds h.sound).2
  have hsound := insert_dictionarySound ((decodedString e k).headD 0) h.sound h.prev
  have hsame1 := hsame.dict.insert e.prev ((decodedString e k).headD 0)
  rw [← hsame.prev] at hsame1
  have hsame2 : SameDict (insert e.prev ((decodedString e k).headD 0) e) e2 := by
    rw [← hsame.prev]
    exact ⟨hsame1.nextFree, hsame1.dictPrefix, hsame1.dictSuffix⟩
  have hvalid : CodeValid k (insert e.prev ((decodedString e k).headD 0) e) := codeValid_insert hk
  refine ⟨⟨?_, ?_, hsame2.dictionarySound hsound, hsame2.codeValid hvalid⟩, ?_, ?_, ?_⟩
  · exact (insert_rOrder _ _ e1).trans (hsame.rOrder.trans h.order)
  · obtain ⟨_, _, _, heq⟩ := insert_eq e1.prev ((decodedString e k).headD 0) e1
    show (insert _ _ e1).rPos = _
    rw [heq]
    exact hsame.rPos.trans h.pos
  · rw [dictStrings_congr hsame2 hsound, dictStrings_insert _ h.sound h.prev]
  · exact (hsame2.str hsound hvalid).trans (str_insert_decodedString h.sound h.prev hk)
  · rw [hsame2.nextFree, insert_nextFree_toNat _ _ hmax]

-- The loop

theorem lzwExpandFrom_cons_some {dict : List (List Byte)} {prev s : List Byte} {k : Code} (ks : List Code)
    (h : lzwString dict prev k = some s) :
    lzwExpandFrom dict prev (k :: ks) = (lzwExpandFrom (lzwGrow dict prev s) s ks).map (s ++ ·) := by
  rw [lzwExpandFrom, h]

theorem lzwExpandFrom_cons_none {dict : List (List Byte)} {prev : List Byte} {k : Code} (ks : List Code)
    (h : lzwString dict prev k = none) : lzwExpandFrom dict prev (k :: ks) = none := by
  rw [lzwExpandFrom, h]

/-- What the codes `ks` expand to from the decoder's dictionary and `PREV` on. -/
def expandRest (e : Engine) (ks : List Code) : Option (List Byte) :=
  lzwExpandFrom (dictStrings e) (str e e.prev) ks

/-- The first of the codes to expand passes the range check, and the others expand after its string. -/
theorem expandRest_cons_eq_some {t : Nat} {e : Engine} {k : Code} {ks : List Code} {ys : List Byte}
    (h : DecoderHolds t e) (hys : expandRest e (k :: ks) = some ys) :
    k.toNat ≤ e.nextFree.toNat ∧
      ∃ zs, lzwExpandFrom (lzwGrow (dictStrings e) (str e e.prev) (decodedString e k)) (decodedString e k) ks =
          some zs ∧ ys = decodedString e k ++ zs := by
  have hstring := lzwString_dictStrings h.sound k
  by_cases hk : k.toNat ≤ e.nextFree.toNat
  · rw [if_pos hk] at hstring
    rw [expandRest, lzwExpandFrom_cons_some ks hstring, Option.map_eq_some_iff] at hys
    obtain ⟨zs, hzs, heq⟩ := hys
    exact ⟨hk, zs, hzs, heq.symm⟩
  · rw [if_neg hk] at hstring
    rw [expandRest, lzwExpandFrom_cons_none ks hstring] at hys
    cases hys

theorem prefix_drop_cons {k : Code} {ks codes : List Code} {t : Nat} (h : k :: ks <+: codes.drop t) :
    codes[t]? = some k ∧ ks <+: codes.drop (t + 1) := by
  obtain ⟨rest, hrest⟩ := h
  have hhead : (codes.drop t)[0]? = some k := by rw [← hrest]; rfl
  rw [List.getElem?_drop, Nat.add_zero] at hhead
  refine ⟨hhead, rest, ?_⟩
  rw [← List.drop_drop, ← hrest]
  rfl

theorem lzwDecodeLoop_succ {emit : Byte → Engine → Eff Engine} {x : List Byte} {t : Nat} {e : Engine} {k : Code}
    (h : DecoderHolds t e) (hk : (lzwCodesOf x)[t]? = some k) (n : Nat) :
    lzwDecodeLoop emit x (n + 1) e =
      (lzwDecodeCode emit k (atCode (t + 1) e) >>= lzwDecodeLoop emit x n) := by
  rw [lzwDecodeLoop, bsRead_code h.order h.pos hk]
  rfl

/-- Reading a code leaves the dictionary alone. -/
theorem DecoderHolds.read {t : Nat} {e : Engine} (h : DecoderHolds t e) :
    DecoderHolds (t + 1) (atCode (t + 1) e) ∧
      ∀ ks, expandRest (atCode (t + 1) e) ks = expandRest e ks := by
  have hsame : SameDict e (atCode (t + 1) e) := ⟨rfl, rfl, rfl⟩
  have hstr : str (atCode (t + 1) e) (atCode (t + 1) e).prev = str e e.prev := hsame.str h.sound h.prev
  refine ⟨⟨h.order, rfl, h.sound, h.prev⟩, fun ks => ?_⟩
  rw [expandRest, expandRest, dictStrings_congr hsame h.sound, hstr]

/-- A code within the range, with room for its string. -/
theorem lzwDecodeCode_room {cap : Reg32} {emit : Byte → Engine → Eff Engine} {W : List Byte → Engine → Prop}
    (hemit : Emitter cap emit W) {t : Nat} {e : Engine} {k : Code} {zs : List Byte} (h : DecoderHolds t e)
    (hW : W zs e) (hk : k.toNat ≤ e.nextFree.toNat) (hroom : zs.length + (decodedString e k).length ≤ cap.toNat) :
    ∃ e1, lzwDecodeCode emit k e = .ok e1 ∧ W (zs ++ decodedString e k) e1 ∧ DecoderHolds t e1 ∧
      (∀ ks, expandRest e1 ks =
        lzwExpandFrom (lzwGrow (dictStrings e) (str e e.prev) (decodedString e k)) (decodedString e k) ks) ∧
      e1.nextFree.toNat = min (e.nextFree.toNat + 1) 4096 := by
  obtain ⟨e1, hok, hW1, hsame⟩ := hemit.emitAll_room _ hW hroom
  obtain ⟨h2, hdict, hprev, hnext⟩ := h.step hk hsame
  refine ⟨_, by rw [lzwDecodeCode_in_range emit hk, hok, eff_ok_bind], ?_, h2, fun ks => ?_, hnext⟩
  · obtain ⟨_, _, _, heq⟩ := insert_eq e1.prev ((decodedString e k).headD 0) e1
    exact hemit.congr _ e1 _ hW1 (by rw [heq]) (by rw [heq]) (by rw [heq])
  · rw [expandRest, hdict, hprev]

/-- What is written for a code in range is the string of a valid code: 1 to 3841 bytes (R127). -/
theorem decodedString_length_bounds {t : Nat} {e : Engine} {k : Code} (h : DecoderHolds t e)
    (hk : k.toNat ≤ e.nextFree.toNat) : 1 ≤ (decodedString e k).length ∧ (decodedString e k).length ≤ 3841 := by
  have hbounds := str_length_bounds (insert_dictionarySound ((decodedString e k).headD 0) h.sound h.prev)
    (codeValid_insert (c := e.prev) hk)
  rw [str_insert_decodedString h.sound h.prev hk] at hbounds
  have := k.isLt
  omega

theorem min_min_succ_add (n l : Nat) : min (min (n + 1) 4096 + l) 4096 = min (n + (l + 1)) 4096 := by omega

/-- From the engine `e` on, the loop of `LZW.D` has read the codes `ks`, which stand for `ys`, and goes on from `e1`. -/
structure LzwDecoded (emit : Byte → Engine → Eff Engine) (x : List Byte) (e : Engine) (ks : List Code) (ys : List Byte)
    (e1 : Engine) : Prop where
  loop : ∀ n, lzwDecodeLoop emit x (ks.length + n) e = lzwDecodeLoop emit x n e1
  expand : ∀ ks1, expandRest e (ks ++ ks1) = (expandRest e1 ks1).map (ys ++ ·)
  nextFree : e1.nextFree.toNat = min (e.nextFree.toNat + ks.length) 4096
  length_le_length : ks.length ≤ ys.length
  length_le_mul_length : ys.length ≤ 3841 * ks.length

theorem lzwDecoded_nil (emit : Byte → Engine → Eff Engine) (x : List Byte) {e : Engine} (h : DictionarySound e) :
    LzwDecoded emit x e [] [] e where
  loop n := by rw [List.length_nil, Nat.zero_add]
  expand ks1 := by simp only [List.nil_append, Option.map_id']
  nextFree := (Nat.min_eq_left (dictionarySound_bounds h).2).symm
  length_le_length := le_rfl
  length_le_mul_length := Nat.zero_le _

/-- Valid codes, with room for their strings. -/
theorem lzwDecodeLoop_room {cap : Reg32} {emit : Byte → Engine → Eff Engine} {W : List Byte → Engine → Prop}
    (hemit : Emitter cap emit W) {x : List Byte} {t : Nat} {e : Engine} (ks : List Code) {ys zs : List Byte}
    (h : DecoderHolds t e) (hW : W zs e) (hks : ks <+: (lzwCodesOf x).drop t) (hys : expandRest e ks = some ys)
    (hroom : zs.length + ys.length ≤ cap.toNat) :
    ∃ e1, LzwDecoded emit x e ks ys e1 ∧ W (zs ++ ys) e1 ∧ DecoderHolds (t + ks.length) e1 := by
  induction ks generalizing t e ys zs with
  | nil =>
    cases hys
    exact ⟨e, lzwDecoded_nil emit x h.sound, by rwa [List.append_nil], h⟩
  | cons k ks ih =>
    obtain ⟨hcode, hrest⟩ := prefix_drop_cons hks
    obtain ⟨h1, hread⟩ := h.read
    rw [← hread] at hys
    obtain ⟨hk, ws, hws, rfl⟩ := expandRest_cons_eq_some h1 hys
    obtain ⟨hmin, hmax⟩ := decodedString_length_bounds h1 hk
    rw [List.length_append] at hroom
    have hW1 := hemit.congr zs e (atCode (t + 1) e) hW rfl rfl rfl
    obtain ⟨e2, hok, hW2, h2, hexpand, hnext⟩ := lzwDecodeCode_room hemit h1 hW1 hk (by omega)
    rw [← hexpand] at hws
    obtain ⟨e3, hdone, hW3, h3⟩ := ih h2 hW2 hrest hws (by rw [List.length_append]; omega)
    have hstring := lzwString_dictStrings h1.sound k
    rw [if_pos hk] at hstring
    have hge := hdone.length_le_length
    have hle := hdone.length_le_mul_length
    refine ⟨e3, { loop := fun n => ?_, expand := fun ks1 => ?_, nextFree := ?_, length_le_length := ?_,
                  length_le_mul_length := ?_ }, by rwa [← List.append_assoc], ?_⟩
    · rw [List.length_cons, Nat.add_right_comm, lzwDecodeLoop_succ h hcode, hok, eff_ok_bind, hdone.loop]
    · rw [← hread, List.cons_append, expandRest, lzwExpandFrom_cons_some _ hstring, ← hexpand, hdone.expand,
        Option.map_map]
      refine congrArg (Option.map · _) (funext fun vs => ?_)
      exact (List.append_assoc _ _ _).symm
    · have hsame : (atCode (t + 1) e).nextFree = e.nextFree := rfl
      rw [hdone.nextFree, hnext, hsame, List.length_cons]
      exact min_min_succ_add e.nextFree.toNat ks.length
    · rw [List.length_append, List.length_cons]
      omega
    · rw [List.length_append, List.length_cons]
      omega
    · rwa [List.length_cons, Nat.add_comm ks.length 1, ← Nat.add_assoc]

/-- Valid codes, without room for their strings (R204(b)). -/
theorem lzwDecodeLoop_no_room {cap : Reg32} {emit : Byte → Engine → Eff Engine} {W : List Byte → Engine → Prop}
    (hemit : Emitter cap emit W) {x : List Byte} {t : Nat} {e : Engine} (ks : List Code) {ys zs : List Byte}
    (h : DecoderHolds t e) (hW : W zs e) (hks : ks <+: (lzwCodesOf x).drop t) (hys : expandRest e ks = some ys)
    (hle : zs.length ≤ cap.toNat) (hroom : cap.toNat < zs.length + ys.length) :
    ∃ e1, ∀ n, lzwDecodeLoop emit x (ks.length + n) e = .error (.allocationFailure, e1) := by
  induction ks generalizing t e ys zs with
  | nil =>
    cases hys
    exact absurd hle (not_le.2 hroom)
  | cons k ks ih =>
    obtain ⟨hcode, hrest⟩ := prefix_drop_cons hks
    obtain ⟨h1, hread⟩ := h.read
    rw [← hread] at hys
    obtain ⟨hk, ws, hws, rfl⟩ := expandRest_cons_eq_some h1 hys
    rw [List.length_append] at hroom
    have hW1 := hemit.congr zs e (atCode (t + 1) e) hW rfl rfl rfl
    have hsucc : ∀ n, lzwDecodeLoop emit x ((k :: ks).length + n) e =
        (lzwDecodeCode emit k (atCode (t + 1) e) >>= lzwDecodeLoop emit x (ks.length + n)) := fun n => by
      rw [List.length_cons, Nat.add_right_comm, lzwDecodeLoop_succ h hcode]
    by_cases hfits : zs.length + (decodedString (atCode (t + 1) e) k).length ≤ cap.toNat
    · obtain ⟨e2, hok, hW2, h2, hexpand, _⟩ := lzwDecodeCode_room hemit h1 hW1 hk hfits
      rw [← hexpand] at hws
      obtain ⟨e3, hloop⟩ := ih h2 hW2 hrest hws (by rwa [List.length_append]) (by rw [List.length_append]; omega)
      exact ⟨e3, fun n => by rw [hsucc, hok, eff_ok_bind, hloop]⟩
    · obtain ⟨e2, herr⟩ := hemit.emitAll_no_room _ hW1 hle (not_le.1 hfits)
      exact ⟨e2, fun n => by rw [hsucc, lzwDecodeCode_in_range emit hk, herr, eff_error_bind, eff_error_bind]⟩

/-- The next code is out of range (R121). -/
theorem lzwDecodeLoop_invalid {emit : Byte → Engine → Eff Engine} {x : List Byte} {t : Nat} {e : Engine} {k : Code}
    (h : DecoderHolds t e) (hcode : (lzwCodesOf x)[t]? = some k) (hnone : expandRest e [k] = none) (n : Nat) :
    ∃ e1, lzwDecodeLoop emit x (n + 1) e = .error (.corruptStream, e1) := by
  obtain ⟨h1, hread⟩ := h.read
  have hstring := lzwString_dictStrings h1.sound k
  have hrange : ¬k.toNat ≤ (atCode (t + 1) e).nextFree.toNat := fun hk => by
    rw [if_pos hk] at hstring
    rw [← hread, expandRest, lzwExpandFrom_cons_some [] hstring] at hnone
    cases hnone
  exact ⟨_, by rw [lzwDecodeLoop_succ h hcode, lzwDecodeCode_out_of_range emit (not_le.1 hrange), eff_error_bind]⟩

-- The body

/-- A spare byte is an error before anything is read (R123). -/
theorem lzwDecompress_spare_byte (emit : Byte → Engine → Eff Engine) {x : List Byte} (e : Engine)
    (h : x.length % 3 = 1) : lzwDecompress emit x e = .error (.corruptStream, e) := by
  rw [lzwDecompress, if_neg (by omega)]
  simp only
  rw [if_pos (by omega)]
  rfl

theorem lzwDecompress_empty (emit : Byte → Engine → Eff Engine) (e : Engine) :
    lzwDecompress emit [] e = .error (.emptyInput, e) := rfl

/-- The engine after `LZW.D` has read its first code. -/
def lzwDecompressStart (e : Engine) : Engine := atCode 1 (dictReset (bsInitRead .lsb e))

theorem lzwDecompress_first {emit : Byte → Engine → Eff Engine} {x : List Byte} {k : Code} {ks : List Code}
    (e : Engine) (hcodes : lzwCodesOf x = k :: ks) (hspare : x.length % 3 ≠ 1) :
    (255 < k → lzwDecompress emit x e = .error (.corruptStream, lzwDecompressStart e)) ∧
    (k.toNat < 256 → lzwDecompress emit x e = (emit (k.setWidth 8) (lzwDecompressStart e) >>= fun e1 =>
      lzwDecodeLoop emit x ks.length { e1 with prev := k })) := by
  have hlen : 8 * x.length / 12 = ks.length + 1 := by rw [← lzwCodesOf_length, hcodes, List.length_cons]
  have hread : bsRead x 12 (dictReset (bsInitRead .lsb e)) = .ok (k, lzwDecompressStart e) :=
    bsRead_code (t := 0) rfl rfl (by rw [hcodes]; rfl)
  have hrun : lzwDecompress emit x e =
      (if 255 < k then raise .corruptStream (lzwDecompressStart e)
      else emit (k.setWidth 8) (lzwDecompressStart e) >>= fun e1 =>
        lzwDecodeLoop emit x ks.length { e1 with prev := k }) := by
    rw [lzwDecompress, if_neg (by omega)]
    simp only
    rw [if_neg (by omega), hread, eff_ok_bind, hlen]
    rfl
  refine ⟨fun hk => ?_, fun hk => ?_⟩
  · rw [hrun, if_pos hk]
    rfl
  · rw [hrun, if_neg (by bv_omega)]

/-- After the first code, a literal with room for its byte, the decoder holds that code. -/
theorem lzwDecompress_literal {cap : Reg32} {emit : Byte → Engine → Eff Engine} {W : List Byte → Engine → Prop}
    (hemit : Emitter cap emit W) {x : List Byte} {k : Code} {ks : List Code} {e : Engine} (hW : W [] e)
    (hcodes : lzwCodesOf x = k :: ks) (hspare : x.length % 3 ≠ 1) (hk : k.toNat < 256) (hroom : 1 ≤ cap.toNat) :
    ∃ e1, lzwDecompress emit x e = lzwDecodeLoop emit x ks.length e1 ∧ W [k.setWidth 8] e1 ∧ DecoderHolds 1 e1 ∧
      e1.nextFree = 256 ∧ ∀ ks1, lzwExpand (k :: ks1) = (expandRest e1 ks1).map (k.setWidth 8 :: ·) := by
  have hW0 := hemit.congr [] e (lzwDecompressStart e) hW rfl rfl rfl
  obtain ⟨e1, hok, hW1, hsame⟩ := hemit.room [] (k.setWidth 8) _ hW0 hroom
  have hnext : e1.nextFree = 256 := hsame.dict.nextFree
  have hsound : DictionarySound { e1 with prev := k } := dictionarySound_of_nextFree hnext
  refine ⟨{ e1 with prev := k }, ?_, hemit.congr _ e1 _ hW1 rfl rfl rfl, ⟨hsame.rOrder, hsame.rPos, hsound, ?_⟩, hnext,
    fun ks1 => ?_⟩
  · rw [(lzwDecompress_first e hcodes hspare).2 hk, hok, eff_ok_bind]
  · exact codeValid_of_literal (k := k) hsound hk
  · have hstr : str { e1 with prev := k } k = [k.setWidth 8] := str_literal _ hk
    have hlit : k < 256 := hk
    have hdict : dictStrings { e1 with prev := k } = [] := dictStrings_of_empty hnext
    rw [lzwExpand, if_pos hlit, expandRest, hdict, hstr]

theorem lzwExpand_first_literal {k : Code} {ks : List Code} {ys : List Byte} (h : lzwExpand (k :: ks) = some ys) :
    k.toNat < 256 ∧ 1 ≤ ys.length := by
  rw [lzwExpand] at h
  split at h
  next hk =>
    obtain ⟨zs, _, rfl⟩ := Option.map_eq_some_iff.1 h
    exact ⟨hk, Nat.succ_le_succ (Nat.zero_le _)⟩
  next => cases h

end Sys2Proof.Machine
end

section
/-! The outcomes of `LZW.D` in terms of what the codes of its payload expand to (R119 to R124), and the statements about
the two LZW commands. -/

namespace Sys2Proof.Machine

-- The outcomes of the body of `LZW.D`

/-- The codes after the first one stand, all of them, after it in the payload. -/
theorem tail_prefix_drop {codes ks : List Code} {k : Code} (h : codes = k :: ks) (m : Nat) :
    ks.take m <+: codes.drop 1 := by
  rw [h]
  exact List.take_prefix m ks

/-- Valid codes whose bytes fit (R119, R120, R124). -/
theorem lzwDecompress_completes {cap : Reg32} {emit : Byte → Engine → Eff Engine} {W : List Byte → Engine → Prop}
    (hemit : Emitter cap emit W) {x ys : List Byte} {e : Engine} (hW : W [] e) (hspare : x.length % 3 ≠ 1)
    (hys : lzwExpand (lzwCodesOf x) = some ys) (hroom : ys.length ≤ cap.toNat) :
    ∃ e1, lzwDecompress emit x e = .ok e1 ∧ W ys e1 ∧
      e1.nextFree.toNat = min (255 + (lzwCodesOf x).length) 4096 ∧
      (lzwCodesOf x).length ≤ ys.length ∧ ys.length ≤ 3841 * (lzwCodesOf x).length := by
  cases hcodes : lzwCodesOf x with
  | nil =>
    rw [hcodes] at hys
    cases hys
  | cons k ks =>
    rw [hcodes] at hys
    obtain ⟨hk, hpos⟩ := lzwExpand_first_literal hys
    obtain ⟨e1, hrun, hW1, h1, hnext, hexpand⟩ := lzwDecompress_literal hemit hW hcodes hspare hk (by omega)
    rw [hexpand, Option.map_eq_some_iff] at hys
    obtain ⟨zs, hzs, rfl⟩ := hys
    have hprefix := tail_prefix_drop hcodes ks.length
    rw [List.take_length] at hprefix
    rw [List.length_cons] at hroom
    obtain ⟨e2, hdone, hW2, _⟩ :=
      lzwDecodeLoop_room hemit ks h1 hW1 hprefix hzs (by rw [List.length_singleton]; omega)
    have hmin := hdone.length_le_length
    have hmax := hdone.length_le_mul_length
    refine ⟨e2, by rw [hrun]; exact hdone.loop 0, hW2, ?_, ?_, ?_⟩
    · rw [hdone.nextFree, hnext, List.length_cons, Nat.add_comm ks.length 1, ← Nat.add_assoc]
      rfl
    · rw [List.length_cons, List.length_cons]
      omega
    · rw [List.length_cons, List.length_cons]
      omega

/-- Valid codes at the beginning of the payload whose bytes do not fit (R204(b)). -/
theorem lzwDecompress_no_room {cap : Reg32} {emit : Byte → Engine → Eff Engine} {W : List Byte → Engine → Prop}
    (hemit : Emitter cap emit W) {x ys : List Byte} {e : Engine} {n : Nat} (hW : W [] e) (hspare : x.length % 3 ≠ 1)
    (hys : lzwExpand ((lzwCodesOf x).take n) = some ys) (hroom : cap.toNat < ys.length) :
    ∃ e1, lzwDecompress emit x e = .error (.allocationFailure, e1) := by
  cases hcodes : lzwCodesOf x with
  | nil =>
    rw [hcodes, List.take_nil] at hys
    cases hys
  | cons k ks =>
    cases n with
    | zero => cases hys
    | succ m =>
      rw [hcodes, List.take_succ_cons] at hys
      obtain ⟨hk, _⟩ := lzwExpand_first_literal hys
      by_cases hone : 1 ≤ cap.toNat
      · obtain ⟨e1, hrun, hW1, h1, _, hexpand⟩ := lzwDecompress_literal hemit hW hcodes hspare hk hone
        rw [hexpand, Option.map_eq_some_iff] at hys
        obtain ⟨zs, hzs, rfl⟩ := hys
        rw [List.length_cons] at hroom
        obtain ⟨e2, hloop⟩ := lzwDecodeLoop_no_room hemit _ h1 hW1 (tail_prefix_drop hcodes m) hzs
          (by rwa [List.length_singleton]) (by rw [List.length_singleton]; omega)
        have hrest : (ks.take m).length + (ks.length - (ks.take m).length) = ks.length :=
          Nat.add_sub_cancel' (List.length_take_le' m ks)
        exact ⟨e2, by rw [hrun, ← hrest, hloop]⟩
      · have hW0 := hemit.congr [] e (lzwDecompressStart e) hW rfl rfl rfl
        obtain ⟨e1, herr⟩ := hemit.full [] (k.setWidth 8) _ hW0 (by rw [List.length_nil]; omega)
        exact ⟨e1, by rw [(lzwDecompress_first e hcodes hspare).2 hk, herr, eff_error_bind]⟩

/-- The code `n` is the first invalid one, and the bytes before it fit (R121, R122). -/
theorem lzwDecompress_invalid {cap : Reg32} {emit : Byte → Engine → Eff Engine} {W : List Byte → Engine → Prop}
    (hemit : Emitter cap emit W) {x ys : List Byte} {e : Engine} {n : Nat} (hW : W [] e) (hspare : x.length % 3 ≠ 1)
    (hn : n < (lzwCodesOf x).length) (hnone : lzwExpand ((lzwCodesOf x).take (n + 1)) = none)
    (hys : n = 0 ∨ lzwExpand ((lzwCodesOf x).take n) = some ys) (hroom : ys.length ≤ cap.toNat) :
    ∃ e1, lzwDecompress emit x e = .error (.corruptStream, e1) := by
  cases hcodes : lzwCodesOf x with
  | nil =>
    rw [hcodes] at hn
    exact absurd hn (Nat.not_lt_zero n)
  | cons k ks =>
    rw [hcodes, List.take_succ_cons] at hnone
    cases n with
    | zero =>
      have hk : ¬k < 256 := fun hk => by
        rw [List.take_zero, lzwExpand, if_pos hk] at hnone
        cases hnone
      exact ⟨_, (lzwDecompress_first e hcodes hspare).1 (by bv_omega)⟩
    | succ m =>
      have hys' := hys.resolve_left (Nat.succ_ne_zero m)
      rw [hcodes, List.take_succ_cons] at hys'
      rw [hcodes, List.length_cons] at hn
      obtain ⟨hk, hpos⟩ := lzwExpand_first_literal hys'
      obtain ⟨e1, hrun, hW1, h1, _, hexpand⟩ := lzwDecompress_literal hemit hW hcodes hspare hk (by omega)
      rw [hexpand, Option.map_eq_some_iff] at hys'
      obtain ⟨zs, hzs, rfl⟩ := hys'
      rw [List.length_cons] at hroom
      have hm : m < ks.length := Nat.lt_of_succ_lt_succ hn
      have htake : (ks.take m).length = m := List.length_take_of_le hm.le
      obtain ⟨e2, hdone, _, h2⟩ := lzwDecodeLoop_room hemit _ h1 hW1 (tail_prefix_drop hcodes m) hzs
        (by rw [List.length_singleton]; omega)
      have hcode : (lzwCodesOf x)[1 + (ks.take m).length]? = some ks[m] := by
        rw [hcodes, htake, Nat.add_comm, List.getElem?_cons_succ, List.getElem?_eq_getElem hm]
      have hbad : expandRest e2 [ks[m]] = none := by
        rw [hexpand, List.take_succ_eq_append_getElem hm, hdone.expand, Option.map_map] at hnone
        exact Option.map_eq_none_iff.1 hnone
      obtain ⟨e3, herr⟩ := lzwDecodeLoop_invalid (emit := emit) h2 hcode hbad (ks.length - m - 1)
      have hrest : (ks.take m).length + (ks.length - m - 1 + 1) = ks.length := by omega
      exact ⟨e3, by rw [hrun, ← hrest, hdone.loop, herr]⟩

/-- Where a code sequence is invalid, it has a first invalid code. -/
theorem exists_first_invalid {codes : List Code} (hne : codes ≠ []) (hnone : lzwExpand codes = none) :
    ∃ n, n < codes.length ∧ lzwExpand (codes.take (n + 1)) = none ∧
      (n = 0 ∨ ∃ ys, lzwExpand (codes.take n) = some ys) := by
  have hlast : lzwExpand (codes.take (codes.length - 1 + 1)) = none := by
    rw [Nat.sub_add_cancel (List.length_pos_of_ne_nil hne), List.take_length, hnone]
  have hex : ∃ n, lzwExpand (codes.take (n + 1)) = none := ⟨_, hlast⟩
  have hpos := List.length_pos_of_ne_nil hne
  refine ⟨Nat.find hex, ?_, Nat.find_spec hex, ?_⟩
  · have := Nat.find_min' hex hlast
    omega
  · cases hfind : Nat.find hex with
    | zero => exact .inl rfl
    | succ m =>
      have hbefore : lzwExpand (codes.take (m + 1)) ≠ none := Nat.find_min hex (by omega)
      exact .inr (Option.ne_none_iff_exists'.1 hbefore)

theorem lzwCodesOf_ne_nil {x : List Byte} (hne : x ≠ []) (hspare : x.length % 3 ≠ 1) : lzwCodesOf x ≠ [] := by
  have := List.length_pos_of_ne_nil hne
  exact List.ne_nil_of_length_pos (by rw [lzwCodesOf_length]; omega)

/-- `LZW.D` ends normally only on a payload without a spare byte, of valid codes whose bytes fit (R209). -/
theorem lzwDecompress_eq_ok {cap : Reg32} {emit : Byte → Engine → Eff Engine} {W : List Byte → Engine → Prop}
    (hemit : Emitter cap emit W) {x : List Byte} {e e1 : Engine} (hW : W [] e) (h : lzwDecompress emit x e = .ok e1) :
    x ≠ [] ∧ x.length % 3 ≠ 1 ∧ ∃ ys, lzwExpand (lzwCodesOf x) = some ys ∧ ys.length ≤ cap.toNat := by
  have hfails : ∀ k, ¬∃ e2, lzwDecompress emit x e = .error (k, e2) := by
    rintro k ⟨e2, herr⟩
    cases h.symm.trans herr
  have hne : x ≠ [] := fun hnil => hfails .emptyInput ⟨e, by rw [hnil, lzwDecompress_empty]⟩
  have hspare : x.length % 3 ≠ 1 := fun h1 => hfails .corruptStream ⟨e, lzwDecompress_spare_byte emit e h1⟩
  refine ⟨hne, hspare, ?_⟩
  cases hys : lzwExpand (lzwCodesOf x) with
  | some ys =>
    refine ⟨ys, rfl, not_lt.1 fun hroom => hfails .allocationFailure ?_⟩
    rw [← List.take_length (l := lzwCodesOf x)] at hys
    exact lzwDecompress_no_room hemit hW hspare hys hroom
  | none =>
    exfalso
    obtain ⟨n, hn, hnone, hbefore⟩ := exists_first_invalid (lzwCodesOf_ne_nil hne hspare) hys
    rcases hbefore with hzero | ⟨ys, hys⟩
    · exact hfails _ (lzwDecompress_invalid (ys := []) hemit hW hspare hn hnone (.inl hzero) (Nat.zero_le _))
    · by_cases hroom : ys.length ≤ cap.toNat
      · exact hfails _ (lzwDecompress_invalid hemit hW hspare hn hnone (.inr hys) hroom)
      · exact hfails _ (lzwDecompress_no_room hemit hW hspare hys (not_le.1 hroom))

-- The commands

/-- Settles O40: the body completes with what the codes expand to. -/
theorem lzwDecompressExpandsCodes : Obligations.LzwDecompressExpandsCodes := by
  intro s ys hready _ hspare hys hroom
  have hW : OutputHolds [] s.eng.start := outputHolds_nil rfl rfl
  obtain ⟨e1, hrun, hout, hnext, _⟩ := lzwDecompress_completes (emitter_outByte s.caps.outCap) hW
    (by rwa [inBlock_length]) hys hroom
  obtain ⟨t, hexec, hcompleted, hcmd, hhost, rfl⟩ := runCommand_completes (w := encode .lzwD) hready hrun
  rw [lzwCodesOf_length, inBlock_length] at hnext
  exact ⟨t, hexec, hcompleted, hcmd, hhost, hout, hnext⟩

theorem execLzwD_fails {s : State} {k : ErrorKind} (h : Ready s)
    (hrun : ∃ e, lzwDecompress (outByte s.caps.outCap) (inBlock s) s.eng.start = .error (k, e)) :
    ∃ t, exec .lzwD s = .next t ∧ FailedWith k t := by
  obtain ⟨e, herr⟩ := hrun
  obtain ⟨t, hexec, hfailed, _⟩ := runCommand_fails (w := encode .lzwD) h herr
  exact ⟨t, hexec, hfailed⟩

/-- Settles O41: one outcome of the body for each clause. -/
theorem lzwDecompressErrors : Obligations.LzwDecompressErrors := by
  intro s hready
  have hW : OutputHolds [] s.eng.start := outputHolds_nil rfl rfl
  have hemit := emitter_outByte s.caps.outCap
  refine ⟨fun hzero => ?_, fun hone => ?_, fun hne hspare => ?_⟩
  · have hnil : inBlock s = [] := List.eq_nil_of_length_eq_zero (by rw [inBlock_length, hzero]; rfl)
    exact execLzwD_fails hready ⟨s.eng.start, by rw [hnil, lzwDecompress_empty]⟩
  · obtain ⟨t, hexec, hfailed, _, _, heng⟩ := runCommand_fails (w := encode .lzwD) hready
      (lzwDecompress_spare_byte (outByte s.caps.outCap) s.eng.start (by rwa [inBlock_length]))
    exact ⟨t, hexec, hfailed, heng⟩
  · have hspare' : (inBlock s).length % 3 ≠ 1 := by rwa [inBlock_length]
    refine ⟨fun n ys hn hnone hys => ⟨fun hroom => ?_, fun hroom => ?_⟩, fun ys hys hroom => ?_, fun hnone => ?_⟩
    · exact execLzwD_fails hready (lzwDecompress_invalid hemit hW hspare' hn hnone (hys.imp_left And.left) hroom)
    · rcases hys with ⟨_, rfl⟩ | hys
      · exact absurd hroom (Nat.not_lt_zero _)
      · exact execLzwD_fails hready (lzwDecompress_no_room hemit hW hspare' hys hroom)
    · rw [← List.take_length (l := lzwCodesOf (inBlock s))] at hys
      exact execLzwD_fails hready (lzwDecompress_no_room hemit hW hspare' hys hroom)
    · exact exists_first_invalid (lzwCodesOf_ne_nil (inBlock_ne_nil hne) hspare') hnone

/-- A completed `LZW.C` has made the payload of the block's greedy codes. -/
theorem execLzwC_completed {s t : State} (hbusy : s.runState ≠ .busy) (h : exec .lzwC s = .next t)
    (ht : Completed t) : s.inLen ≠ 0 ∧ OutputIs (lzwPayload (lzwGreedyCodes (inBlock s))) t := by
  obtain ⟨hready, hbody⟩ := runCommand_completed (body := lzwCompress s.caps.outCap) hbusy h ht
  have hne : s.inLen ≠ 0 := fun hzero => by
    have hnil : inBlock s = [] := List.eq_nil_of_length_eq_zero (by rw [inBlock_length, hzero]; rfl)
    rw [hnil] at hbody
    cases hbody
  obtain ⟨_, hcompletes, hfails⟩ := lzwCompressGreedyCodes s hready hne
  refine ⟨hne, ?_⟩
  rcases le_or_gt (lzwPayload (lzwGreedyCodes (inBlock s))).length s.caps.outCap.toNat with hroom | hroom
  · obtain ⟨t1, hexec, _, _, _, hout, _⟩ := hcompletes hroom
    cases hexec.symm.trans h
    exact hout
  · obtain ⟨t1, hexec, ⟨herror, _⟩, _⟩ := hfails hroom
    cases hexec.symm.trans h
    cases herror.symm.trans ht.1

/-- `LZW.C` with the room that any block of this length may need (R117(b)). -/
theorem execLzwC_of_room {s : State} (hready : Ready s) (hne : s.inLen ≠ 0)
    (hroom : (3 * s.inLen.toNat + 1) / 2 ≤ s.caps.outCap.toNat) :
    ∃ t, exec .lzwC s = .next t ∧ Completed t ∧ OutputIs (lzwPayload (lzwGreedyCodes (inBlock s))) t := by
  obtain ⟨⟨_, hle, hlen, _⟩, hcompletes, _⟩ := lzwCompressGreedyCodes s hready hne
  obtain ⟨t, hexec, hcompleted, _, _, hout, _⟩ := hcompletes (by rw [hlen]; omega)
  exact ⟨t, hexec, hcompleted, hout⟩

/-- The payload of the one code 65, with pad bits that are not zero. -/
def paddedPayload : State :=
  { State.reset with inLen := 2, inBuf := [(0, 0x41), (1, 0xF0)] }

/-- `LZW.D` accepts it (R123), and `LZW.C` does not produce it: its codes have another payload (R115, R126). -/
theorem paddedPayload_laws :
    inBlock paddedPayload = [0x41, 0xF0] ∧ lzwCodesOf [0x41, 0xF0] = [0x41] ∧ lzwExpand [0x41] = some [0x41] ∧
      lzwPayload [0x41] ≠ [0x41, 0xF0] := by
  refine ⟨by decide, by decide, by decide, ?_⟩
  rw [show ([0x41] : List Code) = [(0x41 : Byte).setWidth 12] from rfl, lzwPayload_literal]
  decide

/-- Settles O42: the whole codes of a payload are those it was made of, and the greedy codes expand to the block. -/
theorem lzwRoundTrip : Obligations.LzwRoundTrip := by
  refine ⟨fun s hready hne hroom => ?_, ?_⟩
  · obtain ⟨t, hexec, hcompleted, hout⟩ := execLzwC_of_room hready hne hroom
    refine ⟨t, hexec, hcompleted, fun u hu hblock hfits => ?_⟩
    obtain ⟨⟨hpos, _, hlen, _, _, _, hexpand⟩, _⟩ := lzwCompressGreedyCodes s hready hne
    rw [outBlock_of_outputIs hout] at hblock
    have hlength : u.inLen.toNat = _ := (inBlock_length u).symm.trans ((congrArg List.length hblock).trans hlen)
    have hune : u.inLen ≠ 0 := fun hzero => by
      rw [hzero] at hlength
      have : 0 = (3 * (lzwGreedyCodes (inBlock s)).length + 1) / 2 := hlength
      omega
    rw [← lzwCodesOf_lzwPayload (lzwGreedyCodes (inBlock s)), ← hblock] at hexpand
    obtain ⟨v, hv, hvdone, _, _, hvout, _⟩ := lzwDecompressExpandsCodes u (inBlock s) hu hune (by omega) hexpand
      (by rw [inBlock_length]; exact hfits)
    exact ⟨v, hv, hvdone, hvout⟩
  · obtain ⟨hblock, hcodes, hexpand, hpayload⟩ := paddedPayload_laws
    have hready : Ready paddedPayload := ⟨by decide, by decide⟩
    obtain ⟨v, hv, hvdone, _⟩ := lzwDecompressExpandsCodes paddedPayload [0x41] hready (by decide) (by decide)
      (by rw [hblock, hcodes, hexpand]) (by decide)
    refine ⟨paddedPayload, v, hready, hv, hvdone, fun s t hbusy h ht heq => hpayload ?_⟩
    obtain ⟨_, hout⟩ := execLzwC_completed hbusy h ht
    rw [outBlock_of_outputIs hout, hblock] at heq
    have hsame := lzwCodesOf_lzwPayload (lzwGreedyCodes (inBlock s))
    rw [heq, hcodes] at hsame
    rw [hsame, heq]

/-- Settles O43: as many codes as bytes at most, and 1 to 3841 bytes for a code. -/
theorem lzwSizeBounds : Obligations.LzwSizeBounds := by
  refine ⟨fun s t hbusy h ht => ?_, fun s t hbusy h ht => ?_⟩
  · obtain ⟨hready, _⟩ := runCommand_completed (body := lzwCompress s.caps.outCap) hbusy h ht
    obtain ⟨hne, hlen, _⟩ := execLzwC_completed hbusy h ht
    obtain ⟨⟨hpos, hle, hpayload, _⟩, _⟩ := lzwCompressGreedyCodes s hready hne
    omega
  · obtain ⟨_, hbody⟩ := runCommand_completed (body := lzwDecompress (outByte s.caps.outCap)) hbusy h ht
    have hW : OutputHolds [] s.eng.start := outputHolds_nil rfl rfl
    have hemit := emitter_outByte s.caps.outCap
    obtain ⟨hne, hspare, ys, hys, hroom⟩ := lzwDecompress_eq_ok hemit hW hbody
    obtain ⟨e1, hrun, ⟨hlen, _⟩, _, hmin, hmax⟩ := lzwDecompress_completes hemit hW hspare hys hroom
    cases hbody.symm.trans hrun
    have hpos := List.length_pos_of_ne_nil hne
    rw [inBlock_length] at hspare hpos
    rw [lzwCodesOf_length, inBlock_length] at hmin hmax
    have hcodes : 8 * s.inLen.toNat / 12 = 2 * s.inLen.toNat / 3 := by omega
    rw [hcodes] at hmin hmax
    rw [hlen]
    exact ⟨by omega, hmin, hmax⟩

-- The frame

/-- What `LZW.C` leaves as command start does, from the engine `e0` before it. -/
def CompressFrame (e0 e : Engine) : Prop :=
  HuffmanStateKept e0 e ∧ ReaderKept e0 e ∧ e.pPrev = 0 ∧ e.prev = e0.prev

/-- What `LZW.D` leaves as command start does. -/
def DecompressFrame (e0 e : Engine) : Prop :=
  HuffmanStateKept e0 e ∧ WriterKept e0 e ∧ e.pPrev = 0 ∧ e.inPos = 0 ∧ e.code = e0.code

theorem huffmanStateKept_start (e : Engine) : HuffmanStateKept e e.start :=
  ⟨fun s => arrayGet_replicate s.toNat 0 0 s.isLt, rfl, rfl, rfl, rfl, rfl⟩

theorem compressFrame_start (e : Engine) : CompressFrame e e.start :=
  ⟨huffmanStateKept_start e, ⟨rfl, rfl⟩, rfl, rfl⟩

theorem decompressFrame_start (e : Engine) : DecompressFrame e e.start :=
  ⟨huffmanStateKept_start e, ⟨rfl, rfl, rfl⟩, rfl, rfl, rfl⟩

theorem compressFrame_insert {e0 e : Engine} (k : Code) (c : Byte) (code : Code) (h : CompressFrame e0 e) :
    CompressFrame e0 { insert k c e with code := code } := by
  obtain ⟨_, _, _, heq⟩ := insert_eq k c e
  rw [heq]
  exact h

theorem decompressFrame_insert {e0 e : Engine} (k : Code) (c : Byte) (prev : Code) (h : DecompressFrame e0 e) :
    DecompressFrame e0 { insert k c e with prev := prev } := by
  obtain ⟨_, _, _, heq⟩ := insert_eq k c e
  rw [heq]
  exact h

theorem lzwCompress_frame (cap : Reg32) (x : List Byte) {e0 e : Engine} (h : CompressFrame e0 e) :
    EffKeeps (CompressFrame e0) id (lzwCompress cap x e) :=
  lzwCompress_keeps (wbit_keeps_of_insensitive fun _ _ _ _ _ h => h) (bsFlush_keeps_of_insensitive fun _ _ _ _ _ h => h)
    (fun _ h => h) (fun _ _ _ h _ => h) (fun _ k c h => compressFrame_insert k c _ h) (fun _ _ h => h) x e h

theorem lzwDecompress_frame (cap : Reg32) (x : List Byte) {e0 e : Engine} (h : DecompressFrame e0 e) :
    EffKeeps (DecompressFrame e0) id (lzwDecompress (outByte cap) x e) :=
  lzwDecompress_keeps (fun _ _ h => outByte_keeps h fun _ => h) (fun _ _ h => h)
    (fun e b k h => decompressFrame_insert e.prev b k h) (fun _ _ h => h) (fun _ h => h) x e h

/-- Settles O44: neither body touches what its frame names, on any path. -/
theorem lzwFrame : Obligations.LzwFrame := by
  refine fun s t hbusy => ⟨fun h => ?_, fun h => ?_⟩
  · obtain ⟨⟨hhuffman, hreader, hpPrev, hprev⟩, hhost⟩ :=
      runCommand_frame (P := CompressFrame s.eng) (fun _ h => h) (compressFrame_start s.eng)
        (lzwCompress_frame s.caps.outCap (inBlock s) (compressFrame_start s.eng)) hbusy h
    exact ⟨hhuffman, hreader, hpPrev, hprev, hhost⟩
  · obtain ⟨⟨hhuffman, hwriter, hpPrev, hinPos, hcode⟩, hhost⟩ :=
      runCommand_frame (P := DecompressFrame s.eng) (fun _ h => h) (decompressFrame_start s.eng)
        (lzwDecompress_frame s.caps.outCap (inBlock s) (decompressFrame_start s.eng)) hbusy h
    exact ⟨hhuffman, hwriter, hpPrev, hinPos, hcode, hhost⟩

end Sys2Proof.Machine
end

section
/-! Deltas and running sums, each the inverse of the other (R142), and the predictor's two loops (R140, R141) as one
machine that passes such bytes to the output. -/

namespace Sys2Proof.Machine

-- Deltas and running sums

@[simp] theorem deltasFrom_length (p : Byte) (x : List Byte) : (deltasFrom p x).length = x.length := by
  induction x generalizing p with
  | nil => rfl
  | cons b bs ih => exact congrArg Nat.succ (ih b)

@[simp] theorem sumsFrom_length (p : Byte) (x : List Byte) : (sumsFrom p x).length = x.length := by
  induction x generalizing p with
  | nil => rfl
  | cons d ds ih => exact congrArg Nat.succ (ih (d + p))

theorem sumsFrom_deltasFrom (p : Byte) (x : List Byte) : sumsFrom p (deltasFrom p x) = x := by
  induction x generalizing p with
  | nil => rfl
  | cons b bs ih => rw [deltasFrom, sumsFrom, BitVec.sub_add_cancel, ih]

theorem deltasFrom_sumsFrom (p : Byte) (x : List Byte) : deltasFrom p (sumsFrom p x) = x := by
  induction x generalizing p with
  | nil => rfl
  | cons d ds ih => rw [sumsFrom, deltasFrom, BitVec.add_sub_cancel, ih]

/-- A delta is the byte less the byte before it, the first relative to `p` (R140). -/
theorem deltasFrom_getElem? (p : Byte) {x : List Byte} {n : Nat} (h : n < x.length) :
    (deltasFrom p x)[n]? = some (x[n] - if n = 0 then p else x[n - 1]) := by
  induction x generalizing p n with
  | nil => exact absurd h (Nat.not_lt_zero n)
  | cons b bs ih =>
    cases n with
    | zero => rfl
    | succ m =>
      have hm : m < bs.length := Nat.lt_of_succ_lt_succ h
      rw [deltasFrom, List.getElem?_cons_succ, ih b hm]
      cases m <;> rfl

/-- A running sum is `p` and the bytes up to its own place (R141). -/
theorem sumsFrom_getElem? (p : Byte) {x : List Byte} {n : Nat} (h : n < x.length) :
    (sumsFrom p x)[n]? = some (p + (x.take (n + 1)).sum) := by
  induction x generalizing p n with
  | nil => exact absurd h (Nat.not_lt_zero n)
  | cons d ds ih =>
    rw [sumsFrom, List.take_succ_cons, List.sum_cons, ← BitVec.add_assoc, BitVec.add_comm p d]
    cases n with
    | zero => rw [List.take_zero, List.sum_nil, add_zero, List.getElem?_cons_zero]
    | succ m => rw [List.getElem?_cons_succ, ih (d + p) (Nat.lt_of_succ_lt_succ h)]

theorem sumsFrom_getLastD (p : Byte) (x : List Byte) : (sumsFrom p x).getLastD p = p + x.sum := by
  induction x generalizing p with
  | nil => exact (add_zero p).symm
  | cons d ds ih => rw [sumsFrom, List.getLastD_cons, ih, List.sum_cons, ← BitVec.add_assoc, BitVec.add_comm p d]

theorem deltasFrom_replicate_self (n : Nat) (b : Byte) :
    deltasFrom b (List.replicate n b) = List.replicate n 0 := by
  induction n with
  | zero => rfl
  | succ n ih => rw [List.replicate_succ, deltasFrom, sub_self, ih, List.replicate_succ]

-- The loops

/-- The engine after `ys` have gone out, one for each byte consumed, with `p` in `P_PREV` (R29, R54). -/
def afterPass (e : Engine) (ys : List Byte) (p : Byte) : Engine :=
  { e with
    outBuf := e.outBuf.writeBytes e.outLen.toNat ys
    outLen := e.outLen + BitVec.ofNat 32 ys.length
    inPos := e.inPos + BitVec.ofNat 32 ys.length
    pPrev := p }

theorem afterPass_nil (e : Engine) : afterPass e [] e.pPrev = e := by
  simp [afterPass, Memory.writeBytes]

theorem afterPass_singleton (e : Engine) (y p : Byte) : afterPass e [y] p =
    { e with
      outBuf := e.outBuf.write e.outLen.toNat y, outLen := e.outLen + 1, inPos := e.inPos + 1, pPrev := p } := rfl

/-- Passes follow one another as long as `OUT_LEN` does not wrap. -/
theorem afterPass_cons {e : Engine} (h : (e.outLen + 1).toNat = e.outLen.toNat + 1) (y p q : Byte) (ys : List Byte) :
    afterPass (afterPass e [y] p) ys q = afterPass e (y :: ys) q := by
  have hcount : ∀ n : Reg32, n + 1 + BitVec.ofNat 32 ys.length = n + BitVec.ofNat 32 (ys.length + 1) := by
    intro n
    rw [BitVec.add_assoc, BitVec.add_comm 1, BitVec.ofNat_add]
    rfl
  rw [afterPass_singleton]
  simp only [afterPass, hcount, h, List.length_cons, Memory.writeBytes]

/-- From an empty output side the bytes passed are the output. -/
theorem outputHolds_afterPass {e : Engine} {ys : List Byte} (p : Byte) (hlen : e.outLen = 0) (hbuf : e.outBuf = [])
    (hys : ys.length < 2 ^ 32) : OutputHolds ys (afterPass e ys p) := by
  refine ⟨?_, fun a => ?_⟩
  · rw [afterPass, hlen, zero_add]
    exact Nat.mod_eq_of_lt hys
  · rw [afterPass, hlen, hbuf]
    show (Memory.writeBytes [] 0 ys).read a = ys[a]?
    rw [memory_read_writeBytes, Nat.zero_add]
    split
    · rfl
    · rw [List.getElem?_eq_none (by omega), memory_read_nil]

/-- One turn of a predictor loop: a byte is consumed, `y` goes out, `p` is the next `P_PREV`. -/
def passByte (cap : Reg32) (y p : Byte) (e : Engine) : Eff Engine := do
  let e1 ← outByte cap y (consume e)
  .ok { e1 with pPrev := p }

/-- Turn after turn; a turn is the byte that goes out and the next `P_PREV`. -/
def passBytes (cap : Reg32) : List (Byte × Byte) → Engine → Eff Engine
  | [], e => .ok e
  | (y, p) :: turns, e => passByte cap y p e >>= passBytes cap turns

theorem passByte_room {cap : Reg32} {e : Engine} (y p : Byte) (h : e.outLen ≠ cap) :
    passByte cap y p e = .ok (afterPass e [y] p) := by
  rcases outByte_cases cap y (consume e) with ⟨hfull, _⟩ | ⟨_, hok⟩
  · exact absurd hfull h
  · rw [passByte, hok]
    rfl

theorem passByte_full {cap : Reg32} {e : Engine} (y p : Byte) (h : e.outLen = cap) :
    passByte cap y p e = .error (.allocationFailure, consume e) := by
  rcases outByte_cases cap y (consume e) with ⟨_, herr⟩ | ⟨hroom, _⟩
  · rw [passByte, herr]
    rfl
  · exact absurd h hroom

theorem passBytes_room {cap : Reg32} {e : Engine} (turns : List (Byte × Byte))
    (hroom : e.outLen.toNat + turns.length ≤ cap.toNat) :
    passBytes cap turns e =
      .ok (afterPass e (turns.map Prod.fst) ((turns.map Prod.snd).getLastD e.pPrev)) := by
  induction turns generalizing e with
  | nil => exact congrArg Except.ok (afterPass_nil e).symm
  | cons turn turns ih =>
    obtain ⟨y, p⟩ := turn
    rw [List.length_cons] at hroom
    have hne : e.outLen ≠ cap := fun h => by rw [h] at hroom; omega
    obtain ⟨hsucc, _⟩ := outLen_succ_toNat (show e.outLen.toNat ≤ cap.toNat by omega) hne
    rw [passBytes, passByte_room y p hne, eff_ok_bind,
      ih (show (e.outLen + 1).toNat + turns.length ≤ cap.toNat by omega), afterPass_cons hsucc, List.map_cons,
      List.map_cons, List.getLastD_cons]
    rfl

theorem passBytes_no_room {cap : Reg32} {e : Engine} (turns : List (Byte × Byte)) (hle : e.outLen ≤ cap)
    (hroom : cap.toNat < e.outLen.toNat + turns.length) :
    ∃ e1, passBytes cap turns e = .error (.allocationFailure, e1) := by
  induction turns generalizing e with
  | nil => exact absurd hle (Nat.not_le.2 hroom)
  | cons turn turns ih =>
    obtain ⟨y, p⟩ := turn
    rw [List.length_cons] at hroom
    rw [passBytes]
    by_cases hfull : e.outLen = cap
    · exact ⟨consume e, by rw [passByte_full y p hfull, eff_error_bind]⟩
    · obtain ⟨hsucc, hle1⟩ := outLen_succ_toNat hle hfull
      rw [passByte_room y p hfull, eff_ok_bind]
      exact ih hle1 (show cap.toNat < (e.outLen + 1).toNat + turns.length by omega)

/-- `PRED.A` puts the deltas out and keeps the bytes of the block (R140). -/
theorem predApplyLoop_eq_passBytes (cap : Reg32) (x : List Byte) (e : Engine) :
    predApplyLoop cap x e = passBytes cap ((deltasFrom e.pPrev x).zip x) e := by
  induction x generalizing e with
  | nil => rfl
  | cons b bs ih =>
    rw [deltasFrom, List.zip_cons_cons, passBytes, passByte, predApplyLoop, consume_pPrev]
    cases outByte cap (b - e.pPrev) (consume e) with
    | ok e1 => exact ih { e1 with pPrev := b }
    | error p => rfl

/-- `PRED.U` puts the running sums out and keeps them (R141). -/
theorem predUndoLoop_eq_passBytes (cap : Reg32) (x : List Byte) (e : Engine) :
    predUndoLoop cap x e = passBytes cap ((sumsFrom e.pPrev x).zip (sumsFrom e.pPrev x)) e := by
  induction x generalizing e with
  | nil => rfl
  | cons d ds ih =>
    rw [sumsFrom, List.zip_cons_cons, passBytes, passByte, predUndoLoop, undoByte, consume_pPrev]
    cases outByte cap (d + e.pPrev) (consume e) with
    | ok e1 => exact ih { e1 with pPrev := d + e.pPrev }
    | error p => rfl

end Sys2Proof.Machine
end

section
/-! The two predictor commands: bodies that put out one byte for each byte of the block (R140, R141), inverse to each
other (R142), and their frame. -/

namespace Sys2Proof.Machine

-- The bodies

/-- What the two bodies have in common: on the block `x` the bytes `coded x`, as many as those of `x`, go out, `last x`
stays in `P_PREV`, and the output side is the only thing that can be too small (R204). -/
structure PredictorBody (body : Reg32 → List Byte → Engine → Eff Engine) (coded : List Byte → List Byte)
    (last : List Byte → Byte) : Prop where
  length : ∀ x, (coded x).length = x.length
  room : ∀ (cap : Reg32) (x : List Byte) (e : Engine), x.length ≤ cap.toNat →
    body cap x e.start = .ok (afterPass e.start (coded x) (last x))
  no_room : ∀ (cap : Reg32) (x : List Byte) (e : Engine), cap.toNat < x.length →
    ∃ e1, body cap x e.start = .error (.allocationFailure, e1)

/-- A body of turns from `P_PREV` = 0 that puts `coded x` out and keeps `kept x`. -/
theorem predictorBody_of_passBytes {body : Reg32 → List Byte → Engine → Eff Engine}
    {coded kept : List Byte → List Byte} (hcoded : ∀ x, (coded x).length = x.length)
    (hkept : ∀ x, (kept x).length = x.length)
    (hbody : ∀ cap x e, body cap x e = passBytes cap ((coded x).zip (kept x)) { e with pPrev := 0 }) :
    PredictorBody body coded fun x => (kept x).getLastD 0 := by
  have hlength : ∀ x, ((coded x).zip (kept x)).length = x.length := fun x => by
    rw [List.length_zip, hcoded, hkept, min_self]
  refine ⟨hcoded, fun cap x e hroom => ?_, fun cap x e hroom => ?_⟩
  · rw [hbody, passBytes_room _ (by rw [hlength]; exact (Nat.zero_add _).le.trans hroom),
      List.map_fst_zip (by rw [hcoded, hkept]), List.map_snd_zip (by rw [hcoded, hkept])]
    rfl
  · rw [hbody]
    exact passBytes_no_room _ (Nat.zero_le _) (by rw [hlength]; exact hroom.trans_eq (Nat.zero_add _).symm)

theorem predictorBody_predApply : PredictorBody predApply deltas (·.getLastD 0) :=
  predictorBody_of_passBytes (deltasFrom_length 0) (fun _ => rfl) fun cap x _ => predApplyLoop_eq_passBytes cap x _

theorem predictorBody_predUndo : PredictorBody predUndo sums List.sum := by
  have hlast : (fun x => (sums x).getLastD 0) = List.sum := by
    funext x
    rw [sums, sumsFrom_getLastD, zero_add]
  rw [← hlast]
  exact predictorBody_of_passBytes (sumsFrom_length 0) (sumsFrom_length 0) fun cap x _ =>
    predUndoLoop_eq_passBytes cap x _

-- The commands

theorem inBlock_getElem {s : State} {n : Nat} (h : n < (inBlock s).length) : (inBlock s)[n] = inByte s n := by
  simp [inBlock]

section
variable {body : Reg32 → List Byte → Engine → Eff Engine} {coded : List Byte → List Byte} {last : List Byte → Byte}
  {w : BitVec 8} {s t : State}

/-- A block that fits the output: of the engine only the output side, `IN_POS` and `P_PREV` change (R210). -/
theorem PredictorBody.completes (hbody : PredictorBody body coded last) (h : Ready s)
    (hroom : s.inLen ≤ s.caps.outCap) :
    ∃ t, runCommand w (body s.caps.outCap) s = .next t ∧ Completed t ∧ t.cmd = w ∧ HostSideKept s t ∧
      OutputIs (coded (inBlock s)) t ∧ t.eng.outLen = s.inLen ∧
      t.eng = { s.eng.start with
        outLen := s.inLen, outBuf := t.eng.outBuf, inPos := s.inLen, pPrev := last (inBlock s) } := by
  have hlength : (coded (inBlock s)).length = s.inLen.toNat := (hbody.length _).trans (inBlock_length s)
  obtain ⟨t, hexec, hcompleted, hcmd, hhost, heng⟩ := runCommand_completes (w := w) h
    (hbody.room s.caps.outCap (inBlock s) s.eng (by rw [inBlock_length]; exact hroom))
  have hout : OutputIs (coded (inBlock s)) t := by
    have := outputHolds_afterPass (e := s.eng.start) (last (inBlock s)) rfl rfl (hlength ▸ s.inLen.isLt)
    rwa [← heng] at this
  have hlen : t.eng.outLen = s.inLen := BitVec.eq_of_toNat_eq (hout.1.trans hlength)
  refine ⟨t, hexec, hcompleted, hcmd, hhost, hout, hlen, ?_⟩
  have hcount : (0 : Reg32) + BitVec.ofNat 32 (coded (inBlock s)).length = s.inLen := by
    rw [zero_add, hlength, BitVec.ofNat_toNat, BitVec.setWidth_eq]
  rw [heng]
  simp only [afterPass, engineStart_outLen, engineStart_inPos, hcount]

/-- A block too long for the output (R204(b)). -/
theorem PredictorBody.fails (hbody : PredictorBody body coded last) (h : Ready s) (hroom : s.caps.outCap < s.inLen) :
    ∃ t, runCommand w (body s.caps.outCap) s = .next t ∧ FailedWith .allocationFailure t := by
  obtain ⟨e, herr⟩ := hbody.no_room s.caps.outCap (inBlock s) s.eng (by rw [inBlock_length]; exact hroom)
  obtain ⟨t, hexec, hfailed, _⟩ := runCommand_fails (w := w) h herr
  exact ⟨t, hexec, hfailed⟩

/-- A predictor command that completed had room for its output. -/
theorem PredictorBody.outputIs_of_completed (hbody : PredictorBody body coded last) (h : Ready s)
    (hexec : runCommand w (body s.caps.outCap) s = .next t) (ht : Completed t) : OutputIs (coded (inBlock s)) t := by
  by_cases hroom : s.inLen ≤ s.caps.outCap
  · obtain ⟨t1, hexec1, _, _, _, hout, _⟩ := hbody.completes (w := w) h hroom
    cases hexec1.symm.trans hexec
    exact hout
  · obtain ⟨t1, hexec1, herror, _⟩ := hbody.fails (w := w) h (BitVec.not_le.1 hroom)
    cases hexec1.symm.trans hexec
    cases herror.symm.trans ht.1

/-- A second command that undoes what the first one codes, on the output of the first (R142). -/
theorem PredictorBody.inverse {body1 : Reg32 → List Byte → Engine → Eff Engine} {coded1 : List Byte → List Byte}
    {last1 : List Byte → Byte} {w1 : BitVec 8} {u : State} (hbody : PredictorBody body coded last)
    (hbody1 : PredictorBody body1 coded1 last1) (hinverse : ∀ x, coded1 (coded x) = x) (h : Ready s)
    (hexec : runCommand w (body s.caps.outCap) s = .next t) (ht : Completed t) (hu : Ready u)
    (hblock : inBlock u = outBlock t) (hroom : s.inLen ≤ u.caps.outCap) :
    ∃ v, runCommand w1 (body1 u.caps.outCap) u = .next v ∧ Completed v ∧ OutputIs (inBlock s) v := by
  rw [outBlock_of_outputIs (hbody.outputIs_of_completed h hexec ht)] at hblock
  have hlen : u.inLen = s.inLen := BitVec.eq_of_toNat_eq (by
    rw [← inBlock_length, hblock, hbody.length, inBlock_length])
  obtain ⟨v, hv, hcompleted, _, _, hout, _⟩ := hbody1.completes (w := w1) hu (hlen ▸ hroom)
  rw [hblock, hinverse] at hout
  exact ⟨v, hv, hcompleted, hout⟩

end

/-- Settles O32: the body puts the deltas out. -/
theorem predictorApplyComputesDeltas : Obligations.PredictorApplyComputesDeltas := by
  refine ⟨rfl, fun s hready => ⟨fun hroom => ?_, predictorBody_predApply.fails hready⟩⟩
  obtain ⟨t, hexec, hcompleted, hcmd, hhost, hout, hlen, heng⟩ :=
    predictorBody_predApply.completes (w := encode .predA) hready hroom
  refine ⟨t, deltas (inBlock s), hexec, hcompleted, hcmd, hhost, hout, hlen, fun n hn => ?_, heng⟩
  rw [← inBlock_length] at hn
  rw [deltas, deltasFrom_getElem? 0 hn, inBlock_getElem, inBlock_getElem]

/-- Settles O33: the body puts the running sums out. -/
theorem predictorUndoComputesSums : Obligations.PredictorUndoComputesSums := by
  refine ⟨rfl, fun s hready => ⟨fun hroom => ?_, predictorBody_predUndo.fails hready⟩⟩
  obtain ⟨t, hexec, hcompleted, hcmd, hhost, hout, hlen, heng⟩ :=
    predictorBody_predUndo.completes (w := encode .predU) hready hroom
  refine ⟨t, sums (inBlock s), hexec, hcompleted, hcmd, hhost, hout, hlen, fun n hn => ?_, heng⟩
  rw [← inBlock_length] at hn
  rw [sums, sumsFrom_getElem? 0 hn, zero_add]

/-- Settles O34: deltas and running sums undo each other, from the same first value. -/
theorem predictorCommandsAreInverse : Obligations.PredictorCommandsAreInverse := by
  refine ⟨fun s t u => ?_, fun s t u => ?_, rfl, rfl, fun n => deltasFrom_replicate_self n 0, fun n => ?_⟩
  · exact predictorBody_predApply.inverse predictorBody_predUndo (sumsFrom_deltasFrom 0)
  · exact predictorBody_predUndo.inverse predictorBody_predApply (deltasFrom_sumsFrom 0)
  · rw [List.replicate_succ, deltas, deltasFrom, deltasFrom_replicate_self, sub_zero]

-- The frame

/-- What the predictor commands leave as command start does, from the engine `e0` before it. -/
def PredictorKept (e0 e : Engine) : Prop :=
  HuffmanStateKept e0 e ∧ LzwStateKept e0 e ∧ WriterKept e0 e ∧ ReaderKept e0 e

theorem predictorKept_start (e : Engine) : PredictorKept e e.start :=
  ⟨huffmanStateKept_start e, ⟨rfl, rfl, rfl, rfl, rfl⟩, ⟨rfl, rfl, rfl⟩, rfl, rfl⟩

theorem outByte_predictorKept {cap : Reg32} {e0 : Engine} (b : Byte) (e : Engine) (h : PredictorKept e0 e) :
    EffKeeps (PredictorKept e0) id (outByte cap b e) := outByte_keeps h fun _ => h

theorem predApply_predictorKept (cap : Reg32) (x : List Byte) {e0 e : Engine} (h : PredictorKept e0 e) :
    EffKeeps (PredictorKept e0) id (predApply cap x e) :=
  predApply_keeps outByte_predictorKept (fun _ _ h => h) (fun _ h => h) x e h

theorem predUndo_predictorKept (cap : Reg32) (x : List Byte) {e0 e : Engine} (h : PredictorKept e0 e) :
    EffKeeps (PredictorKept e0) id (predUndo cap x e) :=
  predUndo_keeps outByte_predictorKept (fun _ _ h => h) (fun _ h => h) x e h

/-- Settles O35: the loops write the output side, `IN_POS` and `P_PREV` only. -/
theorem predictorFrame : Obligations.PredictorFrame := by
  intro i s t hi hbusy h
  have hkept : PredictorKept s.eng t.eng ∧ HostSideKept s t := by
    rcases hi with rfl | rfl
    · exact runCommand_frame (P := PredictorKept s.eng) (fun _ h => h) (predictorKept_start s.eng)
        (predApply_predictorKept s.caps.outCap (inBlock s) (predictorKept_start s.eng)) hbusy h
    · exact runCommand_frame (P := PredictorKept s.eng) (fun _ h => h) (predictorKept_start s.eng)
        (predUndo_predictorKept s.caps.outCap (inBlock s) (predictorKept_start s.eng)) hbusy h
  obtain ⟨⟨hhuffman, hlzw, hwriter, hreader⟩, hhost⟩ := hkept
  exact ⟨hhuffman, hlzw, hwriter, hreader, hhost⟩

end Sys2Proof.Machine
end

section
/-! Huffman trees on lists (R150, R155, R156, R160): codes and the walks they steer, serialised trees, and the number a
field of bits was written from. -/

namespace Sys2Proof.Machine

theorem treeSymbols_length_pos (t : HuffTree) : 0 < (treeSymbols t).length := by
  induction t with
  | leaf s => exact Nat.one_pos
  | node l r ihl _ =>
    rw [treeSymbols, List.length_append]
    exact Nat.add_pos_left ihl _

/-- A tree with `L` leaves has 2`L` − 1 nodes (R150). -/
theorem treeNodes_eq (t : HuffTree) : treeNodes t = 2 * (treeSymbols t).length - 1 := by
  induction t with
  | leaf s => rfl
  | node l r ihl ihr =>
    have hl := treeSymbols_length_pos l
    have hr := treeSymbols_length_pos r
    rw [treeNodes, treeSymbols, List.length_append]
    omega

theorem treeNodes_pos (t : HuffTree) : 0 < treeNodes t := by
  have := treeSymbols_length_pos t
  rw [treeNodes_eq]
  omega

-- Codes

/-- The code of a symbol under an internal node goes left or right (R155). -/
theorem treeCode_node {s : Byte} {l r : HuffTree} {c : List Bool} (h : treeCode s (.node l r) = some c) :
    (∃ p, treeCode s l = some p ∧ c = false :: p) ∨ ∃ p, treeCode s r = some p ∧ c = true :: p := by
  rw [treeCode] at h
  cases hl : treeCode s l with
  | some p =>
    rw [hl] at h
    exact .inl ⟨p, rfl, (Option.some.inj h).symm⟩
  | none =>
    rw [hl] at h
    obtain ⟨p, hp, hc⟩ := Option.map_eq_some_iff.1 h
    exact .inr ⟨p, hp, hc.symm⟩

theorem exists_treeCode {s : Byte} {t : HuffTree} (h : s ∈ treeSymbols t) : ∃ c, treeCode s t = some c := by
  induction t with
  | leaf q => exact ⟨[], if_pos (List.mem_singleton.1 h).symm⟩
  | node l r ihl ihr =>
    rw [treeCode]
    cases hl : treeCode s l with
    | some p => exact ⟨_, rfl⟩
    | none =>
      rcases List.mem_append.1 h with hmem | hmem
      · obtain ⟨p, hp⟩ := ihl hmem
        cases hl.symm.trans hp
      · obtain ⟨p, hp⟩ := ihr hmem
        exact ⟨true :: p, by rw [hp]; rfl⟩

/-- A path has fewer edges than the tree has leaves (R155, R164). -/
theorem treeCode_length_lt {s : Byte} {t : HuffTree} {c : List Bool} (h : treeCode s t = some c) :
    c.length < (treeSymbols t).length := by
  induction t generalizing c with
  | leaf q =>
    rw [treeCode] at h
    split at h
    · cases h
      exact Nat.one_pos
    · cases h
  | node l r ihl ihr =>
    have hl := treeSymbols_length_pos l
    have hr := treeSymbols_length_pos r
    rw [treeSymbols, List.length_append]
    rcases treeCode_node h with ⟨p, hp, rfl⟩ | ⟨p, hp, rfl⟩
    · have := ihl hp
      rw [List.length_cons]
      omega
    · have := ihr hp
      rw [List.length_cons]
      omega

/-- The code of a symbol steers the walk to a leaf with that symbol (R155, R160). -/
theorem treeWalk_treeCode {s : Byte} {t : HuffTree} {c : List Bool} (h : treeCode s t = some c) (bs : List Bool) :
    treeWalk t (c ++ bs) = some (s, bs) := by
  induction t generalizing c with
  | leaf q =>
    rw [treeCode] at h
    split at h
    next hq =>
      cases h
      rw [← hq]
      rfl
    next => cases h
  | node l r ihl ihr =>
    rcases treeCode_node h with ⟨p, hp, rfl⟩ | ⟨p, hp, rfl⟩
    · exact ihl hp
    · exact ihr hp

/-- No code is the beginning of another symbol's: the walk it steers has ended (R155). -/
theorem eq_of_treeCode_prefix {s q : Byte} {t : HuffTree} {c d : List Bool} (hs : treeCode s t = some c)
    (hq : treeCode q t = some d) (h : c <+: d) : s = q := by
  obtain ⟨bs, rfl⟩ := h
  have hwalk := treeWalk_treeCode hq []
  rw [List.append_nil, treeWalk_treeCode hs bs] at hwalk
  exact congrArg Prod.fst (Option.some.inj hwalk)

theorem treeDecode_succ {t : HuffTree} {n : Nat} {bs : List Bool} {ys : List Byte}
    (h : treeDecode t (n + 1) bs = some ys) :
    ∃ s rest zs, treeWalk t bs = some (s, rest) ∧ treeDecode t n rest = some zs ∧ ys = s :: zs := by
  rw [treeDecode] at h
  cases hw : treeWalk t bs with
  | none =>
    rw [hw] at h
    cases h
  | some p =>
    rw [hw] at h
    obtain ⟨zs, hzs, hys⟩ := Option.map_eq_some_iff.1 h
    exact ⟨p.1, p.2, zs, rfl, hzs, hys.symm⟩

theorem treeDecode_succ_of_walk {t : HuffTree} {n : Nat} {bs rest : List Bool} {s : Byte}
    (h : treeWalk t bs = some (s, rest)) : treeDecode t (n + 1) bs = (treeDecode t n rest).map (s :: ·) := by
  rw [treeDecode, h]

theorem treeDecode_length {t : HuffTree} {n : Nat} {bs : List Bool} {ys : List Byte}
    (h : treeDecode t n bs = some ys) : ys.length = n := by
  induction n generalizing bs ys with
  | zero =>
    cases h
    rfl
  | succ n ih =>
    obtain ⟨s, rest, zs, _, hzs, rfl⟩ := treeDecode_succ h
    rw [List.length_cons, ih hzs]

/-- Codes of symbols of the tree decode to the symbols, whatever follows (R155, R162, R165). -/
theorem treeDecode_codes {t : HuffTree} (x : List Byte) (hx : ∀ b ∈ x, b ∈ treeSymbols t) (bs : List Bool) :
    treeDecode t x.length ((x.flatMap fun b => (treeCode b t).getD []) ++ bs) = some x := by
  induction x with
  | nil => rfl
  | cons b x ih =>
    obtain ⟨c, hc⟩ := exists_treeCode (hx b List.mem_cons_self)
    rw [List.flatMap_cons, List.append_assoc, hc, Option.getD_some, List.length_cons,
      treeDecode_succ_of_walk (treeWalk_treeCode hc _), ih fun a ha => hx a (List.mem_cons_of_mem b ha)]
    rfl

-- Serialised trees

theorem bitsOf_injective {w : Nat} (o : BitOrder) {u v : BitVec w} (h : bitsOf o u = bitsOf o v) : u = v :=
  BitVec.eq_of_toNat_eq (by rw [← bitsValue_bitsOf o u, h, bitsValue_bitsOf])

/-- Fields of one width at the beginning of a stream. -/
theorem bitsOf_append_inj {w : Nat} {o : BitOrder} {u v : BitVec w} {bs cs : List Bool}
    (h : bitsOf o u ++ bs = bitsOf o v ++ cs) : u = v ∧ bs = cs := by
  obtain ⟨huv, hrest⟩ := List.append_inj h (by rw [bitsOf_length, bitsOf_length])
  exact ⟨bitsOf_injective o huv, hrest⟩

theorem treeBits_append_ne_nil (t : HuffTree) (bs : List Bool) : treeBits t ++ bs ≠ [] := by
  cases t with
  | leaf s => exact List.cons_ne_nil _ _
  | node l r => exact List.cons_ne_nil _ _

/-- A tree that begins with 0 is an internal node on its two subtrees (R156). -/
theorem eq_node_of_treeBits {t : HuffTree} {bits rest : List Bool}
    (hbits : false :: bits = treeBits t ++ rest) :
    ∃ l r, t = .node l r ∧ bits = treeBits l ++ (treeBits r ++ rest) := by
  cases t with
  | leaf q => cases hbits
  | node l r => exact ⟨l, r, rfl, by simpa [treeBits] using hbits⟩

/-- No serialised tree is the beginning of another (R156, R157). -/
theorem treeBits_append_inj {t u : HuffTree} {bs cs : List Bool} (h : treeBits t ++ bs = treeBits u ++ cs) :
    t = u ∧ bs = cs := by
  induction t generalizing u bs cs with
  | leaf s =>
    cases u with
    | leaf q =>
      obtain ⟨rfl, hrest⟩ := bitsOf_append_inj (List.tail_eq_of_cons_eq h)
      exact ⟨rfl, hrest⟩
    | node l r => cases List.head_eq_of_cons_eq h
  | node l r ihl ihr =>
    cases u with
    | leaf q => cases List.head_eq_of_cons_eq h
    | node l1 r1 =>
      have htail : treeBits l ++ (treeBits r ++ bs) = treeBits l1 ++ (treeBits r1 ++ cs) := by
        simpa [treeBits] using h
      obtain ⟨rfl, hright⟩ := ihl htail
      obtain ⟨rfl, hrest⟩ := ihr hright
      exact ⟨rfl, hrest⟩

end Sys2Proof.Machine
end

section
/-! The greedy merge on lists (R152 to R154): the first lowest tree of a forest, what the merges keep, and the tree of a
block. -/

namespace Sys2Proof.Machine

-- The first of lowest weight

/-- `a` is the first element of lowest weight of `l`, and `rest` are the others in their order (R153). -/
def FirstLowest {α : Type} (w : α → Nat) (l : List α) (a : α) (rest : List α) : Prop :=
  ∃ pre post, l = pre ++ a :: post ∧ rest = pre ++ post ∧ (∀ b ∈ pre, w a < w b) ∧ ∀ b ∈ post, w a ≤ w b

theorem FirstLowest.perm {α : Type} {w : α → Nat} {l rest : List α} {a : α} (h : FirstLowest w l a rest) :
    l.Perm (a :: rest) := by
  obtain ⟨pre, post, rfl, rfl, _⟩ := h
  exact List.perm_middle

/-- The first lowest of a list of labels is the label of the first lowest. -/
theorem FirstLowest.of_map {α β : Type} {w : β → Nat} {g : α → β} {l : List α} {b : β} {rest : List β}
    (h : FirstLowest w (l.map g) b rest) : ∃ a k, FirstLowest (w ∘ g) l a k ∧ g a = b ∧ k.map g = rest := by
  obtain ⟨pre, post, hl, rfl, hpre, hpost⟩ := h
  obtain ⟨k, k1, rfl, rfl, hk1⟩ := List.map_eq_append_iff.1 hl
  obtain ⟨a, k2, rfl, rfl, rfl⟩ := List.map_eq_cons_iff.1 hk1
  exact ⟨a, k ++ k2, ⟨k, k2, rfl, rfl, fun b hb => hpre _ (List.mem_map_of_mem hb),
    fun b hb => hpost _ (List.mem_map_of_mem hb)⟩, rfl, List.map_append⟩

theorem FirstLowest.map {α β : Type} {w : β → Nat} {g : α → β} {l rest : List α} {a : α}
    (h : FirstLowest (w ∘ g) l a rest) : FirstLowest w (l.map g) (g a) (rest.map g) := by
  obtain ⟨pre, post, rfl, rfl, hpre, hpost⟩ := h
  exact ⟨pre.map g, post.map g, by rw [List.map_append, List.map_cons], List.map_append,
    List.forall_mem_map.2 hpre, List.forall_mem_map.2 hpost⟩

/-- Everything `takeLowest` can do. -/
theorem takeLowest_cases (f : Forest) :
    (f = [] ∧ takeLowest f = none) ∨ ∃ a g, takeLowest f = some (a, g) ∧ FirstLowest Prod.fst f a g := by
  induction f with
  | nil => exact .inl ⟨rfl, rfl⟩
  | cons c f ih =>
    right
    rw [takeLowest]
    rcases ih with ⟨rfl, hnone⟩ | ⟨a, g, hsome, pre, post, rfl, rfl, hpre, hpost⟩
    · rw [hnone]
      exact ⟨c, [], rfl, [], [], rfl, rfl, nofun, nofun⟩
    · rw [hsome]
      simp only
      by_cases hlt : a.1 < c.1
      · rw [if_pos hlt]
        exact ⟨a, c :: (pre ++ post), rfl, c :: pre, post, rfl, rfl, List.forall_mem_cons.2 ⟨hlt, hpre⟩, hpost⟩
      · rw [if_neg hlt]
        have hle : c.1 ≤ a.1 := not_lt.1 hlt
        refine ⟨c, pre ++ a :: post, rfl, [], pre ++ a :: post, rfl, rfl, nofun, ?_⟩
        exact List.forall_mem_append.2 ⟨fun b hb => hle.trans (hpre b hb).le,
          List.forall_mem_cons.2 ⟨hle, fun b hb => hle.trans (hpost b hb)⟩⟩

-- Merges

/-- The forest after its trees `a` and `b` have been merged, `rest` being the others (R152). -/
def mergedForest (a b : Nat × HuffTree) (rest : Forest) : Forest := rest ++ [(a.1 + b.1, .node a.2 b.2)]

/-- One turn of the greedy merge: at most one tree is there, or the two lowest are merged. -/
theorem mergeForest_cases (f : Forest) :
    (f.length ≤ 1 ∧ ∀ n, mergeForest n f = f) ∨
    ∃ a g b rest, FirstLowest Prod.fst f a g ∧ FirstLowest Prod.fst g b rest ∧
      ∀ n, mergeForest (n + 1) f = mergeForest n (mergedForest a b rest) := by
  rcases takeLowest_cases f with ⟨rfl, _⟩ | ⟨a, g, hsome, hlow⟩
  · exact .inl ⟨Nat.zero_le _, fun n => by cases n <;> rfl⟩
  · rcases takeLowest_cases g with ⟨rfl, hnone⟩ | ⟨b, rest, hsome1, hlow1⟩
    · refine .inl ⟨hlow.perm.length_eq.le, fun n => ?_⟩
      cases n with
      | zero => rfl
      | succ n => simp only [mergeForest, hsome, hnone]
    · exact .inr ⟨a, g, b, rest, hlow, hlow1, fun n => by simp only [mergeForest, hsome, hsome1, mergedForest]⟩

/-- The symbols of all leaves of a forest. -/
def forestSymbols (f : Forest) : List Byte := f.flatMap fun p => treeSymbols p.2

/-- The sum of the frequencies of a forest. -/
def forestWeight (f : Forest) : Nat := (f.map Prod.fst).sum

/-- The second forest has one tree less, on the same leaves and of the same frequency in all. -/
structure MergeKeeps (f g : Forest) : Prop where
  symbols : (forestSymbols g).Perm (forestSymbols f)
  weight : forestWeight g = forestWeight f
  length : g.length + 1 = f.length

theorem mergeKeeps_mergedForest {f g rest : Forest} {a b : Nat × HuffTree} (ha : FirstLowest Prod.fst f a g)
    (hb : FirstLowest Prod.fst g b rest) : MergeKeeps f (mergedForest a b rest) := by
  have hperm : f.Perm (a :: b :: rest) := ha.perm.trans (hb.perm.cons a)
  refine ⟨?_, ?_, ?_⟩
  · have hfront : (forestSymbols (mergedForest a b rest)).Perm (forestSymbols (a :: b :: rest)) := by
      simp only [forestSymbols, mergedForest, List.flatMap_append, List.flatMap_cons, List.flatMap_nil,
        List.append_nil, treeSymbols, ← List.append_assoc (treeSymbols a.2)]
      exact List.perm_append_comm
    exact hfront.trans (hperm.flatMap_right _).symm
  · simp only [forestWeight, mergedForest, (hperm.map Prod.fst).sum_eq, List.map_append, List.sum_append,
      List.map_cons, List.sum_cons, List.map_nil, List.sum_nil]
    omega
  · rw [hperm.length_eq, mergedForest, List.length_append, List.length_singleton, List.length_cons,
      List.length_cons]

/-- The merges end with one tree, on the leaves of the forest (R152). -/
theorem mergeForest_eq_singleton {n : Nat} {f : Forest} (hne : f ≠ []) (hlen : f.length ≤ n + 1) :
    ∃ p, mergeForest n f = [p] ∧ (treeSymbols p.2).Perm (forestSymbols f) := by
  induction n generalizing f with
  | zero =>
    obtain ⟨p, rfl⟩ := List.length_eq_one_iff.1 (le_antisymm hlen (List.length_pos_of_ne_nil hne))
    exact ⟨p, rfl, by simp [forestSymbols]⟩
  | succ n ih =>
    rcases mergeForest_cases f with ⟨hone, hend⟩ | ⟨a, g, b, rest, ha, hb, hturn⟩
    · obtain ⟨p, rfl⟩ := List.length_eq_one_iff.1 (le_antisymm hone (List.length_pos_of_ne_nil hne))
      exact ⟨p, hend _, by simp [forestSymbols]⟩
    · have hkeeps := mergeKeeps_mergedForest ha hb
      have hlength := hkeeps.length
      have hne1 : mergedForest a b rest ≠ [] := List.append_ne_nil_of_right_ne_nil rest (List.cons_ne_nil _ _)
      obtain ⟨p, hp, hperm⟩ := ih hne1 (by omega)
      exact ⟨p, by rw [hturn, hp], hperm.trans hkeeps.symbols⟩

/-- More turns than there are merges change nothing (log 13). -/
theorem mergeForest_add {n : Nat} {f : Forest} (hlen : f.length ≤ n + 1) (k : Nat) :
    mergeForest (n + k) f = mergeForest n f := by
  induction n generalizing f with
  | zero =>
    rcases mergeForest_cases f with ⟨_, hend⟩ | ⟨a, g, b, rest, ha, hb, _⟩
    · rw [hend, hend]
    · have hf := ha.perm.length_eq
      have hg := hb.perm.length_eq
      rw [List.length_cons] at hf hg
      omega
  | succ n ih =>
    rcases mergeForest_cases f with ⟨_, hend⟩ | ⟨a, g, b, rest, ha, hb, hturn⟩
    · rw [hend, hend]
    · have hlength := (mergeKeeps_mergedForest ha hb).length
      rw [Nat.add_right_comm, hturn, hturn, ih (by omega)]

-- The leaves of a block

/-- The distinct bytes of a block, ascending (R152). -/
def blockSymbols (x : List Byte) : List Byte :=
  ((List.range Config.alphabet).map (BitVec.ofNat 8)).filter fun b => 0 < x.count b

theorem mem_blockSymbols {x : List Byte} {b : Byte} : b ∈ blockSymbols x ↔ b ∈ x := by
  have hall : b ∈ (List.range Config.alphabet).map (BitVec.ofNat 8) :=
    List.mem_map.2 ⟨b.toNat, List.mem_range.2 b.isLt, by rw [BitVec.ofNat_toNat, BitVec.setWidth_eq]⟩
  rw [blockSymbols, List.mem_filter, decide_eq_true_eq, List.count_pos_iff]
  exact and_iff_right hall

theorem nodup_blockSymbols (x : List Byte) : (blockSymbols x).Nodup := by
  refine List.Nodup.filter _ (List.Nodup.map_on (fun m hm n hn h => ?_) List.nodup_range)
  rw [List.mem_range] at hm hn
  have hmn := congrArg BitVec.toNat h
  rwa [BitVec.toNat_ofNat, BitVec.toNat_ofNat, Nat.mod_eq_of_lt hm, Nat.mod_eq_of_lt hn] at hmn

theorem blockSymbols_length_le (x : List Byte) : (blockSymbols x).length ≤ 256 := by
  refine (List.length_filter_le _ _).trans ?_
  rw [List.length_map, List.length_range]

theorem blockSymbols_eq_nil {x : List Byte} : blockSymbols x = [] ↔ x = [] := by
  simp only [List.eq_nil_iff_forall_not_mem, mem_blockSymbols]

/-- The leaf that a symbol of a block gets (R152). -/
def symbolLeaf (x : List Byte) (b : Byte) : Nat × HuffTree := (x.count b, .leaf b)

theorem leafForest_eq (x : List Byte) :
    leafForest x = if x = [] then [(0, .leaf 0)] else (blockSymbols x).map (symbolLeaf x) := by
  have hleaves : ((List.range Config.alphabet).filterMap fun s =>
      let b := BitVec.ofNat 8 s
      if 0 < x.count b then some (x.count b, HuffTree.leaf b) else none) = (blockSymbols x).map (symbolLeaf x) := by
    rw [blockSymbols, List.filter_map, List.map_map, ← List.filterMap_eq_map, List.filterMap_filter]
    refine List.filterMap_congr fun s _ => ?_
    simp [symbolLeaf]
  rw [leafForest]
  simp only [hleaves, List.map_eq_nil_iff, blockSymbols_eq_nil]

theorem leafForest_ne_nil (x : List Byte) : leafForest x ≠ [] := by
  rw [leafForest_eq]
  split
  next => exact List.cons_ne_nil _ _
  next h => exact fun hnil => h (blockSymbols_eq_nil.1 (List.map_eq_nil_iff.1 hnil))

theorem leafForest_length_le (x : List Byte) : (leafForest x).length ≤ 256 := by
  rw [leafForest_eq]
  split
  next => exact Nat.le_add_left 1 255
  next => rw [List.length_map]; exact blockSymbols_length_le x

theorem forestSymbols_leafForest {x : List Byte} (h : x ≠ []) : forestSymbols (leafForest x) = blockSymbols x := by
  rw [leafForest_eq, if_neg h, forestSymbols, List.flatMap_map]
  exact List.flatMap_singleton' _

/-- The frequencies of the leaves add up to the length of the block (R151). -/
theorem forestWeight_leafForest (x : List Byte) : forestWeight (leafForest x) = x.length := by
  rw [leafForest_eq]
  split
  next h => rw [h]; rfl
  next =>
    have hperm : (blockSymbols x).Perm x.dedup := (List.perm_ext_iff_of_nodup (nodup_blockSymbols x)
      (List.nodup_dedup x)).2 fun b => mem_blockSymbols.trans List.mem_dedup.symm
    rw [forestWeight, List.map_map, (hperm.map _).sum_eq]
    exact List.sum_map_count_dedup_eq_length x

-- The tree of a block

theorem blockTree_nil : blockTree [] = .leaf 0x00 := by
  rcases mergeForest_cases (leafForest []) with ⟨_, hend⟩ | ⟨a, g, b, rest, ha, hb, _⟩
  · rw [blockTree, hend, leafForest_eq, if_pos rfl]
  · have hf := ha.perm.length_eq
    have hg := hb.perm.length_eq
    rw [leafForest_eq, if_pos rfl, List.length_singleton, List.length_cons] at hf
    rw [List.length_cons] at hg
    omega

/-- The merges leave the tree of the block and nothing else (R152). -/
theorem mergeForest_leafForest (x : List Byte) :
    ∃ w, mergeForest Config.alphabet (leafForest x) = [(w, blockTree x)] ∧
      (treeSymbols (blockTree x)).Perm (forestSymbols (leafForest x)) := by
  obtain ⟨p, hp, hperm⟩ := mergeForest_eq_singleton (n := Config.alphabet) (leafForest_ne_nil x)
    ((leafForest_length_le x).trans (Nat.le_succ _))
  have htree : blockTree x = p.2 := by rw [blockTree, hp]
  rw [htree]
  exact ⟨p.1, hp, hperm⟩

/-- One leaf for each distinct byte of the block (R154). -/
theorem treeSymbols_blockTree {x : List Byte} (h : x ≠ []) : (treeSymbols (blockTree x)).Perm (blockSymbols x) := by
  obtain ⟨_, _, hperm⟩ := mergeForest_leafForest x
  rwa [forestSymbols_leafForest h] at hperm

theorem mem_treeSymbols_blockTree {x : List Byte} {b : Byte} (h : b ∈ x) : b ∈ treeSymbols (blockTree x) :=
  (treeSymbols_blockTree (List.ne_nil_of_mem h)).mem_iff.2 (mem_blockSymbols.2 h)

theorem nodup_treeSymbols_blockTree (x : List Byte) : (treeSymbols (blockTree x)).Nodup := by
  by_cases h : x = []
  · rw [h, blockTree_nil]
    exact List.nodup_singleton _
  · exact (treeSymbols_blockTree h).nodup_iff.2 (nodup_blockSymbols x)

theorem treeSymbols_blockTree_length_le (x : List Byte) : (treeSymbols (blockTree x)).length ≤ 256 := by
  by_cases h : x = []
  · rw [h, blockTree_nil]
    exact Nat.le_add_left 1 255
  · exact (treeSymbols_blockTree h).length_eq.trans_le (blockSymbols_length_le x)

/-- The tree of a block fits the arena (R36, R164). -/
theorem treeNodes_blockTree_le (x : List Byte) : treeNodes (blockTree x) ≤ 511 := by
  have := treeSymbols_blockTree_length_le x
  rw [treeNodes_eq]
  omega

/-- Settles O46: the merges keep the leaves, one for each distinct byte, and a path has fewer edges than there are
leaves. -/
theorem blockTreeOneLeafPerSymbol : Obligations.BlockTreeOneLeafPerSymbol := by
  intro x
  refine ⟨nodup_treeSymbols_blockTree x, fun hne b => ?_, fun hnil => ?_, treeNodes_eq _, fun b hb => ?_,
    fun b b1 c c1 => eq_of_treeCode_prefix⟩
  · exact (treeSymbols_blockTree hne).mem_iff.trans mem_blockSymbols
  · rw [hnil, blockTree_nil]
  · obtain ⟨c, hc⟩ := exists_treeCode (mem_treeSymbols_blockTree hb)
    have hlt := treeCode_length_lt hc
    have hle := treeSymbols_blockTree_length_le x
    exact ⟨c, hc, by omega⟩

end Sys2Proof.Machine
end

section
/-! Trees in the node arena (R36): the code search reads the codes of a tree (R155), a merge changes the nodes that it
should, and `MinAlive` finds the first alive node of lowest frequency (R153). -/

namespace Sys2Proof.Machine

-- A tree in the arena

/-- The tree stands in the arena with its root at a node, on nodes from `lo` to below `hi`. -/
def TreeAt (e : Engine) (lo hi : Nat) : HuffTree → NodeId → Prop
  | .leaf s, n => (lo ≤ n.toNat ∧ n.toNat < hi) ∧ (nodeAt e n).leaf = true ∧ (nodeAt e n).sym = s
  | .node l r, n => (lo ≤ n.toNat ∧ n.toNat < hi) ∧ (nodeAt e n).leaf = false ∧
      TreeAt e lo hi l (nodeAt e n).left ∧ TreeAt e lo hi r (nodeAt e n).right

/-- What the walks read of a node is the same (R155, R156, R160). -/
structure SameShape (d d1 : Node) : Prop where
  leaf : d1.leaf = d.leaf
  sym : d1.sym = d.sym
  left : d1.left = d.left
  right : d1.right = d.right

theorem SameShape.of_eq {d d1 : Node} (h : d1 = d) : SameShape d d1 := by
  rw [h]
  exact ⟨rfl, rfl, rfl, rfl⟩

theorem TreeAt.root_bounds {e : Engine} {lo hi : Nat} {t : HuffTree} {n : NodeId} (h : TreeAt e lo hi t n) :
    lo ≤ n.toNat ∧ n.toNat < hi := by
  cases t with
  | leaf s => exact h.1
  | node l r => exact h.1

/-- A tree stays where its nodes keep their shape. -/
theorem TreeAt.congr {e e1 : Engine} {lo hi lo1 hi1 : Nat} {t : HuffTree} {n : NodeId} (h : TreeAt e lo hi t n)
    (hlo : lo1 ≤ lo) (hhi : hi ≤ hi1)
    (hsame : ∀ i : NodeId, lo ≤ i.toNat → i.toNat < hi → SameShape (nodeAt e i) (nodeAt e1 i)) :
    TreeAt e1 lo1 hi1 t n := by
  induction t generalizing n with
  | leaf s =>
    obtain ⟨⟨hnlo, hnhi⟩, hleaf, hsym⟩ := h
    have hn := hsame n hnlo hnhi
    exact ⟨⟨hlo.trans hnlo, hnhi.trans_le hhi⟩, hn.leaf.trans hleaf, hn.sym.trans hsym⟩
  | node l r ihl ihr =>
    obtain ⟨⟨hnlo, hnhi⟩, hleaf, hl, hr⟩ := h
    have hn := hsame n hnlo hnhi
    exact ⟨⟨hlo.trans hnlo, hnhi.trans_le hhi⟩, hn.leaf.trans hleaf, hn.left ▸ ihl hl, hn.right ▸ ihr hr⟩

theorem TreeAt.of_nodes {e e1 : Engine} {lo hi : Nat} {t : HuffTree} {n : NodeId} (h : TreeAt e lo hi t n)
    (hnodes : e1.nodes = e.nodes) : TreeAt e1 lo hi t n :=
  h.congr le_rfl le_rfl fun i _ _ => .of_eq (by rw [nodeAt, nodeAt, hnodes])

/-- The code search finds the code of the tree: no path is longer than the tree has nodes (log 13). -/
theorem codeFrom_treeAt {e : Engine} {lo hi : Nat} {t : HuffTree} {n : NodeId} (s : Byte) {fuel : Nat}
    (h : TreeAt e lo hi t n) (hfuel : treeNodes t ≤ fuel) : codeFrom e s fuel n = treeCode s t := by
  induction t generalizing n fuel with
  | leaf q =>
    obtain ⟨_, hleaf, hsym⟩ := h
    obtain ⟨fuel, rfl⟩ := Nat.exists_eq_add_one.2 (hfuel : 0 < fuel)
    rw [codeFrom, if_pos hleaf, hsym, treeCode]
  | node l r ihl ihr =>
    obtain ⟨_, hleaf, hl, hr⟩ := h
    rw [treeNodes] at hfuel
    obtain ⟨fuel, rfl⟩ := Nat.exists_eq_add_one.2 (show 0 < fuel by omega)
    have hcodel : codeFrom e s fuel (nodeAt e n).left = treeCode s l := ihl hl (by omega)
    have hcoder : codeFrom e s fuel (nodeAt e n).right = treeCode s r := ihr hr (by omega)
    rw [codeFrom, if_neg (by rw [hleaf]; exact Bool.false_ne_true), hcodel, hcoder, treeCode] <;> rfl

-- Nodes written

theorem nodeAt_addNode_new {e : Engine} (d : Node) (h : e.nNodes.toNat < 511) :
    nodeAt (addNode d e) (nextNode e) = d :=
  nodeAt_setNode_same e d (by rw [nextNode_toNat h]; exact h)

theorem nodeAt_addNode_old {e : Engine} (d : Node) {i : NodeId} (h : i ≠ nextNode e) :
    nodeAt (addNode d e) i = nodeAt e i := nodeAt_setNode_other e d h

theorem ne_nextNode {e : Engine} {i : NodeId} (hi : i.toNat < e.nNodes.toNat) (h : e.nNodes.toNat < 511) :
    i ≠ nextNode e := by
  rintro rfl
  rw [nextNode_toNat h] at hi
  exact lt_irrefl _ hi

/-- `N_ALIVE[n] <- 0` (R152). -/
def clearAlive (n : NodeId) (e : Engine) : Engine := setNode e n { nodeAt e n with alive := false }

theorem nodeAt_clearAlive {e : Engine} {n : NodeId} (i : NodeId) (h : n.toNat < 511) :
    nodeAt (clearAlive n e) i = { nodeAt e i with alive := (nodeAt e i).alive && i != n } := by
  by_cases hi : i = n
  · rw [hi, clearAlive, nodeAt_setNode_same _ _ h, bne_self_eq_false, Bool.and_false]
  · rw [clearAlive, nodeAt_setNode_other _ _ hi, bne_iff_ne.2 hi, Bool.and_true]

/-- The internal node that merges `a` and `b` (R152). -/
def mergedNode (a b : NodeId) (e : Engine) : Node :=
  { nodeAt e (nextNode e) with
    leaf := false, left := a, right := b, freq := (nodeAt e a).freq + (nodeAt e b).freq, alive := true }

theorem mergeNodes_eq (a b : NodeId) (e : Engine) :
    mergeNodes a b e = clearAlive b (clearAlive a (addNode (mergedNode a b e) e)) := rfl

section
variable {e : Engine} {a b i : NodeId} (hroom : e.nNodes.toNat < 511) (ha : a.toNat < e.nNodes.toNat)
  (hb : b.toNat < e.nNodes.toNat)
include hroom ha hb

theorem nodeAt_mergeNodes_new : nodeAt (mergeNodes a b e) (nextNode e) = mergedNode a b e := by
  rw [mergeNodes_eq, nodeAt_clearAlive _ (hb.trans hroom), nodeAt_clearAlive _ (ha.trans hroom),
    nodeAt_addNode_new _ hroom, bne_iff_ne.2 (ne_nextNode ha hroom).symm, bne_iff_ne.2 (ne_nextNode hb hroom).symm,
    Bool.and_true, Bool.and_true]

theorem nodeAt_mergeNodes_old (hi : i.toNat < e.nNodes.toNat) :
    nodeAt (mergeNodes a b e) i = { nodeAt e i with alive := (nodeAt e i).alive && i != a && i != b } := by
  rw [mergeNodes_eq, nodeAt_clearAlive _ (hb.trans hroom), nodeAt_clearAlive _ (ha.trans hroom),
    nodeAt_addNode_old _ (ne_nextNode hi hroom)]

end

-- The alive nodes

/-- The alive nodes in ascending id, the order in which `MinAlive` meets them (R153). -/
def aliveNodes (e : Engine) : List NodeId :=
  ((List.range e.nNodes.toNat).map (BitVec.ofNat 9)).filter fun n => (nodeAt e n).alive

theorem nodeId_of_lt {i : Nat} (h : i < 512) : (BitVec.ofNat 9 i).toNat = i := by
  rw [BitVec.toNat_ofNat]
  exact Nat.mod_eq_of_lt h

theorem nodup_aliveNodes {e : Engine} (hbound : e.nNodes.toNat ≤ 511) : (aliveNodes e).Nodup := by
  refine List.Nodup.filter _ (List.Nodup.map_on (fun m hm n hn h => ?_) List.nodup_range)
  rw [List.mem_range] at hm hn
  have hmn := congrArg BitVec.toNat h
  rwa [nodeId_of_lt (by omega), nodeId_of_lt (by omega)] at hmn

theorem aliveNodes_addNode {e : Engine} {d : Node} (h : e.nNodes.toNat < 511) (hd : d.alive = true) :
    aliveNodes (addNode d e) = aliveNodes e ++ [nextNode e] := by
  have hnew : BitVec.ofNat 9 e.nNodes.toNat = nextNode e :=
    BitVec.eq_of_toNat_eq (by rw [nodeId_of_lt (by omega), nextNode_toNat h])
  have hold : ∀ n ∈ (List.range e.nNodes.toNat).map (BitVec.ofNat 9), nodeAt (addNode d e) n = nodeAt e n := by
    refine List.forall_mem_map.2 fun i hi => nodeAt_addNode_old d (ne_nextNode ?_ h)
    rw [List.mem_range] at hi
    rwa [nodeId_of_lt (by omega)]
  rw [aliveNodes, addNode_nNodes, nNodes_succ_toNat h.le, List.range_succ, List.map_append, List.filter_append,
    List.filter_congr fun n hn => by rw [hold n hn]]
  refine congrArg (aliveNodes e ++ ·) ?_
  rw [List.map_singleton, hnew, List.filter_singleton, nodeAt_addNode_new d h, hd]
  rfl

theorem aliveNodes_clearAlive {e : Engine} {n : NodeId} (h : n.toNat < 511) :
    aliveNodes (clearAlive n e) = (aliveNodes e).filter (· != n) := by
  rw [aliveNodes, aliveNodes, List.filter_filter]
  refine List.filter_congr fun i _ => ?_
  rw [nodeAt_clearAlive i h, Bool.and_comm]

theorem aliveNodes_mergeNodes {e : Engine} {a b : NodeId} (hroom : e.nNodes.toNat < 511)
    (ha : a.toNat < e.nNodes.toNat) (hb : b.toNat < e.nNodes.toNat) :
    aliveNodes (mergeNodes a b e) = ((aliveNodes e).filter (· != a)).filter (· != b) ++ [nextNode e] := by
  have hnew : ∀ n : NodeId, n.toNat < e.nNodes.toNat → [nextNode e].filter (· != n) = [nextNode e] := fun n hn =>
    List.filter_eq_self.2 (List.forall_mem_singleton.2 (bne_iff_ne.2 (ne_nextNode hn hroom).symm))
  rw [mergeNodes_eq, aliveNodes_clearAlive (hb.trans hroom), aliveNodes_clearAlive (ha.trans hroom),
    aliveNodes_addNode hroom rfl, List.filter_append, List.filter_append, hnew a ha, hnew b hb]

-- `MinAlive`

/-- The frequency of a node. -/
def nodeFreq (e : Engine) (n : NodeId) : Nat := (nodeAt e n).freq.toNat

/-- One alive candidate of `MinAlive` (R153): it replaces what was found if its frequency is lower. -/
def lowerNode (e : Engine) (m : Option NodeId) (n : NodeId) : Option NodeId :=
  if m.all fun j => (nodeAt e n).freq < (nodeAt e j).freq then some n else m

theorem minAlive_eq_foldl_lowerNode (e : Engine) (x : Option NodeId) :
    minAlive e x = ((aliveNodes e).filter fun n => x ≠ some n).foldl (lowerNode e) none := by
  rw [minAlive_eq_foldl, aliveNodes, List.filter_filter, List.foldl_filter, List.foldl_map]
  refine congrArg (fun g => List.foldl g none _) (funext fun m => funext fun i => ?_)
  simp only [minAliveStep, lowerNode, Bool.and_eq_true, decide_eq_true_eq, and_left_comm, ite_and]

theorem foldl_lowerNode_mem (e : Engine) (l : List NodeId) :
    ∀ n ∈ l.foldl (lowerNode e) none, n ∈ l := by
  refine List.foldlRecOn (motive := fun o => ∀ n ∈ o, n ∈ l) l _ nofun fun o ih i hi n hn => ?_
  rw [lowerNode] at hn
  split at hn
  · cases hn
    exact hi
  · exact ih n hn

theorem foldl_lowerNode_of_le {e : Engine} {n : NodeId} (l : List NodeId) (h : ∀ i ∈ l, nodeFreq e n ≤ nodeFreq e i) :
    l.foldl (lowerNode e) (some n) = some n := by
  induction l with
  | nil => rfl
  | cons i l ih =>
    obtain ⟨hi, hl⟩ := List.forall_mem_cons.1 h
    have hstep : lowerNode e (some n) i = some n := if_neg fun hlt => by
      rw [Option.all_some, decide_eq_true_eq] at hlt
      exact absurd hi (not_le.2 hlt)
    rw [List.foldl_cons, hstep, ih hl]

theorem foldl_lowerNode_of_firstLowest {e : Engine} {l rest : List NodeId} {n : NodeId}
    (h : FirstLowest (nodeFreq e) l n rest) : l.foldl (lowerNode e) none = some n := by
  obtain ⟨pre, post, rfl, _, hpre, hpost⟩ := h
  have hstep : lowerNode e (pre.foldl (lowerNode e) none) n = some n := by
    refine if_pos ?_
    have hmem := foldl_lowerNode_mem e pre
    cases hm : pre.foldl (lowerNode e) none with
    | none => rfl
    | some j => exact decide_eq_true (hpre j (hmem j hm))
  rw [List.foldl_append, List.foldl_cons, hstep, foldl_lowerNode_of_le post hpost]

/-- In a list without repetition the others are those that differ. -/
theorem FirstLowest.rest_eq_filter {w : NodeId → Nat} {l rest : List NodeId} {a : NodeId} (h : FirstLowest w l a rest)
    (hnodup : l.Nodup) : rest = l.filter (· != a) := by
  obtain ⟨pre, post, rfl, rfl, _⟩ := h
  obtain ⟨hne, _⟩ := List.nodup_cons.1 (List.perm_middle.nodup_iff.1 hnodup)
  have hkeep : ∀ k : List NodeId, a ∉ k → k.filter (· != a) = k := fun k hk =>
    List.filter_eq_self.2 fun n hn => bne_iff_ne.2 fun hna => hk (hna ▸ hn)
  rw [List.mem_append, not_or] at hne
  rw [List.filter_append, List.filter_cons, bne_self_eq_false, if_neg Bool.false_ne_true, hkeep _ hne.1, hkeep _ hne.2]

theorem minAlive_none_of_firstLowest {e : Engine} {a : NodeId} {rest : List NodeId}
    (h : FirstLowest (nodeFreq e) (aliveNodes e) a rest) : minAlive e none = some a := by
  rw [minAlive_eq_foldl_lowerNode, List.filter_eq_self.2 fun n _ => by simp]
  exact foldl_lowerNode_of_firstLowest h

theorem filter_some_ne (l : List NodeId) (a : NodeId) :
    (l.filter fun n => some a ≠ some n) = l.filter (· != a) := by
  refine List.filter_congr fun n _ => ?_
  rw [Bool.eq_iff_iff, decide_eq_true_eq, bne_iff_ne, ne_eq, Option.some.injEq, eq_comm]

theorem minAlive_some_of_firstLowest {e : Engine} {a b : NodeId} {l rest : List NodeId}
    (hbound : e.nNodes.toNat ≤ 511) (ha : FirstLowest (nodeFreq e) (aliveNodes e) a l)
    (hb : FirstLowest (nodeFreq e) l b rest) : minAlive e (some a) = some b := by
  rw [minAlive_eq_foldl_lowerNode, filter_some_ne, ← ha.rest_eq_filter (nodup_aliveNodes hbound)]
  exact foldl_lowerNode_of_firstLowest hb

/-- With at most one node alive the merge loop has ended (R152). -/
theorem mergeLoop_of_one_alive {e : Engine} (fuel : Nat) (h : (aliveNodes e).length ≤ 1) : mergeLoop fuel e = e := by
  cases fuel with
  | zero => rfl
  | succ fuel =>
    rw [mergeLoop]
    cases ha : minAlive e none with
    | none => rfl
    | some a =>
      rw [minAlive_eq_foldl_lowerNode] at ha
      have hmem := List.mem_of_mem_filter (foldl_lowerNode_mem e _ a ha)
      have hone : aliveNodes e = [a] := by
        obtain ⟨b, hb⟩ := List.length_eq_one_iff.1 (le_antisymm h (List.length_pos_of_mem hmem))
        rw [hb] at hmem
        rw [hb, List.mem_singleton.1 hmem]
      have hnone : minAlive e (some a) = none := by
        rw [minAlive_eq_foldl_lowerNode, hone]
        simp
      simp only [hnone]

end Sys2Proof.Machine
end

section
/-! `BuildTree` makes the tree that the merge on lists makes (R151 to R154): while it runs, its alive nodes are the
roots of the trees of a forest. -/

namespace Sys2Proof.Machine

-- The forest of the alive nodes

/-- Frequency and tree of an alive node. -/
def rootLabel (e : Engine) (p : NodeId × HuffTree) : Nat × HuffTree := (nodeFreq e p.1, p.2)

/-- While `BuildTree` runs, the alive nodes are the roots of the trees of the forest `f`; `L` gives each its tree
(R152). -/
structure ForestAt (L : List (NodeId × HuffTree)) (f : Forest) (e : Engine) : Prop where
  ids : L.map Prod.fst = aliveNodes e
  forest : f = L.map (rootLabel e)
  trees : ∀ p ∈ L, TreeAt e 0 e.nNodes.toNat p.2 p.1
  count : (f.map fun p => treeNodes p.2).sum = e.nNodes.toNat
  last : ∀ p ∈ L.getLast?, p.1.toNat + 1 = e.nNodes.toNat

theorem ForestAt.length {L : List (NodeId × HuffTree)} {f : Forest} {e : Engine} (h : ForestAt L f e) :
    f.length = (aliveNodes e).length := by
  rw [h.forest, ← h.ids, List.length_map, List.length_map]

theorem ForestAt.afterLeaf {L : List (NodeId × HuffTree)} {f : Forest} {e : Engine} {d : Node} (h : ForestAt L f e)
    (hroom : e.nNodes.toNat < 511) (hleaf : d.leaf = true) (halive : d.alive = true) :
    ForestAt (L ++ [(nextNode e, .leaf d.sym)]) (f ++ [(d.freq.toNat, .leaf d.sym)]) (addNode d e) := by
  have hid := nextNode_toNat hroom
  have hsucc : (addNode d e).nNodes.toNat = e.nNodes.toNat + 1 := nNodes_succ_toNat hroom.le
  have hnew := nodeAt_addNode_new d hroom
  have hold : ∀ i : NodeId, i.toNat < e.nNodes.toNat → nodeAt (addNode d e) i = nodeAt e i := fun i hi =>
    nodeAt_addNode_old d (ne_nextNode hi hroom)
  refine ⟨?_, ?_, List.forall_mem_append.2 ⟨fun p hp => ?_, List.forall_mem_singleton.2 ?_⟩, ?_, ?_⟩
  · rw [List.map_append, h.ids, aliveNodes_addNode hroom halive]
    rfl
  · rw [h.forest, List.map_append, List.map_singleton, rootLabel, nodeFreq, hnew]
    refine congrArg (· ++ _) (List.map_congr_left fun p hp => ?_)
    rw [rootLabel, rootLabel, nodeFreq, nodeFreq, hold p.1 (h.trees p hp).root_bounds.2]
  · exact (h.trees p hp).congr le_rfl (by omega) fun i _ hi => .of_eq (hold i hi)
  · exact ⟨⟨Nat.zero_le _, by rw [hid, hsucc]; exact Nat.lt_succ_self _⟩, by rw [hnew, hleaf], by rw [hnew]⟩
  · rw [List.map_append, List.sum_append, h.count, hsucc]
    rfl
  · rw [List.getLast?_concat]
    rintro _ ⟨⟩
    rw [hsucc]
    exact congrArg (· + 1) hid

/-- The two lowest trees of a forest are those that the two calls of `MinAlive` find (R153). -/
theorem ForestAt.exists_two_lowest {L : List (NodeId × HuffTree)} {f g rest : Forest} {e : Engine}
    {a b : Nat × HuffTree} (h : ForestAt L f e) (hbound : e.nNodes.toNat ≤ 511) (ha : FirstLowest Prod.fst f a g)
    (hb : FirstLowest Prod.fst g b rest) :
    ∃ p q K, minAlive e none = some p.1 ∧ minAlive e (some p.1) = some q.1 ∧ L.Perm (p :: q :: K) ∧
      K.map Prod.fst = ((aliveNodes e).filter (· != p.1)).filter (· != q.1) ∧ a = rootLabel e p ∧ b = rootLabel e q ∧
      rest = K.map (rootLabel e) := by
  rw [h.forest] at ha
  obtain ⟨p, M, hp, rfl, rfl⟩ := ha.of_map
  obtain ⟨q, K, hq, rfl, rfl⟩ := hb.of_map
  have hlowp : FirstLowest (nodeFreq e) (aliveNodes e) p.1 (M.map Prod.fst) := h.ids ▸ FirstLowest.map hp
  have hlowq : FirstLowest (nodeFreq e) (M.map Prod.fst) q.1 (K.map Prod.fst) := FirstLowest.map hq
  have hnodup := nodup_aliveNodes hbound
  have hnodup1 : (M.map Prod.fst).Nodup := (List.nodup_cons.1 (hlowp.perm.nodup_iff.1 hnodup)).2
  exact ⟨p, q, K, minAlive_none_of_firstLowest hlowp, minAlive_some_of_firstLowest hbound hlowp hlowq,
    hp.perm.trans (hq.perm.cons p),
    by rw [← hlowp.rest_eq_filter hnodup, ← hlowq.rest_eq_filter hnodup1], rfl, rfl, rfl⟩

/-- The merged forest on the arena after a merge, unless the new frequency wraps (R152). -/
theorem ForestAt.afterMerge {L K : List (NodeId × HuffTree)} {f : Forest} {e : Engine} {p q : NodeId × HuffTree}
    (h : ForestAt L f e) (hroom : e.nNodes.toNat < 511) (hperm : L.Perm (p :: q :: K))
    (hids : K.map Prod.fst = ((aliveNodes e).filter (· != p.1)).filter (· != q.1))
    (hweight : nodeFreq e p.1 + nodeFreq e q.1 < 2 ^ 32) :
    ForestAt (K ++ [(nextNode e, .node p.2 q.2)])
      (mergedForest (rootLabel e p) (rootLabel e q) (K.map (rootLabel e))) (mergeNodes p.1 q.1 e) := by
  have htree : ∀ r ∈ p :: q :: K, TreeAt e 0 e.nNodes.toNat r.2 r.1 := fun r hr => h.trees r (hperm.mem_iff.2 hr)
  obtain ⟨htreep, htreeq, htrees⟩ := (List.forall_mem_cons.1 htree).imp_right List.forall_mem_cons.1
  have hp := htreep.root_bounds.2
  have hq := htreeq.root_bounds.2
  have hid := nextNode_toNat hroom
  have hsucc : (mergeNodes p.1 q.1 e).nNodes.toNat = e.nNodes.toNat + 1 := nNodes_succ_toNat hroom.le
  have hnew := nodeAt_mergeNodes_new hroom hp hq
  have hkept : ∀ t n, TreeAt e 0 e.nNodes.toNat t n →
      TreeAt (mergeNodes p.1 q.1 e) 0 (mergeNodes p.1 q.1 e).nNodes.toNat t n := fun t n ht =>
    ht.congr le_rfl (by omega) fun i _ hi => by rw [nodeAt_mergeNodes_old hroom hp hq hi]; exact ⟨rfl, rfl, rfl, rfl⟩
  refine ⟨?_, ?_, List.forall_mem_append.2 ⟨fun r hr => hkept _ _ (htrees r hr), List.forall_mem_singleton.2 ?_⟩,
    ?_, ?_⟩
  · rw [List.map_append, hids, aliveNodes_mergeNodes hroom hp hq]
    rfl
  · rw [mergedForest, List.map_append, List.map_singleton]
    refine congrArg₂ (· ++ ·) (List.map_congr_left fun r hr => ?_) ?_
    · rw [rootLabel, rootLabel, nodeFreq, nodeFreq, nodeAt_mergeNodes_old hroom hp hq (htrees r hr).root_bounds.2]
    · have hsum : nodeFreq (mergeNodes p.1 q.1 e) (nextNode e) = nodeFreq e p.1 + nodeFreq e q.1 := by
        rw [nodeFreq, hnew, mergedNode, BitVec.toNat_add]
        exact Nat.mod_eq_of_lt hweight
      rw [rootLabel, rootLabel, rootLabel, hsum]
  · refine ⟨⟨Nat.zero_le _, by rw [hid, hsucc]; exact Nat.lt_succ_self _⟩, by rw [hnew, mergedNode], ?_, ?_⟩
    · rw [hnew]
      exact hkept _ _ htreep
    · rw [hnew]
      exact hkept _ _ htreeq
  · have hcount := h.count
    rw [h.forest, List.map_map, (hperm.map _).sum_eq, List.map_cons, List.map_cons, List.sum_cons, List.sum_cons]
      at hcount
    rw [hsucc, ← hcount, mergedForest, List.map_append, List.map_map, List.sum_append, List.map_singleton,
      List.sum_singleton, treeNodes]
    simp only [Function.comp_apply, rootLabel]
    omega
  · rw [List.getLast?_concat]
    rintro _ ⟨⟩
    rw [hsucc]
    exact congrArg (· + 1) hid

/-- One turn of the merge loop merges the two lowest trees of the forest (R152). -/
theorem ForestAt.merge {L : List (NodeId × HuffTree)} {f g rest : Forest} {e : Engine} {a b : Nat × HuffTree}
    (h : ForestAt L f e) (hroom : ArenaRoom e) (hweight : forestWeight f < 2 ^ 32) (ha : FirstLowest Prod.fst f a g)
    (hb : FirstLowest Prod.fst g b rest) :
    ∃ m n L1, minAlive e none = some m ∧ minAlive e (some m) = some n ∧
      ForestAt L1 (mergedForest a b rest) (mergeNodes m n e) := by
  obtain ⟨hbound, _⟩ := id hroom
  obtain ⟨p, q, K, hmin, hmin1, hperm, hids, rfl, rfl, rfl⟩ := h.exists_two_lowest hbound ha hb
  obtain ⟨hp, _⟩ := minAlive_eq_some hmin
  obtain ⟨hq, hne⟩ := minAlive_eq_some hmin1
  have hlt : e.nNodes.toNat < 511 := hroom.lt_of_two_alive hp hq fun hpq => hne (congrArg some hpq)
  have hle : nodeFreq e p.1 + nodeFreq e q.1 ≤ forestWeight f := by
    rw [← (mergeKeeps_mergedForest ha hb).weight, forestWeight, mergedForest, List.map_append, List.sum_append]
    exact Nat.le_add_left _ _
  exact ⟨p.1, q.1, _, hmin, hmin1, h.afterMerge hlt hperm hids (hle.trans_lt hweight)⟩

/-- The merge loop of `BuildTree` is the greedy merge of its forest. -/
theorem mergeLoop_forestAt (fuel : Nat) {L : List (NodeId × HuffTree)} {f : Forest} {e : Engine} (h : ForestAt L f e)
    (hroom : ArenaRoom e) (hweight : forestWeight f < 2 ^ 32) :
    ∃ L1, ForestAt L1 (mergeForest fuel f) (mergeLoop fuel e) := by
  induction fuel generalizing L f e with
  | zero => exact ⟨L, h⟩
  | succ fuel ih =>
    rcases mergeForest_cases f with ⟨hone, hend⟩ | ⟨a, g, b, rest, ha, hb, hturn⟩
    · rw [hend, mergeLoop_of_one_alive _ (h.length ▸ hone)]
      exact ⟨L, h⟩
    · obtain ⟨m, n, L1, hmin, hmin1, h1⟩ := h.merge hroom hweight ha hb
      obtain ⟨hm, _⟩ := minAlive_eq_some hmin
      obtain ⟨hn, hne⟩ := minAlive_eq_some hmin1
      rw [hturn]
      simp only [mergeLoop, hmin, hmin1]
      exact ih h1 (mergeNodes_arenaRoom hroom hm hn fun hnm => hne (congrArg some hnm.symm))
        ((mergeKeeps_mergedForest ha hb).weight ▸ hweight)

-- The leaves

/-- The histogram holds the number of times each byte is in the block (R151). -/
def HistCounts (x : List Byte) (e : Engine) : Prop := ∀ b : Byte, (histAt e b).toNat = x.count b

theorem addLeaf_of_count {x : List Byte} {e : Engine} (s : Byte) (h : HistCounts x e) :
    addLeaf e s = if 0 < x.count s then
      addNode { nodeAt e (nextNode e) with leaf := true, sym := s, freq := histAt e s, alive := true } e else e := by
  have hpos : (0 : Reg32) < histAt e s ↔ 0 < x.count s := by
    rw [← h s]
    exact Iff.rfl
  simp only [addLeaf, hpos]

/-- The leaf loop of `BuildTree` adds the leaves of the symbols that are in the block (R152). -/
theorem addLeaves_forestAt {x : List Byte} (l : List Nat) {L : List (NodeId × HuffTree)} {f : Forest} {e : Engine}
    (h : ForestAt L f e) (hcounts : HistCounts x e) (hroom : e.nNodes.toNat + l.length ≤ 511) :
    ∃ L1, ForestAt L1 (f ++ ((l.map (BitVec.ofNat 8)).filter fun b => 0 < x.count b).map (symbolLeaf x))
      (l.foldl (fun e s => addLeaf e (BitVec.ofNat 8 s)) e) := by
  induction l generalizing L f e with
  | nil => exact ⟨L, by simpa using h⟩
  | cons s l ih =>
    rw [List.length_cons] at hroom
    rw [List.foldl_cons, addLeaf_of_count _ hcounts, List.map_cons]
    by_cases hs : 0 < x.count (BitVec.ofNat 8 s)
    · have hadd := h.afterLeaf (d := { nodeAt e (nextNode e) with
          leaf := true, sym := BitVec.ofNat 8 s, freq := histAt e (BitVec.ofNat 8 s), alive := true })
          (by omega) rfl rfl
      obtain ⟨L1, h1⟩ := ih hadd hcounts (by rw [addNode_nNodes, nNodes_succ_toNat (by omega)]; omega)
      refine ⟨L1, ?_⟩
      rw [if_pos hs, List.filter_cons_of_pos (by simpa using hs), List.map_cons, List.append_cons]
      rwa [hcounts] at h1
    · rw [if_neg hs, List.filter_cons_of_neg (by simpa using hs)]
      exact ih h hcounts (by omega)

theorem forestAt_empty {e : Engine} (h : e.nNodes = 0) : ForestAt [] [] e where
  ids := by rw [aliveNodes, h]; rfl
  forest := rfl
  trees := nofun
  count := by rw [h]; rfl
  last := nofun

/-- The leaves of `BuildTree` are those of the block (R152, R154). -/
theorem buildLeaves_forestAt {x : List Byte} {e : Engine} (h : HistCounts x e) :
    ∃ L, ForestAt L (leafForest x) (buildLeaves e) := by
  have hlen : (List.range Config.alphabet).length = 256 := List.length_range
  obtain ⟨L, hL⟩ := addLeaves_forestAt (x := x) (List.range Config.alphabet)
    (forestAt_empty (e := { e with nNodes := 0 }) rfl) h (by rw [hlen]; exact Nat.le_add_left 256 255)
  rw [List.nil_append, ← blockSymbols] at hL
  rw [buildLeaves, leafForest_eq]
  simp only
  generalize (List.range Config.alphabet).foldl (fun e s => addLeaf e (BitVec.ofNat 8 s)) { e with nNodes := 0 } = e1
    at hL ⊢
  have hzero : e1.nNodes = 0 ↔ x = [] := by
    have hcount := hL.count
    constructor
    · intro h0
      rw [h0] at hcount
      have hnil : blockSymbols x = [] := by
        cases hb : blockSymbols x with
        | nil => rfl
        | cons b bs =>
          rw [hb, List.map_cons, List.map_cons, List.sum_cons] at hcount
          have hone : treeNodes (symbolLeaf x b).2 = 1 := rfl
          rw [hone] at hcount
          have : 1 + _ = 0 := hcount
          omega
      exact blockSymbols_eq_nil.1 hnil
    · intro hx
      rw [blockSymbols_eq_nil.2 hx] at hcount
      exact BitVec.eq_of_toNat_eq hcount.symm
  by_cases hx : x = []
  · rw [if_pos (hzero.2 hx), if_pos hx]
    rw [blockSymbols_eq_nil.2 hx] at hL
    have hadd := hL.afterLeaf (d := { nodeAt e1 0 with leaf := true, sym := 0x00, freq := 0, alive := true })
      (by rw [hzero.2 hx]; exact Nat.succ_pos 510) rfl rfl
    exact ⟨_, hadd⟩
  · rw [if_neg fun h0 => hx (hzero.1 h0), if_neg hx]
    exact ⟨L, hL⟩

-- `Count` and `BuildTree`

theorem histAt_countByte (e : Engine) (s b : Byte) :
    histAt (countByte e s) b = histAt e b + BitVec.ofNat 32 ([s].count b) := by
  rw [histAt, countByte_hist]
  by_cases h : b = s
  · rw [h, arrayGet_arraySet_same _ _ _ _ s.isLt, List.count_singleton_self]
    rfl
  · rw [arrayGet_arraySet_other _ _ _ _ _ fun hbs => h (BitVec.eq_of_toNat_eq hbs),
      List.count_eq_zero_of_not_mem fun hb => h (List.mem_singleton.1 hb)]
    exact (BitVec.add_zero _).symm

theorem histAt_countLoop (x : List Byte) (e : Engine) (b : Byte) :
    histAt (x.foldl (fun e s => countByte (consume e) s) e) b = histAt e b + BitVec.ofNat 32 (x.count b) := by
  induction x generalizing e with
  | nil => exact (BitVec.add_zero _).symm
  | cons s x ih =>
    have hcons : (s :: x).count b = [s].count b + x.count b := List.count_append (l₁ := [s])
    rw [List.foldl_cons, ih, histAt_countByte, hcons, BitVec.ofNat_add, BitVec.add_assoc]
    rfl

/-- No counter overflows (R151). -/
theorem histCounts_countAll {x : List Byte} (e : Engine) (h : x.length < 2 ^ 32) : HistCounts x (countAll x e) := by
  intro b
  have hempty : histAt { e with hist := Vector.replicate Config.alphabet 0 } b = 0 := arrayGet_replicate _ _ _ b.isLt
  rw [countAll, histAt_countLoop, hempty, zero_add, BitVec.toNat_ofNat]
  exact Nat.mod_eq_of_lt (List.count_le_length.trans_lt h)

theorem buildTree_hist (e : Engine) : (buildTree e).hist = e.hist :=
  buildTree_keeps (P := fun a => a.hist = e.hist) (fun _ _ _ h => h) (fun _ _ h => h) e rfl

/-- The arena holds the tree of the block, on all its nodes, with the root at the last of them (R152). -/
structure BlockTreeBuilt (x : List Byte) (e : Engine) : Prop where
  hist : HistCounts x e
  tree : TreeAt e 0 e.nNodes.toNat (blockTree x) e.root
  count : e.nNodes.toNat = treeNodes (blockTree x)
  root : e.root.toNat = e.nNodes.toNat - 1

theorem blockTreeBuilt_buildTree {x : List Byte} {e : Engine} (h : HistCounts x e) (hlen : x.length < 2 ^ 32) :
    BlockTreeBuilt x (buildTree e) := by
  have hhist : HistCounts x (buildTree e) := fun b => by rw [histAt, buildTree_hist]; exact h b
  have hroom := arenaRoom_of_nNodes_le (buildLeaves_nNodes_le e)
  obtain ⟨hbound, _⟩ := mergeLoop_arenaRoom Config.hufMaxNodes _ hroom
  obtain ⟨L, hL⟩ := buildLeaves_forestAt h
  obtain ⟨L1, hL1⟩ := mergeLoop_forestAt Config.hufMaxNodes hL hroom
    ((forestWeight_leafForest x).trans_lt hlen)
  obtain ⟨w, htree, _⟩ := mergeForest_leafForest x
  have hfuel : Config.hufMaxNodes = Config.alphabet + 255 := rfl
  rw [hfuel, mergeForest_add ((leafForest_length_le x).trans (Nat.le_succ _)), ← hfuel, htree] at hL1
  rw [buildTree] at hhist ⊢
  generalize mergeLoop Config.hufMaxNodes (buildLeaves e) = e1 at hbound hL1 hhist ⊢
  obtain ⟨p, rfl, hp⟩ := List.map_eq_singleton_iff.1 hL1.forest.symm
  have hcount : treeNodes (blockTree x) = e1.nNodes.toNat := hL1.count
  have hlast : p.1.toNat + 1 = e1.nNodes.toNat := hL1.last p rfl
  have hrootId : ((e1.nNodes - 1).setWidth 9 : NodeId).toNat = e1.nNodes.toNat - 1 := by
    rw [BitVec.toNat_setWidth]
    bv_omega
  have hroot : ((e1.nNodes - 1).setWidth 9 : NodeId) = p.1 := BitVec.eq_of_toNat_eq (by omega)
  have htree1 : TreeAt e1 0 e1.nNodes.toNat p.2 p.1 := hL1.trees p (List.mem_singleton_self p)
  have hptree : p.2 = blockTree x := congrArg Prod.snd hp
  rw [hptree, ← hroot] at htree1
  exact ⟨hhist, htree1.of_nodes rfl, hcount.symm, hrootId⟩

/-- What the writer leaves alone keeps the tree. -/
theorem BlockTreeBuilt.of_arena {x : List Byte} {e e1 : Engine} (h : BlockTreeBuilt x e) (hhist : e1.hist = e.hist)
    (hnodes : e1.nodes = e.nodes) (hnNodes : e1.nNodes = e.nNodes) (hroot : e1.root = e.root) :
    BlockTreeBuilt x e1 where
  hist b := by rw [histAt, hhist]; exact h.hist b
  tree := by rw [hnNodes, hroot]; exact h.tree.of_nodes hnodes
  count := by rw [hnNodes]; exact h.count
  root := by rw [hroot, hnNodes]; exact h.root

theorem BlockTreeBuilt.codeOf {x : List Byte} {e : Engine} (h : BlockTreeBuilt x e) (b : Byte) :
    codeOf e b = (treeCode b (blockTree x)).getD [] := by
  rw [Machine.codeOf, codeFrom_treeAt b h.tree (treeNodes_blockTree_le x)]

end Sys2Proof.Machine
end

section
/-! `HUF.E` (R156, R158, R161): what it writes is the stream of the block's tree, with and without room for it. -/

namespace Sys2Proof.Machine

-- Writing with and without room

/-- A computation appends `bits` to a stream of which `s` has been written, and ends in an engine with `P`; or there is
no room for them, and it raises `AllocationFailure` (R92, R204(b)). -/
structure Appends (cap : Reg32) (s bits : List Bool) (P : Engine → Prop) (r : Eff Engine) : Prop where
  room : (s ++ bits).length / 8 ≤ cap.toNat → ∃ e, r = .ok e ∧ WriterHolds (s ++ bits) e ∧ P e
  full : s.length / 8 ≤ cap.toNat → cap.toNat < (s ++ bits).length / 8 → ∃ e, r = .error (.allocationFailure, e)

theorem Appends.bind {cap : Reg32} {s bits bits1 : List Bool} {P Q : Engine → Prop} {r : Eff Engine}
    {f : Engine → Eff Engine} (h : Appends cap s bits P r)
    (hf : ∀ e, WriterHolds (s ++ bits) e → P e → Appends cap (s ++ bits) bits1 Q (f e)) :
    Appends cap s (bits ++ bits1) Q (r >>= f) := by
  have hlen : (s ++ bits).length ≤ (s ++ (bits ++ bits1)).length := by
    rw [← List.append_assoc, List.length_append (bs := bits1)]
    exact Nat.le_add_right _ _
  refine ⟨fun hroom => ?_, fun hle hfull => ?_⟩
  · obtain ⟨e, rfl, hw, hP⟩ := h.room (by omega)
    rw [← List.append_assoc] at hroom ⊢
    exact (hf e hw hP).room hroom
  · by_cases hfirst : (s ++ bits).length / 8 ≤ cap.toNat
    · obtain ⟨e, rfl, hw, hP⟩ := h.room hfirst
      rw [← List.append_assoc] at hfull
      exact (hf e hw hP).full hfirst hfull
    · obtain ⟨e, rfl⟩ := h.full hle (not_le.1 hfirst)
      exact ⟨e, rfl⟩

theorem appends_nil {cap : Reg32} {s : List Bool} {P : Engine → Prop} {e : Engine} (hw : WriterHolds s e) (hP : P e) :
    Appends cap s [] P (.ok e) := by
  refine ⟨fun _ => ⟨e, rfl, by rwa [List.append_nil], hP⟩, fun hle hfull => ?_⟩
  rw [List.append_nil] at hfull
  exact absurd hle (not_le.2 hfull)

/-- The bit writer keeps whatever does not speak of it (R99). -/
theorem appends_writeBitList {cap : Reg32} {s : List Bool} {P : Engine → Prop} {e : Engine} (bits : List Bool)
    (hP : ∀ e m l a n, P e → P { e with outBuf := m, outLen := l, wAcc := a, wN := n }) (hw : WriterHolds s e)
    (he : P e) : Appends cap s bits P (writeBitList cap bits e) := by
  refine ⟨fun hroom => ?_, fun hle hfull => writeBitList_no_room bits hw hle (by rwa [List.length_append] at hfull)⟩
  obtain ⟨e1, hok, h1⟩ := writeBitList_writerHolds bits hw (by rwa [List.length_append] at hroom)
  have hkeeps := writeBitList_keeps (wbit_keeps_of_insensitive (cap := cap) hP) bits e he
  rw [hok] at hkeeps
  exact ⟨e1, hok, h1, hkeeps⟩

/-- What the flush makes of a stream in `MSB` order (R94, R97). -/
theorem Appends.flush {cap : Reg32} {bits : List Bool} {P : Engine → Prop} {r : Eff Engine}
    (h : Appends cap [] bits P r) (horder : ∀ e, P e → e.wOrder = .msb)
    (hP : ∀ e m l a n, P e → P { e with outBuf := m, outLen := l, wAcc := a, wN := n }) :
    ((packBits .msb bits).length ≤ cap.toNat →
      ∃ e, (r >>= bsFlush cap) = .ok e ∧ OutputHolds (packBits .msb bits) e ∧ P e) ∧
    (cap.toNat < (packBits .msb bits).length → ∃ e, (r >>= bsFlush cap) = .error (.allocationFailure, e)) := by
  have hroom := h.room
  have hfull := h.full (Nat.zero_le _)
  rw [List.nil_append] at hroom hfull
  rw [packBits_length]
  refine ⟨fun hlen => ?_, fun hlen => ?_⟩
  · obtain ⟨e, rfl, hw, he⟩ := hroom (by omega)
    obtain ⟨e1, hok, hout, _, _, _, _, rfl⟩ := bsFlush_outputHolds hw hlen
    rw [horder e he] at hout
    exact ⟨_, hok, hout, hP e _ _ _ _ he⟩
  · by_cases hwrite : bits.length / 8 ≤ cap.toNat
    · obtain ⟨e, rfl, hw, _⟩ := hroom hwrite
      exact bsFlush_no_room hw hwrite hlen
    · obtain ⟨e, rfl⟩ := hfull (not_le.1 hwrite)
      exact ⟨e, rfl⟩

-- The stream of a block

/-- The second engine writes in `MSB` order and has the histogram and the arena of the first (R161). -/
structure EncoderSince (e0 e : Engine) : Prop where
  order : e.wOrder = .msb
  hist : e.hist = e0.hist
  nodes : e.nodes = e0.nodes
  nNodes : e.nNodes = e0.nNodes
  root : e.root = e0.root

theorem encoderSince_writer {e0 : Engine} (e : Engine) (m : Memory) (l : Reg32) (a : Byte) (n : BitVec 3)
    (h : EncoderSince e0 e) : EncoderSince e0 { e with outBuf := m, outLen := l, wAcc := a, wN := n } := { h with }

theorem EncoderSince.nodeAt {e0 e : Engine} (h : EncoderSince e0 e) (n : NodeId) : nodeAt e n = nodeAt e0 n := by
  rw [Machine.nodeAt, Machine.nodeAt, h.nodes]

theorem EncoderSince.built {x : List Byte} {e0 e : Engine} (h : EncoderSince e0 e) (hx : BlockTreeBuilt x e0) :
    BlockTreeBuilt x e := hx.of_arena h.hist h.nodes h.nNodes h.root

theorem writerHolds_inPos {s : List Bool} {e : Engine} (n : Reg32) (h : WriterHolds s e) :
    WriterHolds s { e with inPos := n } := ⟨h.outLen, h.wN, h.wAcc, h.outBuf⟩

section
variable {cap : Reg32} {s : List Bool} {e0 e : Engine}

theorem appends_bsWrite {w : Nat} (v : BitVec w) (hw : WriterHolds s e) (h : EncoderSince e0 e) :
    Appends cap s (bitsOf .msb v) (EncoderSince e0) (bsWrite cap v e) := by
  rw [bsWrite, h.order]
  exact appends_writeBitList _ encoderSince_writer hw h

/-- `SerializeTree` writes the serialised tree (R156). -/
theorem appends_serializeTree {lo hi fuel : Nat} {t : HuffTree} {n : NodeId} (ht : TreeAt e0 lo hi t n)
    (hfuel : treeNodes t ≤ fuel) (hw : WriterHolds s e) (h : EncoderSince e0 e) :
    Appends cap s (treeBits t) (EncoderSince e0) (serializeTree cap fuel n e) := by
  induction t generalizing n fuel s e with
  | leaf q =>
    obtain ⟨_, hleaf, hsym⟩ := ht
    obtain ⟨fuel, rfl⟩ := Nat.exists_eq_add_one.2 (hfuel : 0 < fuel)
    rw [serializeTree, h.nodeAt, if_pos hleaf, hsym]
    exact (appends_bsWrite (1 : BitVec 1) hw h).bind fun e1 hw1 h1 => appends_bsWrite q hw1 h1
  | node l r ihl ihr =>
    obtain ⟨_, hleaf, hl, hr⟩ := ht
    rw [treeNodes] at hfuel
    obtain ⟨fuel, rfl⟩ := Nat.exists_eq_add_one.2 (show 0 < fuel by omega)
    rw [serializeTree, h.nodeAt, if_neg (by rw [hleaf]; exact Bool.false_ne_true)]
    exact (appends_bsWrite (0 : BitVec 1) hw h).bind fun e1 hw1 h1 =>
      (ihl hl (by omega) hw1 h1).bind fun e2 hw2 h2 => ihr hr (by omega) hw2 h2

/-- The second pass writes the code of every byte (R161). -/
theorem appends_writeCodes {x : List Byte} (hx : BlockTreeBuilt x e0) (bs : List Byte) (hw : WriterHolds s e)
    (h : EncoderSince e0 e) :
    Appends cap s (bs.flatMap fun b => (treeCode b (blockTree x)).getD []) (EncoderSince e0) (writeCodes cap bs e) := by
  induction bs generalizing s e with
  | nil => exact appends_nil hw h
  | cons b bs ih =>
    have h1 : EncoderSince e0 (consume e) := { h with }
    rw [writeCodes, (h1.built hx).codeOf, List.flatMap_cons]
    exact (appends_writeBitList _ encoderSince_writer (writerHolds_inPos _ hw) h1).bind fun e2 hw2 h2 => ih hw2 h2

end

-- The body of `HUF.E`

/-- The engine of `HUF.E` after the first pass and the tree builder (R161). -/
def encoderTree (x : List Byte) (e : Engine) : Engine := buildTree (countAll x (bsInitWrite .msb e))

/-- What `HUF.E` writes before the flush (R158, R161). -/
def writeStream (cap : Reg32) (x : List Byte) (e1 : Engine) : Eff Engine := do
  let e2 ← serializeTree cap Config.hufMaxNodes e1.root e1
  let e3 ← bsWrite cap (BitVec.ofNat Config.lenFieldBits x.length) e2
  writeCodes cap x { e3 with inPos := 0 }

theorem huffmanEncode_eq (cap : Reg32) (x : List Byte) (e : Engine) :
    huffmanEncode cap x e = (writeStream cap x (encoderTree x e) >>= bsFlush cap) := by
  rw [huffmanEncode, writeStream, bind_assoc]
  refine bind_congr fun e2 => ?_
  rw [bind_assoc]

theorem appends_writeStream {cap : Reg32} {x : List Byte} {e : Engine} (hx : BlockTreeBuilt x e)
    (horder : e.wOrder = .msb) (hw : WriterHolds [] e) :
    Appends cap [] (huffmanStream (blockTree x) x) (EncoderSince e) (writeStream cap x e) := by
  have hself : EncoderSince e e := ⟨horder, rfl, rfl, rfl, rfl⟩
  rw [huffmanStream, List.append_assoc]
  refine (appends_serializeTree hx.tree (treeNodes_blockTree_le x) hw hself).bind fun e2 hw2 h2 => ?_
  refine (appends_bsWrite _ hw2 h2).bind fun e3 hw3 h3 => ?_
  exact appends_writeCodes hx x (writerHolds_inPos 0 hw3) { h3 with }

/-- The first pass and the tree builder touch `IN_POS`, the histogram and the arena only (R151, R152). -/
theorem encoderTree_keeps {P : Engine → Prop} (hc : ∀ e, P e → P (consume e)) (hh : ∀ e v, P e → P { e with hist := v })
    (hn : ∀ e v m, P e → P { e with nodes := v, nNodes := m }) (hr : ∀ e n, P e → P { e with root := n })
    (x : List Byte) {e : Engine} (h : P (bsInitWrite .msb e)) : P (encoderTree x e) :=
  buildTree_keeps hn hr _ (countAll_keeps hh hc x _ h)

theorem encoderTree_wOrder (x : List Byte) (e : Engine) : (encoderTree x e).wOrder = .msb :=
  encoderTree_keeps (P := (·.wOrder = .msb)) (fun _ h => h) (fun _ _ h => h) (fun _ _ _ h => h) (fun _ _ h => h) x rfl

theorem encoderTree_writerHolds (x : List Byte) {e : Engine} (hlen : e.outLen = 0) (hbuf : e.outBuf = []) :
    WriterHolds [] (encoderTree x e) :=
  encoderTree_keeps (P := WriterHolds []) (fun _ h => ⟨h.outLen, h.wN, h.wAcc, h.outBuf⟩)
    (fun _ _ h => ⟨h.outLen, h.wN, h.wAcc, h.outBuf⟩) (fun _ _ _ h => ⟨h.outLen, h.wN, h.wAcc, h.outBuf⟩)
    (fun _ _ h => ⟨h.outLen, h.wN, h.wAcc, h.outBuf⟩) x (writerHolds_nil rfl rfl hlen hbuf)

/-- Everything the body of `HUF.E` can do from an empty output side: the payload of R158, or no room for it. -/
theorem huffmanEncode_outcome {cap : Reg32} {x : List Byte} {e : Engine} (hx : x.length < 2 ^ 32) (hlen : e.outLen = 0)
    (hbuf : e.outBuf = []) :
    ((huffmanPayload x).length ≤ cap.toNat →
      ∃ e1, huffmanEncode cap x e = .ok e1 ∧ OutputHolds (huffmanPayload x) e1 ∧ BlockTreeBuilt x e1) ∧
    (cap.toNat < (huffmanPayload x).length → ∃ e1, huffmanEncode cap x e = .error (.allocationFailure, e1)) := by
  have hbuilt : BlockTreeBuilt x (encoderTree x e) := blockTreeBuilt_buildTree (histCounts_countAll _ hx) hx
  obtain ⟨hroom, hfull⟩ := (appends_writeStream (cap := cap) hbuilt (encoderTree_wOrder x e)
    (encoderTree_writerHolds x hlen hbuf)).flush (fun _ h => h.order) encoderSince_writer
  rw [huffmanEncode_eq]
  refine ⟨fun hle => ?_, hfull⟩
  obtain ⟨e1, hok, hout, h1⟩ := hroom hle
  exact ⟨e1, hok, hout, h1.built hbuilt⟩

-- The command

theorem inBlock_length_lt (s : State) : (inBlock s).length < 2 ^ 32 := (inBlock_length s).trans_lt s.inLen.isLt

/-- Settles O45: the body writes the stream of the tree that it builds, which is the block's. -/
theorem huffmanEncodeWritesPayload : Obligations.HuffmanEncodeWritesPayload := by
  intro s hready
  obtain ⟨hcompletes, hfails⟩ := huffmanEncode_outcome (cap := s.caps.outCap) (inBlock_length_lt s)
    (engineStart_outLen s.eng) (engineStart_outBuf s.eng)
  refine ⟨fun hroom => ?_, fun hroom => ?_⟩
  · obtain ⟨e, hrun, hout, hbuilt⟩ := hcompletes hroom
    obtain ⟨t, hexec, hcompleted, hcmd, hhost, rfl⟩ := runCommand_completes (w := encode .hufE) hready hrun
    exact ⟨t, hexec, hcompleted, hcmd, hhost, hout, hbuilt.count, hbuilt.root, hbuilt.hist⟩
  · obtain ⟨e, hrun⟩ := hfails hroom
    obtain ⟨t, hexec, hfailed, hcmd, hhost, _⟩ := runCommand_fails (w := encode .hufE) hready hrun
    exact ⟨t, hexec, hfailed, hcmd, hhost⟩

-- One symbol, and no symbol

theorem blockTree_replicate {n : Nat} (b : Byte) (h : n ≠ 0) : blockTree (List.replicate n b) = .leaf b := by
  have hne : List.replicate n b ≠ [] := fun hnil => h ((List.replicate_eq_nil_iff b).1 hnil)
  have honly : ∀ a ∈ treeSymbols (blockTree (List.replicate n b)), a = b := fun a ha =>
    List.eq_of_mem_replicate (mem_blockSymbols.1 ((treeSymbols_blockTree hne).mem_iff.1 ha))
  have hnodup := nodup_treeSymbols_blockTree (List.replicate n b)
  cases ht : blockTree (List.replicate n b) with
  | leaf q =>
    rw [ht] at honly
    rw [honly q (List.mem_singleton_self q)]
  | node l r =>
    rw [ht, treeSymbols] at honly hnodup
    obtain ⟨p, hp⟩ := List.exists_mem_of_length_pos (treeSymbols_length_pos l)
    obtain ⟨q, hq⟩ := List.exists_mem_of_length_pos (treeSymbols_length_pos r)
    have hpq : p = q := (honly p (List.mem_append_left _ hp)).trans (honly q (List.mem_append_right _ hq)).symm
    exact absurd hpq ((List.nodup_append.1 hnodup).2.2 p hp q hq)

/-- One distinct byte costs no code bits (R154). -/
theorem huffmanPayload_replicate {n : Nat} (b : Byte) (h : n ≠ 0) :
    huffmanPayload (List.replicate n b) = packBits .msb (true :: bitsOf .msb b ++ bitsOf .msb (BitVec.ofNat 32 n)) := by
  have hcodes : ((List.replicate n b).flatMap fun c => (treeCode c (.leaf b)).getD []) = [] :=
    List.flatMap_eq_nil_iff.2 fun c hc => by rw [List.eq_of_mem_replicate hc, treeCode, if_pos rfl]; rfl
  rw [huffmanPayload, blockTree_replicate b h, huffmanStream, hcodes, List.append_nil, List.length_replicate]
  rfl

theorem huffmanPayload_nil : huffmanPayload [] = [0x80, 0x00, 0x00, 0x00, 0x00, 0x00] := by
  rw [huffmanPayload, blockTree_nil]
  decide

/-- Settles O47: the tree is one leaf, so no code bits follow the length. -/
theorem huffmanSingleSymbolPayload : Obligations.HuffmanSingleSymbolPayload := by
  intro s hready hroom
  obtain ⟨hcompletes, _⟩ := huffmanEncodeWritesPayload s hready
  refine ⟨fun b hblock hne => ?_, fun hzero => ?_⟩
  · have hpayload := huffmanPayload_replicate b fun h0 : s.inLen.toNat = 0 => hne (BitVec.eq_of_toNat_eq h0)
    rw [BitVec.ofNat_toNat, BitVec.setWidth_eq] at hpayload
    rw [hblock, hpayload] at hcompletes
    have hsix : (packBits .msb (true :: bitsOf .msb b ++ bitsOf .msb s.inLen)).length = 6 := by
      rw [packBits_length, List.length_append, List.length_cons, bitsOf_length, bitsOf_length]
    obtain ⟨t, hexec, hcompleted, _, _, hout, _⟩ := hcompletes (by rw [hsix]; exact hroom)
    exact ⟨t, hexec, hcompleted, BitVec.eq_of_toNat_eq (hout.1.trans hsix), hout⟩
  · have hnil : inBlock s = [] := List.eq_nil_of_length_eq_zero (by rw [inBlock_length, hzero]; rfl)
    rw [hnil, huffmanPayload_nil] at hcompletes
    obtain ⟨t, hexec, hcompleted, _, _, hout, _⟩ := hcompletes hroom
    exact ⟨t, hexec, hcompleted, hout⟩

end Sys2Proof.Machine
end

section
/-! Reading a serialised tree (R96, R157): everything `DeserializeTree` can do on the bits that are left. -/

namespace Sys2Proof.Machine

-- The bits that are left

/-- Bit `i` of the number that bits stand for, least significant first. -/
theorem testBit_bitsValue_lsb (bs : List Bool) (i : Nat) : (bitsValue .lsb bs).testBit i = bs.getD i false := by
  induction bs generalizing i with
  | nil => simp [bitsValue]
  | cons b bs ih =>
    have hcons : bitsValue .lsb (b :: bs) = b.toNat + 2 * bitsValue .lsb bs := rfl
    rw [hcons]
    cases i with
    | zero => cases b <;> simp [Nat.testBit_zero]
    | succ i =>
      have hhalf : (b.toNat + 2 * bitsValue .lsb bs) / 2 = bitsValue .lsb bs := by
        have := b.toNat_lt
        omega
      rw [Nat.testBit_succ, hhalf, ih]
      rfl

/-- A stream that is long enough begins with a field of any width (R93, R96). -/
theorem exists_bitsOf_append {w : Nat} {bits : List Bool} (h : w ≤ bits.length) :
    ∃ (v : BitVec w) (rest : List Bool), bits = bitsOf .msb v ++ rest := by
  have hlsb : ∀ bs : List Bool, bs.length = w → bitsOf .lsb (BitVec.ofNat w (bitsValue .lsb bs)) = bs := by
    intro bs hlen
    refine List.ext_getElem (by rw [bitsOf_length, hlen]) fun i hi hi1 => ?_
    simp only [bitsOf, List.getElem_map, List.getElem_range, BitVec.getLsbD_ofNat, testBit_bitsValue_lsb,
      List.getD_eq_getElem _ _ hi1, hlen ▸ hi1, decide_true, Bool.true_and]
  refine ⟨BitVec.ofNat w (bitsValue .lsb (bits.take w).reverse), bits.drop w, ?_⟩
  rw [bitsOf_msb, hlsb _ (by rw [List.length_reverse, List.length_take_of_le h]), List.reverse_reverse,
    List.take_append_drop]

/-- The reader of a decoder in `MSB` order stands before `bits`, which are all that is left of the block `x` (R95). -/
structure ReaderAt (x : List Byte) (bits : List Bool) (e : Engine) : Prop where
  order : e.rOrder = .msb
  pos : e.rPos ≤ 8 * x.length
  rest : (streamBits .msb x).drop e.rPos = bits

theorem ReaderAt.length {x : List Byte} {bits : List Bool} {e : Engine} (h : ReaderAt x bits e) :
    e.rPos + bits.length = 8 * x.length := by
  have := h.pos
  rw [← h.rest, List.length_drop, streamBits_length]
  omega

theorem ReaderAt.congr {x : List Byte} {bits : List Bool} {e e1 : Engine} (h : ReaderAt x bits e)
    (horder : e1.rOrder = e.rOrder) (hpos : e1.rPos = e.rPos) : ReaderAt x bits e1 :=
  ⟨horder.trans h.order, hpos ▸ h.pos, hpos ▸ h.rest⟩

/-- The reader after `bits` more. -/
theorem ReaderAt.advance {x : List Byte} {bits rest : List Bool} {e e1 : Engine} (h : ReaderAt x (bits ++ rest) e)
    (horder : e1.rOrder = e.rOrder) (hpos : e1.rPos = e.rPos + bits.length) : ReaderAt x rest e1 := by
  have hlen := h.length
  rw [List.length_append] at hlen
  refine ⟨horder.trans h.order, by omega, ?_⟩
  rw [hpos, ← List.drop_drop, h.rest, List.drop_left]

theorem ReaderAt.rbit_end {x : List Byte} {e : Engine} (h : ReaderAt x [] e) : rbit x e = none := by
  rcases rbit_cases x e with ⟨_, hend⟩ | ⟨hne, _⟩
  · exact hend
  · exact absurd h.length hne

theorem ReaderAt.rbit_next {x : List Byte} {b : Bool} {bits : List Bool} {e : Engine} (h : ReaderAt x (b :: bits) e) :
    rbit x e = some (b, { e with rPos := e.rPos + 1 }) := by
  have hlen := h.length
  rw [List.length_cons] at hlen
  have hbit : (streamBits .msb x)[e.rPos]? = some b := by
    rw [← List.head?_drop, h.rest]
    rfl
  rw [rbit_eq_streamBits (by omega)]
  simp only [h.order, (List.getElem_eq_iff _).2 hbit]

theorem ReaderAt.bsRead_field {x : List Byte} {w : Nat} {v : BitVec w} {rest : List Bool} {e : Engine}
    (h : ReaderAt x (bitsOf .msb v ++ rest) e) : bsRead x w e = .ok (v, { e with rPos := e.rPos + w }) := by
  have hlen := h.length
  rw [List.length_append, bitsOf_length] at hlen
  have hvalue : BitVec.ofNat w (bitsValue e.rOrder (((streamBits e.rOrder x).drop e.rPos).take w)) = v := by
    rw [h.order, h.rest, List.take_left' (bitsOf_length .msb v), bitsValue_bitsOf, BitVec.ofNat_toNat,
      BitVec.setWidth_eq]
  rw [(readerReturnsStreamBits x w e h.pos).1 (by omega), hvalue]

theorem ReaderAt.bsRead_short {x : List Byte} {w : Nat} {bits : List Bool} {e : Engine} (h : ReaderAt x bits e)
    (hw : bits.length < w) : ∃ e1, bsRead x w e = .error (.corruptStream, e1) := by
  have hlen := h.length
  exact (readerReturnsStreamBits x w e h.pos).2 (by omega)

-- One call

/-- The symbol of a node is written (R157). -/
def writeSym (n : NodeId) (v : Byte) (e : Engine) : Engine := setNode e n { nodeAt e n with sym := v }

/-- The left child of a node is written (R157). -/
def writeLeft (n l : NodeId) (e : Engine) : Engine := setNode e n { nodeAt e n with left := l }

/-- The right child of a node is written (R157). -/
def writeRight (n r : NodeId) (e : Engine) : Engine := setNode e n { nodeAt e n with right := r }

theorem ReaderAt.openNode {x : List Byte} {b : Bool} {bits : List Bool} {e : Engine} (h : ReaderAt x (b :: bits) e)
    (leaf : Bool) : ReaderAt x bits (openNode leaf e) :=
  ReaderAt.advance (bits := [b]) h rfl rfl

section
variable {x : List Byte} {bits : List Bool} {e : Engine} (fuel : Nat)

theorem deserializeTree_full (h : e.nNodes = 511) :
    deserializeTree x (fuel + 1) e = .error (.corruptStream, e) := by
  rw [deserializeTree, if_pos h]
  rfl

variable (hroom : e.nNodes ≠ 511)
include hroom

theorem deserializeTree_end (h : ReaderAt x [] e) :
    deserializeTree x (fuel + 1) e = .error (.corruptStream, { e with nNodes := e.nNodes + 1 }) := by
  have hend : rbit x { e with nNodes := e.nNodes + 1 } = none := 
    (h.congr (e1 := { e with nNodes := e.nNodes + 1 }) rfl rfl).rbit_end
  rw [deserializeTree, if_neg hroom]
  simp only [hend]
  rfl

theorem deserializeTree_leaf (h : ReaderAt x (true :: bits) e) :
    deserializeTree x (fuel + 1) e =
      (bsRead x 8 (openNode true e) >>= fun p => .ok (nextNode e, writeSym (nextNode e) p.1 p.2)) := by
  have hbit := (h.congr (e1 := { e with nNodes := e.nNodes + 1 }) rfl rfl).rbit_next
  rw [deserializeTree, if_neg hroom]
  simp only [hbit]
  rfl

theorem deserializeTree_node (h : ReaderAt x (false :: bits) e) :
    deserializeTree x (fuel + 1) e =
      (deserializeTree x fuel (openNode false e) >>= fun p =>
        deserializeTree x fuel (writeLeft (nextNode e) p.1 p.2) >>= fun q =>
          .ok (nextNode e, writeRight (nextNode e) q.1 q.2)) := by
  have hbit := (h.congr (e1 := { e with nNodes := e.nNodes + 1 }) rfl rfl).rbit_next
  rw [deserializeTree, if_neg hroom]
  simp only [hbit]
  rfl

end

/-- A call that returns leaves the nodes below those that it allocates alone, and does not overfill the arena. -/
theorem deserializeTree_kept {x : List Byte} {fuel : Nat} {e : Engine} {p : NodeId × Engine}
    (hbound : e.nNodes.toNat ≤ 511) (h : deserializeTree x fuel e = .ok p) :
    (∀ i : NodeId, i.toNat < e.nNodes.toNat → nodeAt p.2 i = nodeAt e i) ∧ p.2.nNodes.toNat ≤ 511 := by
  have hself : Agree ArenaReaderAgrees e e := ⟨⟨rfl, rfl, rfl, rfl, rfl, rfl, rfl⟩, rfl, rfl⟩
  have hagree := deserializeTree_agree x fuel hbound hself
  rw [h] at hagree
  cases hagree with
  | ok hp => exact ⟨fun i hi => (hp.kept i hi).1, hp.bound⟩

-- Everything it can do

/-- A call of `DeserializeTree` that started at the engine `e` has returned `p`: the tree `t` stands on the nodes that
it allocated, its root at the first of them, and `rest` is left to read (R157). -/
structure Deserialized (x : List Byte) (e : Engine) (t : HuffTree) (rest : List Bool) (p : NodeId × Engine) : Prop where
  tree : TreeAt p.2 e.nNodes.toNat p.2.nNodes.toNat t p.1
  first : p.1.toNat = e.nNodes.toNat
  count : p.2.nNodes.toNat = e.nNodes.toNat + treeNodes t
  reader : ReaderAt x rest p.2

theorem deserialized_leaf {x : List Byte} {e : Engine} {v : Byte} {rest : List Bool} (hroom : e.nNodes.toNat < 511)
    (h : ReaderAt x (true :: (bitsOf .msb v ++ rest)) e) :
    Deserialized x e (.leaf v) rest
      (nextNode e, writeSym (nextNode e) v { openNode true e with rPos := (openNode true e).rPos + 8 }) := by
  have hid := nextNode_toNat hroom
  have hsucc : (e.nNodes + 1).toNat = e.nNodes.toNat + 1 := nNodes_succ_toNat hroom.le
  refine ⟨⟨⟨hid.ge, ?_⟩, ?_, ?_⟩, hid, hsucc, (h.openNode true).advance rfl ?_⟩
  · show (nextNode e).toNat < (e.nNodes + 1).toNat
    omega
  · rw [writeSym, nodeAt_setNode_same _ _ (hid.trans_lt hroom)]
    exact nodeAt_openNode_new true hroom
  · rw [writeSym, nodeAt_setNode_same _ _ (hid.trans_lt hroom)]
  · rw [bitsOf_length]
    rfl

theorem deserialized_node {x : List Byte} {e f g : Engine} {l r : HuffTree} {m n : NodeId} {rest rest1 : List Bool}
    {fuel : Nat} (hroom : e.nNodes.toNat < 511) (hrunl : deserializeTree x fuel (openNode false e) = .ok (m, f))
    (hl : Deserialized x (openNode false e) l rest (m, f))
    (hrunr : deserializeTree x fuel (writeLeft (nextNode e) m f) = .ok (n, g))
    (hr : Deserialized x (writeLeft (nextNode e) m f) r rest1 (n, g)) :
    Deserialized x e (.node l r) rest1 (nextNode e, writeRight (nextNode e) n g) := by
  have hid := nextNode_toNat hroom
  have hid511 : (nextNode e).toNat < 511 := hid.trans_lt hroom
  have hopen := openNode_nNodes false hroom
  obtain ⟨hkeptl, hboundf⟩ := deserializeTree_kept (by omega) hrunl
  obtain ⟨hkeptr, _⟩ := deserializeTree_kept (e := writeLeft (nextNode e) m f) hboundf hrunr
  have hcountl : f.nNodes.toNat = e.nNodes.toNat + 1 + treeNodes l := by rw [← hopen]; exact hl.count
  have hcountr : g.nNodes.toNat = f.nNodes.toNat + treeNodes r := hr.count
  have hnode : nodeAt (writeRight (nextNode e) n g) (nextNode e) =
      { nodeAt (openNode false e) (nextNode e) with left := m, right := n } := by
    rw [writeRight, nodeAt_setNode_same _ _ hid511, hkeptr _ (show _ < f.nNodes.toNat by omega), writeLeft,
      nodeAt_setNode_same _ _ hid511, hkeptl _ (by omega)]
  have hother : ∀ i : NodeId, e.nNodes.toNat < i.toNat → i ≠ nextNode e := by
    rintro i hi rfl
    omega
  have hnew : ∀ i : NodeId, e.nNodes.toNat < i.toNat → nodeAt (writeRight (nextNode e) n g) i = nodeAt g i :=
    fun i hi => nodeAt_setNode_other _ _ (hother i hi)
  refine ⟨⟨⟨hid.ge, ?_⟩, ?_, ?_, ?_⟩, hid, ?_, hr.reader.congr rfl rfl⟩
  · show (nextNode e).toNat < g.nNodes.toNat
    omega
  · rw [hnode]
    exact nodeAt_openNode_new false hroom
  · rw [hnode]
    refine hl.tree.congr (by omega) (show f.nNodes.toNat ≤ g.nNodes.toNat by omega) fun i hlo hhi => .of_eq ?_
    rw [hnew i (by omega), hkeptr i hhi, writeLeft, nodeAt_setNode_other _ _ (hother i (by omega))]
  · rw [hnode]
    have hlo : (writeLeft (nextNode e) m f).nNodes.toNat = f.nNodes.toNat := rfl
    exact hr.tree.congr (by omega) le_rfl fun i hi _ => .of_eq (hnew i (by omega))
  · show g.nNodes.toNat = _
    rw [treeNodes]
    omega

/-- What a call of `DeserializeTree` on `bits` has done when it ends with `r`: it has read the serialised tree that they
begin with; or there is none, or none that the arena has room for, and it has raised `CorruptStream` (R157). -/
def DeserializeOutcome (x : List Byte) (bits : List Bool) (e : Engine) (r : Eff (NodeId × Engine)) : Prop :=
  (∃ t rest p, bits = treeBits t ++ rest ∧ r = .ok p ∧ Deserialized x e t rest p) ∨
  ((∀ t rest, bits = treeBits t ++ rest → 511 < e.nNodes.toNat + treeNodes t) ∧
    ∃ e1, r = .error (.corruptStream, e1))

section
variable {x : List Byte} {bits : List Bool} {e : Engine} (fuel : Nat) (hroom : e.nNodes.toNat < 511)
include hroom

theorem deserializeTree_leaf_outcome (h : ReaderAt x (true :: bits) e) :
    DeserializeOutcome x (true :: bits) e (deserializeTree x (fuel + 1) e) := by
  rw [deserializeTree_leaf fuel (by bv_omega) h]
  by_cases hsym : 8 ≤ bits.length
  · obtain ⟨v, rest, rfl⟩ := exists_bitsOf_append hsym
    refine .inl ⟨.leaf v, rest, _, rfl, ?_, deserialized_leaf hroom h⟩
    rw [(h.openNode true).bsRead_field]
    rfl
  · obtain ⟨e1, hread⟩ := (h.openNode true).bsRead_short (not_le.1 hsym)
    refine .inr ⟨fun t rest hbits => ?_, e1, by rw [hread]; rfl⟩
    cases t with
    | leaf q =>
      have hlen : bits.length = (bitsOf .msb q ++ rest).length := congrArg List.length (List.tail_eq_of_cons_eq hbits)
      rw [List.length_append, bitsOf_length] at hlen
      omega
    | node l r => cases hbits

theorem deserializeTree_node_outcome (h : ReaderAt x (false :: bits) e)
    (ih : ∀ (bits1 : List Bool) (e1 : Engine), e.nNodes.toNat < e1.nNodes.toNat → e1.nNodes.toNat ≤ 511 →
      ReaderAt x bits1 e1 → DeserializeOutcome x bits1 e1 (deserializeTree x fuel e1)) :
    DeserializeOutcome x (false :: bits) e (deserializeTree x (fuel + 1) e) := by
  have hopen := openNode_nNodes false hroom
  rw [deserializeTree_node fuel (by bv_omega) h]
  rcases ih bits _ (by omega) (by omega) (h.openNode false) with
    ⟨l, rest, ⟨m, f⟩, rfl, hrunl, hl⟩ | ⟨hnone, e1, herr⟩
  · have hboundf : f.nNodes.toNat ≤ 511 := (deserializeTree_kept (by omega) hrunl).2
    have hcountl : f.nNodes.toNat = e.nNodes.toNat + 1 + treeNodes l := by rw [← hopen]; exact hl.count
    have hleft : (writeLeft (nextNode e) m f).nNodes.toNat = f.nNodes.toNat := rfl
    rw [hrunl, eff_ok_bind]
    rcases ih rest (writeLeft (nextNode e) m f) (by omega) (by omega) (hl.reader.congr rfl rfl) with
      ⟨r, rest, ⟨n, g⟩, rfl, hrunr, hr⟩ | ⟨hnone, e1, herr⟩
    · refine .inl ⟨.node l r, rest, _, ?_, by rw [hrunr]; rfl, deserialized_node hroom hrunl hl hrunr hr⟩
      rw [treeBits, List.cons_append, List.append_assoc]
    · refine .inr ⟨fun t rest1 hbits => ?_, e1, by rw [herr]; rfl⟩
      obtain ⟨l1, r1, rfl, hbits1⟩ := eq_node_of_treeBits hbits
      obtain ⟨rfl, hright⟩ := treeBits_append_inj hbits1
      have := hnone r1 rest1 hright
      rw [treeNodes]
      omega
  · refine .inr ⟨fun t rest hbits => ?_, e1, by rw [herr]; rfl⟩
    obtain ⟨l, r, rfl, hbits1⟩ := eq_node_of_treeBits hbits
    have := hnone l _ hbits1
    rw [treeNodes]
    omega

end

/-- Everything `DeserializeTree` can do: each call allocates a node, so one level more than the arena has nodes left is
enough (R157, log 13). -/
theorem deserializeTree_outcome {x : List Byte} {bits : List Bool} {e : Engine} {fuel : Nat}
    (hbound : e.nNodes.toNat ≤ 511) (hfuel : 512 ≤ fuel + e.nNodes.toNat) (h : ReaderAt x bits e) :
    DeserializeOutcome x bits e (deserializeTree x fuel e) := by
  induction fuel generalizing bits e with
  | zero => omega
  | succ fuel ih =>
    by_cases hfull : e.nNodes = 511
    · refine .inr ⟨fun t rest _ => ?_, _, deserializeTree_full fuel hfull⟩
      rw [hfull]
      exact Nat.lt_add_of_pos_right (treeNodes_pos t)
    · have hroom : e.nNodes.toNat < 511 := by bv_omega
      match bits, h with
      | [], h =>
        exact .inr ⟨fun t rest hbits => absurd hbits.symm (treeBits_append_ne_nil t rest),
          _, deserializeTree_end fuel hfull h⟩
      | true :: bits, h => exact deserializeTree_leaf_outcome fuel hroom h
      | false :: bits, h =>
        exact deserializeTree_node_outcome fuel hroom h fun bits1 e1 hgrows hbound1 => ih hbound1 (by omega)

end Sys2Proof.Machine
end

section
/-! `HUF.D` (R160, R162, R163, R165), whatever takes the place of `OutByte`: its loop decodes symbols as the walk on
lists does, until the stream ends in a walk or the output is full. -/

namespace Sys2Proof.Machine

-- One symbol

/-- Everything the walk from `CUR` can do (R160): it reads the bits that the walk on lists does. -/
theorem walkTree_cases {x : List Byte} {lo hi : Nat} {t : HuffTree} {bits : List Bool} {e : Engine} {fuel : Nat}
    (ht : TreeAt e lo hi t e.cur) (hfuel : bits.length < fuel) (h : ReaderAt x bits e) :
    (∃ s rest r c, treeWalk t bits = some (s, rest) ∧ walkTree x fuel e = .ok (s, { e with rPos := r, cur := c }) ∧
      ReaderAt x rest { e with rPos := r, cur := c }) ∨
    (treeWalk t bits = none ∧ ∃ e1, walkTree x fuel e = .error (.corruptStream, e1)) := by
  induction t generalizing bits e fuel with
  | leaf s =>
    obtain ⟨_, hleaf, hsym⟩ := ht
    obtain ⟨fuel, rfl⟩ := Nat.exists_eq_add_one.2 (Nat.zero_lt_of_lt hfuel)
    exact .inl ⟨s, bits, e.rPos, e.cur, rfl, by rw [walkTree, if_pos hleaf, hsym], h⟩
  | node l r ihl ihr =>
    obtain ⟨_, hleaf, hl, hr⟩ := ht
    obtain ⟨fuel, rfl⟩ := Nat.exists_eq_add_one.2 (Nat.zero_lt_of_lt hfuel)
    rw [walkTree, if_neg (by rw [hleaf]; exact Bool.false_ne_true)]
    cases bits with
    | nil =>
      rw [h.rbit_end]
      exact .inr ⟨rfl, e, rfl⟩
    | cons b bits =>
      have hnext : ∀ c, ReaderAt x bits { e with rPos := e.rPos + 1, cur := c } := fun c =>
        ReaderAt.advance (bits := [b]) h rfl rfl
      rw [h.rbit_next]
      rw [List.length_cons] at hfuel
      cases b with
      | true =>
        exact ihr (e := { e with rPos := e.rPos + 1, cur := (nodeAt e e.cur).right }) (hr.of_nodes rfl) (by omega)
          (hnext _)
      | false =>
        exact ihl (e := { e with rPos := e.rPos + 1, cur := (nodeAt e e.cur).left }) (hl.of_nodes rfl) (by omega)
          (hnext _)

/-- What the loop of `HUF.D` needs: `bits` are left to read, and the tree `t` stands at `ROOT`. -/
structure SymbolsAt (x : List Byte) (t : HuffTree) (bits : List Bool) (e : Engine) : Prop where
  reader : ReaderAt x bits e
  tree : TreeAt e 0 e.nNodes.toNat t e.root

/-- Everything `DecodeSymbol` can do (R160). -/
theorem decodeSymbol_cases {x : List Byte} {t : HuffTree} {bits : List Bool} {e : Engine} (h : SymbolsAt x t bits e) :
    (∃ s rest r c, treeWalk t bits = some (s, rest) ∧ decodeSymbol x e = .ok (s, { e with rPos := r, cur := c }) ∧
      SymbolsAt x t rest { e with rPos := r, cur := c }) ∨
    (treeWalk t bits = none ∧ ∃ e1, decodeSymbol x e = .error (.corruptStream, e1)) := by
  have hlen := h.reader.length
  rcases walkTree_cases (e := { e with cur := e.root }) (fuel := 8 * x.length - e.rPos + 1) (h.tree.of_nodes rfl)
    (by omega) (h.reader.congr rfl rfl) with ⟨s, rest, r, c, hwalk, hrun, hreader⟩ | hend
  · exact .inl ⟨s, rest, r, c, hwalk, hrun, hreader, h.tree.of_nodes rfl⟩
  · exact .inr hend

-- The loop

/-- The arena and `REMAINING` are the same. -/
structure SameArena (e e1 : Engine) : Prop where
  nodes : e1.nodes = e.nodes
  nNodes : e1.nNodes = e.nNodes
  root : e1.root = e.root
  remaining : e1.remaining = e.remaining

/-- What `HUF.D` needs besides of what takes the place of `OutByte` (R193): it leaves the arena and `REMAINING`
alone. -/
def EmitKeepsArena (emit : Byte → Engine → Eff Engine) : Prop := ∀ b e, EffKeeps (SameArena e) id (emit b e)

theorem emitKeepsArena_outByte (cap : Reg32) : EmitKeepsArena (outByte cap) := fun _ _ =>
  outByte_keeps ⟨rfl, rfl, rfl, rfl⟩ fun _ => ⟨rfl, rfl, rfl, rfl⟩

theorem decodeLoop_succ (emit : Byte → Engine → Eff Engine) (x : List Byte) (n : Nat) (e : Engine) :
    decodeLoop emit x (n + 1) e = (decodeSymbol x e >>= fun p => emit p.1 p.2 >>= fun e2 =>
      decodeLoop emit x n { e2 with remaining := e2.remaining - 1 }) := rfl

section
variable {cap : Reg32} {emit : Byte → Engine → Eff Engine} {W : List Byte → Engine → Prop} {x zs : List Byte}
  {t : HuffTree} {bits rest : List Bool} {e : Engine} {s : Byte}

theorem decodeLoop_walk_ends (h : SymbolsAt x t bits e) (hwalk : treeWalk t bits = none) (n : Nat) :
    ∃ e1, decodeLoop emit x (n + 1) e = .error (.corruptStream, e1) := by
  rw [decodeLoop_succ]
  rcases decodeSymbol_cases h with ⟨_, _, _, _, hsome, _⟩ | ⟨_, e1, herr⟩
  · cases hwalk.symm.trans hsome
  · exact ⟨e1, by rw [herr]; rfl⟩

variable (hemit : Emitter cap emit W)
include hemit

theorem decodeLoop_symbol_full (hW : W zs e) (h : SymbolsAt x t bits e) (hwalk : treeWalk t bits = some (s, rest))
    (hfull : zs.length = cap.toNat) (n : Nat) :
    ∃ e1, decodeLoop emit x (n + 1) e = .error (.allocationFailure, e1) := by
  rw [decodeLoop_succ]
  rcases decodeSymbol_cases h with ⟨q, _, r, c, _, hrun, _⟩ | ⟨hnone, _⟩
  · obtain ⟨e1, herr⟩ := hemit.full zs q _ (hemit.congr zs e { e with rPos := r, cur := c } hW rfl rfl rfl) hfull
    exact ⟨e1, by rw [hrun, eff_ok_bind, herr]; rfl⟩
  · cases hnone.symm.trans hwalk

variable (harena : EmitKeepsArena emit)
include harena

theorem decodeLoop_symbol (hW : W zs e) (h : SymbolsAt x t bits e) (hwalk : treeWalk t bits = some (s, rest))
    (hroom : zs.length < cap.toNat) :
    ∃ e1, (∀ n, decodeLoop emit x (n + 1) e = decodeLoop emit x n e1) ∧ W (zs ++ [s]) e1 ∧ SymbolsAt x t rest e1 ∧
      SameArena { e with remaining := e.remaining - 1 } e1 := by
  rcases decodeSymbol_cases h with ⟨q, _, r, c, hsome, hrun, hreader, htree⟩ | ⟨hnone, _⟩
  · cases hwalk.symm.trans hsome
    obtain ⟨e1, hok, hW1, hsame⟩ :=
      hemit.room zs s _ (hemit.congr zs e { e with rPos := r, cur := c } hW rfl rfl rfl) hroom
    have hkept := harena s { e with rPos := r, cur := c }
    rw [hok] at hkept
    obtain ⟨hnodes, hnNodes, hroot, hremaining⟩ := hkept
    refine ⟨{ e1 with remaining := e1.remaining - 1 }, fun n => by rw [decodeLoop_succ, hrun, eff_ok_bind, hok]; rfl,
      hemit.congr _ e1 _ hW1 rfl rfl rfl, ⟨hreader.congr hsame.rOrder hsame.rPos, ?_⟩,
      hnodes, hnNodes, hroot, congrArg (· - 1) hremaining⟩
    show TreeAt _ 0 e1.nNodes.toNat t e1.root
    rw [show e1.nNodes = e.nNodes from hnNodes, show e1.root = e.root from hroot]
    exact htree.of_nodes hnodes
  · cases hnone.symm.trans hwalk

/-- With room for the symbols the loop puts them out (R162, R165). -/
theorem decodeLoop_completes {n : Nat} {ys : List Byte} (hW : W zs e) (h : SymbolsAt x t bits e)
    (hys : treeDecode t n bits = some ys) (hroom : zs.length + n ≤ cap.toNat) :
    ∃ e1, decodeLoop emit x n e = .ok e1 ∧ W (zs ++ ys) e1 ∧
      SameArena { e with remaining := e.remaining - BitVec.ofNat 32 n } e1 := by
  induction n generalizing zs bits ys e with
  | zero =>
    cases hys
    exact ⟨e, rfl, by rwa [List.append_nil], rfl, rfl, rfl, (BitVec.sub_zero _).symm⟩
  | succ n ih =>
    obtain ⟨s, rest, zs1, hwalk, hzs1, rfl⟩ := treeDecode_succ hys
    obtain ⟨e1, hturn, hW1, h1, hsame⟩ := decodeLoop_symbol hemit harena hW h hwalk (by omega)
    obtain ⟨e2, hrun, hW2, hsame2⟩ := ih hW1 h1 hzs1 (by rw [List.length_append, List.length_singleton]; omega)
    refine ⟨e2, by rw [hturn, hrun], by rwa [List.append_cons], hsame2.nodes.trans hsame.nodes,
      hsame2.nNodes.trans hsame.nNodes, hsame2.root.trans hsame.root, ?_⟩
    have hremaining : e1.remaining = e.remaining - 1 := hsame.remaining
    have hcount : BitVec.ofNat 32 (n + 1) = 1 + BitVec.ofNat 32 n := by rw [Nat.add_comm, BitVec.ofNat_add]; rfl
    rw [hsame2.remaining, hremaining, hcount, sub_sub]

/-- The stream ends in a walk before the output is full (R163 (d)). -/
theorem decodeLoop_corrupt {n : Nat} (hW : W zs e) (h : SymbolsAt x t bits e) (hle : zs.length ≤ cap.toNat)
    (hnone : treeDecode t (min n (cap.toNat - zs.length + 1)) bits = none) :
    ∃ e1, decodeLoop emit x n e = .error (.corruptStream, e1) := by
  induction n generalizing zs bits e with
  | zero =>
    rw [Nat.zero_min] at hnone
    cases hnone
  | succ n ih =>
    cases hwalk : treeWalk t bits with
    | none => exact decodeLoop_walk_ends h hwalk n
    | some p =>
      rw [Nat.add_min_add_right, treeDecode_succ_of_walk hwalk, Option.map_eq_none_iff] at hnone
      have hroom : zs.length < cap.toNat := by
        refine lt_of_le_of_ne hle fun hfull => ?_
        rw [hfull, Nat.sub_self, Nat.min_zero] at hnone
        cases hnone
      obtain ⟨e1, hturn, hW1, h1, _⟩ := decodeLoop_symbol hemit harena hW h hwalk hroom
      have hlen : (zs ++ [p.1]).length = zs.length + 1 := List.length_append
      have hleft : cap.toNat - (zs ++ [p.1]).length + 1 = cap.toNat - zs.length := by omega
      rw [hturn]
      exact ih hW1 h1 (by omega) (hleft ▸ hnone)

/-- A symbol is to be put out and the output is full (R163). -/
theorem decodeLoop_full {n : Nat} (hW : W zs e) (h : SymbolsAt x t bits e) (hle : zs.length ≤ cap.toNat)
    (hfull : cap.toNat < zs.length + n) (hsome : treeDecode t (cap.toNat - zs.length + 1) bits ≠ none) :
    ∃ e1, decodeLoop emit x n e = .error (.allocationFailure, e1) := by
  induction n generalizing zs bits e with
  | zero => exact absurd hle (not_le.2 hfull)
  | succ n ih =>
    cases hwalk : treeWalk t bits with
    | none =>
      rw [treeDecode, hwalk] at hsome
      exact absurd rfl hsome
    | some p =>
      rcases Nat.eq_or_lt_of_le hle with hend | hroom
      · exact decodeLoop_symbol_full hemit hW h hwalk hend n
      · rw [treeDecode_succ_of_walk hwalk, ne_eq, Option.map_eq_none_iff] at hsome
        obtain ⟨e1, hturn, hW1, h1, _⟩ := decodeLoop_symbol hemit harena hW h hwalk hroom
        have hlen : (zs ++ [p.1]).length = zs.length + 1 := List.length_append
        have hleft : cap.toNat - (zs ++ [p.1]).length + 1 = cap.toNat - zs.length := by omega
        rw [hturn]
        exact ih hW1 h1 (by omega) (by omega) (hleft ▸ hsome)

end

-- The body of `HUF.D`

/-- The engine with which `HUF.D` calls `DeserializeTree` (R162). -/
def decodeStart (e : Engine) : Engine := { bsInitRead .msb e with nNodes := 0 }

/-- `HUF.D` once the tree is read (R162). -/
def decodeSymbols (emit : Byte → Engine → Eff Engine) (x : List Byte) (e : Engine) : Eff Engine := do
  let (n, e1) ← bsRead x Config.lenFieldBits e
  decodeLoop emit x n.toNat { e1 with remaining := n }

theorem huffmanDecode_eq (emit : Byte → Engine → Eff Engine) (x : List Byte) (e : Engine) :
    huffmanDecode emit x e = (deserializeTree x 512 (decodeStart e) >>= fun p =>
      decodeSymbols emit x { p.2 with root := p.1 }) := rfl

theorem readerAt_decodeStart (x : List Byte) (e : Engine) : ReaderAt x (streamBits .msb x) (decodeStart e) :=
  ⟨rfl, Nat.zero_le _, rfl⟩

/-- The first clause of the errors: no serialised tree, or one that is too large (R163 (a), (b)). -/
theorem huffmanDecode_no_tree (emit : Byte → Engine → Eff Engine) {x : List Byte} (e : Engine)
    (h : ∀ t rest, streamBits .msb x = treeBits t ++ rest → 511 < treeNodes t) :
    ∃ e1, huffmanDecode emit x e = .error (.corruptStream, e1) := by
  rw [huffmanDecode_eq]
  rcases deserializeTree_outcome (fuel := 512) (Nat.zero_le _) (Nat.le_add_right _ _) (readerAt_decodeStart x e) with
    ⟨t, rest, p, hbits, hrun, hp⟩ | ⟨_, e1, herr⟩
  · have hcount : p.2.nNodes.toNat = 0 + treeNodes t := hp.count
    have hbound := (deserializeTree_kept (e := decodeStart e) (Nat.zero_le _) hrun).2
    have := h t rest hbits
    omega
  · exact ⟨e1, by rw [herr]; rfl⟩

section
variable {cap : Reg32} {emit : Byte → Engine → Eff Engine} {W : List Byte → Engine → Prop}
  (hemit : Emitter cap emit W) {x : List Byte} {e : Engine} (hW : W [] e) {t : HuffTree} {rest : List Bool}
  (hbits : streamBits .msb x = treeBits t ++ rest) (hnodes : treeNodes t ≤ 511)
include hemit hW hbits hnodes

/-- The tree is read: it fills the arena, its root is node 0 (R157). -/
theorem huffmanDecode_tree :
    ∃ e1, huffmanDecode emit x e = decodeSymbols emit x e1 ∧ W [] e1 ∧ SymbolsAt x t rest e1 ∧
      e1.nNodes.toNat = treeNodes t ∧ e1.root = 0 := by
  rw [huffmanDecode_eq]
  rcases deserializeTree_outcome (fuel := 512) (Nat.zero_le _) (Nat.le_add_right _ _) (readerAt_decodeStart x e) with
    ⟨t1, rest1, ⟨n, f⟩, hbits1, hrun, hp⟩ | ⟨hnone, _⟩
  · obtain ⟨rfl, rfl⟩ := treeBits_append_inj (hbits.symm.trans hbits1)
    have hfirst : n.toNat = 0 := hp.first
    have hcount : f.nNodes.toNat = 0 + treeNodes t := hp.count
    have houtput := deserializeTree_keeps
      (P := fun a => a.outLen = e.outLen ∧ a.outBuf = e.outBuf ∧ a.pPrev = e.pPrev)
      (fun _ _ h => h) (fun _ _ _ h => h) (fun _ h _ => h) x 512 (decodeStart e) ⟨rfl, rfl, rfl⟩
    rw [hrun] at houtput
    obtain ⟨hlen, hbuf, hpPrev⟩ := houtput
    refine ⟨{ f with root := n }, by rw [hrun]; rfl, hemit.congr [] e _ hW hlen hbuf hpPrev,
      ⟨hp.reader.congr rfl rfl, hp.tree.of_nodes rfl⟩, by rw [hcount, Nat.zero_add], BitVec.eq_of_toNat_eq hfirst⟩
  · have := hnone t rest hbits
    have hzero : (decodeStart e).nNodes.toNat = 0 := rfl
    omega

/-- The stream ends inside the length field (R163 (c)). -/
theorem huffmanDecode_short (hshort : rest.length < 32) :
    ∃ e1, huffmanDecode emit x e = .error (.corruptStream, e1) := by
  obtain ⟨e1, heq, _, h1, _⟩ := huffmanDecode_tree hemit hW hbits hnodes
  obtain ⟨e2, herr⟩ := h1.reader.bsRead_short hshort
  exact ⟨e2, by rw [heq, decodeSymbols, herr]; rfl⟩

/-- Tree and length are read: the loop decodes what is left (R162). -/
theorem huffmanDecode_length {n : Reg32} {codes : List Bool} (hrest : rest = bitsOf .msb n ++ codes) :
    ∃ e1, huffmanDecode emit x e = decodeLoop emit x n.toNat e1 ∧ W [] e1 ∧ SymbolsAt x t codes e1 ∧
      e1.nNodes.toNat = treeNodes t ∧ e1.root = 0 ∧ e1.remaining = n := by
  obtain ⟨e1, heq, hW1, ⟨hreader, htree⟩, hcount, hroot⟩ := huffmanDecode_tree hemit hW hbits hnodes
  rw [hrest] at hreader
  refine ⟨{ e1 with rPos := e1.rPos + 32, remaining := n }, ?_, hemit.congr [] e1 _ hW1 rfl rfl rfl,
    ⟨hreader.advance rfl (by rw [bitsOf_length]), htree.of_nodes rfl⟩, hcount, hroot, rfl⟩
  rw [heq, decodeSymbols, hreader.bsRead_field]
  rfl

/-- The symbols of the tree, when they fit (R162, R165). -/
theorem huffmanDecode_completes (harena : EmitKeepsArena emit) {n : Reg32} {codes : List Bool} {ys : List Byte}
    (hrest : rest = bitsOf .msb n ++ codes) (hys : treeDecode t n.toNat codes = some ys) (hroom : n ≤ cap) :
    ∃ e1, huffmanDecode emit x e = .ok e1 ∧ W ys e1 ∧ e1.nNodes.toNat = treeNodes t ∧ e1.root = 0 ∧
      e1.remaining = 0 := by
  obtain ⟨e1, heq, hW1, h1, hcount, hroot, hremaining⟩ := huffmanDecode_length hemit hW hbits hnodes hrest
  obtain ⟨e2, hrun, hW2, hsame⟩ := decodeLoop_completes hemit harena hW1 h1 hys ((Nat.zero_add _).trans_le hroom)
  refine ⟨e2, by rw [heq, hrun], hW2, by rw [hsame.nNodes]; exact hcount, hsame.root.trans hroot, ?_⟩
  rw [hsame.remaining]
  show e1.remaining - BitVec.ofNat 32 n.toNat = 0
  rw [hremaining, BitVec.ofNat_toNat, BitVec.setWidth_eq, sub_self]

end

end Sys2Proof.Machine
end

section
/-! The statements about `HUF.D` (R162 to R165), the round trip (R166), and what the two Huffman commands leave
unchanged. -/

namespace Sys2Proof.Machine

-- The command

theorem execHufD_fails {s : State} {k : ErrorKind} (h : Ready s)
    (hrun : ∃ e, huffmanDecode (outByte s.caps.outCap) (inBlock s) s.eng.start = .error (k, e)) :
    ∃ t, exec .hufD s = .next t ∧ FailedWith k t := by
  obtain ⟨e, herr⟩ := hrun
  obtain ⟨t, hexec, hfailed, _⟩ := runCommand_fails (w := encode .hufD) h herr
  exact ⟨t, hexec, hfailed⟩

/-- Settles O48: the body reads the tree and the length, and its loop walks the tree. -/
theorem huffmanDecodeWalksTree : Obligations.HuffmanDecodeWalksTree := by
  intro s tree n rest ys hready hbits hnodes hys hroom
  rw [List.append_assoc] at hbits
  obtain ⟨e, hrun, hout, hcount, hroot, hremaining⟩ := huffmanDecode_completes (emitter_outByte s.caps.outCap)
    (outputHolds_nil (engineStart_outLen s.eng) rfl) hbits hnodes (emitKeepsArena_outByte _) rfl hys hroom
  obtain ⟨t, hexec, hcompleted, hcmd, hhost, rfl⟩ := runCommand_completes (w := encode .hufD) hready hrun
  exact ⟨t, hexec, hcompleted, hcmd, hhost, hout,
    BitVec.eq_of_toNat_eq (hout.1.trans (treeDecode_length hys)), hremaining, hcount, hroot⟩

/-- Settles O49: one outcome of the body for each clause. -/
theorem huffmanDecodeErrors : Obligations.HuffmanDecodeErrors := by
  intro s hready
  have hemit := emitter_outByte s.caps.outCap
  have harena := emitKeepsArena_outByte s.caps.outCap
  have hW : OutputHolds [] s.eng.start := outputHolds_nil rfl rfl
  refine ⟨fun hnone => execHufD_fails hready (huffmanDecode_no_tree _ _ hnone), fun tree rest hbits hnodes =>
    ⟨fun hshort => execHufD_fails hready (huffmanDecode_short hemit hW hbits hnodes hshort),
      fun n codes hrest => ?_⟩⟩
  obtain ⟨e1, heq, hW1, h1, _⟩ := huffmanDecode_length hemit hW hbits hnodes hrest
  refine ⟨fun hnone => execHufD_fails hready ?_, fun hfull hsome => execHufD_fails hready ?_⟩
  · rw [heq]
    exact decodeLoop_corrupt hemit harena hW1 h1 (Nat.zero_le _) hnone
  · rw [heq]
    exact decodeLoop_full hemit harena hW1 h1 (Nat.zero_le _) 
      (by rw [List.length_nil, Nat.zero_add]; exact hfull) hsome

-- The round trip

/-- The payload of a block begins with its tree, its length, and codes that decode to it (R158, R166). -/
theorem streamBits_huffmanPayload {x : List Byte} (h : x.length < 2 ^ 32) :
    ∃ codes, streamBits .msb (huffmanPayload x) =
        treeBits (blockTree x) ++ bitsOf .msb (BitVec.ofNat 32 x.length) ++ codes ∧
      treeDecode (blockTree x) (BitVec.ofNat 32 x.length).toNat codes = some x := by
  obtain ⟨pad, _, hstream⟩ := packedStreamReadsBack .msb (huffmanStream (blockTree x) x)
  refine ⟨_, by rw [huffmanPayload, hstream, huffmanStream, List.append_assoc], ?_⟩
  rw [BitVec.toNat_ofNat, Nat.mod_eq_of_lt h]
  exact treeDecode_codes x (fun b hb => mem_treeSymbols_blockTree hb) _

/-- The payload of the empty block with one byte more, where `OUT_CAP` is the largest. -/
def trailingPayload : State :=
  { State.reset with
    inLen := 7, inBuf := [(0, 0x80), (1, 0), (2, 0), (3, 0), (4, 0), (5, 0), (6, 0)],
    caps := { inCap := 7, outCap := 0xFFFFFFFF } }

theorem inBlock_trailingPayload : inBlock trailingPayload = [0x80, 0, 0, 0, 0, 0, 0] := by decide

/-- `HUF.D` decodes it to the empty block: what follows the length is not read (R165). -/
theorem execHufD_trailingPayload :
    ∃ v, exec .hufD trailingPayload = .next v ∧ Completed v ∧ OutputIs [] v := by
  have hready : Ready trailingPayload := ⟨by decide, by decide⟩
  have hbits : streamBits .msb (inBlock trailingPayload) =
      treeBits (.leaf 0) ++ bitsOf .msb (0 : Reg32) ++ List.replicate 15 false := by
    rw [inBlock_trailingPayload]
    decide
  obtain ⟨v, hexec, hcompleted, _, _, hout, _⟩ := huffmanDecodeWalksTree trailingPayload (.leaf 0) 0 _ [] hready hbits
    (Nat.le_add_left 1 510) rfl (by decide)
  exact ⟨v, hexec, hcompleted, hout⟩

/-- The payload of a block decodes to the block. -/
theorem execHufD_huffmanPayload {u : State} {x : List Byte} (hu : Ready u) (hblock : inBlock u = huffmanPayload x)
    (hlen : x.length < 2 ^ 32) (hroom : x.length ≤ u.caps.outCap.toNat) :
    ∃ v, exec .hufD u = .next v ∧ Completed v ∧ OutputIs x v := by
  obtain ⟨codes, hbits, hdecode⟩ := streamBits_huffmanPayload hlen
  rw [← hblock] at hbits
  have hle : BitVec.ofNat 32 x.length ≤ u.caps.outCap := by
    show (BitVec.ofNat 32 x.length).toNat ≤ _
    rwa [BitVec.toNat_ofNat, Nat.mod_eq_of_lt hlen]
  obtain ⟨v, hv, hdone, _, _, hout, _⟩ := huffmanDecodeWalksTree u (blockTree x) _ codes x hu hbits
    (treeNodes_blockTree_le x) hdecode hle
  exact ⟨v, hv, hdone, hout⟩

/-- A completed `HUF.E` has made the payload of its block. -/
theorem outBlock_execHufE {s t : State} (hbusy : s.runState ≠ .busy) (h : exec .hufE s = .next t)
    (ht : Completed t) : outBlock t = huffmanPayload (inBlock s) := by
  obtain ⟨hready, _⟩ := runCommand_completed (body := huffmanEncode s.caps.outCap) hbusy h ht
  obtain ⟨hcompletes, hfails⟩ := huffmanEncodeWritesPayload s hready
  rcases le_or_gt (huffmanPayload (inBlock s)).length s.caps.outCap.toNat with hroom | hroom
  · obtain ⟨t1, hexec, _, _, _, hout, _⟩ := hcompletes hroom
    cases hexec.symm.trans h
    exact outBlock_of_outputIs hout
  · obtain ⟨t1, hexec, ⟨herror, _⟩, _⟩ := hfails hroom
    cases hexec.symm.trans h
    cases herror.symm.trans ht.1

/-- Settles O50: the payload decodes to its block; and a payload with a trailing byte decodes to the empty block, whose
own payload is another. -/
theorem huffmanRoundTrip : Obligations.HuffmanRoundTrip := by
  refine ⟨fun s hready hroom => ?_, ?_⟩
  · obtain ⟨hcompletes, _⟩ := huffmanEncodeWritesPayload s hready
    obtain ⟨t, hexec, hcompleted, _, _, hout, _⟩ := hcompletes hroom
    refine ⟨t, hexec, hcompleted, fun u hu hblock hfits => ?_⟩
    rw [outBlock_of_outputIs hout] at hblock
    exact execHufD_huffmanPayload hu hblock (inBlock_length_lt s) (by rw [inBlock_length]; exact hfits)
  · obtain ⟨v, hv, hvdone, hvout⟩ := execHufD_trailingPayload
    have hready : Ready trailingPayload := ⟨by decide, by decide⟩
    refine ⟨trailingPayload, v, hready, hv, hvdone, fun s t hbusy h ht heq => ?_⟩
    rw [outBlock_execHufE hbusy h ht] at heq
    obtain ⟨v1, hv1, _, hout⟩ := execHufD_huffmanPayload hready heq.symm (inBlock_length_lt s)
      (Nat.le_of_lt_succ (inBlock_length_lt s))
    cases hv.symm.trans hv1
    have hnil : inBlock s = [] := by rw [← outBlock_of_outputIs hout, outBlock_of_outputIs hvout]
    rw [hnil, huffmanPayload_nil, inBlock_trailingPayload] at heq
    cases heq

-- The frame

/-- What `HUF.E` leaves as command start does, from the engine `e0` before it. -/
def EncodeFrame (e0 e : Engine) : Prop :=
  LzwStateKept e0 e ∧ ReaderKept e0 e ∧ e.pPrev = 0 ∧ e.cur = e0.cur ∧ e.remaining = e0.remaining

/-- What `HUF.D` leaves as command start does. -/
def DecodeFrame (e0 e : Engine) : Prop :=
  LzwStateKept e0 e ∧ WriterKept e0 e ∧ e.pPrev = 0 ∧ e.inPos = 0 ∧ e.hist = e0.start.hist

theorem encodeFrame_start (e : Engine) : EncodeFrame e e.start :=
  ⟨⟨rfl, rfl, rfl, rfl, rfl⟩, ⟨rfl, rfl⟩, rfl, rfl, rfl⟩

theorem decodeFrame_start (e : Engine) : DecodeFrame e e.start :=
  ⟨⟨rfl, rfl, rfl, rfl, rfl⟩, ⟨rfl, rfl, rfl⟩, rfl, rfl, rfl⟩

/-- A body that keeps a property on every path. A structure, so that elaboration does not unfold the body with it. -/
structure BodyKeeps (P : Engine → Prop) (body : List Byte → Engine → Eff Engine) : Prop where
  keeps : ∀ x e, P e → EffKeeps P id (body x e)

theorem BodyKeeps.frame {P : Engine → Prop} {body : List Byte → Engine → Eff Engine} {w : BitVec 8} {s t : State}
    (hbody : BodyKeeps P body) (hout : ∀ e, P e → P { e with outLen := 0, outBuf := [] }) (hstart : P s.eng.start)
    (hbusy : s.runState ≠ .busy) (h : runCommand w body s = .next t) : P t.eng ∧ HostSideKept s t :=
  runCommand_frame hout hstart (hbody.keeps _ _ hstart) hbusy h

/-- What a property of the engine needs to be carried through `HUF.E`: the updates that its body makes (R161). -/
theorem bodyKeeps_huffmanEncode {P : Engine → Prop} {cap : Reg32} (hw : ∀ b e, P e → EffKeeps P id (wbit cap b e))
    (hf : ∀ e, P e → EffKeeps P id (bsFlush cap e)) (hpos : ∀ e n, P e → P { e with inPos := n })
    (hh : ∀ e v, P e → P { e with hist := v }) (hn : ∀ e v m, P e → P { e with nodes := v, nNodes := m })
    (hr : ∀ e n, P e → P { e with root := n }) (hi : ∀ e, P e → P (bsInitWrite .msb e)) :
    BodyKeeps P (huffmanEncode cap) := by
  refine ⟨fun x e h => ?_⟩
  have hc : ∀ e, P e → P (consume e) := fun e h => hpos e _ h
  have htree : P (encoderTree x e) := encoderTree_keeps hc hh hn hr x (hi e h)
  rw [huffmanEncode_eq]
  generalize encoderTree x e = e1 at htree ⊢
  refine effKeeps_bind ?_ hf
  refine effKeeps_bind (serializeTree_keeps hw _ e1.root e1 htree) fun e2 h2 => ?_
  refine effKeeps_bind (bsWrite_keeps hw _ e2 h2) fun e3 h3 => ?_
  exact writeCodes_keeps hw hc x _ (hpos e3 0 h3)

theorem huffmanEncode_frame (cap : Reg32) (e0 : Engine) : BodyKeeps (EncodeFrame e0) (huffmanEncode cap) :=
  bodyKeeps_huffmanEncode (wbit_keeps_of_insensitive fun _ _ _ _ _ h => h)
    (bsFlush_keeps_of_insensitive fun _ _ _ _ _ h => h) (fun _ _ h => h) (fun _ _ h => h) (fun _ _ _ h => h)
    (fun _ _ h => h) fun _ h => h

theorem huffmanDecode_frame (cap : Reg32) (e0 : Engine) : BodyKeeps (DecodeFrame e0) (huffmanDecode (outByte cap)) :=
  ⟨huffmanDecode_keeps (fun _ _ h => outByte_keeps h fun _ => h) (fun _ _ h => h) (fun _ _ _ h => h) (fun _ h _ => h)
    (fun _ _ h => h) (fun _ _ h => h) (fun _ _ h => h) fun _ h => h⟩

/-- Settles O51: neither body touches what its frame names, on any path. -/
theorem huffmanFrame : Obligations.HuffmanFrame := by
  refine fun s t hbusy => ⟨fun h => ?_, fun h => ?_⟩
  · obtain ⟨⟨hlzw, hreader, hpPrev, hcur, hremaining⟩, hhost⟩ :=
      (huffmanEncode_frame s.caps.outCap s.eng).frame (fun _ h => h) (encodeFrame_start s.eng) hbusy h
    exact ⟨hlzw, hreader, hpPrev, hcur, hremaining, hhost⟩
  · obtain ⟨⟨hlzw, hwriter, hpPrev, hinPos, hhist⟩, hhost⟩ :=
      (huffmanDecode_frame s.caps.outCap s.eng).frame (fun _ h => h) (decodeFrame_start s.eng) hbusy h
    exact ⟨hlzw, hwriter, hpPrev, hinPos, hhist, hhost⟩

end Sys2Proof.Machine
end

section
/-! The composite commands (R190 to R193, R198): in the compress direction the coder runs on the deltas of the block
from the engine of command start but for `P_PREV`; in the other the undo stage takes the place of `OutByte`. -/

namespace Sys2Proof.Machine

-- The predictor stage in front of a coder (R190, R192)

/-- What the predictor collects are the deltas (R140). -/
theorem predCollectLoop_fst (x : List Byte) (e : Engine) : (predCollectLoop x e).1 = deltasFrom e.pPrev x := by
  induction x generalizing e with
  | nil => rfl
  | cons b bs ih => exact congrArg ((b - e.pPrev) :: ·) (ih { consume e with pPrev := b })

/-- The engine with which the coder of a composite command starts on the deltas of `x` (R190, R192). -/
def coderStart (x : List Byte) (e : Engine) : Engine := { e.start with pPrev := x.getLastD 0 }

theorem predCollect_start (x : List Byte) (e : Engine) :
    (predCollect x e.start).1 = deltas x ∧ { (predCollect x e.start).2 with inPos := 0 } = coderStart x e := by
  obtain ⟨n, p, hsnd⟩ := predCollectLoop_snd x { e.start with pPrev := 0 }
  have hp : p = x.getLastD 0 := (congrArg Engine.pPrev hsnd).symm.trans (predCollectLoop_pPrev x _)
  refine ⟨predCollectLoop_fst x _, ?_⟩
  rw [predCollect, hsnd, hp]
  rfl

theorem hufpEncode_start (cap : Reg32) (x : List Byte) (e : Engine) :
    hufpEncode cap x e.start = huffmanEncode cap (deltas x) (coderStart x e) := by
  obtain ⟨hdeltas, heng⟩ := predCollect_start x e
  rw [← hdeltas, ← heng]
  rfl

/-- The empty block is refused by either stage (R190, R202). -/
theorem lzwpCompress_start (cap : Reg32) (x : List Byte) (e : Engine) :
    lzwpCompress cap x e.start = lzwCompress cap (deltas x) (coderStart x e) := by
  cases x with
  | nil => rfl
  | cons b bs =>
    obtain ⟨hdeltas, heng⟩ := predCollect_start (b :: bs) e
    rw [← hdeltas, ← heng]
    rfl

-- The coders leave `P_PREV` alone

theorem BodyKeeps.of_ok {P : Engine → Prop} {body : List Byte → Engine → Eff Engine} (hbody : BodyKeeps P body)
    {x : List Byte} {e e1 : Engine} (hP : P e) (h : body x e = .ok e1) : P e1 := by
  have hkeeps := hbody.keeps x e hP
  rw [h] at hkeeps
  exact hkeeps

/-- `Insert` touches the dictionary and `NEXT_FREE` only (R113). -/
theorem insert_keeps {P : Engine → Prop}
    (hP : ∀ e p s n, P e → P { e with dictPrefix := p, dictSuffix := s, nextFree := n }) (c : Code) (b : Byte)
    {e : Engine} (h : P e) : P (insert c b e) := by
  obtain ⟨_, _, _, heq⟩ := insert_eq c b e
  rw [heq]
  exact hP e _ _ _ h

theorem lzwCompress_pPrev {cap : Reg32} {x : List Byte} {e e1 : Engine} (h : lzwCompress cap x e = .ok e1) :
    e1.pPrev = e.pPrev := by
  have hbody : BodyKeeps (·.pPrev = e.pPrev) (lzwCompress cap) :=
    ⟨lzwCompress_keeps (wbit_keeps_of_insensitive fun _ _ _ _ _ h => h)
      (bsFlush_keeps_of_insensitive fun _ _ _ _ _ h => h) (fun _ h => h) (fun _ _ _ h _ => h)
      (fun _ _ _ h => insert_keeps (P := (·.pPrev = e.pPrev)) (fun _ _ _ _ h => h) _ _ h) fun _ _ h => h⟩
  exact hbody.of_ok rfl h

theorem huffmanEncode_pPrev {cap : Reg32} {x : List Byte} {e e1 : Engine} (h : huffmanEncode cap x e = .ok e1) :
    e1.pPrev = e.pPrev := by
  have hbody : BodyKeeps (·.pPrev = e.pPrev) (huffmanEncode cap) :=
    bodyKeeps_huffmanEncode (wbit_keeps_of_insensitive fun _ _ _ _ _ h => h)
      (bsFlush_keeps_of_insensitive fun _ _ _ _ _ h => h) (fun _ _ h => h) (fun _ _ h => h) (fun _ _ _ h => h)
      (fun _ _ h => h) fun _ h => h
  exact hbody.of_ok rfl h

-- The compress direction

theorem deltas_eq_cons {s : State} (h : s.inLen ≠ 0) :
    ∃ d ds, deltas (inBlock s) = d :: ds ∧ ds.length + 1 = s.inLen.toNat := by
  obtain ⟨bs, hblock, hlength⟩ := inBlock_eq_cons h
  exact ⟨_, _, congrArg deltas hblock, by rw [deltasFrom_length, hlength]⟩

/-- Settles O52: the body is that of `LZW.C` on the deltas. -/
theorem lzwPredictorCompressesDeltas : Obligations.LzwPredictorCompressesDeltas := by
  intro s hready hne codes
  obtain ⟨d, ds, hdeltas, hlength⟩ := deltas_eq_cons hne
  have hcodes : codes = lzwGreedyCodes (d :: ds) := congrArg lzwGreedyCodes hdeltas
  have hbody := lzwpCompress_start s.caps.outCap (inBlock s) s.eng
  rw [hdeltas] at hbody ⊢
  obtain ⟨_, hle, _⟩ := lzwGreedyCodes_laws d ds
  rw [hcodes]
  refine ⟨by omega, lzwExpand_lzwGreedyCodes (List.cons_ne_nil d ds), fun hroom => ?_, fun hroom => ?_⟩
  · obtain ⟨e1, hrun, hout, _⟩ := lzwCompress_completes d ds (e := coderStart (inBlock s) s.eng) rfl rfl hroom
    obtain ⟨t, hexec, hcompleted, hcmd, hhost, rfl⟩ :=
      runCommand_completes (w := encode .lzwpC) hready (hbody.trans hrun)
    exact ⟨t, hexec, hcompleted, hcmd, hhost, hout, lzwCompress_pPrev hrun⟩
  · obtain ⟨e1, hrun⟩ := lzwCompress_no_room d ds (e := coderStart (inBlock s) s.eng) rfl rfl hroom
    obtain ⟨t, hexec, hfailed, hcmd, hhost, _⟩ := runCommand_fails (w := encode .lzwpC) hready (hbody.trans hrun)
    exact ⟨t, hexec, hfailed, hcmd, hhost⟩

theorem deltas_inBlock_length (s : State) : (deltas (inBlock s)).length = s.inLen.toNat := by
  rw [deltas, deltasFrom_length, inBlock_length]

/-- Settles O54: the body is that of `HUF.E` on the deltas. -/
theorem huffmanPredictorEncodesDeltas : Obligations.HuffmanPredictorEncodesDeltas := by
  intro s hready
  have hbody := hufpEncode_start s.caps.outCap (inBlock s) s.eng
  obtain ⟨hcompletes, hfails⟩ := huffmanEncode_outcome (cap := s.caps.outCap) (x := deltas (inBlock s))
    (e := coderStart (inBlock s) s.eng) ((deltas_inBlock_length s).trans_lt s.inLen.isLt) rfl rfl
  refine ⟨fun hroom => ?_, fun hroom => ?_⟩
  · obtain ⟨e1, hrun, hout, _⟩ := hcompletes hroom
    obtain ⟨t, hexec, hcompleted, hcmd, hhost, rfl⟩ :=
      runCommand_completes (w := encode .hufpC) hready (hbody.trans hrun)
    exact ⟨t, hexec, hcompleted, hcmd, hhost, hout, huffmanEncode_pPrev hrun⟩
  · obtain ⟨e1, hrun⟩ := hfails hroom
    obtain ⟨t, hexec, hfailed, hcmd, hhost, _⟩ := runCommand_fails (w := encode .hufpC) hready (hbody.trans hrun)
    exact ⟨t, hexec, hfailed, hcmd, hhost⟩

-- The undo stage in the place of `OutByte` (R191, R193)

theorem sumsFrom_concat (p : Byte) (x : List Byte) (d : Byte) :
    sumsFrom p (x ++ [d]) = sumsFrom p x ++ [d + (p + x.sum)] := by
  induction x generalizing p with
  | nil => rw [List.nil_append, List.sum_nil, add_zero]; rfl
  | cons b bs ih =>
    rw [List.cons_append, sumsFrom, ih, sumsFrom, List.cons_append, List.sum_cons, add_comm b p, add_assoc]

/-- The running sums of `ys` are out, and `P_PREV` is the last of them (R141). -/
def SumsHold (ys : List Byte) (e : Engine) : Prop := OutputHolds (sums ys) e ∧ e.pPrev = ys.sum

theorem sumsHold_nil {e : Engine} (hlen : e.outLen = 0) (hbuf : e.outBuf = []) (hp : e.pPrev = 0) : SumsHold [] e :=
  ⟨outputHolds_nil hlen hbuf, hp⟩

theorem undoByte_eq (cap : Reg32) (d : Byte) (e : Engine) :
    undoByte cap d e = (outByte cap (d + e.pPrev) e >>= fun e1 => .ok { e1 with pPrev := d + e.pPrev }) := rfl

/-- The undo stage turns the bytes it takes into their running sums. -/
theorem emitter_undoByte (cap : Reg32) : Emitter cap (undoByte cap) SumsHold where
  room ys d e h hroom := by
    obtain ⟨hout, hp⟩ := h
    obtain ⟨e1, hok, hout1, ⟨hnext, hprefix, hsuffix⟩, hprev, hrPos, hrOrder⟩ :=
      (emitter_outByte cap).room (sums ys) (d + e.pPrev) e hout (by rwa [sums, sumsFrom_length])
    refine ⟨{ e1 with pPrev := d + e.pPrev }, by rw [undoByte_eq, hok, eff_ok_bind], ⟨?_, ?_⟩,
      ⟨hnext, hprefix, hsuffix⟩, hprev, hrPos, hrOrder⟩
    · rw [sums, sumsFrom_concat, zero_add, ← hp]
      exact hout1
    · rw [List.sum_append, List.sum_singleton, ← hp, add_comm]
  full ys d e h hfull := by
    obtain ⟨hout, _⟩ := h
    obtain ⟨e1, herr⟩ :=
      (emitter_outByte cap).full (sums ys) (d + e.pPrev) e hout (by rwa [sums, sumsFrom_length])
    exact ⟨e1, by rw [undoByte_eq, herr, eff_error_bind]⟩
  congr ys e e1 h hlen hbuf hp := by
    obtain ⟨hout, hsum⟩ := h
    exact ⟨(emitter_outByte cap).congr (sums ys) e e1 hout hlen hbuf hp, hp.trans hsum⟩

theorem emitKeepsArena_undoByte (cap : Reg32) : EmitKeepsArena (undoByte cap) := fun d e =>
  undoByte_keeps (fun _ _ h => outByte_keeps h fun _ => { h with }) (fun _ _ h => { h with }) d e ⟨rfl, rfl, rfl, rfl⟩

/-- Command start leaves the undo stage at its beginning: `P_PREV` = 0 (R191, R193, R241). -/
theorem sumsHold_start (e : Engine) : SumsHold [] e.start := sumsHold_nil rfl rfl rfl

/-- Settles O53: the body of `LZW.D` gives its bytes to the undo stage. -/
theorem lzwPredictorDecompressesSums : Obligations.LzwPredictorDecompressesSums := by
  intro s ys hready _ hspare hys hroom
  obtain ⟨e1, hrun, ⟨hout, hp⟩, _⟩ := lzwDecompress_completes (emitter_undoByte s.caps.outCap) (sumsHold_start s.eng)
    (by rwa [inBlock_length]) hys hroom
  obtain ⟨t, hexec, hcompleted, hcmd, hhost, rfl⟩ :=
    runCommand_completes (w := encode .lzwpD) (body := lzwpDecompress s.caps.outCap) hready hrun
  exact ⟨t, hexec, hcompleted, hcmd, hhost, hout, hp⟩

/-- Settles O55: the body of `HUF.D` gives its symbols to the undo stage. -/
theorem huffmanPredictorDecodesSums : Obligations.HuffmanPredictorDecodesSums := by
  intro s tree n rest ys hready hbits hnodes hys hroom
  rw [List.append_assoc] at hbits
  obtain ⟨e1, hrun, ⟨hout, hp⟩, _⟩ := huffmanDecode_completes (emitter_undoByte s.caps.outCap) (sumsHold_start s.eng)
    hbits hnodes (emitKeepsArena_undoByte _) rfl hys hroom
  obtain ⟨t, hexec, hcompleted, hcmd, hhost, rfl⟩ :=
    runCommand_completes (w := encode .hufpD) (body := hufpDecode s.caps.outCap) hready hrun
  have hlen : (sums ys).length = n.toNat := (sumsFrom_length 0 ys).trans (treeDecode_length hys)
  exact ⟨t, hexec, hcompleted, hcmd, hhost, hout, BitVec.eq_of_toNat_eq (hout.1.trans hlen), hp⟩

-- The round trips

/-- The payload of the deltas of a block decodes to the block (R198). -/
theorem execHufpD_huffmanPayload {s u : State} (hu : Ready u) (hblock : inBlock u = huffmanPayload (deltas (inBlock s)))
    (hroom : s.inLen ≤ u.caps.outCap) : ∃ v, exec .hufpD u = .next v ∧ Completed v ∧ OutputIs (inBlock s) v := by
  have hlen := deltas_inBlock_length s
  obtain ⟨codes, hbits, hdecode⟩ := streamBits_huffmanPayload (hlen.trans_lt s.inLen.isLt)
  rw [← hblock, hlen, BitVec.ofNat_toNat, BitVec.setWidth_eq] at hbits
  rw [hlen, BitVec.ofNat_toNat, BitVec.setWidth_eq] at hdecode
  obtain ⟨v, hv, hdone, _, _, hout, _⟩ := huffmanPredictorDecodesSums u _ _ codes _ hu hbits
    (treeNodes_blockTree_le _) hdecode hroom
  rw [sums, deltas, sumsFrom_deltasFrom] at hout
  exact ⟨v, hv, hdone, hout⟩

/-- The LZW payload of the deltas of a block decompresses to the block (R198). -/
theorem execLzwpD_lzwPayload {s u : State} (hne : s.inLen ≠ 0) (hu : Ready u)
    (hblock : inBlock u = lzwPayload (lzwGreedyCodes (deltas (inBlock s)))) (hroom : s.inLen ≤ u.caps.outCap) :
    ∃ v, exec .lzwpD u = .next v ∧ Completed v ∧ OutputIs (inBlock s) v := by
  obtain ⟨d, ds, hdeltas, _⟩ := deltas_eq_cons hne
  have hexpand : lzwExpand (lzwCodesOf (inBlock u)) = some (deltas (inBlock s)) := by
    rw [hblock, lzwCodesOf_lzwPayload, hdeltas, lzwExpand_lzwGreedyCodes (List.cons_ne_nil d ds)]
  have hlength := inBlock_length u
  rw [hblock, lzwPayload_length, hdeltas] at hlength
  obtain ⟨hpos, _⟩ := lzwGreedyCodes_laws d ds
  have hune : u.inLen ≠ 0 := fun hzero => by
    have : u.inLen.toNat = 0 := congrArg BitVec.toNat hzero
    omega
  obtain ⟨v, hv, hdone, _, _, hout, _⟩ := lzwPredictorDecompressesSums u _ hu hune (by omega) hexpand
    ((deltas_inBlock_length s).trans_le hroom)
  rw [sums, deltas, sumsFrom_deltasFrom] at hout
  exact ⟨v, hv, hdone, hout⟩

/-- Settles O57: the coders round trip on the deltas, whose running sums are the block. -/
theorem compositeRoundTrips : Obligations.CompositeRoundTrips := by
  refine ⟨fun s hready hne hroom => ?_, fun s hready hroom => ?_⟩
  · obtain ⟨hle, _, hcompletes, _⟩ := lzwPredictorCompressesDeltas s hready hne
    obtain ⟨t, hexec, hcompleted, _, _, hout, _⟩ := hcompletes (by rw [lzwPayload_length]; omega)
    refine ⟨t, hexec, hcompleted, fun u hu hblock => execLzwpD_lzwPayload hne hu ?_⟩
    rw [hblock, outBlock_of_outputIs hout]
  · obtain ⟨hcompletes, _⟩ := huffmanPredictorEncodesDeltas s hready
    obtain ⟨t, hexec, hcompleted, _, _, hout, _⟩ := hcompletes hroom
    refine ⟨t, hexec, hcompleted, fun u hu hblock => execHufpD_huffmanPayload hu ?_⟩
    rw [hblock, outBlock_of_outputIs hout]

end Sys2Proof.Machine
end

section
/-! What the composite commands leave unchanged (R190 to R193): what their coders leave, but for `P_PREV`; and the two
reserved `RLE` words (R194). -/

namespace Sys2Proof.Machine

-- The frame of the composite commands

/-- A property of the engine that is claimed of all of it but `P_PREV`. -/
def UpToPPrev (P : Engine → Prop) (e : Engine) : Prop := P { e with pPrev := 0 }

theorem lzwCompress_frame_upToPPrev (cap : Reg32) (e0 : Engine) :
    BodyKeeps (UpToPPrev (CompressFrame e0)) (lzwCompress cap) :=
  ⟨lzwCompress_keeps (wbit_keeps_of_insensitive fun _ _ _ _ _ h => h)
    (bsFlush_keeps_of_insensitive fun _ _ _ _ _ h => h) (fun _ h => h) (fun _ _ _ h _ => h)
    (fun _ k c h => insert_keeps (P := UpToPPrev (CompressFrame e0)) (fun _ _ _ _ h => h) k c h) fun _ _ h => h⟩

theorem huffmanEncode_frame_upToPPrev (cap : Reg32) (e0 : Engine) :
    BodyKeeps (UpToPPrev (EncodeFrame e0)) (huffmanEncode cap) :=
  bodyKeeps_huffmanEncode (wbit_keeps_of_insensitive fun _ _ _ _ _ h => h)
    (bsFlush_keeps_of_insensitive fun _ _ _ _ _ h => h) (fun _ _ h => h) (fun _ _ h => h) (fun _ _ _ h => h)
    (fun _ _ h => h) fun _ h => h

/-- The undo stage touches the output side and `P_PREV` only. -/
theorem undoByte_keeps_upToPPrev {P : Engine → Prop} {cap : Reg32}
    (hout : ∀ e m l, P e → P { e with outBuf := m, outLen := l }) (d : Byte) (e : Engine) (h : UpToPPrev P e) :
    EffKeeps (UpToPPrev P) id (undoByte cap d e) :=
  undoByte_keeps (P := UpToPPrev P) (fun _ _ h => outByte_keeps h fun _ => hout _ _ _ h) (fun _ _ h => h) d e h

theorem lzwDecompress_frame_upToPPrev (cap : Reg32) (e0 : Engine) :
    BodyKeeps (UpToPPrev (DecompressFrame e0)) (lzwDecompress (undoByte cap)) :=
  ⟨lzwDecompress_keeps (undoByte_keeps_upToPPrev fun _ _ _ h => h) (fun _ _ h => h)
    (fun e b _ h =>
      insert_keeps (P := UpToPPrev (DecompressFrame e0)) (fun _ _ _ _ h => h) e.prev b h)
    (fun _ _ h => h) fun _ h => h⟩

theorem huffmanDecode_frame_upToPPrev (cap : Reg32) (e0 : Engine) :
    BodyKeeps (UpToPPrev (DecodeFrame e0)) (huffmanDecode (undoByte cap)) :=
  ⟨huffmanDecode_keeps (undoByte_keeps_upToPPrev fun _ _ _ h => h) (fun _ _ h => h) (fun _ _ _ h => h)
    (fun _ h _ => h) (fun _ _ h => h) (fun _ _ h => h) (fun _ _ h => h) fun _ h => h⟩

/-- The predictor stage before a coder touches `IN_POS` and `P_PREV` only (R190, R192). -/
theorem BodyKeeps.afterCollect {P : Engine → Prop} {body : List Byte → Engine → Eff Engine}
    (hbody : BodyKeeps (UpToPPrev P) body) (hpos : ∀ e n, P e → P { e with inPos := n }) :
    BodyKeeps (UpToPPrev P) fun x e => body (predCollect x e).1 { (predCollect x e).2 with inPos := 0 } := by
  refine ⟨fun x e h => hbody.keeps _ _ ?_⟩
  obtain ⟨n, p, heq⟩ := predCollectLoop_snd x { e with pPrev := 0 }
  rw [predCollect, heq]
  exact hpos _ 0 h

theorem lzwpCompress_frame (cap : Reg32) (e0 : Engine) :
    BodyKeeps (UpToPPrev (CompressFrame e0)) (lzwpCompress cap) := by
  have hcoded := (lzwCompress_frame_upToPPrev cap e0).afterCollect fun _ _ h => h
  refine ⟨fun x e h => ?_⟩
  rw [lzwpCompress]
  split
  · exact h
  · exact hcoded.keeps x e h

theorem hufpEncode_frame (cap : Reg32) (e0 : Engine) : BodyKeeps (UpToPPrev (EncodeFrame e0)) (hufpEncode cap) :=
  (huffmanEncode_frame_upToPPrev cap e0).afterCollect fun _ _ h => h

/-- Settles O58: a composite body is its coder, which touches nothing that its frame names, after or before a stage
that touches `IN_POS` and `P_PREV`. -/
theorem compositeFrame : Obligations.CompositeFrame := by
  refine fun s t hbusy => ⟨fun h => ?_, fun h => ?_, fun h => ?_, fun h => ?_⟩
  · obtain ⟨⟨hhuffman, hreader, _, hprev⟩, hhost⟩ :=
      (lzwpCompress_frame s.caps.outCap s.eng).frame (fun _ h => h) (compressFrame_start s.eng) hbusy h
    exact ⟨hhuffman, hreader, hprev, hhost⟩
  · obtain ⟨⟨hhuffman, hwriter, _, hinPos, hcode⟩, hhost⟩ :=
      (lzwDecompress_frame_upToPPrev s.caps.outCap s.eng).frame (fun _ h => h) (decompressFrame_start s.eng) hbusy h
    exact ⟨hhuffman, hwriter, hinPos, hcode, hhost⟩
  · obtain ⟨⟨hlzw, hreader, _, hcur, hremaining⟩, hhost⟩ :=
      (hufpEncode_frame s.caps.outCap s.eng).frame (fun _ h => h) (encodeFrame_start s.eng) hbusy h
    exact ⟨hlzw, hreader, hcur, hremaining, hhost⟩
  · obtain ⟨⟨hlzw, hwriter, _, hinPos, hhist⟩, hhost⟩ :=
      (huffmanDecode_frame_upToPPrev s.caps.outCap s.eng).frame (fun _ h => h) (decodeFrame_start s.eng) hbusy h
    exact ⟨hlzw, hwriter, hinPos, hhist, hhost⟩

-- The reserved words

/-- Settles O6: both commands are `rejectCommand` of their words. -/
theorem rleRaisesIllegalCommand : Obligations.RleRaisesIllegalCommand := by
  refine ⟨rfl, rfl, fun s hbusy => ⟨?_, ?_⟩⟩
  · obtain ⟨t, hexec, hfailed, _, hcmd, heng, hhost⟩ := rejectCommand_effect (encode .rleC) hbusy
    exact ⟨t, hexec, hfailed, hcmd, heng, hhost⟩
  · obtain ⟨t, hexec, hfailed, _, hcmd, heng, hhost⟩ := rejectCommand_effect (encode .rleD) hbusy
    exact ⟨t, hexec, hfailed, hcmd, heng, hhost⟩

end Sys2Proof.Machine
end

section
/-! Two runs of an LZW coder from engines that differ in the bytes of `OUT_BUF` and in `P_PREV` only, each with its own
stage in the place of `OutByte`: a coder reads neither, so both runs take the same course (R195, R196). -/

namespace Sys2Proof.Machine

/-- `e` with other bytes in `OUT_BUF` and another `P_PREV`. -/
def Engine.withOutput (e : Engine) (m : Memory) (p : Byte) : Engine := { e with outBuf := m, pPrev := p }

/-- The second engine is the first but for the bytes of `OUT_BUF` and `P_PREV`. -/
def OutputApart (e e1 : Engine) : Prop := ∃ m p, e1 = e.withOutput m p

/-- Two results with the same value, and engines apart in the output only. -/
def ResultApart {β : Type} (p q : β × Engine) : Prop := p.1 = q.1 ∧ OutputApart p.2 q.2

section
variable {e e1 : Engine} (h : OutputApart e e1)
include h

theorem OutputApart.outLen : e1.outLen = e.outLen := by obtain ⟨_, _, rfl⟩ := h; rfl
theorem OutputApart.wAcc : e1.wAcc = e.wAcc := by obtain ⟨_, _, rfl⟩ := h; rfl
theorem OutputApart.wN : e1.wN = e.wN := by obtain ⟨_, _, rfl⟩ := h; rfl
theorem OutputApart.wOrder : e1.wOrder = e.wOrder := by obtain ⟨_, _, rfl⟩ := h; rfl
theorem OutputApart.rOrder : e1.rOrder = e.rOrder := by obtain ⟨_, _, rfl⟩ := h; rfl
theorem OutputApart.nextFree : e1.nextFree = e.nextFree := by obtain ⟨_, _, rfl⟩ := h; rfl
theorem OutputApart.code : e1.code = e.code := by obtain ⟨_, _, rfl⟩ := h; rfl
theorem OutputApart.prev : e1.prev = e.prev := by obtain ⟨_, _, rfl⟩ := h; rfl
theorem OutputApart.dictPrefix : e1.dictPrefix = e.dictPrefix := by obtain ⟨_, _, rfl⟩ := h; rfl
theorem OutputApart.dictSuffix : e1.dictSuffix = e.dictSuffix := by obtain ⟨_, _, rfl⟩ := h; rfl

end

/-- Two stages in the place of `OutByte` that find the output full alike (R191, R193). -/
def EmitsApart (emit emit1 : Byte → Engine → Eff Engine) : Prop :=
  ∀ b e e1, OutputApart e e1 → EffAgree OutputApart (emit b e) (emit1 b e1)

section
variable {cap : Reg32} {x : List Byte} {emit emit1 : Byte → Engine → Eff Engine} {e e1 : Engine}

-- The output side and the bit streams

/-- Whether the output is full does not depend on the byte. -/
theorem outByte_apart (b b1 : Byte) (h : OutputApart e e1) :
    EffAgree OutputApart (outByte cap b e) (outByte cap b1 e1) := by
  simp only [outByte, h.outLen]
  obtain ⟨m, p, rfl⟩ := h
  split
  · exact effAgree_raise _ rfl
  · exact .ok ⟨_, p, rfl⟩

theorem emitsApart_undoByte (cap : Reg32) : EmitsApart (undoByte cap) (outByte cap) := by
  intro b e e1 h
  rw [undoByte_eq, ← bind_pure (outByte cap b e1)]
  refine (outByte_apart _ _ h).bind ?_
  rintro a _ _ _ ⟨m, p, rfl⟩
  exact .ok ⟨m, p, rfl⟩

theorem emitAll_apart (hemit : EmitsApart emit emit1) (bs : List Byte) (h : OutputApart e e1) :
    EffAgree OutputApart (emitAll emit bs e) (emitAll emit1 bs e1) := by
  induction bs generalizing e e1 with
  | nil => exact .ok h
  | cons b bs ih => exact (hemit b e e1 h).bind fun _ _ _ _ h1 => ih h1

theorem emptyAccumulator_apart (h : OutputApart e e1) :
    OutputApart { e with wAcc := 0, wN := 0 } { e1 with wAcc := 0, wN := 0 } := by
  obtain ⟨m, p, rfl⟩ := h
  exact ⟨m, p, rfl⟩

theorem wbit_apart (b : Bool) (h : OutputApart e e1) : EffAgree OutputApart (wbit cap b e) (wbit cap b e1) := by
  simp only [wbit, h.wN, h.wAcc, h.wOrder]
  split
  · exact (outByte_apart _ _ h).bind fun _ _ _ _ h1 => .ok (emptyAccumulator_apart h1)
  · obtain ⟨m, p, rfl⟩ := h
    exact .ok ⟨m, p, rfl⟩

theorem bsFlush_apart (h : OutputApart e e1) : EffAgree OutputApart (bsFlush cap e) (bsFlush cap e1) := by
  simp only [bsFlush, h.wN, h.wAcc]
  split
  · exact (outByte_apart _ _ h).bind fun _ _ _ _ h1 => .ok (emptyAccumulator_apart h1)
  · exact .ok h

theorem writeBitList_apart (bs : List Bool) (h : OutputApart e e1) :
    EffAgree OutputApart (writeBitList cap bs e) (writeBitList cap bs e1) := by
  induction bs generalizing e e1 with
  | nil => exact .ok h
  | cons b bs ih => exact (wbit_apart b h).bind fun _ _ _ _ h1 => ih h1

theorem bsWrite_apart {w : Nat} (v : BitVec w) (h : OutputApart e e1) :
    EffAgree OutputApart (bsWrite cap v e) (bsWrite cap v e1) := by
  rw [bsWrite, bsWrite, h.wOrder]
  exact writeBitList_apart _ h

theorem rbit_withOutput (x : List Byte) (e : Engine) (m : Memory) (p : Byte) :
    rbit x (e.withOutput m p) = (rbit x e).map fun q => (q.1, q.2.withOutput m p) := by
  by_cases hend : endOfStream x e = true
  · rw [rbit, rbit, if_pos hend, if_pos (show endOfStream x (e.withOutput m p) = true from hend)]
    rfl
  · rw [rbit, rbit, if_neg hend, if_neg (show ¬endOfStream x (e.withOutput m p) = true from hend)]
    rfl

theorem readBitList_apart (n : Nat) (h : OutputApart e e1) :
    EffAgree ResultApart (readBitList x n e) (readBitList x n e1) := by
  induction n generalizing e e1 with
  | zero => exact .ok ⟨rfl, h⟩
  | succ n ih =>
    obtain ⟨m, p, rfl⟩ := h
    rw [readBitList, readBitList, rbit_withOutput x e]
    cases rbit x e with
    | none => exact effAgree_raise _ rfl
    | some q => exact (ih ⟨m, p, rfl⟩).bind fun _ _ _ _ ⟨hbits, h1⟩ => .ok ⟨congrArg (q.1 :: ·) hbits, h1⟩

theorem bsRead_apart (w : Nat) (h : OutputApart e e1) : EffAgree ResultApart (bsRead x w e) (bsRead x w e1) := by
  refine (readBitList_apart w h).bind fun _ _ _ _ ⟨hbits, h1⟩ => .ok ⟨?_, h1⟩
  rw [hbits, h.rOrder]

-- The dictionary

theorem setDict_apart (p : Vector Code Config.dictEntries) (s : Vector Byte Config.dictEntries) (n : BitVec 13)
    (h : OutputApart e e1) : OutputApart { e with dictPrefix := p, dictSuffix := s, nextFree := n }
      { e1 with dictPrefix := p, dictSuffix := s, nextFree := n } := by
  obtain ⟨m, q, rfl⟩ := h
  exact ⟨m, q, rfl⟩

theorem insert_apart (c : Code) (b : Byte) (h : OutputApart e e1) : OutputApart (insert c b e) (insert c b e1) := by
  rcases insert_cases_of_nextFree_eq c b h.nextFree.symm with ⟨heq, heq1⟩ | ⟨_, heq, heq1⟩
  · rw [heq, heq1]
    exact h
  · rw [heq, heq1, h.dictPrefix, h.dictSuffix]
    exact setDict_apart _ _ _ h

theorem str_apart (h : OutputApart e e1) : str e1 = str e := by
  have hchain : ∀ fuel k, strWithin e1 fuel k = strWithin e fuel k := by
    obtain ⟨m, p, rfl⟩ := h
    intro fuel
    induction fuel with
    | zero => intro k; rw [strWithin, strWithin]
    | succ fuel ih => intro k; rw [strWithin, strWithin, ih]; rfl
  exact funext fun k => hchain k.toNat k

/-- The string that `LZW.D` writes for a code is the same. -/
theorem decodedString_apart (h : OutputApart e e1) (k : Code) : decodedString e1 k = decodedString e k := by
  simp only [decodedString, first, str_apart h, h.nextFree, h.prev]

-- `LZW.D`

theorem lzwDecodeCode_apart (hemit : EmitsApart emit emit1) (k : Code) (h : OutputApart e e1) :
    EffAgree OutputApart (lzwDecodeCode emit k e) (lzwDecodeCode emit1 k e1) := by
  have hnext : e.nextFree = e1.nextFree := h.nextFree.symm
  rcases Nat.lt_or_ge e.nextFree.toNat k.toNat with hk | hk
  · rw [lzwDecodeCode_out_of_range emit hk, lzwDecodeCode_out_of_range emit1 (hnext ▸ hk)]
    exact .error hnext
  · rw [lzwDecodeCode_in_range emit hk, lzwDecodeCode_in_range emit1 (hnext ▸ hk), decodedString_apart h]
    refine (emitAll_apart hemit _ h).bind fun a a1 _ _ h1 => ?_
    rw [h1.prev]
    obtain ⟨m, p, heq⟩ := insert_apart a.prev ((decodedString e k).headD 0) h1
    rw [heq]
    exact .ok ⟨m, p, rfl⟩

theorem lzwDecodeLoop_apart (hemit : EmitsApart emit emit1) (n : Nat) (h : OutputApart e e1) :
    EffAgree OutputApart (lzwDecodeLoop emit x n e) (lzwDecodeLoop emit1 x n e1) := by
  induction n generalizing e e1 with
  | zero => exact .ok h
  | succ n ih =>
    refine (bsRead_apart 12 h).bind ?_
    rintro ⟨k, a⟩ ⟨_, a1⟩ _ _ ⟨hk, h1⟩
    cases hk
    exact (lzwDecodeCode_apart hemit k h1).bind fun _ _ _ _ h2 => ih h2

theorem lzwDecompress_apart (hemit : EmitsApart emit emit1) (x : List Byte) (h : OutputApart e e1) :
    EffAgree OutputApart (lzwDecompress emit x e) (lzwDecompress emit1 x e1) := by
  have hstart : OutputApart (dictReset (bsInitRead .lsb e)) (dictReset (bsInitRead .lsb e1)) := by
    obtain ⟨m, p, rfl⟩ := h
    exact ⟨m, p, rfl⟩
  rw [lzwDecompress, lzwDecompress]
  split
  · exact effAgree_raise _ h.nextFree.symm
  · simp only
    split
    · exact effAgree_raise _ h.nextFree.symm
    · refine (bsRead_apart 12 hstart).bind ?_
      rintro ⟨k, a⟩ ⟨_, a1⟩ _ _ ⟨hk, h1⟩
      cases hk
      simp only
      split
      · exact effAgree_raise _ h1.nextFree.symm
      · refine (hemit _ _ _ h1).bind ?_
        rintro a2 _ _ _ ⟨m, p, rfl⟩
        exact lzwDecodeLoop_apart hemit _ ⟨m, p, rfl⟩

-- `LZW.C`

theorem lookup_apart (c : Code) (b : Byte) (h : OutputApart e e1) : lookup c b e1 = lookup c b e := by
  obtain ⟨m, p, rfl⟩ := h
  rfl

theorem lzwEncodeByte_apart (c : Byte) (h : OutputApart e e1) :
    EffAgree OutputApart (lzwEncodeByte cap c e) (lzwEncodeByte cap c e1) := by
  rw [lzwEncodeByte, lzwEncodeByte, h.code, lookup_apart _ _ h]
  cases lookup e.code c e with
  | some j =>
    obtain ⟨m, p, rfl⟩ := h
    exact .ok ⟨m, p, rfl⟩
  | none =>
    refine (bsWrite_apart e.code h).bind fun a a1 _ _ h1 => ?_
    obtain ⟨m, p, heq⟩ := insert_apart e.code c h1
    rw [heq]
    exact .ok ⟨m, p, rfl⟩

theorem lzwCompressLoop_apart (x : List Byte) (h : OutputApart e e1) :
    EffAgree OutputApart (lzwCompressLoop cap x e) (lzwCompressLoop cap x e1) := by
  induction x generalizing e e1 with
  | nil =>
    obtain ⟨m, p, rfl⟩ := h
    exact (bsWrite_apart e.code ⟨m, p, rfl⟩).bind fun _ _ _ _ h1 => bsFlush_apart h1
  | cons c cs ih =>
    obtain ⟨m, p, rfl⟩ := h
    exact (lzwEncodeByte_apart c ⟨m, p, rfl⟩).bind fun _ _ _ _ h1 => ih h1

theorem lzwCompress_apart (x : List Byte) (h : OutputApart e e1) :
    EffAgree OutputApart (lzwCompress cap x e) (lzwCompress cap x e1) := by
  obtain ⟨m, p, rfl⟩ := h
  cases x with
  | nil => exact effAgree_raise _ rfl
  | cons b bs => exact lzwCompressLoop_apart bs ⟨m, p, rfl⟩

end

end Sys2Proof.Machine
end

section
/-! The composite commands are their two stages chained (R190 to R193, R195, R196): the coder ends on the deltas as the
coder's own command does, and the decoder behind the undo stage as the decoder's own command does, its output summed. -/

namespace Sys2Proof.Machine

-- Two computations that end alike

theorem EffAgree.trans {α : Type} {R S T : α → α → Prop} {x y z : Eff α} (hT : ∀ a b c, R a b → S b c → T a c)
    (h : EffAgree R x y) (h1 : EffAgree S y z) : EffAgree T x z := by
  cases h with
  | ok h => cases h1 with
    | ok h1 => exact .ok (hT _ _ _ h h1)
  | error h => cases h1 with
    | error h1 => exact .error (h.trans h1)

/-- What follows of two normal ends beside the agreement may use that they are these ends. -/
theorem EffAgree.imp_of_ok {α : Type} {R S : α → α → Prop} {x y : Eff α} (h : EffAgree R x y)
    (hRS : ∀ a b, x = .ok a → y = .ok b → R a b → S a b) : EffAgree S x y := by
  cases h with
  | ok h => exact .ok (hRS _ _ rfl rfl h)
  | error h => exact .error h

/-- `NEXT_FREE` is the same, all of the codec state that the host sees (R38). -/
def NextFreeAgrees (e e1 : Engine) : Prop := e.nextFree = e1.nextFree

/-- Two agreeing bodies one after the other, the second agreement being that of two histories (R248). -/
theorem EffAgree.nextFree_of_history {x y z : Eff Engine} (h : EffAgree OutputApart x y) (h1 : EffAgree IoAgrees y z) :
    EffAgree NextFreeAgrees x z :=
  h.trans (fun _ _ _ h h1 => h.nextFree.symm.trans h1.nextFree) h1

theorem complete_nextFree {s s1 : State} {r r1 : Eff Engine} (h : EffAgree NextFreeAgrees r r1) :
    (complete s r).eng.nextFree = (complete s1 r1).eng.nextFree := by
  cases h with
  | ok h => exact h
  | error h => exact h

-- The compress direction

theorem memory_eq_map_read {m : Memory} (h : m.wf) : m = (m.map Prod.fst).map fun a => (a, (m.read a).getD 0) := by
  induction m with
  | nil => rfl
  | cons c m ih =>
    obtain ⟨k, v⟩ := c
    obtain ⟨hbelow, hwf⟩ := List.pairwise_cons.1 h
    have htail : ∀ a ∈ m.map Prod.fst, Memory.read ((k, v) :: m) a = Memory.read m a := fun a ha => by
      rw [memory_read_cons, if_neg (hbelow a ha).ne']
    rw [List.map_cons, List.map_cons, memory_read_cons, if_pos rfl]
    refine congrArg ((k, v) :: ·) ((ih hwf).trans (List.map_congr_left fun a ha => ?_))
    rw [htail a ha]

/-- The bytes of the output are all that `OUT_BUF` holds after a command (R27). -/
theorem outBuf_of_outputIs {t : State} {ys : List Byte} (h : OutputIs ys t) (hexact : OutputExact t) :
    t.eng.outBuf = (List.range ys.length).map fun a => (a, (ys[a]?).getD 0) := by
  obtain ⟨hlen, hread⟩ := h
  obtain ⟨hkeys, _⟩ := hexact
  have hwf : t.eng.outBuf.wf := by
    show (t.eng.outBuf.map Prod.fst).Pairwise (· < ·)
    rw [hkeys]
    exact List.pairwise_lt_range
  rw [memory_eq_map_read hwf, hkeys, hlen]
  simp only [hread]

/-- A command whose outcome is the payload `p`, or no room for it (R204(b)). -/
def WritesPayload (i : Instr) (s : State) (p : List Byte) : Prop :=
  (p.length ≤ s.caps.outCap.toNat → ∃ t, exec i s = .next t ∧ Completed t ∧ OutputIs p t) ∧
  (s.caps.outCap.toNat < p.length → ∃ t, exec i s = .next t ∧ FailedWith .allocationFailure t)

theorem sameResult_of_failedWith {k : ErrorKind} {t v : State} (ht : FailedWith k t) (hv : FailedWith k v)
    (hnext : t.eng.nextFree = v.eng.nextFree) : SameResult t v := by
  obtain ⟨hrun, herr, hlen, hbuf⟩ := ht
  obtain ⟨hrun1, herr1, hlen1, hbuf1⟩ := hv
  exact ⟨hrun.trans hrun1.symm, herr.trans herr1.symm, hlen.trans hlen1.symm, hbuf.trans hbuf1.symm, hnext⟩

/-- Two commands with the same payload, the same room and the same `NEXT_FREE` at the end. -/
theorem sameResult_of_writesPayload {i j : Instr} {s u : State} {p : List Byte} (hs : Ready s) (hu : Ready u)
    (hcap : s.caps.outCap = u.caps.outCap) (hi : WritesPayload i s p) (hj : WritesPayload j u p)
    (hnext : ∀ t v, exec i s = .next t → exec j u = .next v → t.eng.nextFree = v.eng.nextFree) :
    ∃ t v, exec i s = .next t ∧ exec j u = .next v ∧ SameResult t v := by
  obtain ⟨hcompletes, hfails⟩ := hi
  obtain ⟨hcompletes1, hfails1⟩ := hj
  rw [← hcap] at hcompletes1 hfails1
  rcases le_or_gt p.length s.caps.outCap.toNat with hroom | hroom
  · obtain ⟨t, ht, ⟨hrun, herr⟩, hout⟩ := hcompletes hroom
    obtain ⟨v, hv, ⟨hrun1, herr1⟩, hout1⟩ := hcompletes1 hroom
    have hbuf := outBuf_of_outputIs hout (outputExactAfterCommand i s t hs.1 ht)
    have hbuf1 := outBuf_of_outputIs hout1 (outputExactAfterCommand j u v hu.1 hv)
    exact ⟨t, v, ht, hv, hrun.trans hrun1.symm, herr.trans herr1.symm,
      BitVec.eq_of_toNat_eq (hout.1.trans hout1.1.symm), hbuf.trans hbuf1.symm, hnext t v ht hv⟩
  · obtain ⟨t, ht, hfailed⟩ := hfails hroom
    obtain ⟨v, hv, hfailed1⟩ := hfails1 hroom
    exact ⟨t, v, ht, hv, sameResult_of_failedWith hfailed hfailed1 (hnext t v ht hv)⟩

theorem lzwpCompress_nextFree (cap : Reg32) (x : List Byte) (e f : Engine) :
    EffAgree NextFreeAgrees (lzwpCompress cap x e.start) (lzwCompress cap (deltas x) f.start) := by
  have hstart : OutputApart (coderStart x e) e.start := ⟨[], 0, rfl⟩
  rw [lzwpCompress_start]
  exact (lzwCompress_apart _ hstart).nextFree_of_history
    ((agreeingBody_lzwCompress cap).agrees _ _ _ (engineSound_start cap e) (ioAgrees_start e f))

/-- `LZWP.C` and `LZW.C` on the deltas end with the same `NEXT_FREE`, on every path. -/
theorem execLzwpC_nextFree {s u t v : State} (hs : Ready s) (hu : Ready u) (hcap : s.caps.outCap = u.caps.outCap)
    (hblock : inBlock u = deltas (inBlock s)) (ht : exec .lzwpC s = .next t) (hv : exec .lzwC u = .next v) :
    t.eng.nextFree = v.eng.nextFree := by
  have hagree : EffAgree NextFreeAgrees (lzwpCompress s.caps.outCap (inBlock s) s.eng.start)
      (lzwCompress u.caps.outCap (inBlock u) u.eng.start) := by
    rw [hblock, ← hcap]
    exact lzwpCompress_nextFree _ _ _ _
  have hrun := runCommand_ready (encode .lzwpC) (lzwpCompress s.caps.outCap) s hs.1 hs.2
  have hrun1 := runCommand_ready (encode .lzwC) (lzwCompress u.caps.outCap) u hu.1 hu.2
  cases hrun.symm.trans ht
  cases hrun1.symm.trans hv
  exact complete_nextFree hagree

theorem writesPayload_lzwC {u : State} (hu : Ready u) (hne : u.inLen ≠ 0) :
    WritesPayload .lzwC u (lzwPayload (lzwGreedyCodes (inBlock u))) := by
  obtain ⟨_, hcompletes, hfails⟩ := lzwCompressGreedyCodes u hu hne
  exact ⟨fun hroom => (hcompletes hroom).imp fun _ ⟨hv, hcompleted, _, _, hout, _⟩ => ⟨hv, hcompleted, hout⟩,
    fun hroom => (hfails hroom).imp fun _ ⟨hv, hfailed, _⟩ => ⟨hv, hfailed⟩⟩

theorem writesPayload_lzwpC {s : State} (hs : Ready s) (hne : s.inLen ≠ 0) :
    WritesPayload .lzwpC s (lzwPayload (lzwGreedyCodes (deltas (inBlock s)))) := by
  obtain ⟨_, _, hcompletes, hfails⟩ := lzwPredictorCompressesDeltas s hs hne
  exact ⟨fun hroom => (hcompletes hroom).imp fun _ ⟨ht, hcompleted, _, _, hout, _⟩ => ⟨ht, hcompleted, hout⟩,
    fun hroom => (hfails hroom).imp fun _ ⟨ht, hfailed, _⟩ => ⟨ht, hfailed⟩⟩

theorem writesPayload_hufE {u : State} (hu : Ready u) : WritesPayload .hufE u (huffmanPayload (inBlock u)) := by
  obtain ⟨hcompletes, hfails⟩ := huffmanEncodeWritesPayload u hu
  exact ⟨fun hroom => (hcompletes hroom).imp fun _ ⟨hv, hcompleted, _, _, hout, _⟩ => ⟨hv, hcompleted, hout⟩,
    fun hroom => (hfails hroom).imp fun _ ⟨hv, hfailed, _⟩ => ⟨hv, hfailed⟩⟩

theorem writesPayload_hufpC {s : State} (hs : Ready s) :
    WritesPayload .hufpC s (huffmanPayload (deltas (inBlock s))) := by
  obtain ⟨hcompletes, hfails⟩ := huffmanPredictorEncodesDeltas s hs
  exact ⟨fun hroom => (hcompletes hroom).imp fun _ ⟨ht, hcompleted, _, _, hout, _⟩ => ⟨ht, hcompleted, hout⟩,
    fun hroom => (hfails hroom).imp fun _ ⟨ht, hfailed, _⟩ => ⟨ht, hfailed⟩⟩

/-- The LZW half of the compress direction: both refuse the empty block, else both write the payload of the deltas. -/
theorem execLzwpC_sameResult {s u : State} (hs : Ready s) (hu : Ready u) (hcap : s.caps.outCap = u.caps.outCap)
    (hblock : inBlock u = deltas (inBlock s)) :
    ∃ t v, exec .lzwpC s = .next t ∧ exec .lzwC u = .next v ∧ SameResult t v := by
  have hnext : ∀ t v, exec .lzwpC s = .next t → exec .lzwC u = .next v → t.eng.nextFree = v.eng.nextFree :=
    fun _ _ => execLzwpC_nextFree hs hu hcap hblock
  by_cases hzero : s.inLen = 0
  · have hnil : inBlock s = [] := List.eq_nil_of_length_eq_zero (by rw [inBlock_length, hzero]; rfl)
    have hnil1 : inBlock u = [] := by rw [hblock, hnil]; rfl
    obtain ⟨t, ht, hfailed, _⟩ := runCommand_fails (w := encode .lzwpC) (body := lzwpCompress s.caps.outCap)
      (k := .emptyInput) (e := s.eng.start) hs (by rw [hnil]; rfl)
    obtain ⟨v, hv, hfailed1, _⟩ := runCommand_fails (w := encode .lzwC) (body := lzwCompress u.caps.outCap)
      (k := .emptyInput) (e := u.eng.start) hu (by rw [hnil1]; rfl)
    exact ⟨t, v, ht, hv, sameResult_of_failedWith hfailed hfailed1 (hnext t v ht hv)⟩
  · have hlen : u.inLen = s.inLen :=
      BitVec.eq_of_toNat_eq (by rw [← inBlock_length, hblock, deltas_inBlock_length])
    have hwrites := writesPayload_lzwC hu (hlen ▸ hzero)
    rw [hblock] at hwrites
    exact sameResult_of_writesPayload hs hu hcap (writesPayload_lzwpC hs hzero) hwrites hnext

/-- The Huffman half of the compress direction: both write the payload of the deltas, the dictionary being empty. -/
theorem execHufpC_sameResult {s u : State} (hs : Ready s) (hu : Ready u) (hcap : s.caps.outCap = u.caps.outCap)
    (hblock : inBlock u = deltas (inBlock s)) :
    ∃ t v, exec .hufpC s = .next t ∧ exec .hufE u = .next v ∧ SameResult t v := by
  have hwrites := writesPayload_hufE hu
  rw [hblock] at hwrites
  refine sameResult_of_writesPayload hs hu hcap (writesPayload_hufpC hs) hwrites fun t v ht hv => ?_
  have hempty : t.eng.nextFree = 256 := exec_dictEmpty hs.1 ht nofun nofun nofun nofun
  have hempty1 : v.eng.nextFree = 256 := exec_dictEmpty hu.1 hv nofun nofun nofun nofun
  rw [hempty, hempty1]

-- The decompress direction

/-- Two decoders that have ended: the first has put out the running sums of what the second has. -/
structure Chained (e e1 : Engine) : Prop where
  nextFree : e.nextFree = e1.nextFree
  output : ∃ ys, OutputHolds (sums ys) e ∧ OutputHolds ys e1

theorem lzwDecompress_chained (cap : Reg32) (x : List Byte) (e f : Engine) :
    EffAgree Chained (lzwpDecompress cap x e.start) (lzwDecompress (outByte cap) x f.start) := by
  have hapart : EffAgree OutputApart (lzwDecompress (undoByte cap) x e.start) (lzwDecompress (outByte cap) x e.start) :=
    lzwDecompress_apart (emitsApart_undoByte cap) x ⟨[], 0, rfl⟩
  have hnext := hapart.nextFree_of_history
    ((agreeingBody_lzwDecompress (emitSound_outByte cap) (emitAgrees_outByte cap)).agrees x _ _
      (engineSound_start cap e) (ioAgrees_start e f))
  refine hnext.imp_of_ok fun a b ha hb hab => ⟨hab, ?_⟩
  have hW : OutputHolds [] f.start := outputHolds_nil rfl rfl
  obtain ⟨_, hspare, ys, hys, hroom⟩ := lzwDecompress_eq_ok (emitter_outByte cap) hW hb
  obtain ⟨a1, ha1, ⟨hout, _⟩, _⟩ := lzwDecompress_completes (emitter_undoByte cap) (sumsHold_start e) hspare hys hroom
  obtain ⟨b1, hb1, hout1, _⟩ := lzwDecompress_completes (emitter_outByte cap) hW hspare hys hroom
  cases ha.symm.trans ha1
  cases hb.symm.trans hb1
  exact ⟨ys, hout, hout1⟩

/-- A decoder has ended as `o` says: its bytes are out, or it has raised that error. -/
def EndsAs (W : List Byte → Engine → Prop) (r : Eff Engine) : Except ErrorKind (List Byte) → Prop
  | .ok ys => ∃ e, r = .ok e ∧ W ys e
  | .error k => ∃ e, r = .error (k, e)

/-- The outcome of `HUF.D` is one of the payload and the room, whatever takes the place of `OutByte` (R162, R163). -/
theorem huffmanDecode_outcome (cap : Reg32) (x : List Byte) :
    ∃ o, ∀ emit W e, Emitter cap emit W → EmitKeepsArena emit → W [] e → EndsAs W (huffmanDecode emit x e) o := by
  by_cases htree : ∃ t rest, streamBits .msb x = treeBits t ++ rest ∧ treeNodes t ≤ 511
  · obtain ⟨t, rest, hbits, hnodes⟩ := htree
    by_cases hshort : rest.length < 32
    · exact ⟨.error .corruptStream, fun emit W e hemit _ hW => huffmanDecode_short hemit hW hbits hnodes hshort⟩
    · obtain ⟨n, codes, hrest⟩ := exists_bitsOf_append (w := 32) (not_lt.1 hshort)
      cases hys : treeDecode t (min n.toNat (cap.toNat + 1)) codes with
      | none =>
        refine ⟨.error .corruptStream, fun emit W e hemit harena hW => ?_⟩
        obtain ⟨e1, heq, hW1, h1, _⟩ := huffmanDecode_length hemit hW hbits hnodes hrest
        rw [heq]
        exact decodeLoop_corrupt hemit harena hW1 h1 (Nat.zero_le _) hys
      | some ys =>
        rcases le_or_gt n.toNat cap.toNat with hroom | hfull
        · rw [Nat.min_eq_left (Nat.le_succ_of_le hroom)] at hys
          refine ⟨.ok ys, fun emit W e hemit harena hW => ?_⟩
          obtain ⟨e1, hrun, hW1, _⟩ := huffmanDecode_completes hemit hW hbits hnodes harena hrest hys hroom
          exact ⟨e1, hrun, hW1⟩
        · rw [Nat.min_eq_right hfull] at hys
          refine ⟨.error .allocationFailure, fun emit W e hemit harena hW => ?_⟩
          obtain ⟨e1, heq, hW1, h1, _⟩ := huffmanDecode_length hemit hW hbits hnodes hrest
          rw [heq]
          exact decodeLoop_full hemit harena hW1 h1 (Nat.zero_le _) (hfull.trans_eq (Nat.zero_add _).symm)
            (Option.ne_none_iff_exists'.2 ⟨ys, hys⟩)
  · exact ⟨.error .corruptStream, fun emit W e _ _ _ => huffmanDecode_no_tree emit e fun t rest hbits =>
      not_le.1 fun hnodes => htree ⟨t, rest, hbits, hnodes⟩⟩

theorem huffmanDecode_chained (cap : Reg32) (x : List Byte) (e f : Engine) :
    EffAgree Chained (hufpDecode cap x e.start) (huffmanDecode (outByte cap) x f.start) := by
  obtain ⟨o, ho⟩ := huffmanDecode_outcome cap x
  have hends := ho _ _ _ (emitter_undoByte cap) (emitKeepsArena_undoByte cap) (sumsHold_start e)
  have hends1 := ho _ _ f.start (emitter_outByte cap) (emitKeepsArena_outByte cap) (outputHolds_nil rfl rfl)
  have hempty := (dictEmptyBody_huffmanDecode (undoByte_dictEmpty (cap := cap))).keeps x e.start rfl
  have hempty1 := (dictEmptyBody_huffmanDecode (outByte_dictEmpty (cap := cap))).keeps x f.start rfl
  show EffAgree Chained (huffmanDecode (undoByte cap) x e.start) _
  cases o with
  | ok ys =>
    obtain ⟨a, ha, hout, _⟩ := hends
    obtain ⟨b, hb, hout1⟩ := hends1
    rw [ha] at hempty ⊢
    rw [hb] at hempty1 ⊢
    exact .ok ⟨hempty.trans hempty1.symm, ys, hout, hout1⟩
  | error k =>
    obtain ⟨a, ha⟩ := hends
    obtain ⟨b, hb⟩ := hends1
    rw [ha] at hempty ⊢
    rw [hb] at hempty1 ⊢
    exact .error (hempty.trans hempty1.symm)

/-- Two started commands whose bodies end as chained decoders. -/
theorem runCommand_chained {w w1 : BitVec 8} {body body1 : List Byte → Engine → Eff Engine} {s u : State}
    (hs : Ready s) (hu : Ready u)
    (h : EffAgree Chained (body (inBlock s) s.eng.start) (body1 (inBlock u) u.eng.start)) :
    ∃ t v, runCommand w body s = .next t ∧ runCommand w1 body1 u = .next v ∧ t.runState = v.runState ∧
      t.err = v.err ∧ t.eng.outLen = v.eng.outLen ∧ t.eng.nextFree = v.eng.nextFree ∧
      outBlock t = sums (outBlock v) := by
  refine ⟨_, _, runCommand_ready w body s hs.1 hs.2, runCommand_ready w1 body1 u hu.1 hu.2, ?_⟩
  generalize body (inBlock s) s.eng.start = r at h ⊢
  generalize body1 (inBlock u) u.eng.start = r1 at h ⊢
  cases h with
  | @ok a b h =>
    obtain ⟨hnext, ys, hout, hout1⟩ := h
    have hlen := hout.1.trans ((sumsFrom_length 0 ys).trans hout1.1.symm)
    refine ⟨rfl, rfl, BitVec.eq_of_toNat_eq hlen, hnext, ?_⟩
    rw [outBlock_of_outputIs (t := complete (commandStart w s) (.ok a)) hout,
      outBlock_of_outputIs (t := complete (commandStart w1 u) (.ok b)) hout1]
  | error h => exact ⟨rfl, rfl, rfl, h, rfl⟩

/-- Settles O56: forward the coder is the same body on the same bytes, inverse the decoder is the same body with the
undo stage behind it; neither coder reads what the other stage writes. -/
theorem compositesChainTheirStages : Obligations.CompositesChainTheirStages := by
  refine ⟨fun i j s u hij hs hu hcap hblock => ?_, fun i j s u hij hs hu hcap hblock => ?_⟩
  · rcases hij with ⟨rfl, rfl⟩ | ⟨rfl, rfl⟩
    · exact execLzwpC_sameResult hs hu hcap hblock
    · exact execHufpC_sameResult hs hu hcap hblock
  · rcases hij with ⟨rfl, rfl⟩ | ⟨rfl, rfl⟩
    · refine runCommand_chained (w := encode .lzwpD) (w1 := encode .lzwD) (body := lzwpDecompress s.caps.outCap)
        (body1 := lzwDecompress (outByte u.caps.outCap)) hs hu ?_
      rw [hblock, ← hcap]
      exact lzwDecompress_chained _ _ _ _
    · refine runCommand_chained (w := encode .hufpD) (w1 := encode .hufD) (body := hufpDecode s.caps.outCap)
        (body1 := huffmanDecode (outByte u.caps.outCap)) hs hu ?_
      rw [hblock, ← hcap]
      exact huffmanDecode_chained _ _ _ _

end Sys2Proof.Machine
end

section
/-! Which errors a computation can raise (R201 to R205), carried through the bodies of the commands. What the coders can
do is known from their payloads; the decoders are followed operation by operation. -/

namespace Sys2Proof.Machine

-- The errors of a computation

/-- A computation ends normally, or raises an error of which `K` holds. -/
inductive EffRaises (K : ErrorKind → Prop) {α : Type} : Eff α → Prop
  | ok (a : α) : EffRaises K (.ok a)
  | error {k : ErrorKind} {e : Engine} (h : K k) : EffRaises K (.error (k, e))

theorem effRaises_bind {K : ErrorKind → Prop} {α β : Type} {x : Eff α} {f : α → Eff β} (hx : EffRaises K x)
    (hf : ∀ a, EffRaises K (f a)) : EffRaises K (x >>= f) := by
  cases hx with
  | ok a => exact hf a
  | error h => exact .error h

theorem effRaises_mono {K L : ErrorKind → Prop} {α : Type} {x : Eff α} (hx : EffRaises K x) (h : ∀ k, K k → L k) :
    EffRaises L x := by
  cases hx with
  | ok a => exact .ok a
  | error hk => exact .error (h _ hk)

/-- A computation of which the outcome is known in either case, the error being `k`. -/
theorem effRaises_of_outcome {p : Prop} {α : Type} {x : Eff α} {k : ErrorKind} (hok : p → ∃ a, x = .ok a)
    (herr : ¬p → ∃ e, x = .error (k, e)) : EffRaises (· = k) x := by
  by_cases hp : p
  · obtain ⟨a, rfl⟩ := hok hp
    exact .ok a
  · obtain ⟨e, rfl⟩ := herr hp
    exact .error rfl

-- The predictor and the coders: no room for the output (R204(b))

theorem PredictorBody.raises {body : Reg32 → List Byte → Engine → Eff Engine} {coded : List Byte → List Byte}
    {last : List Byte → Byte} (hbody : PredictorBody body coded last) (cap : Reg32) (x : List Byte) (e : Engine) :
    EffRaises (· = .allocationFailure) (body cap x e.start) :=
  effRaises_of_outcome (fun hroom => ⟨_, hbody.room cap x e hroom⟩) fun hfull => hbody.no_room cap x e (not_le.1 hfull)

theorem lzwCompress_raises (cap : Reg32) {x : List Byte} {e : Engine} (hne : x ≠ []) (hlen : e.outLen = 0)
    (hbuf : e.outBuf = []) : EffRaises (· = .allocationFailure) (lzwCompress cap x e) := by
  obtain ⟨b, bs, rfl⟩ := List.exists_cons_of_ne_nil hne
  exact effRaises_of_outcome (fun hroom => (lzwCompress_completes b bs hlen hbuf hroom).imp fun _ h => h.1)
    fun hfull => lzwCompress_no_room b bs hlen hbuf (not_le.1 hfull)

theorem huffmanEncode_raises (cap : Reg32) {x : List Byte} {e : Engine} (hx : x.length < 2 ^ 32) (hlen : e.outLen = 0)
    (hbuf : e.outBuf = []) : EffRaises (· = .allocationFailure) (huffmanEncode cap x e) := by
  obtain ⟨hroom, hfull⟩ := huffmanEncode_outcome (cap := cap) hx hlen hbuf
  exact effRaises_of_outcome (fun h => (hroom h).imp fun _ h => h.1) fun h => hfull (not_le.1 h)

-- The decoders: a payload that is none (R203), or no room for the output

/-- The errors of a decoder that has started to read (R203, R204). -/
def DecodeError (k : ErrorKind) : Prop := k = .corruptStream ∨ k = .allocationFailure

/-- What takes the place of `OutByte` in a decoder raises `AllocationFailure` and nothing else (R54). -/
def EmitRaises (emit : Byte → Engine → Eff Engine) : Prop := ∀ b e, EffRaises (· = .allocationFailure) (emit b e)

theorem emitRaises_outByte (cap : Reg32) : EmitRaises (outByte cap) := by
  intro b e
  rcases outByte_cases cap b e with ⟨_, heq⟩ | ⟨_, heq⟩
  · rw [heq]; exact .error rfl
  · rw [heq]; exact .ok _

theorem emitRaises_undoByte (cap : Reg32) : EmitRaises (undoByte cap) := fun _ e =>
  effRaises_bind (emitRaises_outByte cap _ e) fun _ => .ok _

theorem bsRead_raises (x : List Byte) (w : Nat) (e : Engine) : EffRaises DecodeError (bsRead x w e) := by
  refine effRaises_bind ?_ fun _ => .ok _
  cases h : readBitList x w e with
  | ok p => exact .ok p
  | error p => exact .error (.inl (readBitList_error h))

section
variable {emit : Byte → Engine → Eff Engine} (hemit : EmitRaises emit)
include hemit

theorem EmitRaises.decodeError (b : Byte) (e : Engine) : EffRaises DecodeError (emit b e) :=
  effRaises_mono (hemit b e) fun _ => .inr

theorem EmitRaises.emitAll (bs : List Byte) (e : Engine) : EffRaises DecodeError (emitAll emit bs e) := by
  induction bs generalizing e with
  | nil => exact .ok _
  | cons b bs ih => exact effRaises_bind (hemit.decodeError b e) ih

theorem lzwDecodeCode_raises (k : Code) (e : Engine) : EffRaises DecodeError (lzwDecodeCode emit k e) := by
  rw [lzwDecodeCode]
  split
  · exact .error (.inl rfl)
  · exact effRaises_bind (hemit.emitAll _ e) fun _ => .ok _

theorem lzwDecodeLoop_raises (x : List Byte) (n : Nat) (e : Engine) :
    EffRaises DecodeError (lzwDecodeLoop emit x n e) := by
  induction n generalizing e with
  | zero => exact .ok _
  | succ n ih =>
    exact effRaises_bind (bsRead_raises x 12 e) fun p =>
      effRaises_bind (lzwDecodeCode_raises hemit p.1 p.2) ih

theorem lzwDecompress_raises {x : List Byte} (hne : x ≠ []) (e : Engine) :
    EffRaises DecodeError (lzwDecompress emit x e) := by
  rw [lzwDecompress, if_neg (fun h => hne (List.eq_nil_of_length_eq_zero h))]
  simp only
  split
  · exact .error (.inl rfl)
  · refine effRaises_bind (bsRead_raises x 12 _) fun p => ?_
    split
    · exact .error (.inl rfl)
    · exact effRaises_bind (hemit.decodeError _ p.2) fun _ => lzwDecodeLoop_raises hemit x _ _

end

theorem deserializeTree_raises (x : List Byte) (fuel : Nat) (e : Engine) :
    EffRaises DecodeError (deserializeTree x fuel e) := by
  induction fuel generalizing e with
  | zero => exact .error (.inl rfl)
  | succ fuel ih =>
    rw [deserializeTree]
    split
    · exact .error (.inl rfl)
    · simp only
      split
      · exact .error (.inl rfl)
      · exact effRaises_bind (bsRead_raises x _ _) fun _ => .ok _
      · exact effRaises_bind (ih _) fun _ => effRaises_bind (ih _) fun _ => .ok _

theorem walkTree_raises (x : List Byte) (fuel : Nat) (e : Engine) : EffRaises DecodeError (walkTree x fuel e) := by
  induction fuel generalizing e with
  | zero => exact .error (.inl rfl)
  | succ fuel ih =>
    rw [walkTree]
    split
    · exact .ok _
    · split
      · exact .error (.inl rfl)
      · exact ih _

theorem decodeLoop_raises {emit : Byte → Engine → Eff Engine} (hemit : EmitRaises emit) (x : List Byte) (n : Nat)
    (e : Engine) : EffRaises DecodeError (decodeLoop emit x n e) := by
  induction n generalizing e with
  | zero => exact .ok _
  | succ n ih =>
    exact effRaises_bind (walkTree_raises x _ _) fun p =>
      effRaises_bind (hemit.decodeError p.1 p.2) fun _ => ih _

theorem huffmanDecode_raises {emit : Byte → Engine → Eff Engine} (hemit : EmitRaises emit) (x : List Byte)
    (e : Engine) : EffRaises DecodeError (huffmanDecode emit x e) :=
  effRaises_bind (deserializeTree_raises x 512 _) fun _ =>
    effRaises_bind (bsRead_raises x _ _) fun _ => decodeLoop_raises hemit x _ _

end Sys2Proof.Machine
end

section
/-! The outcome of a command (R73, R200 to R210): which of the four errors each of the twelve commands can end with, and
when. -/

namespace Sys2Proof.Machine

-- The errors of each command

/-- The commands that refuse the empty block (R202). -/
def RefusesEmpty (i : Instr) : Prop := i = .lzwC ∨ i = .lzwD ∨ i = .lzwpC ∨ i = .lzwpD

/-- The four decoders (R203). -/
def IsDecoder (i : Instr) : Prop := i = .lzwD ∨ i = .lzwpD ∨ i = .hufD ∨ i = .hufpD

/-- The errors that command `i` can end with on the block `x` (R202 to R205). -/
def MayRaise (i : Instr) (x : List Byte) : ErrorKind → Prop
  | .emptyInput => x = [] ∧ RefusesEmpty i
  | .corruptStream => IsDecoder i
  | .allocationFailure => i.kind ≠ .rle
  | .illegalCommand => i.kind = .rle

theorem mayRaise_of_decodeError {i : Instr} (x : List Byte) (hdecoder : IsDecoder i) (hkind : i.kind ≠ .rle) :
    ∀ k, DecodeError k → MayRaise i x k := by
  rintro k (rfl | rfl)
  · exact hdecoder
  · exact hkind

theorem mayRaise_of_allocationFailure {i : Instr} (x : List Byte) (hkind : i.kind ≠ .rle) :
    ∀ k, k = .allocationFailure → MayRaise i x k := by
  rintro k rfl
  exact hkind

/-- A body that refuses the empty block, and raises errors of the command on every other one. -/
theorem effRaises_refusesEmpty {i : Instr} {body : List Byte → Engine → Eff Engine} {e e1 : Engine}
    (hi : RefusesEmpty i) (hnil : body [] e = .error (.emptyInput, e1)) (x : List Byte)
    (hne : x ≠ [] → EffRaises (MayRaise i x) (body x e)) : EffRaises (MayRaise i x) (body x e) := by
  by_cases hx : x = []
  · subst hx
    rw [hnil]
    exact .error ⟨rfl, hi⟩
  · exact hne hx

theorem lzwCompress_nil (cap : Reg32) (e : Engine) : lzwCompress cap [] e = .error (.emptyInput, e) := rfl

theorem lzwpCompress_nil (cap : Reg32) (e : Engine) : lzwpCompress cap [] e = .error (.emptyInput, e) := rfl

theorem deltas_ne_nil {x : List Byte} (h : x ≠ []) : deltas x ≠ [] := fun hnil =>
  h (List.eq_nil_of_length_eq_zero (by rw [← deltasFrom_length 0 x, ← deltas, hnil, List.length_nil]))

/-- A command that is not reserved is the frame of R73 around a body that raises the errors of the command. -/
theorem exec_of_kind_ne_rle {i : Instr} (hkind : i.kind ≠ .rle) (s : State) :
    ∃ body, exec i s = runCommand (encode i) body s ∧
      EffRaises (MayRaise i (inBlock s)) (body (inBlock s) s.eng.start) := by
  have halloc := mayRaise_of_allocationFailure (inBlock s) hkind
  cases i with
  | rleC | rleD => exact absurd rfl hkind
  | predA =>
    exact ⟨_, rfl, effRaises_mono (predictorBody_predApply.raises s.caps.outCap (inBlock s) s.eng) halloc⟩
  | predU =>
    exact ⟨_, rfl, effRaises_mono (predictorBody_predUndo.raises s.caps.outCap (inBlock s) s.eng) halloc⟩
  | lzwC =>
    refine ⟨_, rfl, effRaises_refusesEmpty (.inl rfl) (lzwCompress_nil _ _) _ fun hne => ?_⟩
    exact effRaises_mono (lzwCompress_raises s.caps.outCap hne rfl rfl) halloc
  | lzwpC =>
    refine ⟨_, rfl, effRaises_refusesEmpty (.inr (.inr (.inl rfl))) (lzwpCompress_nil _ _) _ fun hne => ?_⟩
    rw [lzwpCompress_start]
    exact effRaises_mono (lzwCompress_raises s.caps.outCap (deltas_ne_nil hne) rfl rfl) halloc
  | hufE =>
    exact ⟨_, rfl, effRaises_mono (huffmanEncode_raises s.caps.outCap (inBlock_length_lt s) rfl rfl) halloc⟩
  | hufpC =>
    refine ⟨_, rfl, ?_⟩
    rw [hufpEncode_start]
    have hlength : (deltas (inBlock s)).length < 2 ^ 32 := (deltas_inBlock_length s).trans_lt s.inLen.isLt
    exact effRaises_mono (huffmanEncode_raises s.caps.outCap hlength rfl rfl) halloc
  | lzwD =>
    refine ⟨_, rfl, effRaises_refusesEmpty (.inr (.inl rfl)) (lzwDecompress_empty _ _) _ fun hne => ?_⟩
    exact effRaises_mono (lzwDecompress_raises (emitRaises_outByte _) hne _)
      (mayRaise_of_decodeError _ (.inl rfl) hkind)
  | lzwpD =>
    refine ⟨_, rfl, effRaises_refusesEmpty (.inr (.inr (.inr rfl))) (lzwDecompress_empty _ _) _ fun hne => ?_⟩
    exact effRaises_mono (lzwDecompress_raises (emitRaises_undoByte _) hne _)
      (mayRaise_of_decodeError _ (.inr (.inl rfl)) hkind)
  | hufD =>
    exact ⟨_, rfl, effRaises_mono (huffmanDecode_raises (emitRaises_outByte s.caps.outCap) (inBlock s) _)
      (mayRaise_of_decodeError _ (.inr (.inr (.inl rfl))) hkind)⟩
  | hufpD =>
    exact ⟨_, rfl, effRaises_mono (huffmanDecode_raises (emitRaises_undoByte s.caps.outCap) (inBlock s) _)
      (mayRaise_of_decodeError _ (.inr (.inr (.inr rfl))) hkind)⟩

-- The outcome

/-- A completion is normal, or the error of the body with no output (R210). -/
theorem complete_outcome {K : ErrorKind → Prop} {s : State} {r : Eff Engine} (hs : s.err = 0) (hr : EffRaises K r) :
    Completed (complete s r) ∨ ∃ k, FailedWith k (complete s r) ∧ K k := by
  cases hr with
  | ok e => exact .inl ⟨rfl, hs⟩
  | error hk => exact .inr ⟨_, ⟨rfl, rfl, rfl, rfl⟩, hk⟩

/-- Everything a started command can do (R73, R200, R210). -/
theorem exec_outcome (i : Instr) {s : State} (hbusy : s.runState ≠ .busy) :
    ∃ t, exec i s = .next t ∧ t.cmd = encode i ∧ HostSideKept s t ∧
      (Completed t ∨ ∃ k, FailedWith k t ∧ MayRaise i (inBlock s) k) := by
  by_cases hkind : i.kind = .rle
  · obtain ⟨t, heq, hfailed, _, hcmd, _, hhost⟩ := rejectCommand_effect (encode i) hbusy
    exact ⟨t, (exec_of_kind_rle hkind s).trans heq, hcmd, hhost, .inr ⟨_, hfailed, hkind⟩⟩
  · obtain ⟨body, hexec, hraises⟩ := exec_of_kind_ne_rle hkind s
    have hends : ∃ r, exec i s = .next (complete (commandStart (encode i) s) r) ∧
        EffRaises (MayRaise i (inBlock s)) r := by
      rcases runCommand_cases (encode i) body s with ⟨hb, _⟩ | ⟨_, _, heq⟩ | ⟨_, _, heq⟩
      · exact absurd hb hbusy
      · exact ⟨.error (.allocationFailure, s.eng.start), hexec.trans heq, .error hkind⟩
      · exact ⟨_, hexec.trans heq, hraises⟩
    obtain ⟨r, heq, hr⟩ := hends
    refine ⟨_, heq, ?_, hostSideKept_complete _ s r, complete_outcome rfl hr⟩
    cases r <;> rfl

theorem errorKind_code_ne_zero (k : ErrorKind) : k.code ≠ 0 := by cases k <;> decide

theorem errorKind_code_injective {k j : ErrorKind} (h : k.code = j.code) : k = j := by
  cases k <;> cases j <;> simp [ErrorKind.code] at h ⊢

/-- The value in `ERR` names an error that the command can end with (R201, R211). -/
theorem mayRaise_of_err {i : Instr} {s t : State} {k : ErrorKind} (hbusy : s.runState ≠ .busy)
    (h : exec i s = .next t) (herr : t.err = k.code) : MayRaise i (inBlock s) k := by
  obtain ⟨u, heq, _, _, houtcome⟩ := exec_outcome i hbusy
  cases heq.symm.trans h
  rcases houtcome with ⟨_, hzero⟩ | ⟨j, ⟨_, hj, _⟩, hmay⟩
  · exact absurd (herr.symm.trans hzero) (errorKind_code_ne_zero k)
  · rwa [errorKind_code_injective (herr.symm.trans hj)]

/-- Settles O7: the outcome, without which error it can be. -/
theorem everyCommandCompletes : Obligations.EveryCommandCompletes := by
  intro i s hbusy
  obtain ⟨t, heq, hcmd, hhost, houtcome⟩ := exec_outcome i hbusy
  exact ⟨t, heq, houtcome.imp_right fun ⟨k, hfailed, _⟩ => ⟨k, hfailed⟩, hcmd, hhost⟩

/-- Settles O9: of the commands that can end with `CorruptStream` each is a decoder. -/
theorem corruptStreamOnlyFromDecoders : Obligations.CorruptStreamOnlyFromDecoders :=
  ⟨rfl, fun _ _ _ hbusy h herr => mayRaise_of_err (k := .corruptStream) hbusy h herr⟩

-- The empty block

theorem inBlock_eq_nil_iff (s : State) : inBlock s = [] ↔ s.inLen = 0 := by
  rw [← List.length_eq_zero_iff, inBlock_length]
  exact ⟨fun h => BitVec.eq_of_toNat_eq h, fun h => by rw [h]; rfl⟩

/-- The LZW commands test for the empty block first (R202). -/
theorem exec_refuses_empty {i : Instr} {s : State} (hi : RefusesEmpty i) (hbusy : s.runState ≠ .busy)
    (hzero : s.inLen = 0) : ∃ t, exec i s = .next t ∧ FailedWith .emptyInput t := by
  have hready : Ready s := ⟨hbusy, by rw [hzero]; exact Nat.zero_le _⟩
  have hnil : inBlock s = [] := (inBlock_eq_nil_iff s).2 hzero
  have hrun : ∀ w body e, body [] s.eng.start = .error (.emptyInput, e) →
      ∃ t, runCommand w body s = .next t ∧ FailedWith .emptyInput t := by
    intro w body e herr
    rw [← hnil] at herr
    obtain ⟨t, heq, hfailed, _⟩ := runCommand_fails (w := w) hready herr
    exact ⟨t, heq, hfailed⟩
  rcases hi with rfl | rfl | rfl | rfl
  · exact hrun (encode .lzwC) _ _ (lzwCompress_nil s.caps.outCap _)
  · exact hrun (encode .lzwD) _ _ (lzwDecompress_empty (outByte s.caps.outCap) _)
  · exact hrun (encode .lzwpC) _ _ (lzwpCompress_nil s.caps.outCap _)
  · exact hrun (encode .lzwpD) (lzwpDecompress s.caps.outCap) _ (lzwDecompress_empty (undoByte s.caps.outCap) _)

/-- Settles O8: the outcome allows the error in no other case, and in this case the body raises it. -/
theorem emptyInputCauses : Obligations.EmptyInputCauses := by
  refine ⟨rfl, fun i s t hbusy h => ⟨fun herr => ?_, fun ⟨hzero, hi⟩ => ?_⟩⟩
  · obtain ⟨hnil, hi⟩ := mayRaise_of_err (k := .emptyInput) hbusy h herr
    exact ⟨(inBlock_eq_nil_iff s).1 hnil, hi⟩
  · obtain ⟨u, heq, _, herr, _⟩ := exec_refuses_empty hi hbusy hzero
    cases heq.symm.trans h
    exact herr

-- Checks before the body (R73 steps 3 and 4)

theorem kind_eq_rle_iff (i : Instr) : i.kind = .rle ↔ i = .rleC ∨ i = .rleD := by cases i <;> decide

/-- A block longer than `IN_BUF` (R204(a)). -/
theorem exec_of_oversize {i : Instr} {s : State} (hkind : i.kind ≠ .rle) (hbusy : s.runState ≠ .busy)
    (hsize : s.caps.inCap < s.inLen) :
    exec i s = .next (takeError .allocationFailure (commandStart (encode i) s)) := by
  obtain ⟨body, hexec, _⟩ := exec_of_kind_ne_rle hkind s
  rcases runCommand_cases (encode i) body s with ⟨hb, _⟩ | ⟨_, _, heq⟩ | ⟨_, hfits, _⟩
  · exact absurd hb hbusy
  · exact hexec.trans heq
  · exact absurd hsize (BitVec.not_lt.2 hfits)

/-- Settles O10: the reserved commands are rejected without a look at `IN_LEN`, all others end at its check. -/
theorem oversizeInputFailsFirst : Obligations.OversizeInputFailsFirst := by
  refine ⟨rfl, rfl, fun i s hbusy hsize => ?_⟩
  by_cases hkind : i.kind = .rle
  · obtain ⟨t, heq, hfailed, herr, _, heng, hhost⟩ := rejectCommand_effect (encode i) hbusy
    refine ⟨t, (exec_of_kind_rle hkind s).trans heq, heng, hhost, ?_⟩
    rw [if_pos ((kind_eq_rle_iff i).1 hkind)]
    exact ⟨hfailed, herr⟩
  · refine ⟨_, exec_of_oversize hkind hbusy hsize, rfl,
      hostSideKept_complete (encode i) s (.error (.allocationFailure, s.eng.start)), ?_⟩
    rw [if_neg (fun h => hkind ((kind_eq_rle_iff i).2 h))]
    exact ⟨⟨rfl, rfl, rfl, rfl⟩, rfl⟩

/-- A word without any cause of `IllegalCommand` is that of a command that is not reserved (R74, R75). -/
theorem decode_of_legal {w : BitVec 8}
    (h : ¬((fieldsOf w).rsv ≠ 0 ∨ 6 ≤ (fieldsOf w).kind ∨ (fieldsOf w).kind = 0)) :
    ∃ i, decode w = .ok i ∧ i.kind ≠ .rle := by
  obtain ⟨hrsv, hlarge, hzero⟩ : (fieldsOf w).rsv = 0 ∧ ¬6 ≤ (fieldsOf w).kind ∧ (fieldsOf w).kind ≠ 0 := by
    simpa only [not_or, not_not] using h
  rcases decode_cases w with ⟨hbad, _⟩ | ⟨_, hnone, _⟩ | ⟨_, k, hk, hdec⟩
  · exact absurd hrsv hbad
  · exact absurd ((kindOf_eq_none_iff _).1 hnone) hlarge
  · refine ⟨_, hdec, fun hrle => hzero ?_⟩
    rw [kind_instrOf] at hrle
    rw [kindOf_eq_some hk, hrle]
    rfl

/-- Settles O5: a word with one of the three causes is rejected; every other one runs a command that cannot end with
`IllegalCommand`. -/
theorem illegalCommandCauses : Obligations.IllegalCommandCauses := by
  intro s w rest hpending hbusy
  let s1 : State := { s with pending := rest }
  have hstep : step s = writeCmd w s1 := step_of_pending_cons s _ rest hpending
  rw [hstep]
  by_cases hcause : (fieldsOf w).rsv ≠ 0 ∨ 6 ≤ (fieldsOf w).kind ∨ (fieldsOf w).kind = 0
  · obtain ⟨t, heq, _, herr, _, heng, _⟩ := rejectCommand_effect w (s := s1) hbusy
    exact ⟨t, (writeCmd_eq_rejectCommand hcause s1).trans heq, iff_of_true herr hcause, fun _ => heng⟩
  · obtain ⟨i, hdec, hkind⟩ := decode_of_legal hcause
    obtain ⟨t, heq, _⟩ := exec_outcome i (s := s1) hbusy
    have hlegal : t.err ≠ 4 := fun herr => hkind (mayRaise_of_err (k := .illegalCommand) (s := s1) hbusy heq herr)
    exact ⟨t, (writeCmd_of_decode hdec s1).trans heq, iff_of_false hlegal hcause, fun herr => absurd herr hlegal⟩

/-- Settles O18: an empty queue leaves nothing to perform. -/
theorem idleEngineKeepsState : Obligations.IdleEngineKeepsState := step_of_pending_nil

end Sys2Proof.Machine
end

section
/-! The host contract (R219, R221, R222): the blocks of a split, and the manifest layout against its reading. -/

namespace Sys2Proof.Machine

-- Splitting (R219)

/-- The first `n` blocks are the first `n`·`chunk` bytes. -/
theorem flatten_blocks (chunk : Nat) (buffer : List Byte) (n : Nat) :
    ((List.range n).map fun i => (buffer.drop (i * chunk)).take chunk).flatten = buffer.take (n * chunk) := by
  induction n with
  | zero => rw [Nat.zero_mul]; rfl
  | succ n ih =>
    rw [List.range_succ, List.map_append, List.flatten_append, ih, Nat.add_mul, Nat.one_mul, List.take_add]
    simp only [List.map_cons, List.map_nil, List.flatten_cons, List.flatten_nil, List.append_nil]

theorem lt_blockCount_iff {chunk : Nat} (hchunk : 1 ≤ chunk) (len i : Nat) :
    i < (len + chunk - 1) / chunk ↔ i * chunk < len := by
  rw [Nat.lt_iff_add_one_le, Nat.le_div_iff_mul_le hchunk, Nat.add_mul, Nat.one_mul]
  omega

theorem splitBlocks_length (chunk : Nat) (buffer : List Byte) :
    (splitBlocks chunk buffer).length = (buffer.length + chunk - 1) / chunk := by
  rw [splitBlocks, List.length_map, List.length_range]

section
variable {chunk : Nat} (hchunk : 1 ≤ chunk)
include hchunk

theorem splitBlocks_flatten (buffer : List Byte) : (splitBlocks chunk buffer).flatten = buffer := by
  have hcover : buffer.length ≤ (buffer.length + chunk - 1) / chunk * chunk :=
    not_lt.1 fun h => lt_irrefl _ ((lt_blockCount_iff hchunk _ _).2 h)
  rw [splitBlocks, flatten_blocks, List.take_of_length_le hcover]

/-- A block and where it begins: it is full, or it ends the buffer. -/
theorem splitBlocks_getElem? {buffer b : List Byte} {n : Nat} (h : (splitBlocks chunk buffer)[n]? = some b) :
    n * chunk < buffer.length ∧ b.length = min chunk (buffer.length - n * chunk) := by
  have hn : n < (splitBlocks chunk buffer).length := (List.getElem?_eq_some_iff.1 h).1
  rw [splitBlocks_length, lt_blockCount_iff hchunk] at hn
  have hrange : (List.range ((buffer.length + chunk - 1) / chunk))[n]? = some n :=
    List.getElem?_range ((lt_blockCount_iff hchunk _ _).2 hn)
  rw [splitBlocks, List.getElem?_map, hrange, Option.map_some] at h
  cases h
  exact ⟨hn, by rw [List.length_take, List.length_drop]⟩

theorem splitBlocks_mem {buffer b : List Byte} (h : b ∈ splitBlocks chunk buffer) : b ≠ [] ∧ b.length ≤ chunk := by
  obtain ⟨n, hn⟩ := List.mem_iff_getElem?.1 h
  obtain ⟨hstart, hlength⟩ := splitBlocks_getElem? hchunk hn
  exact ⟨List.ne_nil_of_length_pos (by omega), by omega⟩

/-- A block with another one after it is full. -/
theorem splitBlocks_full {buffer b : List Byte} {n : Nat} (h : (splitBlocks chunk buffer)[n]? = some b)
    (hn : n + 1 < (splitBlocks chunk buffer).length) : b.length = chunk := by
  obtain ⟨_, hlength⟩ := splitBlocks_getElem? hchunk h
  rw [splitBlocks_length, lt_blockCount_iff hchunk, Nat.add_mul, Nat.one_mul] at hn
  omega

end

theorem except_bind_eq_ok {ε α β : Type} {x : Except ε α} {f : α → Except ε β} {b : β} (h : (x >>= f) = .ok b) :
    ∃ a, x = .ok a ∧ f a = .ok b := by
  cases x with
  | ok a => exact ⟨a, rfl, h⟩
  | error e => cases h

/-- One result for each block (R220). -/
theorem runBlocks_length {i : Instr} {bs : List (List Byte)} {s : State} {r : List (List Byte) × State}
    (h : runBlocks i bs s = .ok r) : r.1.length = bs.length := by
  induction bs generalizing s r with
  | nil => cases h; rfl
  | cons b bs ih =>
    obtain ⟨⟨block, s1⟩, _, h⟩ := except_bind_eq_ok h
    obtain ⟨⟨blocks, s2⟩, hrest, h⟩ := except_bind_eq_ok h
    cases h
    exact congrArg Nat.succ (ih hrest)

/-- A whole-buffer `compress` that ends packs one result for each block (R221). -/
theorem compressBuffer_eq_ok {k : CodecKind} {chunk : Nat} {buffer p : List Byte} {s t : State}
    (h : compressBuffer k chunk buffer s = .ok (p, t)) :
    ∃ rs, p = packManifest rs ∧ rs.length = (splitBlocks chunk buffer).length := by
  rcases compressBuffer_cases k chunk buffer s with ⟨_, heq⟩ | ⟨_, _, _, heq⟩ | ⟨_, _, _, heq⟩
  · cases heq.symm.trans h
  · cases heq.symm.trans h
  · obtain ⟨r, hrun, h⟩ := except_bind_eq_ok (heq.symm.trans h)
    cases h
    exact ⟨r.1, rfl, runBlocks_length hrun⟩

/-- Settles O59: the blocks begin at the multiples of `chunk` below the length of the buffer; `compress` looks at the
chunk size, then at the buffer, and then runs one command a block. -/
theorem splitIsExactPartition : Obligations.SplitIsExactPartition := by
  refine ⟨fun chunk buffer hchunk => ?_, fun k chunk buffer s => ⟨fun hbad => ?_, fun hchunk hfits => ⟨?_, ?_⟩⟩⟩
  · exact ⟨splitBlocks_flatten hchunk buffer, splitBlocks_length chunk buffer, fun _ => splitBlocks_mem hchunk,
      fun _ _ => splitBlocks_full hchunk⟩
  · exact if_pos hbad
  · rw [compressBuffer, if_neg (by omega), if_pos rfl]
  · intro p t h
    rw [← splitBlocks_length]
    exact compressBuffer_eq_ok h

-- The manifest's numbers (R221)

/-- The number that four bytes stand for, least significant first (R221). -/
def u32Value (a b c d : Byte) : Nat := a.toNat + 256 * b.toNat + 65536 * c.toNat + 16777216 * d.toNat

theorem u32Bytes_eq (n : Nat) : u32Bytes n = [BitVec.ofNat 8 (n / 256 ^ 0), BitVec.ofNat 8 (n / 256 ^ 1),
    BitVec.ofNat 8 (n / 256 ^ 2), BitVec.ofNat 8 (n / 256 ^ 3)] := rfl

theorem readU32_cons (a b c d : Byte) (rest : List Byte) :
    readU32 (a :: b :: c :: d :: rest) = some (u32Value a b c d, rest) := rfl

theorem u32Value_u32Bytes {n : Nat} (h : n < 2 ^ 32) :
    u32Value (BitVec.ofNat 8 (n / 256 ^ 0)) (BitVec.ofNat 8 (n / 256 ^ 1)) (BitVec.ofNat 8 (n / 256 ^ 2))
      (BitVec.ofNat 8 (n / 256 ^ 3)) = n := by
  simp only [u32Value, BitVec.toNat_ofNat]
  omega

theorem u32Bytes_u32Value (a b c d : Byte) : u32Bytes (u32Value a b c d) = [a, b, c, d] := by
  have ha := a.isLt
  have hb := b.isLt
  have hc := c.isLt
  have hdigit : ∀ i (x : Byte), u32Value a b c d / 256 ^ i % 2 ^ 8 = x.toNat →
      BitVec.ofNat 8 (u32Value a b c d / 256 ^ i) = x := fun i x hx =>
    BitVec.eq_of_toNat_eq ((BitVec.toNat_ofNat ..).trans hx)
  rw [u32Bytes_eq, hdigit 0 a (by unfold u32Value; omega), hdigit 1 b (by unfold u32Value; omega),
    hdigit 2 c (by unfold u32Value; omega), hdigit 3 d (by unfold u32Value; omega)]

theorem readU32_u32Bytes {n : Nat} (h : n < 2 ^ 32) (rest : List Byte) :
    readU32 (u32Bytes n ++ rest) = some (n, rest) :=
  congrArg (fun v => some (v, rest)) (u32Value_u32Bytes h)

/-- What is read as a number is the layout of the number. -/
theorem readU32_eq_some {p rest : List Byte} {n : Nat} (h : readU32 p = some (n, rest)) : p = u32Bytes n ++ rest := by
  match p with
  | a :: b :: c :: d :: q =>
    cases (readU32_cons a b c d q).symm.trans h
    rw [u32Bytes_u32Value]
    rfl
  | [] | [_] | [_, _] | [_, _, _] => cases h

theorem readU32s_u32Bytes {ns : List Nat} (h : ∀ n ∈ ns, n < 2 ^ 32) (rest : List Byte) :
    readU32s ns.length (ns.flatMap u32Bytes ++ rest) = some (ns, rest) := by
  induction ns with
  | nil => rfl
  | cons n ns ih =>
    obtain ⟨hn, hns⟩ := List.forall_mem_cons.1 h
    rw [List.flatMap_cons, List.append_assoc, List.length_cons, readU32s, readU32_u32Bytes hn]
    simp only [ih hns, Option.map_some]

theorem readU32s_eq_some {n : Nat} {p rest : List Byte} {ns : List Nat} (h : readU32s n p = some (ns, rest)) :
    p = ns.flatMap u32Bytes ++ rest ∧ ns.length = n := by
  induction n generalizing p ns with
  | zero => cases h; exact ⟨rfl, rfl⟩
  | succ n ih =>
    rw [readU32s] at h
    cases hv : readU32 p with
    | none => rw [hv] at h; cases h
    | some r =>
      obtain ⟨v, q⟩ := r
      rw [hv] at h
      obtain ⟨⟨ms, last⟩, hms, h⟩ := Option.map_eq_some_iff.1 h
      cases h
      obtain ⟨hq, hlength⟩ := ih hms
      exact ⟨by rw [readU32_eq_some hv, hq, List.flatMap_cons, List.append_assoc], congrArg Nat.succ hlength⟩

-- The manifest's blocks (R221, R222)

theorem slice_lengths_flatten (blocks : List (List Byte)) : slice (blocks.map List.length) blocks.flatten = blocks := by
  induction blocks with
  | nil => rfl
  | cons b bs ih =>
    rw [List.map_cons, slice, List.flatten_cons, List.take_left, List.drop_left, ih]

/-- Lengths that add up to the bytes cut them completely, each piece having its length. -/
theorem slice_exact {ns : List Nat} {p : List Byte} (h : ns.sum = p.length) :
    (slice ns p).flatten = p ∧ (slice ns p).map List.length = ns := by
  induction ns generalizing p with
  | nil => exact ⟨(List.eq_nil_of_length_eq_zero h.symm).symm, rfl⟩
  | cons n ns ih =>
    rw [List.sum_cons] at h
    obtain ⟨hflat, hlengths⟩ := ih (p := p.drop n) (by rw [List.length_drop]; omega)
    rw [slice, List.flatten_cons, List.map_cons, hflat, hlengths, List.take_append_drop, List.length_take,
      Nat.min_eq_left (by omega)]
    exact ⟨rfl, rfl⟩

theorem packManifest_eq (blocks : List (List Byte)) :
    packManifest blocks =
      u32Bytes blocks.length ++ ((blocks.map List.length).flatMap u32Bytes ++ blocks.flatten) := by
  rw [packManifest, List.append_assoc, List.flatMap_map]

theorem flatMap_u32Bytes_length (ns : List Nat) : (ns.flatMap u32Bytes).length = 4 * ns.length := by
  induction ns with
  | nil => rfl
  | cons n ns ih =>
    have hn : (u32Bytes n).length = 4 := rfl
    rw [List.flatMap_cons, List.length_append, ih, hn, List.length_cons]
    omega

theorem packManifest_length (blocks : List (List Byte)) :
    (packManifest blocks).length = 4 + 4 * blocks.length + (blocks.map List.length).sum := by
  rw [packManifest_eq, List.length_append, List.length_append, flatMap_u32Bytes_length, List.length_map,
    List.length_flatten, ← Nat.add_assoc]
  rfl

/-- Everything a manifest can be read as (R222). -/
theorem unpackManifest_cases (p : List Byte) :
    unpackManifest p = .error .corruptStream ∨
    ∃ n rest lens body, readU32 p = some (n, rest) ∧ readU32s n rest = some (lens, body) ∧
      lens.sum = body.length ∧ unpackManifest p = .ok (slice lens body) := by
  cases hn : readU32 p with
  | none => exact .inl (by rw [unpackManifest, hn])
  | some r =>
    obtain ⟨n, rest⟩ := r
    cases hlens : readU32s n rest with
    | none => exact .inl (by simp only [unpackManifest, hn, hlens])
    | some q =>
      obtain ⟨lens, body⟩ := q
      by_cases hsum : lens.sum = body.length
      · exact .inr ⟨n, rest, lens, body, rfl, hlens, hsum, by simp only [unpackManifest, hn, hlens, if_pos hsum]⟩
      · exact .inl (by simp only [unpackManifest, hn, hlens, if_neg hsum])

theorem unpackManifest_packManifest {blocks : List (List Byte)} (hcount : blocks.length < 2 ^ 32)
    (hlengths : ∀ b ∈ blocks, b.length < 2 ^ 32) : unpackManifest (packManifest blocks) = .ok blocks := by
  have hheader := readU32s_u32Bytes (ns := blocks.map List.length) (List.forall_mem_map.2 hlengths) blocks.flatten
  rw [List.length_map] at hheader
  have hcover : (blocks.map List.length).sum = blocks.flatten.length := List.length_flatten.symm
  simp only [unpackManifest, packManifest_eq, readU32_u32Bytes hcount, hheader, if_pos hcover, slice_lengths_flatten]

/-- What is accepted is the layout of the blocks answered. -/
theorem packManifest_of_unpackManifest {p : List Byte} {blocks : List (List Byte)}
    (h : unpackManifest p = .ok blocks) : packManifest blocks = p := by
  rcases unpackManifest_cases p with herr | ⟨n, rest, lens, body, hn, hlens, hsum, heq⟩
  · cases herr.symm.trans h
  · cases heq.symm.trans h
    obtain ⟨hrest, hcount⟩ := readU32s_eq_some hlens
    obtain ⟨hflat, hlengths⟩ := slice_exact hsum
    have hblocks : (slice lens body).length = n := by rw [← hcount, ← List.length_map, hlengths]
    rw [packManifest_eq, hflat, hlengths, hblocks, ← hrest, ← readU32_eq_some hn]

/-- Settles O60: the layout and its reading undo each other, number by number and then block by block. -/
theorem manifestRoundTrip : Obligations.ManifestRoundTrip := by
  refine ⟨fun blocks hcount hlengths => ⟨unpackManifest_packManifest hcount hlengths, packManifest_length blocks⟩,
    fun p blocks h => ?_, fun p k h => ?_⟩
  · have hpack := packManifest_of_unpackManifest h
    exact ⟨hpack, by rw [← packManifest_length, hpack]⟩
  · rcases unpackManifest_cases p with herr | ⟨_, _, _, _, _, _, _, heq⟩
    · cases herr.symm.trans h
      rfl
    · cases heq.symm.trans h

end Sys2Proof.Machine
end

section
/-! Hardware reset and command start (R240, R241): the values each gives, and the invariant at reset. -/

namespace Sys2Proof.Machine

/-- `HIST` has an entry for every byte (R35), so the value a read outside the array would give is never seen. -/
theorem hist_start (e : Engine) (b : Byte) (d : Reg32) : arrayGet e.start.hist b.toNat d = 0 :=
  arrayGet_replicate b.toNat 0 d b.isLt

theorem dictFull_start (e : Engine) : dictFull e.start = false := rfl

/-- After hardware reset, command start has nothing to initialise: R240 and R241 give the same start values. -/
theorem engineReset_start : Engine.reset.start = Engine.reset := rfl

/-- Both fields of `STATUS` read 0 (R22). -/
theorem statusReg_of_idle {s : State} (hidle : s.runState = .idle) (hfull : dictFull s.eng = false) :
    statusReg s = 0x00 := by
  rw [statusReg, hidle, hfull]
  rfl

theorem hostSideKept_commandStart (w : BitVec 8) (s : State) : HostSideKept s (commandStart w s) :=
  ⟨rfl, fun _ => rfl, rfl, rfl, rfl, rfl, rfl, rfl⟩

/-- The next access being the hardware reset, `STATE` is not looked at (R240). -/
theorem step_of_pending_hardwareReset {s : State} {rest : List HostAccess} (h : s.pending = .hardwareReset :: rest) :
    step s = .next (hardwareReset { s with pending := rest }) :=
  step_of_pending_cons s _ rest h

/-- Settles O14: the state after the access and `State.reset` differ in the capacities and the host's side only, of
which no reset value speaks; `HIST` and `DICT_FULL` are those of command start. -/
theorem hardwareResetValues : Obligations.HardwareResetValues := by
  intro s rest hpending
  refine ⟨_, step_of_pending_hardwareReset hpending, fun r hr => ?_⟩
  have hblock : ∃ c q v n f, r =
      { State.reset with caps := c, pending := q, rdata := v, resets := n, freeReads := f } := by
    rcases hr with rfl | rfl
    · exact ⟨_, _, _, _, _, hardwareReset_eq _⟩
    · exact ⟨_, _, _, _, _, rfl⟩
  obtain ⟨c, q, v, n, f, rfl⟩ := hblock
  have hhist : ∀ b : Byte, arrayGet Engine.reset.hist b.toNat 1 = 0 := fun b =>
    engineReset_start ▸ hist_start Engine.reset b 1
  have hfull : dictFull Engine.reset = false := engineReset_start ▸ dictFull_start Engine.reset
  exact ⟨rfl, statusReg_of_idle rfl hfull, rfl, hfull, rfl, rfl, rfl, rfl, rfl, rfl, rfl, rfl, rfl, hhist, rfl,
    fun a => ⟨memory_read_nil a, memory_read_nil a⟩⟩

/-- Settles O15: the word goes to `CMD` only; the codec state is that of `Engine.start`, whatever it was before. -/
theorem commandStartValues : Obligations.CommandStartValues := by
  intro w s
  exact ⟨rfl, rfl, rfl, rfl, rfl, rfl, rfl, rfl, dictFull_start s.eng, rfl, fun b => hist_start s.eng b 1, rfl, rfl,
    hostSideKept_commandStart w s⟩

/-- Settles O16: the engine's clauses are those of `engineSound_reset`; both buffers are empty and `ERR` is 0. -/
theorem invariantAtReset : Obligations.InvariantAtReset := by
  obtain ⟨hout, hacc, hdict, harena⟩ := engineSound_reset State.reset.caps.outCap
  exact
    { notBusy := by decide
      errIffError := by decide
      errLegal := by decide
      outputOnlyWhenDone := fun _ => rfl
      output := hout
      inputCanonical := memory_wf_nil
      inputInRange := fun _ hc => nomatch hc
      accumulator := hacc
      dictionary := hdict
      arena := harena
      capacities := ⟨rfl, rfl⟩ }

end Sys2Proof.Machine
end
